-- ==== Sys2Proof/Word.lean ====
section
/-! DEFINITION. Word types: the byte, the pixel, and the one cell of memory's key (spec/00_scope.md R9). -/

namespace Sys2Proof

/-- One byte of a register, a memory cell or the data bus (R9: bit 0 is the least significant). -/
abbrev Byte := BitVec 8

/-- An index of one of the 64 control registers (R7 `REG_INDEX_BITS` = 6). -/
abbrev RegIndex := BitVec 6

/-- An index of a status register (R24: at most 256 of them). -/
abbrev StatusIndex := BitVec 8

/-- A pixel of `PIXEL_BITS` bits (R40), kept below `2 ^ PIXEL_BITS` by the operation that makes it. -/
abbrev Pixel := Nat

end Sys2Proof
end

