-- ==== Sys2Proof/Config.lean ====
section
/-! DEFINITION. Configuration: the parameters of spec/00_scope.md R7 and R8 as plain data, and the open values
of the machine (the collaborators of R11 and every `draw`) as constants without a body.
No definition of the model fixes a parameter: each reads it from the configuration that the state holds
(notes/assumptions/1.md). -/

namespace Sys2Proof

/-! ## Constants the source fixes (R7) -/

/-- `N_ORIG_REGS`: registers 0 to 7 are the original chip's, 8 to 63 the extended ones (R7, spec/10_state.md R23). -/
def nOrigRegs : Nat := 8
/-- `FW_PREAMBLE_BYTES`. -/
def fwPreambleBytes : Nat := 32
/-- `FW_PAYLOAD_BYTES`. -/
def fwPayloadBytes : Nat := 256
/-- `FW_TRAILER_BYTES`. -/
def fwTrailerBytes : Nat := 4
/-- A whole firmware block: 32 + 256 + 4 bytes (R100). -/
def fwBlockBytes : Nat := 292
/-- `FW_WINDOW_BYTES`. -/
def fwWindowBytes : Nat := 262144
/-- `KB_HINT_BYTES`. -/
def kbHintBytes : Nat := 4
/-- `KB_ID_BYTES`. -/
def kbIdBytes : Nat := 16

/-- `SIG_LAYOUT` (R8, R106): the offsets of the bulk-transfer fields inside the signalling window. -/
structure SigLayout where
  src : Nat
  dst : Nat
  width : Nat
  height : Nat
  stride : Nat
  dirflags : Nat
  pending : Nat
  deriving DecidableEq, Repr, Inhabited

/-- `PAL_SIZE_SEL` (R8), a function from the control registers to 16 or 64, as plain data: the tests of single
registers by which it is decided. Every such function has this form (notes/assumptions/33.md). -/
inductive PalSizeSel where
  | size16
  | size64
  /-- Register `i` under `mask` is `value`, or is not. -/
  | test (i : RegIndex) (mask value : Byte) (same other : PalSizeSel)
  deriving DecidableEq, Repr, Inhabited

/-- The parameters of R8, one field each, under the spec's names in camel case.
`VRAM_SIZE` and `ERASE_PAGE` are powers of two, so they are given by their logarithms. -/
structure Config where
  /-- `VRAM_SIZE = 2 ^ vramBits` (R27, D1). -/
  vramBits : Nat
  /-- `N_STATUS` (R24). -/
  nStatus : Nat
  /-- `ST_INT`, interrupt pending (R25). -/
  stInt : Byte
  /-- `ST_5S`, 5th sprite (R25). -/
  st5S : Byte
  /-- `ST_COL`, collision (R25). -/
  stCol : Byte
  /-- `ST_IDX`, sprite index (R25). -/
  stIdx : Byte
  /-- `ST_IDX_NONE` (R126). -/
  stIdxNone : Byte
  /-- `SR0_READ_RESETS_INDEX` (R126). -/
  sr0ReadResetsIndex : Bool
  /-- `CLR_MASK[s]` for `s ≠ 0`; a register without an entry has mask 0 (R125). -/
  clrMaskExt : List (StatusIndex × Byte)
  ieReg : RegIndex
  ieMask : Byte
  sselReg : RegIndex
  sselMask : Byte
  lockedIndexMask : RegIndex
  unlockReg : RegIndex
  unlockValue : Byte
  unlockCount : Nat
  /-- `RESET_REG`, `RESET_MASK`, or none (R151: a configuration may have no reset command). -/
  resetCmd : Option (RegIndex × Byte)
  /-- `READ_RESETS_STAGE` (R124, R127). -/
  readResetsStage : Bool
  palDirtyRegs : List RegIndex
  cfgDirtyRegs : List RegIndex
  coprocTrigReg : RegIndex
  coprocTrigMask : Byte
  coprocFrameReg : RegIndex
  coprocFrameMask : Byte
  flashTrigReg : RegIndex
  flashGoMask : Byte
  flashModeMask : Byte
  flashReadMask : Byte
  bgReg : RegIndex
  bgMask : Byte
  linesPerFrame : Nat
  displayFirst : Nat
  borderTop : Nat
  activeLines : Nat
  borderBottom : Nat
  linePixels : Nat
  pixelBits : Nat
  paletteBase : Nat
  paletteEntryBytes : Nat
  /-- `PAL_SIZE_SEL` (spec/42_video_pipeline.md R168). -/
  palSizeSel : PalSizeSel
  /-- `SCANLINE_EFFECT` (R171). -/
  scanlineEffect : Bool
  srScanline : StatusIndex
  srBlank : StatusIndex
  blankMask : Byte
  srBusy : StatusIndex
  coprocBusyMask : Byte
  flashingMask : Byte
  srTemp : StatusIndex
  srFlash : StatusIndex
  sigBase : Nat
  sigBytes : Nat
  sigLayout : SigLayout
  coprocPcBits : Nat
  /-- `COPROC_PC_LOAD = (hiReg, loReg)`, or none (R149, D38). -/
  coprocPcLoad : Option (RegIndex × RegIndex)
  stageBase : Nat
  fwMagic0 : BitVec 32
  fwMagic1 : BitVec 32
  fwMagicEnd : BitVec 32
  fwFlags : BitVec 32
  fwFamily : BitVec 32
  fwWindowBase : Nat
  /-- `ERASE_PAGE = 2 ^ erasePageBits` (R70). -/
  erasePageBits : Nat
  kbBase : Nat
  kbSlotCount : Nat
  kbPayloadBytes : Nat
  maxRetries : Nat
  /-- `STORAGE_EXACT` (R71, R216). -/
  storageExact : Bool
  deriving DecidableEq, Repr, Inhabited

/-- The default `SIG_LAYOUT` of R106. -/
def SigLayout.standard : SigLayout :=
  { src := 0, dst := 2, width := 4, height := 5, stride := 6, dirflags := 7, pending := 8 }

/-- Test configuration T0 of spec/95_test_vectors.md section 0: every default of R8 and the example values
given there for the OPEN parameters. It is an example instantiation, not a decision of the spec; the model
uses it in `State.reset` only (notes/assumptions/1.md, DESIGN CHOICE, unsafe). -/
def Config.t0 : Config where
  vramBits := 14
  nStatus := 16
  stInt := 0x80
  st5S := 0x40
  stCol := 0x20
  stIdx := 0x1F
  stIdxNone := 0x1F
  sr0ReadResetsIndex := false
  clrMaskExt := []
  ieReg := 1
  ieMask := 0x20
  sselReg := 15
  sselMask := 0x0F
  lockedIndexMask := 0x07
  unlockReg := 57
  unlockValue := 0x1C
  unlockCount := 2
  resetCmd := none
  readResetsStage := false
  palDirtyRegs := [47]
  cfgDirtyRegs := [58]
  coprocTrigReg := 56
  coprocTrigMask := 0x01
  coprocFrameReg := 50
  coprocFrameMask := 0x01
  flashTrigReg := 63
  flashGoMask := 0x80
  flashModeMask := 0x01
  flashReadMask := 0x02
  bgReg := 7
  bgMask := 0x0F
  linesPerFrame := 262
  displayFirst := 16
  borderTop := 24
  activeLines := 192
  borderBottom := 24
  linePixels := 4
  pixelBits := 16
  paletteBase := 0x3F00
  paletteEntryBytes := 2
  palSizeSel := .size16
  scanlineEffect := false
  srScanline := 3
  srBlank := 1
  blankMask := 0x01
  srBusy := 2
  coprocBusyMask := 0x80
  flashingMask := 0x40
  srTemp := 13
  srFlash := 12
  sigBase := 0x3E00
  sigBytes := 16
  sigLayout := SigLayout.standard
  coprocPcBits := 16
  coprocPcLoad := none
  stageBase := 0x3000
  fwMagic0 := 0x0A324655
  fwMagic1 := 0x9E5D5157
  fwMagicEnd := 0x0AB16F30
  fwFlags := 0x00002000
  fwFamily := 0xE48BFF56
  fwWindowBase := 0x00010000
  erasePageBits := 12
  kbBase := 0x00080000
  kbSlotCount := 32
  kbPayloadBytes := 240
  maxRetries := 3
  storageExact := true

/-! ## Collaborators (R11): deterministic functions the spec leaves outside -/

/-- What the scanline generator reads next (R163: it reads `registers` and `videoMemory` byte by byte). -/
inductive ReadTarget where
  | register (i : RegIndex)
  | vram (a : Nat)
  deriving DecidableEq, Repr, Inhabited

/-- `sprFlags = (orMask, idxOpt)` of R176. -/
structure SpriteFlags where
  orMask : Byte
  idxOpt : Option Byte
  deriving DecidableEq, Repr, Inhabited

/-- The collaborator functions of R11. `ScanlineGen` is given as the sequence of
single-byte reads it makes for a display row, each chosen from the answers so far, and its result from all
answers; every function of the registers and of video memory has that form (notes/assumptions/6.md). -/
structure Collaborators where
  /-- How many bytes `ScanlineGen` reads for a display row. -/
  scanReads : (row : Nat) → Nat
  /-- Its next read, from the answers so far (oldest first). -/
  scanNext : (row : Nat) → (answers : List Byte) → ReadTarget
  /-- The colour index of pixel `p`, from all answers. -/
  scanIndex : (row : Nat) → (answers : List Byte) → (p : Nat) → Nat
  /-- The sprite flags, from all answers. -/
  scanFlags : (row : Nat) → (answers : List Byte) → SpriteFlags
  /-- `OverlayRegion(y)` (R165). -/
  overlayRegion : (y : Nat) → Bool
  /-- Pixel `p` of `Overlay(y, row)` (R165). -/
  overlayPixel : (y : Nat) → (row : List Pixel) → (p : Nat) → Pixel
  /-- `PaletteExpand(entry bytes)` (R168). -/
  paletteExpand : (entry : List Byte) → Pixel
  /-- `Darken(pixel)` (R171). -/
  darken : Pixel → Pixel

opaque Config.scanReads : Nat → Nat
opaque Config.scanNext : Nat → List Byte → ReadTarget
opaque Config.scanIndex : Nat → List Byte → Nat → Nat
opaque Config.scanFlags : Nat → List Byte → SpriteFlags
opaque Config.overlayRegion : Nat → Bool
opaque Config.overlayPixel : Nat → List Pixel → Nat → Pixel
opaque Config.paletteExpand : List Byte → Pixel
opaque Config.darken : Pixel → Pixel

/-- The machine's collaborators: nothing is known of them but their types. -/
def Config.collab : Collaborators where
  scanReads := Config.scanReads
  scanNext := Config.scanNext
  scanIndex := Config.scanIndex
  scanFlags := Config.scanFlags
  overlayRegion := Config.overlayRegion
  overlayPixel := Config.overlayPixel
  paletteExpand := Config.paletteExpand
  darken := Config.darken

/-! ## Free values (R10 `draw`), indexed by the state's draw counter (notes/assumptions/10.md) -/

/-- `TempSample()` (R179, U15). -/
opaque Config.tempSample : (draw : Nat) → Byte

/-- What a storage byte holds after a program step that does not define it (R71, U5, U6), from the draw, the
storage address, the byte before and the byte asked for. -/
opaque Config.programmedByte : (draw a : Nat) → (old new : Byte) → Byte

/-- Which of `pages` erase pages was being written when a reset command cut a storage primitive off
(spec/93_implementation_defined.md U20). -/
opaque Config.tornPage : (draw pages : Nat) → Nat

/-- What a byte of that page then holds (U20). -/
opaque Config.tornByte : (draw a : Nat) → Byte

/-- A pixel no rule defines (R48 `lineBuf`, `paletteLUT` after reset; R169, U9), by place. -/
opaque Config.freePixel : (draw place : Nat) → Pixel

/-- What `ConfigApply` writes at reset (R284): control registers and video memory only, in this order. -/
structure ConfigPage where
  regWrites : List (RegIndex × Byte)
  vramWrites : List (Nat × Byte)
  deriving DecidableEq, Repr, Inhabited

/-- The page that `ConfigSave` leaves for the next `ConfigApply` (R180; the spec gives neither its form nor
its content), from the draw and what was saved; none where it holds no valid data. -/
opaque Config.savedPage : (draw : Nat) → (registers : Vector Byte 64) → (vram : List (Nat × Byte)) → Option ConfigPage

end Sys2Proof
end

