-- ==== Sys2Proof/Syntax.lean ====
section
/-! DEFINITION. The operations of spec/opcode_table.json, one constructor per row (27 rows), and the trace lines
that stand for them (spec/30_encoding.md). -/

namespace Sys2Proof

/-- One operation of the core: a host cycle, a completed pair, a trigger or service, an internal event, or a
pseudo-operation of the trace syntax. -/
inductive Instr where
  -- format C, bus cycles (R91)
  /-- `WD`: write-data-cycle (R123). -/
  | wd (b : Byte)
  /-- `WA.first`: first byte of a pair (R128). -/
  | waFirst (b : Byte)
  /-- `WA.second`: second byte of a pair (R129). -/
  | waSecond (b : Byte)
  /-- `RD`: read-data-cycle (R127). -/
  | rd
  /-- `RS`: read-status-cycle (R124). -/
  | rs
  -- format P, completed pairs (R93)
  /-- `SETADDR.R` (R130). -/
  | setaddrR (addr : BitVec 14)
  /-- `SETADDR.W` (R130). -/
  | setaddrW (addr : BitVec 14)
  /-- `REGWRITE` (R140). -/
  | regwrite (idx : RegIndex) (val : Byte)
  -- format T, trigger values (R98)
  /-- `FLASH_TRIGGER` (R150), with the whole trigger value. -/
  | flashTrigger (value : Byte)
  /-- `FLASH_FW` (R217): one flash service in firmware mode. -/
  | flashFw
  /-- `FLASH_KREAD` (R232): one flash service, keyed read. -/
  | flashKread
  /-- `FLASH_KWRITE` (R233): one flash service, keyed write. -/
  | flashKwrite
  -- format E, internal events (R111)
  /-- `COPROC_TRIGGER` (R191). -/
  | coprocTrigger
  /-- `RESET` (R280). -/
  | reset
  /-- `LINE` (R162). -/
  | line
  /-- `FRAME_END` (R177). -/
  | frameEnd
  /-- `COPROC_RUN` (R193). -/
  | coprocRun
  /-- `BULK_XFER` (R201). -/
  | bulkXfer
  /-- `PALETTE_REBUILD` (R168). -/
  | paletteRebuild
  /-- `PROT_FAULT` (R258). -/
  | protFault
  -- pseudo-operations (R97)
  /-- `SETREG r, v`. -/
  | setreg (r : RegIndex) (v : Byte)
  /-- `SETRADDR a`. -/
  | setraddr (a : BitVec 14)
  /-- `SETWADDR a`. -/
  | setwaddr (a : BitVec 14)
  /-- `SELSTATUS s`. -/
  | selstatus (s : Byte)
  /-- `UNLOCK`. -/
  | unlock
  /-- `FILL a, b0..bn`. -/
  | fill (a : BitVec 14) (bytes : List Byte)
  /-- `DUMP a, n`. -/
  | dump (a : BitVec 14) (n : Nat)
  deriving DecidableEq, Repr

/-- The names of the pseudo-operations of the trace syntax (R97). -/
inductive PseudoName where
  | setreg | setraddr | setwaddr | selstatus | unlock | fill | dump
  deriving DecidableEq, Repr

/-- One line of a trace, in one of the formats of spec/30_encoding.md. The format is fixed by who issues the
line, not by its bits: a `cycle` by the host, a `pair` as two address-mode writes of the host, a `trigger` by a
register write, a `service` by the flash agent from the captured trigger value, an `event` by an agent of R111,
a `pseudo` line by the trace's author. -/
inductive TraceLine where
  /-- Format C: a cycle word (R90). -/
  | cycle (w : BitVec 10)
  /-- Format P: a pair word (R92). -/
  | pair (w : BitVec 16)
  /-- Format T as the register write sees it: a `FLASH_TRIGGER` value (R98, R150). -/
  | trigger (w : Byte)
  /-- Format T as the flash agent sees it: the service a trigger value selects (R98, R213). -/
  | service (w : Byte)
  /-- Format E: an event number (R111). -/
  | event (w : BitVec 4)
  /-- A pseudo-operation with its operands as written (R97). -/
  | pseudo (name : PseudoName) (operands : List Nat)
  deriving DecidableEq, Repr

/-- Why a trace line is no operation of the table. -/
inductive DecodeError where
  /-- Event numbers 12 to 15 (R111 names 0 to 11). -/
  | noSuchEvent
  /-- A trigger value whose `GO` bit is clear: "plain store, no trigger" (R98). -/
  | noTrigger
  /-- A pseudo-operation with a missing, extra or out-of-range operand (R97). -/
  | badOperands
  /-- A table word of a width no format has. -/
  | noSuchWidth
  deriving DecidableEq, Repr

end Sys2Proof
end

