-- ==== Sys2Proof/WellFormed.lean ====
section
/-! DEFINITION. Which terms of `Instr` are operations: the checks the operand types do not already make. -/

namespace Sys2Proof

/-- `FLASH_TRIGGER` has a value with the `GO` bit, bit 7, set (R98: otherwise it is a plain store), and `FILL`
has at least one byte (R97: `b0..bn`). Every other term is an operation: register indices, addresses and bytes
are as wide as their encoding (R94), and "no cycle is ever rejected" (R13). -/
def Instr.wellFormed : Instr → Bool
  | .flashTrigger value => value.getLsbD 7
  | .fill _ bytes => !bytes.isEmpty
  | _ => true

end Sys2Proof
end

