-- ==== Sys2Proof/Decode.lean ====
section
/-! DEFINITION. Decoding and encoding of trace lines: the formats C, P, T and E of spec/30_encoding.md and the
pseudo-operations of its R97. Decoding is total and rejects by name. -/

namespace Sys2Proof

/-- What of the state decides how a line decodes: `writeStage` cuts WA cycles into pairs (R96), and the value
last written to `FLASH_TRIG_REG` is the operand of event 6 (R111, notes/assumptions/4.md). -/
structure DecodeCtx where
  writeStage : BitVec 1
  trigValue : Byte
  deriving DecidableEq, Repr

/-- The context right after reset (spec/10_state.md R48). -/
def DecodeCtx.atReset : DecodeCtx := { writeStage := 0, trigValue := 0 }

/-! ## Cycle words -/

/-- `WD b` as a cycle word, `0x000 | b` (R97). -/
def wdWord (b : Byte) : BitVec 10 := 0#2 ++ b
/-- `WA b` as a cycle word, `0x100 | b` (R97). -/
def waWord (b : Byte) : BitVec 10 := 1#2 ++ b
/-- `RD` as a cycle word, `0x200` (R97). -/
def rdWord : BitVec 10 := 0x200
/-- `RS` as a cycle word, `0x300` (R97). -/
def rsWord : BitVec 10 := 0x300

/-! ## Decoding -/

/-- Format C (R91): bit 9 is the direction, bit 8 the mode line; the data bits of a read cycle are ignored. -/
def decodeCycle (writeStage : BitVec 1) (w : BitVec 10) : Instr :=
  let b := w.extractLsb' 0 8
  match w.getLsbD 9, w.getLsbD 8 with
  | false, false => .wd b
  | false, true => if writeStage = 0 then .waFirst b else .waSecond b
  | true, false => .rd
  | true, true => .rs

/-- Format P (R93): bit 15 selects the register form; bit 14 is the address form's mode and is ignored in the
register form (R95). -/
def decodePair (p : BitVec 16) : Instr :=
  if p.getLsbD 15 then .regwrite (p.extractLsb' 8 6) (p.extractLsb' 0 8)
  else if p.getLsbD 14 then .setaddrW (p.extractLsb' 0 14)
  else .setaddrR (p.extractLsb' 0 14)

/-- Format T on the bus side (R98): the value written to the trigger register. -/
def decodeTrigger (value : Byte) : Except DecodeError Instr :=
  if value.getLsbD 7 then .ok (.flashTrigger value) else .error .noTrigger

/-- Format T on the service side (R98): bit 0 is the mode, bit 1 the keyed direction, ignored in firmware mode. -/
def decodeService (value : Byte) : Except DecodeError Instr :=
  if value.getLsbD 7 then
    if value.getLsbD 0 then
      if value.getLsbD 1 then .ok .flashKread else .ok .flashKwrite
    else .ok .flashFw
  else .error .noTrigger

/-- Format E (R111). -/
def decodeEvent (trigValue : Byte) (n : BitVec 4) : Except DecodeError Instr :=
  match n.toNat with
  | 0 => .ok .reset
  | 1 => .ok .line
  | 2 => .ok .frameEnd
  | 3 => .ok .coprocTrigger
  | 4 => .ok .coprocRun
  | 5 => .ok .bulkXfer
  | 6 => decodeTrigger trigValue
  | 7 => .ok .flashFw
  | 8 => .ok .flashKread
  | 9 => .ok .flashKwrite
  | 10 => .ok .paletteRebuild
  | 11 => .ok .protFault
  | _ => .error .noSuchEvent

/-- Every operand of a run of bytes as a byte, or none where one is out of range. -/
def bytesOf : List Nat → Option (List Byte)
  | [] => some []
  | v :: vs => if v < 256 then (bytesOf vs).map (BitVec.ofNat 8 v :: ·) else none

/-- The pseudo-operations (R97): register indices 0..63, bytes, 14-bit addresses. Whether a first byte is pending is
not looked at (notes/assumptions/31.md, DESIGN CHOICE). -/
def decodePseudo (name : PseudoName) (operands : List Nat) : Except DecodeError Instr :=
  match name, operands with
  | .setreg, [r, v] => if r < 64 ∧ v < 256 then .ok (.setreg (.ofNat 6 r) (.ofNat 8 v)) else .error .badOperands
  | .setraddr, [a] => if a < 2 ^ 14 then .ok (.setraddr (.ofNat 14 a)) else .error .badOperands
  | .setwaddr, [a] => if a < 2 ^ 14 then .ok (.setwaddr (.ofNat 14 a)) else .error .badOperands
  | .selstatus, [s] => if s < 256 then .ok (.selstatus (.ofNat 8 s)) else .error .badOperands
  | .unlock, [] => .ok .unlock
  | .fill, a :: b :: bs =>
    match bytesOf (b :: bs) with
    | some bytes => if a < 2 ^ 14 then .ok (.fill (.ofNat 14 a) bytes) else .error .badOperands
    | none => .error .badOperands
  | .dump, [a, n] => if a < 2 ^ 14 then .ok (.dump (.ofNat 14 a) n) else .error .badOperands
  | _, _ => .error .badOperands

/-- The operation a trace line stands for (R112). -/
def decode (ctx : DecodeCtx) : TraceLine → Except DecodeError Instr
  | .cycle w => .ok (decodeCycle ctx.writeStage w)
  | .pair p => .ok (decodePair p)
  | .trigger v => decodeTrigger v
  | .service v => decodeService v
  | .event n => decodeEvent ctx.trigValue n
  | .pseudo name operands => decodePseudo name operands

/-! ## Encoding -/

/-- The trace line of an operation: ignored bits are written as 0 (R90, R95, R98). -/
def encode : Instr → TraceLine
  | .wd b => .cycle (wdWord b)
  | .waFirst b => .cycle (waWord b)
  | .waSecond b => .cycle (waWord b)
  | .rd => .cycle rdWord
  | .rs => .cycle rsWord
  | .setaddrR addr => .pair (0b00#2 ++ addr)
  | .setaddrW addr => .pair (0b01#2 ++ addr)
  | .regwrite idx val => .pair (0b10#2 ++ idx ++ val)
  | .flashTrigger value => .trigger value
  | .flashFw => .service 0x80
  | .flashKread => .service 0x83
  | .flashKwrite => .service 0x81
  | .reset => .event 0
  | .line => .event 1
  | .frameEnd => .event 2
  | .coprocTrigger => .event 3
  | .coprocRun => .event 4
  | .bulkXfer => .event 5
  | .paletteRebuild => .event 10
  | .protFault => .event 11
  | .setreg r v => .pseudo .setreg [r.toNat, v.toNat]
  | .setraddr a => .pseudo .setraddr [a.toNat]
  | .setwaddr a => .pseudo .setwaddr [a.toNat]
  | .selstatus s => .pseudo .selstatus [s.toNat]
  | .unlock => .pseudo .unlock []
  | .fill a bytes => .pseudo .fill (a.toNat :: bytes.map BitVec.toNat)
  | .dump a n => .pseudo .dump [a.toNat, n]

/-- A context in which an operation's line decodes to it: `WA.second` needs a pending first byte (R96). -/
def encodeCtx : Instr → DecodeCtx
  | .waSecond _ => { DecodeCtx.atReset with writeStage := 1 }
  | _ => DecodeCtx.atReset

/-! ## Expansion of the pseudo-operations (R97) -/

/-- `SETREG r, v`: `WA v ; WA (0x80 | r)`. -/
def setregWords (r : RegIndex) (v : Byte) : List (BitVec 10) := [waWord v, waWord (0b10#2 ++ r)]

/-- `SETRADDR a`: `WA a[7:0] ; WA a[13:8]`. -/
def setraddrWords (a : BitVec 14) : List (BitVec 10) :=
  [waWord (a.extractLsb' 0 8), waWord (0b00#2 ++ a.extractLsb' 8 6)]

/-- `SETWADDR a`: `WA a[7:0] ; WA (0x40 | a[13:8])`. -/
def setwaddrWords (a : BitVec 14) : List (BitVec 10) :=
  [waWord (a.extractLsb' 0 8), waWord (0b01#2 ++ a.extractLsb' 8 6)]

/-- `SELSTATUS s`: `SETREG SSEL_REG, s`. -/
def selstatusWords (c : Config) (s : Byte) : List (BitVec 10) := setregWords c.sselReg s

/-- `UNLOCK`: `SETREG UNLOCK_REG, UNLOCK_VALUE`, `UNLOCK_COUNT` times. -/
def unlockWords (c : Config) : List (BitVec 10) :=
  (List.replicate c.unlockCount (setregWords c.unlockReg c.unlockValue)).flatten

/-- `FILL a, b0..bn`: `SETWADDR a ; WD b0 ; ... ; WD bn`. -/
def fillWords (a : BitVec 14) (bytes : List Byte) : List (BitVec 10) := setwaddrWords a ++ bytes.map wdWord

/-- `DUMP a, n`: `SETRADDR a ; RD x n`. -/
def dumpWords (a : BitVec 14) (n : Nat) : List (BitVec 10) := setraddrWords a ++ List.replicate n rdWord

/-! ## Table words -/

/-- The trace line of a table word (notes/assumptions/3.md). The formats share bit patterns, since on the
hardware the issuer fixes the format: a 16-bit word below 0x400 is read as a cycle word and any other as a pair
word; an 8-bit word below 0x10 is read as an event number and any other as a service-side trigger value. -/
def tableLine (nbits w : Nat) : Option TraceLine :=
  if nbits = 8 then
    if w < 0x10 then some (.event (.ofNat 4 w)) else some (.service (.ofNat 8 w))
  else if nbits = 16 then
    if w < 0x400 then some (.cycle (.ofNat 10 w)) else some (.pair (.ofNat 16 w))
  else if nbits = 4 then some (.event (.ofNat 4 w))
  else if nbits = 10 then some (.cycle (.ofNat 10 w))
  else none

/-- The operation the decoder reads from a table word, in the context right after reset. -/
def decodeTableWord (nbits w : Nat) : Option Instr :=
  match tableLine nbits w with
  | some l => (decode DecodeCtx.atReset l).toOption
  | none => none

end Sys2Proof
end

