-- ==== Sys2Proof/Machine/Params.lean ====
section
/-! DEFINITION. What follows from the parameters: sizes, frame geometry (spec/42_video_pipeline.md R161), slot grid
(spec/44_flash_programmer.md R227), clear-on-read masks (spec/40_bus_cycles.md R125), and the constraints a
configuration must satisfy (spec/00_scope.md R8, spec/93_implementation_defined.md U22). -/

namespace Sys2Proof.Machine

/-- `VRAM_SIZE`. -/
def vramSize (c : Config) : Nat := 2 ^ c.vramBits

/-- `ERASE_PAGE`. -/
def erasePage (c : Config) : Nat := 2 ^ c.erasePageBits

/-- `KB_SLOT_BYTES` (R105). -/
def kbSlotBytes (c : Config) : Nat := 16 + c.kbPayloadBytes

/-- `CLR_MASK[s]` (R125): fixed for `s = 0`, a parameter elsewhere, 0 by default. -/
def clrMask (c : Config) (s : StatusIndex) : Byte :=
  if s = 0 then c.stInt ||| c.st5S ||| c.stCol
  else match c.clrMaskExt.find? (fun e => e.1 == s) with
    | some e => e.2
    | none => 0

/-! ## Frame geometry (R161) -/

/-- `ACTIVE_FIRST`. -/
def activeFirst (c : Config) : Nat := c.displayFirst + c.borderTop

/-- One past `ACTIVE_LAST`. -/
def activeEnd (c : Config) : Nat := activeFirst c + c.activeLines

/-- One past `DISPLAY_LAST`. -/
def displayEnd (c : Config) : Nat := activeEnd c + c.borderBottom

/-- The regions of `Classify`. -/
inductive Region where
  | sync | topBorder | display | bottomBorder
  deriving DecidableEq, Repr

/-- `Classify(y)` (R161). -/
def classify (c : Config) (y : Nat) : Region :=
  if y < c.displayFirst then .sync
  else if y < activeFirst c then .topBorder
  else if y < activeEnd c then .display
  else if y < displayEnd c then .bottomBorder
  else .sync

/-! ## Slot grid (R227) -/

/-- `SlotAddr(k)`. -/
def slotAddr (c : Config) (k : Nat) : Nat := c.kbBase + k * kbSlotBytes c

/-- `PageBase(k)`. -/
def pageBase (c : Config) (k : Nat) : Nat := slotAddr c k - slotAddr c k % erasePage c

/-- One past the last byte of the keyed-block area. -/
def kbEnd (c : Config) : Nat := c.kbBase + c.kbSlotCount * kbSlotBytes c

/-- `roundup(n, p)` (R221): the least multiple of `p` that is at least `n`. -/
def roundup (n p : Nat) : Nat := (n + p - 1) / p * p

/-! ## Constraints -/

/-- The status fields of R25 are disjoint and cover the byte, and `ST_IDX_NONE` lies under `ST_IDX` (R8). -/
def statusMasksValid (c : Config) : Bool :=
  c.stInt &&& c.st5S == 0 && c.stInt &&& c.stCol == 0 && c.stInt &&& c.stIdx == 0 &&
  c.st5S &&& c.stCol == 0 && c.st5S &&& c.stIdx == 0 && c.stCol &&& c.stIdx == 0 &&
  c.stInt ||| c.st5S ||| c.stCol ||| c.stIdx == 0xFF && c.stIdxNone &&& ~~~c.stIdx == 0

/-- The whole-byte extended status fields of R26. -/
def wholeByteFields (c : Config) : List StatusIndex := [c.srScanline, c.srTemp, c.srFlash]

/-- The extended status fields of R26 exist and overlap neither each other nor `status[0]`. -/
def statusFieldsValid (c : Config) : Bool :=
  (wholeByteFields c ++ [c.srBlank, c.srBusy]).all (fun i => i != 0 && decide (i.toNat < c.nStatus)) &&
  c.srScanline != c.srTemp && c.srScanline != c.srFlash && c.srTemp != c.srFlash &&
  !(wholeByteFields c).contains c.srBlank && !(wholeByteFields c).contains c.srBusy &&
  (c.srBlank != c.srBusy || (c.blankMask &&& c.coprocBusyMask == 0 && c.blankMask &&& c.flashingMask == 0)) &&
  c.coprocBusyMask &&& c.flashingMask == 0

/-- Every field of the signalling window lies inside it (R106). -/
def sigLayoutValid (c : Config) : Bool :=
  let l := c.sigLayout
  decide (l.src + 2 ≤ c.sigBytes) && decide (l.dst + 2 ≤ c.sigBytes) &&
  [l.width, l.height, l.stride, l.dirflags, l.pending].all fun o => decide (o < c.sigBytes)

/-- The constraints on the regions of video memory and of storage (R8). A keyed-block area of no slots is empty and
overlaps nothing. -/
def layoutValid (c : Config) : Bool :=
  decide (14 ≤ c.vramBits) &&
  decide (c.stageBase + max 292 (20 + c.kbPayloadBytes) ≤ vramSize c) &&
  decide (9 ≤ c.sigBytes) && decide (c.sigBase + c.sigBytes ≤ vramSize c) && sigLayoutValid c &&
  decide (c.paletteBase + 64 * c.paletteEntryBytes ≤ vramSize c) &&
  decide (erasePage c % kbSlotBytes c = 0) &&
  decide (c.kbBase % erasePage c = 0) && decide (c.fwWindowBase % erasePage c = 0) &&
  decide (fwWindowBytes % erasePage c = 0) &&
  (c.kbSlotCount == 0 || decide (kbEnd c ≤ c.fwWindowBase) || decide (c.fwWindowBase + fwWindowBytes ≤ c.kbBase))

/-- A configuration the spec allows (R8, R25, R26, R39, R221; notes/assumptions/18.md). A locked write reaches the
original registers only (R7 `N_ORIG_REGS`, R23, spec/41_register_writes.md R141). -/
def configValid (c : Config) : Bool :=
  decide (1 ≤ c.nStatus) && decide (c.nStatus ≤ 256) && decide (c.sselMask.toNat < c.nStatus) &&
  statusMasksValid c && statusFieldsValid c && layoutValid c &&
  decide (c.maxRetries ≤ 3) && decide (1 ≤ c.linesPerFrame) && decide (displayEnd c ≤ c.linesPerFrame) &&
  decide (c.lockedIndexMask.toNat < nOrigRegs)

end Sys2Proof.Machine
end

