-- ==== Sys2Proof/Machine/State.lean ====
section
/-! DEFINITION. The state of the core: everything spec/10_state.md gives it, and the model's own fields that stand
for what comes from outside (inputs, interpreter actions, free values). Plain data throughout. -/

namespace Sys2Proof.Machine

/-- A memory: its listed bytes, addresses strictly rising, none equal to what an unlisted address reads as. -/
abbrev Mem := List Host.Cell

/-- `pipeState` (R39). -/
inductive PipeState where
  | idle | active
  deriving DecidableEq, Repr

/-- `flashError` (R42), in the order of its codes (spec/30_encoding.md R109). -/
inductive FlashError where
  | none | header | sequence | size | verify | busy | full
  deriving DecidableEq, Repr

/-- `flashPhase` (R42). -/
inductive FlashPhase where
  | validating | erasing | writing | done
  deriving DecidableEq, Repr

/-- `flashMode` (R36): the two bits captured from the trigger value. -/
structure FlashMode where
  keyed : Bool
  read : Bool
  deriving DecidableEq, Repr

/-- One action of the interpreter during a run (spec/43_coprocessor_sandbox.md R196): a single-byte access of
video memory, or one of its two ends. -/
inductive CoprocAction where
  | read (a : Nat)
  | write (a : Nat) (v : Byte)
  | halted (pc : Nat)
  | faulted
  deriving DecidableEq, Repr

/-- What falls before an atomic action of the running background operation (spec/20_memory.md R77,
spec/00_scope.md R12): nothing more (`pass`), a bus cycle, a completion signal, or the reset signal. -/
inductive Strobe where
  | pass
  | cycle (w : BitVec 10)
  | line
  | reset
  deriving DecidableEq, Repr

/-- The state. Fields up to `videoOut` are the spec's; those after it are the model's own. -/
structure State where
  /-- `registers[0..64)` (R21). -/
  regs : Vector Byte 64
  /-- `status[0..N_STATUS)` (R24); entries from `N_STATUS` up do not exist in the machine. -/
  status : Vector Byte 256
  /-- `videoMemory` (R27); an unlisted cell reads 0x00. -/
  vram : Mem
  /-- `addressLatch` (R28), below `VRAM_SIZE`. -/
  addressLatch : Nat
  /-- `addressAutoIncrement` (R29). -/
  addressAutoIncrement : BitVec 1
  /-- `writeStage` (R30). -/
  writeStage : BitVec 1
  /-- `raData` (R31). -/
  raData : Byte
  /-- `raStatus` (R32). -/
  raStatus : Byte
  /-- `interruptLine` (R33). -/
  interruptLine : Bool
  /-- The four edge flags (R34). -/
  paletteDirty : Bool
  configDirty : Bool
  coprocessorRequested : Bool
  flashRequested : Bool
  /-- The register lock (R35). -/
  unlocked : Bool
  unlockProgress : Nat
  /-- `flashMode` (R36). -/
  flashMode : FlashMode
  /-- `coprocessorProgramCounter` (R37), below `2 ^ COPROC_PC_BITS`. -/
  coprocessorProgramCounter : Nat
  /-- `protActive` (R38). Between two steps it also says that a run is in progress. -/
  protActive : Bool
  /-- `lineY` (R39). -/
  lineY : Nat
  /-- `pipeState` (R39). -/
  pipeState : PipeState
  /-- `lineBuf[0..2)` (R40). -/
  lineBuf : Vector (List Pixel) 2
  /-- `fillSel` (R40). -/
  fillSel : Fin 2
  /-- `handedOff` (R40). -/
  handedOff : Option (Fin 2)
  /-- `paletteLUT[0..64)` (R41). -/
  paletteLUT : Vector Pixel 64
  /-- The flash status in structured form (R42). -/
  flashRunning : Bool
  flashRetry : BitVec 2
  flashError : FlashError
  flashPhase : FlashPhase
  /-- `fwSessionActive` (R42). -/
  fwSessionActive : Bool
  /-- What R222 and spec/70_reset_and_hazards.md R296 ask of a session: how many bytes from `FW_WINDOW_BASE` on block 0
  erased; 0 outside a session (notes/assumptions/34.md). -/
  sessionErased : Nat
  /-- The same rules: the targets of the blocks programmed since that erase, latest first; none outside a session. -/
  sessionProgrammed : List Nat
  /-- `storage` (R43); an unlisted byte reads 0xFF. -/
  storage : Mem
  /-- `videoOut`: the observable trace of `(y, row)` pairs, oldest first (spec/42_video_pipeline.md R172). -/
  videoOut : List (Nat × List Pixel)
  /-- The model's own: the bytes read cycles have returned, oldest first (notes/assumptions/17.md). -/
  hostReads : List Byte
  /-- The model's own: the parameters of the machine, written by no operation (notes/assumptions/1.md). -/
  cfg : Config
  /-- The model's own: what `ConfigApply` loads at the next reset (notes/assumptions/13.md). -/
  configPage : Option ConfigPage
  /-- The model's own: the trace lines still to come (notes/assumptions/2.md). -/
  inputs : List TraceLine
  /-- The model's own: what falls inside background operations (notes/assumptions/5.md). -/
  strobes : List Strobe
  /-- The model's own: the interpreter's coming actions (notes/assumptions/7.md). -/
  coprocScript : List CoprocAction
  /-- The model's own: a `COPROC_RUN` has begun since the last `LINE` (notes/assumptions/8.md). -/
  coprocBegun : Bool
  /-- The model's own: how many free values have been drawn (notes/assumptions/10.md). -/
  draws : Nat
  deriving DecidableEq, Repr

/-- There is no fault: "no cycle is ever rejected" (spec/00_scope.md R13) and there is "no halted, crashed or
final state of the core" (R14). The contained protection fault and the flash errors are state changes. -/
inductive Fault where
  deriving DecidableEq, Repr

/-- Why a step gives no next state. -/
inductive Refusal where
  /-- Raised by an arm of `exec` whose operation has no meaning yet. Safe: no claim can be made of it. -/
  | notModelled (mnemonic : String)
  /-- Raised by `step` in a configuration that breaks a constraint (spec/93_implementation_defined.md U22:
  "refuse: no rule of the spec applies"). Safe. -/
  | invalidConfig
  /-- Raised by `step` on a trace line that is no operation of the table. Safe: the hardware has no such event. -/
  | undecodable (e : DecodeError)
  deriving DecidableEq, Repr

/-- The state right after reset (R48) of a machine with parameters `c` and no persisted configuration, with
nothing placed in the model's own lists. `lineBuf` and `paletteLUT`, which R48 leaves unspecified, are zero
(notes/assumptions/11.md, DESIGN CHOICE), and storage lists nothing (notes/assumptions/12.md, DESIGN CHOICE). -/
def State.resetWith (c : Config) : State where
  regs := Vector.replicate 64 0
  status := Vector.replicate 256 0
  vram := []
  addressLatch := 0
  addressAutoIncrement := 0
  writeStage := 0
  raData := 0
  raStatus := 0
  interruptLine := false
  paletteDirty := true
  configDirty := false
  coprocessorRequested := false
  flashRequested := false
  unlocked := false
  unlockProgress := 0
  flashMode := { keyed := false, read := false }
  coprocessorProgramCounter := 0
  protActive := false
  lineY := 0
  pipeState := .idle
  lineBuf := Vector.replicate 2 (List.replicate c.linePixels 0)
  fillSel := 0
  handedOff := none
  paletteLUT := Vector.replicate 64 0
  flashRunning := false
  flashRetry := 0
  flashError := .none
  flashPhase := .validating
  fwSessionActive := false
  sessionErased := 0
  sessionProgrammed := []
  storage := []
  videoOut := []
  hostReads := []
  cfg := c
  configPage := none
  inputs := []
  strobes := []
  coprocScript := []
  coprocBegun := false
  draws := 0

/-- The machine right after reset, in configuration T0 (notes/assumptions/1.md). -/
def State.reset : State := State.resetWith Config.t0

end Sys2Proof.Machine
end

