-- ==== Sys2Proof/Machine/Flags.lean ====
section
/-! DEFINITION. Every flag and status-byte computation: the interrupt line (R33), clear on read (R125, R126), the
sprite flags (R176), the line status (R174), and the packed flash status byte (R108, R109). -/

namespace Sys2Proof.Machine

/-- `interruptLine` as a formula (R33, R120): pending AND enabled. -/
def interruptLevel (c : Config) (st0 ie : Byte) : Bool :=
  (st0 &&& c.stInt) != 0 && (ie &&& c.ieMask) != 0

/-- What a status-`s` read leaves in `st[s]` (R125, and R126 for `s = 0`). -/
def clearOnRead (c : Config) (s : StatusIndex) (v : Byte) : Byte :=
  let cleared := v &&& ~~~clrMask c s
  if s = 0 ∧ c.sr0ReadResetsIndex = true then (cleared &&& ~~~c.stIdx) ||| c.stIdxNone else cleared

/-- `status[0]` after `MergeSpriteFlags(f)` (R176); the masks hold the collaborator to its contract. -/
def mergeSprites (c : Config) (f : SpriteFlags) (st0 : Byte) : Byte :=
  let flagged := st0 ||| (f.orMask &&& (c.st5S ||| c.stCol))
  match f.idxOpt with
  | some i => (flagged &&& ~~~c.stIdx) ||| (i &&& c.stIdx)
  | none => flagged

/-- The current-scanline field for line `y` (R174): `(y - ACTIVE_FIRST) mod 256`. -/
def scanlineByte (c : Config) (y : Nat) : Byte := BitVec.ofInt 8 ((y : Int) - (activeFirst c : Int))

/-- The blanking register with its flag for a region (R174): 1 outside `DISPLAY`. -/
def blankByte (c : Config) (region : Region) (v : Byte) : Byte :=
  if region = .display then v &&& ~~~c.blankMask else v ||| c.blankMask

/-- Error codes (R109). -/
def FlashError.code : FlashError → BitVec 3
  | .none => 0
  | .header => 1
  | .sequence => 2
  | .size => 3
  | .verify => 4
  | .busy => 5
  | .full => 6

/-- Phase codes (R108). -/
def FlashPhase.code : FlashPhase → BitVec 2
  | .validating => 0
  | .erasing => 1
  | .writing => 2
  | .done => 3

/-- `FlashStatusPack` (R108): running in bit 7, phase in 6:5, retry in 4:3, error in 2:0. -/
def flashPack (running : Bool) (retry : BitVec 2) (error : FlashError) (phase : FlashPhase) : Byte :=
  (BitVec.ofBool running ++ phase.code ++ retry ++ error.code : BitVec 8)

end Sys2Proof.Machine
end

