-- ==== Sys2Proof/Machine/Operands.lean ====
section
/-! DEFINITION. Operand forms: field assembly of pairs (spec/30_encoding.md R94), byte order (spec/20_memory.md
R67), and the fields of the staged blocks and of the bulk-transfer window (R100, R104, R106). -/

namespace Sys2Proof.Machine

/-- Byte `i` of a byte string; 0 past its end (the blocks read here are always long enough). -/
def byteAt (bs : List Byte) (i : Nat) : Byte := bs.getD i 0

/-- The bytes `[off, off + n)` of a byte string. -/
def bytesAt (bs : List Byte) (off n : Nat) : List Byte := (List.range n).map fun k => byteAt bs (off + k)

/-- `LE32` (spec/00_scope.md R9): least significant byte first. -/
def le32 (bs : List Byte) (off : Nat) : BitVec 32 :=
  byteAt bs (off + 3) ++ byteAt bs (off + 2) ++ byteAt bs (off + 1) ++ byteAt bs off

/-- The four bytes of a 32-bit value, least significant first (R231 "LE32 bytes of k"). -/
def le32Bytes (v : BitVec 32) : List Byte :=
  [v.extractLsb' 0 8, v.extractLsb' 8 8, v.extractLsb' 16 8, v.extractLsb' 24 8]

/-- A 16-bit field, most significant byte first (R67 d, R106). -/
def be16 (hi lo : Byte) : BitVec 16 := hi ++ lo

/-- The address of a pair, `H ++ A` (R94). -/
def pairAddress (h : BitVec 6) (a : Byte) : BitVec 14 := h ++ a

/-! ## Format F, the firmware block (R100) -/

/-- The fields of a staged firmware block. -/
structure FwBlock where
  magic0 : BitVec 32
  magic1 : BitVec 32
  flags : BitVec 32
  target : BitVec 32
  size : BitVec 32
  seq : BitVec 32
  total : BitVec 32
  family : BitVec 32
  payload : List Byte
  magicEnd : BitVec 32
  deriving DecidableEq, Repr

/-- Format F read from the scratch copy (R100, R217). -/
def fwBlock (scratch : List Byte) : FwBlock where
  magic0 := le32 scratch 0
  magic1 := le32 scratch 4
  flags := le32 scratch 8
  target := le32 scratch 12
  size := le32 scratch 16
  seq := le32 scratch 20
  total := le32 scratch 24
  family := le32 scratch 28
  payload := bytesAt scratch 32 256
  magicEnd := le32 scratch 288

/-! ## Format K, the keyed block (R104) -/

/-- The hint of a staged keyed block, little-endian (R67 c). -/
def kbHint (scratch : List Byte) : BitVec 32 := le32 scratch 0

/-- The 16-byte identifier of a staged keyed block, compared byte for byte. -/
def kbId (scratch : List Byte) : List Byte := bytesAt scratch 4 16

/-- The payload of a staged keyed block, of `n = KB_PAYLOAD_BYTES` bytes. -/
def kbPayload (scratch : List Byte) (n : Nat) : List Byte := bytesAt scratch 20 n

/-! ## Format B, the bulk-transfer window (R106) -/

/-- The parameters of a bulk transfer. -/
structure BulkParams where
  src : BitVec 16
  dst : BitVec 16
  width : Byte
  height : Byte
  stride : Byte
  dirflags : Byte
  deriving DecidableEq, Repr

/-- `SRC_BACK`: bit 0 of `dirflags`. -/
def BulkParams.srcBack (p : BulkParams) : Bool := p.dirflags.getLsbD 0

/-- `DST_BACK`: bit 1 of `dirflags`. -/
def BulkParams.dstBack (p : BulkParams) : Bool := p.dirflags.getLsbD 1

/-- `k = r * stride + c` for each byte of the transfer, rows outermost (R201's loop order). -/
def BulkParams.offsets (p : BulkParams) : List Nat :=
  (List.range p.height.toNat).flatMap fun r => (List.range p.width.toNat).map fun c => r * p.stride.toNat + c

/-- `(base ± k) mod size`, the sum taken in the integers and the remainder non-negative (R202). -/
def walkIndex (size base : Nat) (back : Bool) (k : Nat) : Nat :=
  (((base : Int) + (if back then -(k : Int) else (k : Int))) % (size : Int)).toNat

end Sys2Proof.Machine
end

