-- ==== Sys2Proof/Machine/Ops.lean ====
section
/-! DEFINITION. The named operations over memory and registers: canonical memories, the accessors of the two
register files, video memory, the storage primitives, the three latch procedures, and the two contained
exceptions (`ProtectionFault`, `FlashError`). -/

namespace Sys2Proof.Machine

/-! ## Memories in canonical form -/

/-- The byte at an address; `d` is what an unlisted address reads as. -/
def Mem.read (d : Byte) : Mem → Nat → Byte
  | [], _ => d
  | (k, v) :: rest, a => if k = a then v else Mem.read d rest a

/-- The cells of a run of bytes from `a` up, without those that equal the unlisted value. -/
def Mem.cells (d : Byte) : Nat → List Byte → Mem
  | _, [] => []
  | a, v :: vs => if v = d then Mem.cells d (a + 1) vs else (a, v) :: Mem.cells d (a + 1) vs

/-- Replaces the run of bytes from `a` up; every other byte stays. -/
def Mem.fill (d : Byte) (m : Mem) (a : Nat) (vs : List Byte) : Mem :=
  m.filter (fun e => decide (e.1 < a)) ++ Mem.cells d a vs ++ m.filter (fun e => decide (a + vs.length ≤ e.1))

/-- Replaces one byte. -/
def Mem.write (d : Byte) (m : Mem) (a : Nat) (v : Byte) : Mem := Mem.fill d m a [v]

/-- The `n` bytes from `a` up. -/
def Mem.readRange (d : Byte) (m : Mem) (a n : Nat) : List Byte := (List.range n).map fun k => Mem.read d m (a + k)

/-- The canonical form: addresses strictly rising from `lo` up, no entry equal to the unlisted value. -/
def Mem.wfFrom (d : Byte) : Nat → Mem → Bool
  | _, [] => true
  | lo, (k, v) :: rest => decide (lo ≤ k) && v != d && Mem.wfFrom d (k + 1) rest

/-- The canonical form of a whole memory. -/
def Mem.wf (d : Byte) (m : Mem) : Bool := Mem.wfFrom d 0 m

/-- What an unlisted cell of video memory reads as: "videoMemory ... all 0x00" (R48). -/
def vramUnlisted : Byte := 0x00

/-- What an unlisted byte of storage reads as: the erased value (R70; notes/assumptions/12.md). -/
def storageUnlisted : Byte := 0xFF

/-! ## Registers -/

/-- `x[i]` (R10). -/
def State.x (s : State) (i : RegIndex) : Byte := s.regs[i.toNat]'i.isLt

/-- `x[i] <- v` (R10): the raw store. -/
def State.setX (s : State) (i : RegIndex) (v : Byte) : State := { s with regs := s.regs.set i.toNat v i.isLt }

/-- `st[i]` (R10). -/
def State.st (s : State) (i : StatusIndex) : Byte := s.status[i.toNat]'i.isLt

/-- `st[i] <- v` (R10). -/
def State.setSt (s : State) (i : StatusIndex) (v : Byte) : State := { s with status := s.status.set i.toNat v i.isLt }

/-- `statusSel` (R32): `x[SSEL_REG] & SSEL_MASK`. -/
def State.statusSel (s : State) : StatusIndex := s.x s.cfg.sselReg &&& s.cfg.sselMask

/-! ## Video memory (R61: every index modulo `VRAM_SIZE`) -/

/-- `MemRead(a, 1)`. -/
def State.memRead (s : State) (a : Nat) : Byte := Mem.read vramUnlisted s.vram (a % vramSize s.cfg)

/-- `MemWrite(a, 1, v)`. -/
def State.memWrite (s : State) (a : Nat) (v : Byte) : State :=
  { s with vram := Mem.write vramUnlisted s.vram (a % vramSize s.cfg) v }

/-! ## The three helper procedures of the bus engine (R120 to R122) -/

/-- `UpdateInt()`: the only operation that writes `interruptLine`. -/
def State.updateInt (s : State) : State :=
  { s with interruptLine := interruptLevel s.cfg (s.st 0) (s.x s.cfg.ieReg) }

/-- `RearmData()`. -/
def State.rearmData (s : State) : State := { s with raData := s.memRead s.addressLatch }

/-- `RearmStatus()`. -/
def State.rearmStatus (s : State) : State := { s with raStatus := s.st s.statusSel }

/-- `UpdateInt(); RearmData(); RearmStatus()`: the close of every address-mode write (R128, R129). -/
def State.rearmAll (s : State) : State := s.updateInt.rearmData.rearmStatus

/-! ## Address latch -/

/-- `addressLatch <- (addressLatch + 1) mod VRAM_SIZE` (R123, R127). -/
def State.advanceLatch (s : State) : State := { s with addressLatch := (s.addressLatch + 1) % vramSize s.cfg }

/-- Bits 7:0 of the latch: the pending first byte of a pair (R129 `A`). -/
def State.latchLow (s : State) : Byte := BitVec.ofNat 8 s.addressLatch

/-- `addressLatch <- (addressLatch & ~0xFF) | b` (R128): bits 7:0 replaced, all higher bits kept. -/
def State.setLatchLow (s : State) (b : Byte) : State :=
  { s with addressLatch := s.addressLatch - s.addressLatch % 256 + b.toNat }

/-! ## Free values -/

/-- The next free value is another one (notes/assumptions/10.md). -/
def State.draw (s : State) : State := { s with draws := s.draws + 1 }

/-- A pixel value of `PIXEL_BITS` bits (R40). -/
def pixelOf (c : Config) (v : Nat) : Pixel := v % 2 ^ c.pixelBits

/-! ## Persistent storage (R69 to R72) -/

/-- `StorRead(a, n)`. -/
def State.storRead (s : State) (a n : Nat) : List Byte := Mem.readRange storageUnlisted s.storage a n

/-- `StorErase(a, n)`: every byte 0xFF. -/
def State.storErase (s : State) (a n : Nat) : State :=
  { s with storage := Mem.fill storageUnlisted s.storage a (List.replicate n 0xFF) }

/-- What one byte holds after a program step (R71): the data where the byte is an erased byte and programming is exact,
else a free value (U5, U6). A byte that reads 0xFF is an erased byte only where it is `fresh`: erased by the sequence it
is programmed in, and not programmed since (spec/44_flash_programmer.md R222, spec/70_reset_and_hazards.md R296). -/
def programmed (c : Config) (fresh : Bool) (draw a : Nat) (old new : Byte) : Byte :=
  if fresh = true ∧ old = 0xFF ∧ c.storageExact = true then new else Config.programmedByte draw a old new

/-- `StorProgram(a, n, v)`, `n` being the length of `v`; `fresh` says which bytes its sequence has erased and not yet
programmed. -/
def State.storProgram (s : State) (fresh : Nat → Bool) (a : Nat) (vs : List Byte) : State :=
  { s with
    storage := Mem.fill storageUnlisted s.storage a
      (vs.mapIdx fun k v =>
        programmed s.cfg (fresh (a + k)) s.draws (a + k) (Mem.read storageUnlisted s.storage (a + k)) v)
    draws := s.draws + 1 }

/-- A byte of the firmware window that block 0 of the session erased and no block of it has programmed since (R222, R296,
spec/93_implementation_defined.md U18). -/
def State.sessionFresh (s : State) (a : Nat) : Bool :=
  decide (s.cfg.fwWindowBase ≤ a) && decide (a < s.cfg.fwWindowBase + s.sessionErased) &&
  s.sessionProgrammed.all fun t => !(decide (t ≤ a) && decide (a < t + 256))

/-- A storage primitive `f` over `[a, a + n)` that a reset command cut off while it was under way
(spec/93_implementation_defined.md U20, notes/assumptions/25.md): the pages before the one it had come to are done, that
page holds any value, the pages after it are as before. -/
def State.storTorn (s : State) (f : State → State) (a n : Nat) : State :=
  let p := erasePage s.cfg
  let first := a / p
  let pages := (a + n - 1) / p - first + 1
  let cut := first + Config.tornPage s.draws pages % pages
  let byte := fun b =>
    if b / p < cut then Mem.read storageUnlisted (f s).storage b
    else if b / p = cut then Config.tornByte s.draws b
    else Mem.read storageUnlisted s.storage b
  { s with
    storage := Mem.fill storageUnlisted s.storage (first * p) ((List.range (pages * p)).map fun k => byte (first * p + k))
    draws := s.draws + 1 }

/-- `CacheFlush(a, n)` (R72): no architectural state changes. -/
def State.cacheFlush (s : State) (_a _n : Nat) : State := s

/-! ## The contained exceptions -/

/-- `raise ProtectionFault` (spec/60_exceptions.md R258, R259): protection goes off, the run is abandoned; nothing
is saved and nothing else changes. The check of the signalling window that follows is the caller's (R198). -/
def State.takeProtectionFault (s : State) : State := { s with protActive := false }

/-- `ProtEnable()` (R194). -/
def State.protEnable (s : State) : State := { s with protActive := true }

/-- `ProtDisable()` (R194). -/
def State.protDisable (s : State) : State := { s with protActive := false }

/-- `st[SR_FLASH] <- FlashStatusPack(...)`: the packed byte follows the structured fields (R42, R108). -/
def State.packFlash (s : State) : State :=
  s.setSt s.cfg.srFlash (flashPack s.flashRunning s.flashRetry s.flashError s.flashPhase)

/-- `SetFlashStatus(phase = p)` (R212). -/
def State.setFlashPhase (s : State) (p : FlashPhase) : State :=
  ({ s with flashPhase := p } : State).packFlash.rearmStatus

/-- `SetFlashStatus(retry = n)` (R212). -/
def State.setFlashRetry (s : State) (n : BitVec 2) : State :=
  ({ s with flashRetry := n } : State).packFlash.rearmStatus

/-- `raise FlashError(code)` (R215): the code is recorded, phase and retry stay. That the body ends here and
control falls to the service's tail is the caller's. -/
def State.raiseFlashError (s : State) (code : FlashError) : State :=
  ({ s with flashError := code } : State).packFlash.rearmStatus

/-- The tail of the flash service (R213): where a body and a raised error both end. -/
def State.flashReturn (s : State) : State :=
  let t := ({ s with flashRunning := false } : State).packFlash
  let u := { t with flashRequested := false }
  (u.setSt u.cfg.srBusy (u.st u.cfg.srBusy &&& ~~~u.cfg.flashingMask)).rearmStatus

end Sys2Proof.Machine
end

