-- ==== Sys2Proof/Machine/Reset.lean ====
section
/-! DEFINITION. `RESET` (spec/70_reset_and_hazards.md R280 to R284). -/

namespace Sys2Proof.Machine

/-- A row whose pixels no rule defines (R48 `lineBuf` after reset, U8). -/
def freeRow (c : Config) (draw from_ : Nat) : List Pixel :=
  (List.range c.linePixels).map fun p => pixelOf c (Config.freePixel draw (from_ + p))

/-- A table whose entries no rule defines (R48 `paletteLUT` after reset, U10). -/
def freeTable (c : Config) (draw : Nat) : Vector Pixel 64 :=
  ⟨((List.range 64).map fun i => pixelOf c (Config.freePixel draw i)).toArray, by simp⟩

/-- `ConfigApply` (R284): the persisted page's writes to control registers and video memory, in their order; the
identity where there is no valid page. -/
def State.configApply (s : State) : State :=
  match s.configPage with
  | none => s
  | some page =>
    let t := page.regWrites.foldl (fun u e => u.setX e.1 e.2) s
    page.vramWrites.foldl (fun u e => u.memWrite e.1 e.2) t

/-- Steps 1 to 3 of R280: in-flight work abandoned, the arrays zeroed, protocol and engine state set. The storage
stays (R283); `lineBuf` and `paletteLUT` are free values (R48). A run of R193's gap may begin again. -/
def State.resetFields (s : State) : State :=
  { s with
    protActive := false
    regs := Vector.replicate 64 0
    status := Vector.replicate 256 0
    vram := []
    addressLatch := 0
    addressAutoIncrement := 0
    writeStage := 0
    unlocked := false
    unlockProgress := 0
    paletteDirty := true
    configDirty := false
    coprocessorRequested := false
    flashRequested := false
    flashMode := { keyed := false, read := false }
    coprocessorProgramCounter := 0
    flashRunning := false
    flashRetry := 0
    flashError := .none
    flashPhase := .validating
    fwSessionActive := false
    sessionErased := 0
    sessionProgrammed := []
    lineY := 0
    pipeState := .idle
    fillSel := 0
    handedOff := none
    lineBuf := Vector.mk #[freeRow s.cfg s.draws 64, freeRow s.cfg s.draws (64 + s.cfg.linePixels)] rfl
    paletteLUT := freeTable s.cfg s.draws
    coprocBegun := false
    draws := s.draws + 1 }

/-- `Reset()` (R280): then the persisted configuration (step 4) and the latches (step 5). -/
def State.resetOp (s : State) : State := s.resetFields.configApply.rearmAll

/-- `RESET` (R280, R281): power-up, the external reset signal and the reset command have this one effect. -/
def execReset (s : State) : Host.Outcome State Fault Refusal := .next s.resetOp

end Sys2Proof.Machine
end

