-- ==== Sys2Proof/Machine/Triggers.lean ====
section
/-! DEFINITION. `COPROC_TRIGGER` (spec/43_coprocessor_sandbox.md R191) and `FLASH_TRIGGER`
(spec/41_register_writes.md R150). -/

namespace Sys2Proof.Machine

/-- `CoprocTrigger()` (R149, R191). -/
def State.coprocTriggerOp (s : State) : State :=
  let t := { s with coprocessorRequested := true }
  t.setSt t.cfg.srBusy (t.st t.cfg.srBusy ||| t.cfg.coprocBusyMask)

/-- An accepted flash trigger (R150): the mode is captured, the request and the running status are set. -/
def State.flashAccept (s : State) (a : Byte) : State :=
  let t := { s with
    flashMode := { keyed := (a &&& s.cfg.flashModeMask) != 0, read := (a &&& s.cfg.flashReadMask) != 0 }
    flashRequested := true
    flashRunning := true
    flashRetry := 0
    flashError := .none
    flashPhase := .validating }
  t.setSt t.cfg.srBusy (t.st t.cfg.srBusy ||| t.cfg.flashingMask)

/-- `FlashTrigger(A)` (R150): dropped with the code `BUSY` while a request is pending or being serviced. -/
def State.flashTriggerOp (s : State) (a : Byte) : State :=
  (if s.flashRequested then { s with flashError := .busy } else s.flashAccept a).packFlash

/-- `COPROC_TRIGGER` as a step of its own: the procedure, then `RearmStatus()` as at both its places of call
(R129, R178; notes/assumptions/14.md). -/
def execCoprocTrigger (s : State) : Host.Outcome State Fault Refusal := .next s.coprocTriggerOp.rearmStatus

/-- `FLASH_TRIGGER` as a step of its own: the procedure, then `RearmStatus()` as at its place of call (R129;
notes/assumptions/14.md). -/
def execFlashTrigger (value : Byte) (s : State) : Host.Outcome State Fault Refusal :=
  .next (s.flashTriggerOp value).rearmStatus

end Sys2Proof.Machine
end

