-- ==== Sys2Proof/Machine/Pairs.lean ====
section
/-! DEFINITION. Completed pairs: `SETADDR.R`, `SETADDR.W` (spec/40_bus_cycles.md R130) and `REGWRITE` with its side
effects (spec/41_register_writes.md R140 to R151). -/

namespace Sys2Proof.Machine

/-- `SetAddr(H, A, M)` on the assembled address (R94, R130). -/
def State.setAddr (s : State) (addr : BitVec 14) (m : BitVec 1) : State :=
  { s with addressLatch := addr.toNat, addressAutoIncrement := m }

/-- `EffectiveIndex(H)` (R141). -/
def State.effectiveIndex (s : State) (h : RegIndex) : RegIndex :=
  if s.unlocked then h else h &&& s.cfg.lockedIndexMask

/-- `UnlockTrack(H, A)` (R146), on the raw index. -/
def State.unlockTrack (s : State) (h : RegIndex) (a : Byte) : State :=
  if s.unlocked then s
  else if h = s.cfg.unlockReg ∧ a = s.cfg.unlockValue then
    { s with
      unlockProgress := s.unlockProgress + 1
      unlocked := s.unlockProgress + 1 == s.cfg.unlockCount }
  else { s with unlockProgress := 0 }

/-- The row-3 and row-4 effects of R142: the dirty flags (R147, R148). -/
def State.dirtyEffects (s : State) (i : RegIndex) : State :=
  { s with
    paletteDirty := s.paletteDirty || s.cfg.palDirtyRegs.contains i
    configDirty := s.configDirty || s.cfg.cfgDirtyRegs.contains i }

/-- The program-counter load of R149: a write to `hiReg` or `loReg` sets the corresponding byte. -/
def State.coprocPcEffect (s : State) (i : RegIndex) (a : Byte) : State :=
  match s.cfg.coprocPcLoad with
  | none => s
  | some (hi, lo) =>
    let pc := s.coprocessorProgramCounter
    if i = hi ∨ i = lo then
      let pc := if i = hi then pc - pc / 256 % 256 * 256 + a.toNat * 256 else pc
      let pc := if i = lo then pc - pc % 256 + a.toNat else pc
      { s with coprocessorProgramCounter := pc % 2 ^ s.cfg.coprocPcBits }
    else s

/-- The row-5 effect of R142. -/
def State.coprocEffect (s : State) (i : RegIndex) (a : Byte) : State :=
  if i = s.cfg.coprocTrigReg ∧ (a &&& s.cfg.coprocTrigMask) ≠ 0 then s.coprocTriggerOp else s

/-- The row-6 effect of R142. -/
def State.flashEffect (s : State) (i : RegIndex) (a : Byte) : State :=
  if i = s.cfg.flashTrigReg ∧ (a &&& s.cfg.flashGoMask) ≠ 0 then s.flashTriggerOp a else s

/-- The condition of row 7 of R142: a write of `a` to effective index `i` is the reset command (R151). -/
def isResetWrite (c : Config) (i : RegIndex) (a : Byte) : Bool :=
  match c.resetCmd with
  | none => false
  | some (r, m) => i == r && (a &&& m) != 0

/-- The row-7 effect of R142. -/
def State.resetEffect (s : State) (i : RegIndex) (a : Byte) : State :=
  if isResetWrite s.cfg i a then s.resetOp else s

/-- `SideEffects(i, A)` (R142), in the order of its table; rows 1 and 2 act through the closing re-arm calls. -/
def State.sideEffects (s : State) (i : RegIndex) (a : Byte) : State :=
  ((((s.dirtyEffects i).coprocPcEffect i a).coprocEffect i a).flashEffect i a).resetEffect i a

/-- `RegWrite(H, A)` (R140). -/
def State.regWrite (s : State) (h : RegIndex) (a : Byte) : State :=
  let i := s.effectiveIndex h
  ((s.setX i a).unlockTrack h a).sideEffects i a

/-- The pair decode of a second byte (R93, R129): bit 7 selects the register form, bit 6 the address form's mode. -/
def State.pairEffect (s : State) (b a : Byte) : State :=
  if b.getLsbD 7 then s.regWrite (b.extractLsb' 0 6) a
  else s.setAddr (pairAddress (b.extractLsb' 0 6) a) (b.extractLsb' 6 1)

/-- `SETADDR.R` (R130) as a whole pair: both bytes taken, nothing pending (notes/assumptions/15.md). -/
def execSetaddrR (addr : BitVec 14) (s : State) : Host.Outcome State Fault Refusal :=
  .next ({ s with writeStage := 0 }.setAddr addr 0).rearmAll

/-- `SETADDR.W` (R130) as a whole pair: both bytes taken, nothing pending (notes/assumptions/15.md). -/
def execSetaddrW (addr : BitVec 14) (s : State) : Host.Outcome State Fault Refusal :=
  .next ({ s with writeStage := 0 }.setAddr addr 1).rearmAll

/-- `REGWRITE` (R140) as a whole pair: its first byte is in the low half of the latch (R128, R129 corner case;
notes/assumptions/15.md). -/
def execRegwrite (idx : RegIndex) (val : Byte) (s : State) : Host.Outcome State Fault Refusal :=
  .next (({ s.setLatchLow val with writeStage := 0 }.regWrite idx val).rearmAll)

end Sys2Proof.Machine
end

