-- ==== Sys2Proof/Machine/Bus.lean ====
section
/-! DEFINITION. The bus-protocol engine: the four host cycles (spec/40_bus_cycles.md R123 to R130). Every cycle is
one atomic step, total in every state (spec/00_scope.md R13, spec/20_memory.md R76). -/

namespace Sys2Proof.Machine

/-- `WD b` (R123). -/
def State.wdCycle (s : State) (b : Byte) : State :=
  { (s.memWrite s.addressLatch b).advanceLatch with writeStage := 0 }.rearmData

/-- `if READ_RESETS_STAGE then writeStage <- 0` (R124, R127). -/
def State.readStage (s : State) : State := { s with writeStage := if s.cfg.readResetsStage then 0 else s.writeStage }

/-- The byte a read cycle returns reaches the host. -/
def State.hostReturn (s : State) (v : Byte) : State := { s with hostReads := s.hostReads ++ [v] }

/-- `StatusClearOnRead(s)` (R125, R126). -/
def State.statusClearOnRead (s : State) (i : StatusIndex) : State := s.setSt i (clearOnRead s.cfg i (s.st i))

/-- `RS -> v` (R124): the latched byte is returned, then the selected register is cleared and re-armed. -/
def State.rsCycle (s : State) : State :=
  ((((s.hostReturn s.raStatus).statusClearOnRead s.statusSel).updateInt).rearmStatus).readStage

/-- `RD -> v` (R127): the latched byte is returned, then the latch advances and re-arms. -/
def State.rdCycle (s : State) : State := ((s.hostReturn s.raData).advanceLatch.rearmData).readStage

/-- `WA b` with `writeStage = 0` (R128). -/
def State.waFirstCycle (s : State) (b : Byte) : State := { s.setLatchLow b with writeStage := 1 }.rearmAll

/-- `WA b` with `writeStage = 1` (R129). -/
def State.waSecondCycle (s : State) (b : Byte) : State :=
  ({ s with writeStage := 0 }.pairEffect b s.latchLow).rearmAll

/-- The operation of one cycle word (R91, R112): `writeStage` cuts WA cycles into pairs (R96). -/
def State.busCycle (s : State) (w : BitVec 10) : State :=
  match decodeCycle s.writeStage w with
  | .wd b => s.wdCycle b
  | .waFirst b => s.waFirstCycle b
  | .waSecond b => s.waSecondCycle b
  | .rd => s.rdCycle
  | .rs => s.rsCycle
  | _ => s

/-- Cycles issued one after another (R76: serialised). -/
def State.busCycles (s : State) : List (BitVec 10) → State
  | [] => s
  | w :: ws => (s.busCycle w).busCycles ws

/-- The cycle completes a register write that is the reset command (R151). -/
def State.cycleResets (s : State) (w : BitVec 10) : Bool :=
  match decodeCycle s.writeStage w with
  | .waSecond b => b.getLsbD 7 && isResetWrite s.cfg (s.effectiveIndex (b.extractLsb' 0 6)) s.latchLow
  | _ => false

/-- `WD` (R123). -/
def execWd (b : Byte) (s : State) : Host.Outcome State Fault Refusal := .next (s.wdCycle b)

/-- `WA.first` (R128). -/
def execWaFirst (b : Byte) (s : State) : Host.Outcome State Fault Refusal := .next (s.waFirstCycle b)

/-- `WA.second` (R129). -/
def execWaSecond (b : Byte) (s : State) : Host.Outcome State Fault Refusal := .next (s.waSecondCycle b)

/-- `RD` (R127). -/
def execRd (s : State) : Host.Outcome State Fault Refusal := .next s.rdCycle

/-- `RS` (R124). -/
def execRs (s : State) : Host.Outcome State Fault Refusal := .next s.rsCycle

end Sys2Proof.Machine
end

