-- ==== Sys2Proof/Machine/Background.lean ====
section
/-! DEFINITION. Background work: a computation made of atomic actions, before each of which bus cycles (and, inside
sandbox and flash work, whole `LINE` steps) and the reset signal may fall (spec/20_memory.md R75 to R78,
spec/00_scope.md R12; notes/assumptions/5.md). -/

namespace Sys2Proof.Machine

/-- What abandons background work: a reset command of the host (R151) or the external reset signal (R281). -/
inductive Abandon where
  | command | signal
  deriving DecidableEq, Repr

/-- A background computation: it ends with a result, or is abandoned by a reset (spec/70_reset_and_hazards.md
R282), which is the error result. -/
abbrev Bg (α : Type) := EStateM Abandon State α

/-- The state a background computation leaves, however it ends. -/
def bgState {α : Type} : EStateM.Result Abandon State α → State
  | .ok _ s => s
  | .error _ s => s

/-- A background operation as the effect of an operation: finished or abandoned, the machine goes on (R14). -/
def runBg (x : Bg Unit) (s : State) : Host.Outcome State Fault Refusal := .next (bgState (x s))

/-- The strobes still to come. -/
def State.withStrobes (s : State) (l : List Strobe) : State := { s with strobes := l }

/-- The strobes still to come, from within background work. -/
def setStrobes (l : List Strobe) : Bg Unit := modify fun s => s.withStrobes l

/-- One bus cycle taken inside background work: a reset command in it abandons the work (R282). -/
def strobeCycle (w : BitVec 10) : Bg Unit := fun s =>
  if s.cycleResets w then .error .command (s.busCycle w) else .ok () (s.busCycle w)

/-- The external reset signal inside background work (R281, R282). -/
def strobeReset : Bg Unit := fun s => .error .signal s.resetOp

/-- What falls before an atomic action of a `LINE` step: bus cycles and reset. A completion signal waits for the
`LINE` to end (R12: two `LINE` steps never overlap). -/
def lineStrobes : List Strobe → Bg Unit
  | [] => pure ()
  | .pass :: rest => setStrobes rest
  | .line :: _ => pure ()
  | .cycle w :: rest => do setStrobes rest; strobeCycle w; lineStrobes rest
  | .reset :: rest => do setStrobes rest; strobeReset

/-- The point before an atomic action of a `LINE` step. -/
def linePoint : Bg Unit := do lineStrobes (← get).strobes

/-- `Guarded { f }` (R78) after a point: one atomic step. -/
def guarded (point : Bg Unit) (f : State → State) : Bg Unit := do point; modify f

/-- An atomic read of a register or flag after a point. -/
def look {α : Type} (point : Bg Unit) (f : State → α) : Bg α := do point; return f (← get)

/-- One single-byte background read of video memory (R77). -/
def bgRead (point : Bg Unit) (a : Nat) : Bg Byte := look point fun s => s.memRead a

/-- One single-byte background write of video memory (R77); it does not re-arm `raData` (R46 I-D, D10). -/
def bgWrite (point : Bg Unit) (a : Nat) (v : Byte) : Bg Unit := guarded point fun s => s.memWrite a v

/-- `if c then x`. -/
def onlyIf (c : Bool) (x : Bg Unit) : Bg Unit := if c then x else pure ()

/-- A loop over a list, in its order. -/
def forEach {α : Type} (f : α → Bg Unit) : List α → Bg Unit
  | [] => pure ()
  | x :: xs => do f x; forEach f xs

/-- A loop over a list that collects its results, in its order. -/
def collect {α β : Type} (f : α → Bg β) : List α → Bg (List β)
  | [] => pure []
  | x :: xs => do
    let y ← f x
    let ys ← collect f xs
    return y :: ys

/-- `MemRead(a, n)` from the background: byte by byte, ascending (R77). -/
def bgReadRange (point : Bg Unit) (a n : Nat) : Bg (List Byte) :=
  collect (fun k => bgRead point (a + k)) (List.range n)

/-- `MemWrite(a, n, v)` from the background: byte by byte, ascending (R77, R232). -/
def bgWriteRange (point : Bg Unit) (a : Nat) (vs : List Byte) : Bg Unit :=
  forEach (fun k => bgWrite point (a + k) (byteAt vs k)) (List.range vs.length)

end Sys2Proof.Machine
end

