-- ==== Sys2Proof/Machine/Video.lean ====
section
/-! DEFINITION. The scanline video pipeline: `LINE`, `PALETTE_REBUILD`, `FRAME_END` (spec/42_video_pipeline.md). -/

namespace Sys2Proof.Machine

/-! ## Palette (R168) -/

/-- Entry `i` of the lookup table from its bytes. -/
def State.setPalette (s : State) (k : Collaborators) (i : Nat) (entry : List Byte) : State :=
  { s with paletteLUT := s.paletteLUT.setIfInBounds i (pixelOf s.cfg (k.paletteExpand entry)) }

/-- `PAL_SIZE_SEL(registers)` (R168), 16 or 64: each register it looks at is a read of its own, before which bus
cycles may fall (R163). -/
def selectSize : PalSizeSel → Bg Nat
  | .size16 => pure 16
  | .size64 => pure 64
  | .test i mask value same other => do
    let v ← look linePoint fun s => s.x i
    if v &&& mask = value then selectSize same else selectSize other

/-- `PALETTE_ENTRIES` by the configuration's selection (R168). -/
def paletteSize : Bg Nat := fun s => selectSize s.cfg.palSizeSel s

/-- One entry of the rebuild: its bytes read one by one, then expanded. -/
def rebuildEntry (k : Collaborators) (i : Nat) : Bg Unit := do
  let s ← get
  let c := s.cfg
  let entry ← bgReadRange linePoint (c.paletteBase + i * c.paletteEntryBytes) c.paletteEntryBytes
  modify fun s => s.setPalette k i entry

/-- `paletteDirty <- false` (R168). -/
def State.clearPaletteDirty (s : State) : State := { s with paletteDirty := false }

/-- `PaletteRebuild()` (R168): the flag is cleared before the entries are read. -/
def paletteRebuildBody (k : Collaborators) : Bg Unit := do
  guarded linePoint State.clearPaletteDirty
  let n ← paletteSize
  forEach (rebuildEntry k) (List.range n)

/-- `if paletteDirty then PaletteRebuild()` (R162). -/
def paletteCheck (k : Collaborators) : Bg Unit := do
  let dirty ← look linePoint State.paletteDirty
  onlyIf dirty (paletteRebuildBody k)

/-! ## The row (R162 steps 1 to 3 and 6) -/

/-- One read of `ScanlineGen` (R163). -/
def scanRead (target : ReadTarget) : Bg Byte :=
  match target with
  | .register i => look linePoint fun s => s.x i
  | .vram a => bgRead linePoint a

/-- The reads of `ScanlineGen` for a display row, each chosen from the answers so far (notes/assumptions/6.md). -/
def scanAnswers (k : Collaborators) (row : Nat) : Nat → List Byte → Bg (List Byte)
  | 0, answers => pure answers
  | n + 1, answers => do
    let v ← scanRead (k.scanNext row answers)
    scanAnswers k row n (answers ++ [v])

/-- The pixel for a colour index among `n` palette entries (R169); any value where the index breaks the
collaborator's contract (U9). -/
def indexedPixel (s : State) (n p idx : Nat) : Pixel :=
  if h : idx < 64 then
    if idx < n then s.paletteLUT[idx] else pixelOf s.cfg (Config.freePixel s.draws p)
  else pixelOf s.cfg (Config.freePixel s.draws p)

/-- `row[p] <- paletteLUT[idx[p]]` for every pixel (R169), with `n` entries in use. The table is read by no bus
cycle and written by none, so one action stands for all (notes/assumptions/27.md). -/
def convertRow (k : Collaborators) (row : Nat) (answers : List Byte) (n : Nat) (s : State) : List Pixel :=
  (List.range s.cfg.linePixels).map fun p => indexedPixel s n p (k.scanIndex row answers p)

/-- `MergeSpriteFlags(sprFlags)` (R176). -/
def State.mergeSpriteFlags (s : State) (f : SpriteFlags) : State :=
  (s.setSt 0 (mergeSprites s.cfg f (s.st 0))).rearmStatus

/-- Steps 2 and 3 for a line of the `DISPLAY` region (R162, R167). -/
def displayRow (k : Collaborators) (y : Nat) : Bg (List Pixel) := do
  let s ← get
  let row := y - activeFirst s.cfg
  let answers ← scanAnswers k row (k.scanReads row) []
  paletteCheck k
  let n ← paletteSize
  let pixels ← look linePoint (convertRow k row answers n)
  modify State.draw
  guarded linePoint fun s => s.mergeSpriteFlags (k.scanFlags row answers)
  return pixels

/-- Pixel `p` of a border line (R166): `paletteLUT[x[BG_REG] & BG_MASK]`. -/
def borderPixel (p : Nat) (s : State) : Pixel := indexedPixel s 64 p (s.x s.cfg.bgReg &&& s.cfg.bgMask).toNat

/-- Step 1 for a border line: every pixel reads the register anew, and bus cycles may fall between those reads (R163).
That the register is read once for each pixel, and not once for the row, is the model's choice
(notes/assumptions/29.md, DESIGN CHOICE). -/
def fillRow : Bg (List Pixel) := fun s =>
  collect (fun p => look linePoint (borderPixel p)) (List.range s.cfg.linePixels) s

/-- Step 1 for a border line (R162). -/
def borderRow (k : Collaborators) : Bg (List Pixel) := do
  paletteCheck k
  let pixels ← fillRow
  modify State.draw
  return pixels

/-- The overlay and the darkening of a finished row (R165, R171), applied before it is stored (C6). -/
def finishRow (c : Config) (k : Collaborators) (y : Nat) (row : List Pixel) : List Pixel :=
  let laid :=
    if k.overlayRegion y then (List.range c.linePixels).map fun p => pixelOf c (k.overlayPixel y row p) else row
  if c.scanlineEffect = true ∧ y % 2 = 1 then laid.map fun v => pixelOf c (k.darken v) else laid

/-- Step 4 (R172): the row is stored, handed off and traced; the buffers change places. -/
def State.handOff (s : State) (y : Nat) (row : List Pixel) : State :=
  { s with
    lineBuf := s.lineBuf.set s.fillSel.val row s.fillSel.isLt
    handedOff := some s.fillSel
    fillSel := 1 - s.fillSel
    videoOut := s.videoOut ++ [(y, row)] }

/-! ## Status and interrupt -/

/-- `UpdateLineStatus(y, region)` (R174). -/
def State.updateLineStatus (s : State) (y : Nat) (region : Region) : State :=
  let t := s.setSt s.cfg.srScanline (scanlineByte s.cfg y)
  (t.setSt t.cfg.srBlank (blankByte t.cfg region (t.st t.cfg.srBlank))).rearmStatus

/-- `RaiseEndOfFrame()` (R175): the one interrupt condition of the core (spec/60_exceptions.md R251). -/
def State.raiseEndOfFrame (s : State) : State :=
  (s.setSt 0 (s.st 0 ||| s.cfg.stInt)).updateInt.rearmStatus

/-! ## Frame boundary (R177) -/

/-- `SampleTemperature()` (R179): a free value. -/
def State.sampleTemperature (s : State) : State :=
  (s.setSt s.cfg.srTemp (Config.tempSample s.draws)).draw.rearmStatus

/-- The "run every frame" bit (R177, R178). -/
def State.frameBit (s : State) : Bool := (s.x s.cfg.coprocFrameReg &&& s.cfg.coprocFrameMask) != 0

/-- The per-frame trigger of R178: `CoprocTrigger()`, then `RearmStatus()`. -/
def State.frameTrigger (s : State) : State := s.coprocTriggerOp.rearmStatus

/-- `configDirty <- false` (R180). -/
def State.clearConfigDirty (s : State) : State := { s with configDirty := false }

/-- `ConfigSave` (R180): it changes none of the spec's state; what the persisted page then holds is free
(notes/assumptions/13.md). -/
def State.configSave (s : State) : State :=
  { s with configPage := Config.savedPage s.draws s.regs s.vram, draws := s.draws + 1 }

/-- The configuration flush of R180, in the order of R177's pseudocode: the flag is cleared, then the page is saved
(notes/assumptions/28.md; the table of spec/10_state.md R34 words it the other way round). -/
def configFlush : Bg Unit := do
  guarded linePoint State.clearConfigDirty
  guarded linePoint State.configSave

/-- `FrameEnd()` (R177), in its order; `DiagnosticsRefresh()` has no effect on this state. -/
def frameEndBody : Bg Unit := do
  guarded linePoint State.sampleTemperature
  let everyFrame ← look linePoint State.frameBit
  onlyIf everyFrame (guarded linePoint State.frameTrigger)
  let dirty ← look linePoint State.configDirty
  onlyIf dirty configFlush

/-! ## LINE (R162) -/

/-- `pipeState <- p` (R161). -/
def State.setPipe (s : State) (p : PipeState) : State := { s with pipeState := p }

/-- `lineY <- (y + 1) mod LINES_PER_FRAME` (R162). A new gap for the sandbox begins with it (R193). -/
def State.nextLine (s : State) (y : Nat) : State :=
  { s with lineY := (y + 1) % s.cfg.linesPerFrame, coprocBegun := false }

/-- The row of a line outside `SYNC` before overlay and darkening (R162 steps 1 to 3). -/
def lineRow (k : Collaborators) (y : Nat) (region : Region) : Bg (List Pixel) :=
  if region = .display then displayRow k y else borderRow k

/-- Steps 1 to 4 and 6 for a line outside `SYNC`. -/
def visibleLine (k : Collaborators) (y : Nat) (region : Region) : Bg Unit := do
  modify fun s => s.setPipe .active
  let row ← lineRow k y region
  modify fun s => s.handOff y (finishRow s.cfg k y row)

/-- The pixel work of a line (R161, R162): none in `SYNC`. -/
def linePixelWork (k : Collaborators) (y : Nat) (region : Region) : Bg Unit :=
  if region = .sync then modify fun s => s.setPipe .idle else visibleLine k y region

/-- The frame boundary (R161, R162): `pipeState <- IDLE ; FrameEnd()`. -/
def frameBoundary : Bg Unit := do
  modify fun s => s.setPipe .idle
  frameEndBody

/-- `LINE` (R162) for given collaborators: line `y` of configuration `c`. -/
def lineAt (k : Collaborators) (c : Config) (y : Nat) : Bg Unit := do
  linePixelWork k y (classify c y)
  guarded linePoint fun s => s.updateLineStatus y (classify c y)
  onlyIf (y + 1 == activeEnd c) (guarded linePoint State.raiseEndOfFrame)
  onlyIf (y + 1 == displayEnd c) frameBoundary
  modify fun s => s.nextLine y

/-- `LINE` (R162) for given collaborators, at the line the state stands at. -/
def lineBody (k : Collaborators) : Bg Unit := fun s => lineAt k s.cfg s.lineY s

/-- `LINE` (R162). -/
def execLine (s : State) : Host.Outcome State Fault Refusal := runBg (lineBody Config.collab) s

/-- `FRAME_END` (R177) as a step of its own (notes/assumptions/14.md). -/
def execFrameEnd (s : State) : Host.Outcome State Fault Refusal := runBg frameEndBody s

/-- `PALETTE_REBUILD` (R168) as a step of its own (notes/assumptions/14.md). -/
def execPaletteRebuild (s : State) : Host.Outcome State Fault Refusal := runBg (paletteRebuildBody Config.collab) s

end Sys2Proof.Machine
end

