-- ==== Sys2Proof/Machine/Sandbox.lean ====
section
/-! DEFINITION. The coprocessor sandbox: `COPROC_RUN`, `BULK_XFER`, `PROT_FAULT` (spec/43_coprocessor_sandbox.md,
spec/60_exceptions.md R258). `COPROC_TRIGGER` is in Triggers.lean. -/

namespace Sys2Proof.Machine

/-! ## Points of sandbox and flash work -/

/-- What falls before an atomic action of a sandbox run, a bulk transfer or a flash service: bus cycles, whole
`LINE` steps and reset (R12, R294). Each round takes one strobe off the list, so its length bounds the rounds. -/
def workStrobes (k : Collaborators) : Nat → Bg Unit
  | 0 => pure ()
  | n + 1 => fun s =>
    match s.strobes with
    | [] => .ok () s
    | .pass :: rest => setStrobes rest s
    | .cycle w :: rest => (do setStrobes rest; strobeCycle w; workStrobes k n : Bg Unit) s
    | .line :: rest => (do setStrobes rest; lineBody k; workStrobes k n : Bg Unit) s
    | .reset :: rest => (do setStrobes rest; strobeReset : Bg Unit) s

/-- The point before an atomic action of sandbox or flash work. -/
def workPoint (k : Collaborators) : Bg Unit := fun s => workStrobes k s.strobes.length s

/-! ## Bulk transfer (R200 to R203) -/

/-- The address of a field of the signalling window (R106). -/
def sigField (c : Config) (off : Nat) : Nat := c.sigBase + off

/-- The parameters of format B, read byte by byte (R201). That each field is read once, before the copy, and in the
order source, destination, width, height, stride, flags, is the model's choice (notes/assumptions/30.md, DESIGN
CHOICE): the spec lists the operands and gives no order. -/
def bulkParams (k : Collaborators) (c : Config) : Bg BulkParams := do
  let src ← bgReadRange (workPoint k) (sigField c c.sigLayout.src) 2
  let dst ← bgReadRange (workPoint k) (sigField c c.sigLayout.dst) 2
  let width ← bgRead (workPoint k) (sigField c c.sigLayout.width)
  let height ← bgRead (workPoint k) (sigField c c.sigLayout.height)
  let stride ← bgRead (workPoint k) (sigField c c.sigLayout.stride)
  let dirflags ← bgRead (workPoint k) (sigField c c.sigLayout.dirflags)
  return { src := be16 (byteAt src 0) (byteAt src 1), dst := be16 (byteAt dst 0) (byteAt dst 1),
           width, height, stride, dirflags }

/-- One byte of the copy (R201): read immediately before it is written. -/
def bulkByte (k : Collaborators) (size : Nat) (p : BulkParams) (off : Nat) : Bg Unit := do
  let b ← bgRead (workPoint k) (walkIndex size p.src.toNat p.srcBack off)
  bgWrite (workPoint k) (walkIndex size p.dst.toNat p.dstBack off) b

/-- `BulkTransfer()` (R201) in configuration `c`: the copy, then `pending` is cleared. -/
def bulkTransferIn (k : Collaborators) (c : Config) : Bg Unit := do
  let p ← bulkParams k c
  forEach (bulkByte k (vramSize c) p) p.offsets
  bgWrite (workPoint k) (sigField c c.sigLayout.pending) 0x00

/-- `BulkTransfer()` (R201). -/
def bulkTransfer (k : Collaborators) : Bg Unit := fun s => bulkTransferIn k s.cfg s

/-- `BulkTransferIfPending()` (R200) in configuration `c`. -/
def bulkIfPendingIn (k : Collaborators) (c : Config) : Bg Unit := do
  let pending ← bgRead (workPoint k) (sigField c c.sigLayout.pending)
  onlyIf (pending != 0) (bulkTransferIn k c)

/-- `BulkTransferIfPending()` (R200): the check made at the end of every run, on both outcomes. -/
def bulkIfPending (k : Collaborators) : Bg Unit := fun s => bulkIfPendingIn k s.cfg s

/-! ## The run (R193 to R199) -/

/-- How the interpreter's actions of one step end (R196 c, R205): by itself, by a fault, or not yet (the run
stays in progress, for ever if no end comes: spec/70_reset_and_hazards.md R294). -/
inductive RunOutcome where
  | running
  | halted (pc : Nat)
  | faulted
  deriving DecidableEq, Repr

/-- The interpreter's actions still to come. -/
def State.withScript (s : State) (l : List CoprocAction) : State := { s with coprocScript := l }

/-- `CoprocExec` (R196): single-byte accesses of video memory, each atomic and interleavable, until the
interpreter halts, faults, or its actions are not given yet. A read changes nothing. -/
def interpret (k : Collaborators) : List CoprocAction → Bg RunOutcome
  | [] => pure .running
  | .read _ :: rest => do
    guarded (workPoint k) fun s => s.withScript rest
    interpret k rest
  | .write a v :: rest => do
    guarded (workPoint k) fun s => (s.memWrite a v).withScript rest
    interpret k rest
  | .halted pc :: rest => do
    guarded (workPoint k) fun s => s.withScript rest
    return .halted pc
  | .faulted :: rest => do
    guarded (workPoint k) fun s => s.withScript rest
    return .faulted

/-- `coprocessorProgramCounter <- pc'` (R197), in `COPROC_PC_BITS` bits (R37). -/
def State.setCoprocPc (s : State) (pc : Nat) : State :=
  { s with coprocessorProgramCounter := pc % 2 ^ s.cfg.coprocPcBits }

/-- The guarded close of `OnHalted` (R197). -/
def State.coprocFinish (s : State) : State :=
  let t := { s with coprocessorRequested := false }
  (t.setSt t.cfg.srBusy (t.st t.cfg.srBusy &&& ~~~t.cfg.coprocBusyMask)).rearmStatus

/-- `ProtDisable(); OnHalted(pc')` (R193, R197). -/
def onHalted (k : Collaborators) (pc : Nat) : Bg Unit := do
  modify State.protDisable
  modify fun s => s.setCoprocPc pc
  bulkIfPending k
  guarded (workPoint k) State.coprocFinish

/-- The outcome `Faulted` (R198, R258): the exception is taken, the retry is the next `COPROC_RUN`. -/
def onFaulted (k : Collaborators) : Bg Unit := do
  modify State.takeProtectionFault
  bulkIfPending k

/-- What follows an outcome (R193, R205). -/
def onOutcome (k : Collaborators) : RunOutcome → Bg Unit
  | .running => pure ()
  | .halted pc => onHalted k pc
  | .faulted => onFaulted k

/-- A run begins (R193): `ProtEnable()`; no other may begin before the next `LINE`. -/
def State.beginRun (s : State) : State := { s.protEnable with coprocBegun := true }

/-- An opportunity is open (R193): a request is pending and either its run is in progress or none has begun
since the last `LINE`. -/
def coprocEnabled (s : State) : Bool := s.coprocessorRequested && (s.protActive || !s.coprocBegun)

/-- One opportunity (R193) for given collaborators: a run begins, or the run in progress goes on. -/
def coprocRunBody (k : Collaborators) : Bg Unit := fun s =>
  (do
    onlyIf (!s.protActive) (modify State.beginRun)
    let outcome ← interpret k s.coprocScript
    onOutcome k outcome : Bg Unit) s

/-- `COPROC_RUN` (R193). Where no opportunity is open nothing happens (notes/assumptions/9.md). -/
def execCoprocRun (s : State) : Host.Outcome State Fault Refusal :=
  runBg (onlyIf (coprocEnabled s) (coprocRunBody Config.collab)) s

/-- `BULK_XFER` (R201) as a step of its own: it copies whether or not the pending field is set, and also while a run is
in progress, where R201 gives no effect; both are the model's choice (notes/assumptions/14.md). -/
def execBulkXfer (s : State) : Host.Outcome State Fault Refusal := runBg (bulkTransfer Config.collab) s

/-- `PROT_FAULT` (R258) as a step of its own: the run in progress faults. It cannot occur with the region not
installed, where nothing happens (notes/assumptions/9.md). -/
def execProtFault (s : State) : Host.Outcome State Fault Refusal :=
  runBg (onlyIf s.protActive (onFaulted Config.collab)) s

end Sys2Proof.Machine
end

