-- ==== Sys2Proof/Machine/Flash.lean ====
section
/-! DEFINITION. The flash block-transfer state machine: the service of R213 with its bodies `FLASH_FW`,
`FLASH_KREAD`, `FLASH_KWRITE` (spec/44_flash_programmer.md). `FLASH_TRIGGER` is in Triggers.lean. -/

namespace Sys2Proof.Machine

/-! ## The service frame (R211, R213) -/

/-- The fault-and-return form of a body: `raise FlashError(code)` ends it (R215). -/
def flashRaise (k : Collaborators) (code : FlashError) : Bg Unit :=
  guarded (workPoint k) fun s => s.raiseFlashError code

/-- `SetFlashStatus(phase = p)` (R212). -/
def flashPhaseTo (k : Collaborators) (p : FlashPhase) : Bg Unit := guarded (workPoint k) fun s => s.setFlashPhase p

/-- One service of a pending request (R213): the scratch copy (R211), a body, the tail. -/
def flashService (k : Collaborators) (base n : Nat) (body : List Byte → Bg Unit) : Bg Unit := do
  let scratch ← bgReadRange (workPoint k) base n
  body scratch
  guarded (workPoint k) State.flashReturn

/-! ## Storage primitives under way -/

/-- A storage primitive `f` over `[a, a + n)` while it is under way: a reset command that falls now leaves one page of
it at any value (spec/93_implementation_defined.md U20); after the reset signal storage is as the last completed
primitive left it (R297; notes/assumptions/25.md). -/
def storageInside (k : Collaborators) (a n : Nat) (f : State → State) : Bg Unit := fun s =>
  match workPoint k s with
  | .ok _ t => .ok () (f t)
  | .error .command t => .error .command (t.storTorn f a n)
  | .error .signal t => .error .signal t

/-- A storage primitive over `[a, a + n)`: the point before it begins, then the point inside it. -/
def storageStep (k : Collaborators) (a n : Nat) (f : State → State) : Bg Unit := do
  workPoint k
  storageInside k a n f

/-! ## Firmware block transfer -/

/-- `HeaderValid(scratch)` (R218). -/
def headerValid (c : Config) (b : FwBlock) : Bool :=
  b.magic0 == c.fwMagic0 && b.magic1 == c.fwMagic1 && b.flags == c.fwFlags && b.size == 256 &&
  b.family == c.fwFamily && b.magicEnd == c.fwMagicEnd &&
  decide (1 ≤ b.total.toNat) && decide (b.seq.toNat < b.total.toNat)

/-- `TargetInWindow(target, total)` (R220), on naturals. -/
def targetInWindow (c : Config) (b : FwBlock) : Bool :=
  decide (c.fwWindowBase ≤ b.target.toNat) &&
  decide (b.target.toNat + 256 ≤ c.fwWindowBase + fwWindowBytes) &&
  decide (b.target.toNat % 256 = 0) && decide (b.total.toNat * 256 ≤ fwWindowBytes)

/-- The code a firmware block is rejected with (R217): `HEADER` before `SEQUENCE` before `SIZE`. -/
def fwReject (c : Config) (session : Bool) (b : FwBlock) : Option FlashError :=
  if headerValid c b = false then some .header
  else if b.seq.toNat ≠ 0 ∧ session = false then some .sequence
  else if targetInWindow c b = false then some .size
  else none

/-- How many bytes block 0 of a session of `total` blocks erases (R221). -/
def sessionBytes (c : Config) (total : Nat) : Nat := roundup (total * 256) (erasePage c)

/-- `fwSessionActive <- true` after the erase for `total` blocks (R217): all that it erased is fresh. -/
def State.openSession (s : State) (total : Nat) : State :=
  { s with fwSessionActive := true, sessionErased := sessionBytes s.cfg total, sessionProgrammed := [] }

/-- A block has been programmed at `target` in this session (R222, R296). -/
def State.noteBlock (s : State) (target : Nat) : State := { s with sessionProgrammed := target :: s.sessionProgrammed }

/-- `fwSessionActive <- false` (R217, R223). -/
def State.closeSession (s : State) : State :=
  { s with fwSessionActive := false, sessionErased := 0, sessionProgrammed := [] }

/-- `EraseForSession(total)` (R221): from the window base. -/
def eraseForSession (k : Collaborators) (total : Nat) : Bg Unit := fun s =>
  let a := s.cfg.fwWindowBase
  let n := sessionBytes s.cfg total
  storageStep k a n (fun t => t.storErase a n) s

/-- The block-0 part (R217, R219): erase, then the session is open. -/
def fwErase (k : Collaborators) (b : FwBlock) : Bg Unit := do
  flashPhaseTo k .erasing
  eraseForSession k b.total.toNat
  modify fun s => s.openSession b.total.toNat

/-- `StorProgram(target, 256, payload)` and `CacheFlush` (R222): bytes that the session has not erased, or has programmed
already, take any value (R296). -/
def fwProgramBlock (k : Collaborators) (b : FwBlock) : Bg Unit := fun s =>
  storageStep k b.target.toNat 256
    (fun t => (t.storProgram s.sessionFresh b.target.toNat b.payload).cacheFlush b.target.toNat 256) s

/-- The program part (R222, R223) of an accepted block. -/
def fwProgram (k : Collaborators) (b : FwBlock) : Bg Unit := do
  flashPhaseTo k .writing
  fwProgramBlock k b
  modify fun s => s.noteBlock b.target.toNat
  onlyIf (b.seq.toNat + 1 == b.total.toNat) (modify State.closeSession)
  flashPhaseTo k .done

/-- The accepted branch of `FlashFirmware` (R217). -/
def fwAccept (k : Collaborators) (b : FwBlock) : Bg Unit := do
  onlyIf (b.seq.toNat == 0) (fwErase k b)
  fwProgram k b

/-- `FlashFirmware(scratch)` (R217): all three checks precede any storage change. -/
def flashFirmware (k : Collaborators) (scratch : List Byte) : Bg Unit := fun s =>
  match fwReject s.cfg s.fwSessionActive (fwBlock scratch) with
  | some code => flashRaise k code s
  | none => fwAccept k (fwBlock scratch) s

/-! ## Keyed data-block transfer -/

/-- `SlotId(j)` (R227). -/
def State.slotId (s : State) (j : Nat) : List Byte := s.storRead (slotAddr s.cfg j) 16

/-- The identifier of a free slot (R105). -/
def freeId : List Byte := List.replicate 16 0xFF

/-- `FindSlot(hint, id)` (R228): the hint, else the lowest match, else the lowest free slot; none is `FULL`. -/
def State.findSlot (s : State) (hint : Nat) (id : List Byte) : Option Nat :=
  if hint < s.cfg.kbSlotCount ∧ s.slotId hint = id then some hint
  else
    match (List.range s.cfg.kbSlotCount).find? (fun j => s.slotId j == id) with
    | some j => some j
    | none => (List.range s.cfg.kbSlotCount).find? (fun j => s.slotId j == freeId)

/-- Hint write-back (R231). -/
def hintWriteBack (k : Collaborators) (c : Config) (j : Nat) : Bg Unit :=
  bgWriteRange (workPoint k) c.stageBase (le32Bytes (BitVec.ofNat 32 j))

/-- The slot a keyed transfer uses, as the background sees storage at one point. -/
def lookSlot (k : Collaborators) (scratch : List Byte) : Bg (Option Nat) :=
  look (workPoint k) fun s => s.findSlot (kbHint scratch).toNat (kbId scratch)

/-- The body of a keyed read from slot `j` (R232). -/
def keyedReadFrom (k : Collaborators) (c : Config) (j : Nat) : Bg Unit := do
  let data ← look (workPoint k) fun s => s.storRead (slotAddr c j + 16) c.kbPayloadBytes
  bgWriteRange (workPoint k) (c.stageBase + 20) data
  hintWriteBack k c j
  flashPhaseTo k .done

/-- A keyed body for a slot, or `FULL` where there is none (R229). -/
def withSlot (k : Collaborators) (body : Nat → Bg Unit) : Option Nat → Bg Unit
  | some j => body j
  | none => flashRaise k .full

/-- `FlashKeyedRead(scratch)` (R232). -/
def flashKeyedRead (k : Collaborators) (c : Config) (scratch : List Byte) : Bg Unit := do
  let slot ← lookSlot k scratch
  withSlot k (keyedReadFrom k c) slot

/-- The merged page (R234): the slot's bytes replaced by identifier and payload, every other byte kept. -/
def mergePage (page : List Byte) (off : Nat) (id payload : List Byte) : List Byte :=
  page.take off ++ (id ++ payload) ++ page.drop (off + (id ++ payload).length)

/-- One attempt of the write loop (R233, R235): erase, then program the page just erased, every byte of it fresh; whether
the re-read matches (R236). -/
def writeAttempt (k : Collaborators) (base n : Nat) (page : List Byte) : Bg Bool := do
  flashPhaseTo k .erasing
  storageStep k base n fun s => s.storErase base n
  flashPhaseTo k .writing
  storageStep k base n fun s => (s.storProgram (fun _ => true) base page).cacheFlush base n
  look (workPoint k) fun s => s.storRead base n == page

/-- `SetFlashStatus(retry = flashRetry + 1)` (R233). -/
def flashRetryNext (k : Collaborators) : Bg Unit :=
  guarded (workPoint k) fun s => s.setFlashRetry (s.flashRetry + 1)

/-- The end of a successful keyed write (R233). -/
def writeDone (k : Collaborators) (c : Config) (j : Nat) : Bg Unit := do
  hintWriteBack k c j
  flashPhaseTo k .done

/-- What follows an attempt (R236): success ends the transfer; a mismatch with no retry left is `VERIFY`. -/
def afterAttempt (k : Collaborators) (c : Config) (j : Nat) (retry : Option (Bg Unit)) (matched : Bool) : Bg Unit :=
  if matched then writeDone k c j
  else match retry with
    | some again => do flashRetryNext k; again
    | none => flashRaise k .verify

/-- The loop of `FlashKeyedWrite` (R233) with `left = MAX_RETRIES - flashRetry` retries left (R236). -/
def writeLoop (k : Collaborators) (c : Config) (j : Nat) (page : List Byte) : Nat → Bg Unit
  | 0 => do
    let matched ← writeAttempt k (pageBase c j) (erasePage c) page
    afterAttempt k c j none matched
  | left + 1 => do
    let matched ← writeAttempt k (pageBase c j) (erasePage c) page
    afterAttempt k c j (some (writeLoop k c j page left)) matched

/-- The body of a keyed write to slot `j` (R233, R234). -/
def keyedWriteTo (k : Collaborators) (c : Config) (scratch : List Byte) (j : Nat) : Bg Unit := do
  let old ← look (workPoint k) fun s => s.storRead (pageBase c j) (erasePage c)
  let retries ← look (workPoint k) fun s => c.maxRetries - s.flashRetry.toNat
  let page := mergePage old (slotAddr c j - pageBase c j) (kbId scratch) (kbPayload scratch c.kbPayloadBytes)
  writeLoop k c j page retries

/-- `FlashKeyedWrite(scratch)` (R233). -/
def flashKeyedWrite (k : Collaborators) (c : Config) (scratch : List Byte) : Bg Unit := do
  let slot ← lookSlot k scratch
  withSlot k (keyedWriteTo k c scratch) slot

/-! ## The three services -/

/-- A service may be taken (R213): a request is pending, and no sandbox run is in progress (R12, R294). -/
def flashEnabled (s : State) : Bool := s.flashRequested && !s.protActive

/-- The firmware service for given collaborators. -/
def fwServiceBody (k : Collaborators) : Bg Unit := fun s =>
  flashService k s.cfg.stageBase fwBlockBytes (flashFirmware k) s

/-- The keyed-read service for given collaborators. -/
def kreadServiceBody (k : Collaborators) : Bg Unit := fun s =>
  flashService k s.cfg.stageBase (20 + s.cfg.kbPayloadBytes) (flashKeyedRead k s.cfg) s

/-- The keyed-write service for given collaborators. -/
def kwriteServiceBody (k : Collaborators) : Bg Unit := fun s =>
  flashService k s.cfg.stageBase (20 + s.cfg.kbPayloadBytes) (flashKeyedWrite k s.cfg) s

/-- `FLASH_FW` (R217): the service of a pending firmware request (R213). Where none may be taken nothing happens
(notes/assumptions/9.md). -/
def execFlashFw (s : State) : Host.Outcome State Fault Refusal :=
  runBg (onlyIf (flashEnabled s && !s.flashMode.keyed) (fwServiceBody Config.collab)) s

/-- `FLASH_KREAD` (R232): the service of a pending keyed read request (R213). Where none may be taken nothing
happens (notes/assumptions/9.md). -/
def execFlashKread (s : State) : Host.Outcome State Fault Refusal :=
  runBg (onlyIf (flashEnabled s && s.flashMode.keyed && s.flashMode.read) (kreadServiceBody Config.collab)) s

/-- `FLASH_KWRITE` (R233): the service of a pending keyed write request (R213). Where none may be taken nothing
happens (notes/assumptions/9.md). -/
def execFlashKwrite (s : State) : Host.Outcome State Fault Refusal :=
  runBg (onlyIf (flashEnabled s && s.flashMode.keyed && !s.flashMode.read) (kwriteServiceBody Config.collab)) s

end Sys2Proof.Machine
end

