-- ==== Sys2Proof/Machine/Pseudo.lean ====
section
/-! DEFINITION. The pseudo-operations of the trace syntax (spec/30_encoding.md R97): each is the sequence of host
cycles of its expansion, issued one after another. Two choices of the model: the expansion is one step, into which
nothing falls (notes/assumptions/32.md), and with a first byte pending, where R97 calls the line not well-formed, its
cycles are taken as they come, so the first WA completes that pair (notes/assumptions/31.md). -/

namespace Sys2Proof.Machine

/-- `SETREG r, v`. -/
def execSetreg (r : RegIndex) (v : Byte) (s : State) : Host.Outcome State Fault Refusal :=
  .next (s.busCycles (setregWords r v))

/-- `SETRADDR a`. -/
def execSetraddr (a : BitVec 14) (s : State) : Host.Outcome State Fault Refusal :=
  .next (s.busCycles (setraddrWords a))

/-- `SETWADDR a`. -/
def execSetwaddr (a : BitVec 14) (s : State) : Host.Outcome State Fault Refusal :=
  .next (s.busCycles (setwaddrWords a))

/-- `SELSTATUS s`. -/
def execSelstatus (sel : Byte) (s : State) : Host.Outcome State Fault Refusal :=
  .next (s.busCycles (selstatusWords s.cfg sel))

/-- `UNLOCK`. -/
def execUnlock (s : State) : Host.Outcome State Fault Refusal := .next (s.busCycles (unlockWords s.cfg))

/-- `FILL a, b0..bn`. -/
def execFill (a : BitVec 14) (bytes : List Byte) (s : State) : Host.Outcome State Fault Refusal :=
  .next (s.busCycles (fillWords a bytes))

/-- `DUMP a, n`. -/
def execDump (a : BitVec 14) (n : Nat) (s : State) : Host.Outcome State Fault Refusal :=
  .next (s.busCycles (dumpWords a n))

end Sys2Proof.Machine
end

