-- ==== Sys2Proof/Machine/Dispatch.lean ====
section
/-! DEFINITION. One arm per operation of spec/opcode_table.json. -/

namespace Sys2Proof.Machine

def exec (i : Instr) (s : State) : Host.Outcome State Fault Refusal :=
  match i with
  -- bus cycles
  | .wd b => Sys2Proof.Machine.execWd b s
  | .waFirst b => Sys2Proof.Machine.execWaFirst b s
  | .waSecond b => Sys2Proof.Machine.execWaSecond b s
  | .rd => Sys2Proof.Machine.execRd s
  | .rs => Sys2Proof.Machine.execRs s
  -- completed pairs
  | .setaddrR addr => Sys2Proof.Machine.execSetaddrR addr s
  | .setaddrW addr => Sys2Proof.Machine.execSetaddrW addr s
  | .regwrite idx val => Sys2Proof.Machine.execRegwrite idx val s
  -- trigger values
  | .flashTrigger value => Sys2Proof.Machine.execFlashTrigger value s
  | .flashFw => Sys2Proof.Machine.execFlashFw s
  | .flashKread => Sys2Proof.Machine.execFlashKread s
  | .flashKwrite => Sys2Proof.Machine.execFlashKwrite s
  -- internal events
  | .coprocTrigger => Sys2Proof.Machine.execCoprocTrigger s
  | .reset => Sys2Proof.Machine.execReset s
  | .line => Sys2Proof.Machine.execLine s
  | .frameEnd => Sys2Proof.Machine.execFrameEnd s
  | .coprocRun => Sys2Proof.Machine.execCoprocRun s
  | .bulkXfer => Sys2Proof.Machine.execBulkXfer s
  | .paletteRebuild => Sys2Proof.Machine.execPaletteRebuild s
  | .protFault => Sys2Proof.Machine.execProtFault s
  -- pseudo-operations
  | .setreg r v => Sys2Proof.Machine.execSetreg r v s
  | .setraddr a => Sys2Proof.Machine.execSetraddr a s
  | .setwaddr a => Sys2Proof.Machine.execSetwaddr a s
  | .selstatus sel => Sys2Proof.Machine.execSelstatus sel s
  | .unlock => Sys2Proof.Machine.execUnlock s
  | .fill a bytes => Sys2Proof.Machine.execFill a bytes s
  | .dump a n => Sys2Proof.Machine.execDump a n s

end Sys2Proof.Machine
end

