-- ==== Sys2Proof/Machine/Step.lean ====
section
/-! DEFINITION. One step of the machine: the next trace line is taken and run. -/

namespace Sys2Proof.Machine

/-- What of the state decides how the next line decodes (R96; event 6: notes/assumptions/4.md). -/
def State.decodeCtx (s : State) : DecodeCtx := { writeStage := s.writeStage, trigValue := s.x s.cfg.flashTrigReg }

/-- The trace line taken off the model's queue. -/
def State.withInputs (s : State) (l : List TraceLine) : State := { s with inputs := l }

/-- One step. A configuration that breaks a constraint is refused (U22); with no line placed nothing happens
(notes/assumptions/2.md); a line that is no operation of the table is refused by name. -/
def step (s : State) : Host.Outcome State Fault Refusal :=
  if configValid s.cfg then
    match s.inputs with
    | [] => .next s
    | l :: rest =>
      match decode s.decodeCtx l with
      | .ok i => exec i (s.withInputs rest)
      | .error e => .refused (.undecodable e)
  else .refused .invalidConfig

/-- The state with a table word placed where `step` takes its next line (notes/assumptions/2.md, 3.md). -/
def State.withFetchWord (s : State) (nbits w : Nat) : State :=
  match tableLine nbits w with
  | some l => s.withInputs (l :: s.inputs)
  | none => s

end Sys2Proof.Machine
end

