-- ==== Sys2Proof/Safety.lean ====
section
/-! DEFINITION. What holds of every state the core can be in between two steps: the invariants of
spec/10_state.md R46 and the ranges of its other rules. -/

namespace Sys2Proof.Machine

/-- (I-B): the interrupt line is exactly pending AND enabled (R33, R46, R135). -/
def State.lineAgrees (s : State) : Prop := s.interruptLine = interruptLevel s.cfg (s.st 0) (s.x s.cfg.ieReg)

/-- (I-C): the status latch is the selected status register (R46). -/
def State.statusLatched (s : State) : Prop := s.raStatus = s.st s.statusSel

/-- `raData` is the byte under the address latch: what (I-D) promises while no background agent has written that
cell since the last re-arm (R46). -/
def State.dataLatched (s : State) : Prop := s.raData = s.memRead s.addressLatch

/-- (I-F): the flash status byte is the packing of the structured fields (R42, R46). -/
def State.flashPacked (s : State) : Prop :=
  s.st s.cfg.srFlash = flashPack s.flashRunning s.flashRetry s.flashError s.flashPhase

/-- The coprocessor-busy bits are set exactly while a request is pending (R192). -/
def State.busyAgrees (s : State) : Prop :=
  s.st s.cfg.srBusy &&& s.cfg.coprocBusyMask = if s.coprocessorRequested then s.cfg.coprocBusyMask else 0

/-- The flashing bits are set exactly while a flash request is pending, which is while it is running (R214). -/
def State.flashingAgrees (s : State) : Prop :=
  (s.st s.cfg.srBusy &&& s.cfg.flashingMask = if s.flashRequested then s.cfg.flashingMask else 0) ∧
  s.flashRunning = s.flashRequested

/-- Reading an extended status register clears none of the busy, flashing and flash-status bits. R125 leaves
`CLR_MASK` a parameter there; this is what its default gives, and R261 says of `SR_FLASH`. -/
def keepsLevels (c : Config) : Prop :=
  clrMask c c.srFlash = 0 ∧ clrMask c c.srBusy &&& (c.coprocBusyMask ||| c.flashingMask) = 0

/-- The ranges of R28, R37 and R39. -/
def State.inRange (s : State) : Prop :=
  s.addressLatch < vramSize s.cfg ∧ s.lineY < s.cfg.linesPerFrame ∧
  s.coprocessorProgramCounter < 2 ^ s.cfg.coprocPcBits

/-- Every cell of a memory lies below a bound. -/
def Mem.below (m : Mem) (n : Nat) : Prop := ∀ e ∈ m, e.1 < n

/-- The memories are in canonical form, and video memory lists only cells that exist (R27). -/
def State.memoriesWf (s : State) : Prop :=
  Mem.wf vramUnlisted s.vram = true ∧ Mem.wf storageUnlisted s.storage = true ∧ Mem.below s.vram (vramSize s.cfg)

/-- The buffer being filled is never the one handed off (R40, R172). -/
def State.buffersAgree (s : State) : Prop := s.handedOff = none ∨ s.handedOff = some (1 - s.fillSel)

/-- The protection region is installed only while a request is pending (R194, R198). -/
def State.sandboxAgrees (s : State) : Prop := s.protActive = true → s.coprocessorRequested = true

/-- The safe states: all of the above together, in a configuration the spec allows. -/
structure State.Safe (s : State) : Prop where
  valid : configValid s.cfg = true
  line : s.lineAgrees
  latch : s.statusLatched
  range : s.inRange
  memories : s.memoriesWf
  buffers : s.buffersAgree
  sandbox : s.sandboxAgrees

/-- The reporting bytes of the background engines agree with their state (R192, R214, I-F). -/
structure State.Reports (s : State) : Prop where
  valid : configValid s.cfg = true
  levels : keepsLevels s.cfg
  flash : s.flashPacked
  busy : s.busyAgrees
  flashing : s.flashingAgrees

/-! ## The terms the statements use -/

/-- Nothing falls inside a background operation: no bus cycle, no line, no reset (R12, R77). -/
def State.quiet (s : State) : Prop := s.strobes = []

/-- One byte of storage (R69). -/
def State.storByte (s : State) (a : Nat) : Byte := Mem.read storageUnlisted s.storage a

/-- What reading video memory gives, by address. -/
abbrev View := Nat → Byte

/-- A view after one byte is stored: indices modulo the size (R61). -/
def View.put (size : Nat) (m : View) (a : Nat) (v : Byte) : View := fun b => if b % size = a % size then v else m b

/-- A view after a run of bytes is stored from `a` up, in ascending order. -/
def View.putRun (size : Nat) (m : View) (a : Nat) : List Byte → View
  | [] => m
  | v :: vs => View.putRun size (View.put size m a v) (a + 1) vs

/-- A view after the interpreter's accesses (R196). -/
def View.actions (size : Nat) (m : View) : List CoprocAction → View
  | [] => m
  | .write a v :: rest => View.actions size (View.put size m a v) rest
  | _ :: rest => View.actions size m rest

/-- The interpreter's action is an access, not an end (R196). -/
def CoprocAction.isAccess : CoprocAction → Bool
  | .read _ => true
  | .write _ _ => true
  | .halted _ => false
  | .faulted => false

/-- `(base + ss * k) mod size`, in the integers (R201, R202). -/
def bulkAddress (size base : Nat) (back : Bool) (k : Nat) : Nat :=
  (((base : Int) + (if back then -1 else 1) * (k : Int)) % (size : Int)).toNat

/-- The fields of format B in a view (R106), with the field offsets of the configuration. -/
def View.bulkParams (c : Config) (m : View) : BulkParams where
  src := m (c.sigBase + c.sigLayout.src) ++ m (c.sigBase + c.sigLayout.src + 1)
  dst := m (c.sigBase + c.sigLayout.dst) ++ m (c.sigBase + c.sigLayout.dst + 1)
  width := m (c.sigBase + c.sigLayout.width)
  height := m (c.sigBase + c.sigLayout.height)
  stride := m (c.sigBase + c.sigLayout.stride)
  dirflags := m (c.sigBase + c.sigLayout.dirflags)

/-- Row `r` of the copy, its first `n` columns (R201). -/
def View.bulkRow (size : Nat) (p : BulkParams) (r : Nat) : Nat → View → View
  | 0, m => m
  | n + 1, m =>
    let m' := View.bulkRow size p r n m
    let k := r * p.stride.toNat + n
    View.put size m' (bulkAddress size p.dst.toNat (p.dirflags.getLsbD 1) k)
      (m' (bulkAddress size p.src.toNat (p.dirflags.getLsbD 0) k))

/-- The first `n` rows of the copy (R201). -/
def View.bulkRows (size : Nat) (p : BulkParams) : Nat → View → View
  | 0, m => m
  | n + 1, m => View.bulkRow size p n p.width.toNat (View.bulkRows size p n m)

/-- The whole transfer: the copy by the fields the window holds before it (notes/assumptions/30.md), then `pending`
cleared (R201). -/
def View.bulk (c : Config) (m : View) : View :=
  View.put (vramSize c) (View.bulkRows (vramSize c) (m.bulkParams c) (m.bulkParams c).height.toNat m)
    (c.sigBase + c.sigLayout.pending) 0x00

/-- The transfer where one is pending (R200). -/
def View.bulkIfPending (c : Config) (m : View) : View :=
  if m (c.sigBase + c.sigLayout.pending) = 0 then m else m.bulk c

/-- The palette size that a selection gives for the registers `x` (R168 `PAL_SIZE_SEL`). -/
def selectedSize (x : RegIndex → Byte) : PalSizeSel → Nat
  | .size16 => 16
  | .size64 => 64
  | .test i mask value same other => if x i &&& mask = value then selectedSize x same else selectedSize x other

/-- `PALETTE_ENTRIES` for the registers as they stand (R168). -/
def State.paletteEntries (s : State) : Nat := selectedSize s.x s.cfg.palSizeSel

/-- Entry `i` of the palette table after a rebuild from the state (R168): expanded from its bytes below the palette's
size, as it was above. -/
def State.rebuiltEntry (s : State) (i : Nat) (h : i < 64) : Pixel :=
  if i < s.paletteEntries then
    Config.paletteExpand ((List.range s.cfg.paletteEntryBytes).map fun k =>
      s.memRead (s.cfg.paletteBase + i * s.cfg.paletteEntryBytes + k)) % 2 ^ s.cfg.pixelBits
  else s.paletteLUT[i]

/-- The pixel of entry `i` that a line outside `SYNC` shows: the table is rebuilt first where the palette is dirty
(R162, R168). -/
def State.lineEntry (s : State) (i : Nat) (h : i < 64) : Pixel :=
  if s.paletteDirty = true then s.rebuiltEntry i h else s.paletteLUT[i]

/-- The 32-bit value staged at offset `off`, least significant byte first (R9 `LE32`, R100, R104). -/
def State.stagedWord (s : State) (off : Nat) : BitVec 32 :=
  s.memRead (s.cfg.stageBase + off + 3) ++ s.memRead (s.cfg.stageBase + off + 2) ++
    s.memRead (s.cfg.stageBase + off + 1) ++ s.memRead (s.cfg.stageBase + off)

/-- The staged firmware block: the fields of format F at their offsets (R100). -/
def State.stagedBlock (s : State) : FwBlock where
  magic0 := s.stagedWord 0
  magic1 := s.stagedWord 4
  flags := s.stagedWord 8
  target := s.stagedWord 12
  size := s.stagedWord 16
  seq := s.stagedWord 20
  total := s.stagedWord 24
  family := s.stagedWord 28
  payload := (List.range 256).map fun k => s.memRead (s.cfg.stageBase + 32 + k)
  magicEnd := s.stagedWord 288

/-- The staged hint of a keyed block (R104). -/
def State.stagedHint (s : State) : Nat := (s.stagedWord 0).toNat

/-- The staged identifier of a keyed block (R104). -/
def State.stagedId (s : State) : List Byte := (List.range 16).map fun k => s.memRead (s.cfg.stageBase + 4 + k)

/-- The last of a list of writes whose place answers `hits`, or 0 where there is none: what a zeroed array holds after
the list (R284). -/
def lastWrite {α : Type} (hits : α → Bool) (writes : List (α × Byte)) : Byte :=
  match writes.reverse.find? fun e => hits e.1 with
  | some e => e.2
  | none => 0x00

/-- The first `n` bytes staged for the flash programmer (R211). -/
def State.staged (s : State) (n : Nat) : List Byte := (List.range n).map fun k => s.memRead (s.cfg.stageBase + k)

/-- The bytes `ScanlineGen` reads for a display row of a state at rest: `n` more reads after `answers` (R163). -/
def State.scanned (s : State) (k : Collaborators) (row : Nat) : Nat → List Byte → List Byte
  | 0, answers => answers
  | n + 1, answers =>
    s.scanned k row n (answers ++ [match k.scanNext row answers with
      | .register i => s.x i
      | .vram a => s.memRead a])

/-- What the overlay and the darkening make of a row of line `y` (R165, R171). -/
def shownRow (c : Config) (k : Collaborators) (y : Nat) (row : List Pixel) : List Pixel :=
  let laid := if k.overlayRegion y then (List.range c.linePixels).map fun p => k.overlayPixel y row p % 2 ^ c.pixelBits
    else row
  if c.scanlineEffect = true ∧ y % 2 = 1 then laid.map fun v => k.darken v % 2 ^ c.pixelBits else laid

/-- Pending AND enabled, as R33 writes it. -/
def State.pendingAndEnabled (s : State) : Bool :=
  decide (s.st 0 &&& s.cfg.stInt ≠ 0 ∧ s.x s.cfg.ieReg &&& s.cfg.ieMask ≠ 0)

/-- The register a write addressed to `h` reaches (R141). -/
def State.targetIndex (s : State) (h : RegIndex) : RegIndex :=
  if s.unlocked = true then h else h &&& s.cfg.lockedIndexMask

/-- A write of `v` to register `i` is not the reset command (R142 row 7, R151). -/
def notResetCommand (c : Config) (i : RegIndex) (v : Byte) : Prop :=
  ∀ r m, c.resetCmd = some (r, m) → i = r → v &&& m = 0

/-- A line of the `DISPLAY` region (R161). -/
def isDisplayLine (c : Config) (y : Nat) : Prop :=
  c.displayFirst + c.borderTop ≤ y ∧ y < c.displayFirst + c.borderTop + c.activeLines

/-- A line outside `SYNC` (R161). -/
def isVisibleLine (c : Config) (y : Nat) : Prop :=
  c.displayFirst ≤ y ∧ y < c.displayFirst + c.borderTop + c.activeLines + c.borderBottom

/-- `y = ACTIVE_LAST` (R161), in naturals. -/
def isLastActive (c : Config) (y : Nat) : Prop := y + 1 = c.displayFirst + c.borderTop + c.activeLines

/-- `y = DISPLAY_LAST` (R161), in naturals. -/
def isLastDisplay (c : Config) (y : Nat) : Prop :=
  y + 1 = c.displayFirst + c.borderTop + c.activeLines + c.borderBottom

/-- `HeaderValid` (R218). -/
def fwHeaderOk (c : Config) (b : FwBlock) : Prop :=
  b.magic0 = c.fwMagic0 ∧ b.magic1 = c.fwMagic1 ∧ b.flags = c.fwFlags ∧ b.size = 256 ∧ b.family = c.fwFamily ∧
  b.magicEnd = c.fwMagicEnd ∧ 1 ≤ b.total.toNat ∧ b.seq.toNat < b.total.toNat

/-- `TargetInWindow` (R220). -/
def fwTargetOk (c : Config) (b : FwBlock) : Prop :=
  c.fwWindowBase ≤ b.target.toNat ∧ b.target.toNat + 256 ≤ c.fwWindowBase + 262144 ∧ b.target.toNat % 256 = 0 ∧
  b.total.toNat * 256 ≤ 262144

/-- The sequence condition (R219). -/
def fwSequenceOk (s : State) (b : FwBlock) : Prop := b.seq.toNat = 0 ∨ s.fwSessionActive = true

/-- A flash service may be taken (R213) and no sandbox run is in progress (R12). -/
def State.flashReady (s : State) : Prop := s.flashRequested = true ∧ s.protActive = false

/-- The identifier stored in slot `j` (R227), byte `k`. -/
def State.slotByte (s : State) (j k : Nat) : Byte := s.storByte (s.cfg.kbBase + j * (16 + s.cfg.kbPayloadBytes) + k)

/-- Slot `j` carries an identifier (R105, R228). -/
def State.slotHas (s : State) (j : Nat) (id : List Byte) : Prop := ∀ k, k < 16 → s.slotByte j k = byteAt id k

/-- Slot `j` is free (R105). -/
def State.slotFree (s : State) (j : Nat) : Prop := ∀ k, k < 16 → s.slotByte j k = 0xFF

/-- The slot that `FindSlot(hint, id)` returns (R228): the hint where it matches, else the lowest match, else the
first free slot; none where there is neither. -/
def State.choosesSlot (s : State) (hint : Nat) (id : List Byte) : Option Nat → Prop
  | some j =>
    j < s.cfg.kbSlotCount ∧
    ((j = hint ∧ s.slotHas hint id) ∨
     (¬ (hint < s.cfg.kbSlotCount ∧ s.slotHas hint id) ∧ s.slotHas j id ∧ ∀ i, i < j → ¬ s.slotHas i id) ∨
     ((∀ i, i < s.cfg.kbSlotCount → ¬ s.slotHas i id) ∧ s.slotFree j ∧ ∀ i, i < j → ¬ s.slotFree i))
  | none => ∀ i, i < s.cfg.kbSlotCount → ¬ s.slotHas i id ∧ ¬ s.slotFree i

/-- No two slots carry one identifier, free slots apart (R228 "when identifiers are unique in storage"). -/
def State.slotsUnique (s : State) : Prop :=
  ∀ i j id, i < s.cfg.kbSlotCount → j < s.cfg.kbSlotCount → s.slotHas i id → s.slotHas j id → s.slotFree i ∨ i = j

end Sys2Proof.Machine
end

