-- ==== Sys2Proof/Certificates/Slice0/Obligations.lean ====
section
/-! DEFINITION. The statements for the provers. Each docstring names the rule of spec/ it formalises; the rules'
parameters are read from the state's configuration, so a statement holds for every configuration. -/

open Sys2Proof Sys2Proof.Machine

/-! ## Encoding and stepping -/

/-- Decoding the line that encodes an operation gives the operation back, for every operation with every operand; the
two rows of `WA` are told apart by `writeStage` (R96). -/
def Obligations.DecodeEncode : Prop :=
  ∀ (i : Instr) (ctx : DecodeCtx), i.wellFormed = true →
    (∀ b, i = .waFirst b → ctx.writeStage = 0) → (∀ b, i = .waSecond b → ctx.writeStage = 1) →
    decode ctx (encode i) = .ok i

/-- R91, R93, R95: every cycle word and every pair word stands for an operation, whose encoding is that word with the
ignored bits cleared: `DATA` of a read cycle, `B[6]` of a register pair. -/
def Obligations.EncodeDecodeBusWords : Prop :=
  (∀ (stage : BitVec 1) (w : BitVec 10),
    encode (decodeCycle stage w) = .cycle (if w.getLsbD 9 then w &&& 0x300 else w)) ∧
  (∀ p : BitVec 16, encode (decodePair p) = .pair (if p.getLsbD 15 then p &&& 0xBFFF else p))

/-- A few words of the spec's own examples and tables decode to the operations they stand for (R91, R93, R95, R98, R111). -/
def Obligations.SpecWordsDecode : Prop :=
  decode DecodeCtx.atReset (.cycle 0x0AB) = .ok (.wd 0xAB) ∧
  decode DecodeCtx.atReset (.cycle 0x156) = .ok (.waFirst 0x56) ∧
  decode { writeStage := 1, trigValue := 0 } (.cycle 0x112) = .ok (.waSecond 0x12) ∧
  decode DecodeCtx.atReset (.cycle 0x200) = .ok .rd ∧
  decode DecodeCtx.atReset (.cycle 0x300) = .ok .rs ∧
  decode DecodeCtx.atReset (.pair 0x1234) = .ok (.setaddrR 0x1234) ∧
  decode DecodeCtx.atReset (.pair 0x5234) = .ok (.setaddrW 0x1234) ∧
  decode DecodeCtx.atReset (.pair 0x8200) = .ok (.regwrite 2 0) ∧
  decode DecodeCtx.atReset (.pair 0xC200) = .ok (.regwrite 2 0) ∧
  decode DecodeCtx.atReset (.service 0x82) = .ok .flashFw ∧
  decode DecodeCtx.atReset (.service 0x81) = .ok .flashKwrite ∧
  decode DecodeCtx.atReset (.service 0x83) = .ok .flashKread ∧
  decode DecodeCtx.atReset (.event 1) = .ok .line ∧
  decode DecodeCtx.atReset (.event 11) = .ok .protFault

/-- A step takes the next trace line and runs the operation it decodes to, in the state with that line taken off. -/
def Obligations.StepRunsDecoded : Prop :=
  ∀ (s : State) (l : TraceLine) (rest : List TraceLine) (i : Instr),
    configValid s.cfg = true → s.inputs = l :: rest → decode s.decodeCtx l = .ok i →
    step s = exec i { s with inputs := rest }

/-- A table word placed by `withFetchWord` is the one the next step runs, in the state it was placed in. -/
def Obligations.PlacedWordRuns : Prop :=
  ∀ (s : State) (nbits w : Nat) (l : TraceLine) (i : Instr),
    configValid s.cfg = true → tableLine nbits w = some l → decode s.decodeCtx l = .ok i →
    step (s.withFetchWord nbits w) = exec i s

/-- What else a step does: nothing with no line placed (notes/assumptions/2.md, the model's choice); a refusal by name of
a line that is no operation and of a configuration that breaks a constraint (U22). -/
def Obligations.StepOtherwise : Prop :=
  (∀ s : State, configValid s.cfg = true → s.inputs = [] → step s = .next s) ∧
  (∀ (s : State) (l : TraceLine) (rest : List TraceLine) (e : DecodeError),
    configValid s.cfg = true → s.inputs = l :: rest → decode s.decodeCtx l = .error e →
    step s = .refused (.undecodable e)) ∧
  (∀ s : State, configValid s.cfg = false → step s = .refused .invalidConfig)

/-! ## Bus cycles -/

/-- R123: `WD b` stores `b` under the address latch, advances the latch modulo `VRAM_SIZE`, clears `writeStage`, re-arms
the data latch at the new address, and changes nothing else. -/
def Obligations.WriteDataCycle : Prop :=
  ∀ (b : Byte) (s : State), ∃ t, exec (.wd b) s = .next t ∧
    t = { s with
      vram := t.vram
      addressLatch := (s.addressLatch + 1) % vramSize s.cfg
      writeStage := 0
      raData := t.memRead ((s.addressLatch + 1) % vramSize s.cfg) } ∧
    ∀ a, t.memRead a = if a % vramSize s.cfg = s.addressLatch % vramSize s.cfg then b else s.memRead a

/-- R127: `RD` returns the latched byte, advances the address latch and re-arms the data latch; nothing else changes but
`writeStage` where `READ_RESETS_STAGE`. -/
def Obligations.ReadDataCycle : Prop :=
  ∀ s : State, ∃ t, exec .rd s = .next t ∧
    t = { s with
      hostReads := s.hostReads ++ [s.raData]
      addressLatch := (s.addressLatch + 1) % vramSize s.cfg
      raData := s.memRead ((s.addressLatch + 1) % vramSize s.cfg)
      writeStage := if s.cfg.readResetsStage then 0 else s.writeStage }

/-- R124, R125, R126: `RS` returns the latched status byte, clears the exposed bits of the selected register, drops the
line if the interrupt bit was cleared, and re-arms the status latch; every other status register is unchanged. -/
def Obligations.ReadStatusCycle : Prop :=
  ∀ s : State, ∃ t, exec .rs s = .next t ∧
    t = { s with
      hostReads := s.hostReads ++ [s.raStatus]
      status := t.status
      interruptLine := t.pendingAndEnabled
      raStatus := t.st s.statusSel
      writeStage := if s.cfg.readResetsStage then 0 else s.writeStage } ∧
    (s.statusSel = 0 → s.cfg.sr0ReadResetsIndex = false →
      t.st 0 = s.st 0 &&& ~~~(s.cfg.stInt ||| s.cfg.st5S ||| s.cfg.stCol)) ∧
    (s.statusSel = 0 → s.cfg.sr0ReadResetsIndex = true →
      t.st 0 = (s.st 0 &&& ~~~(s.cfg.stInt ||| s.cfg.st5S ||| s.cfg.stCol)) &&& ~~~s.cfg.stIdx ||| s.cfg.stIdxNone) ∧
    (s.statusSel ≠ 0 → (∀ e ∈ s.cfg.clrMaskExt, e.1 ≠ s.statusSel) → t.st s.statusSel = s.st s.statusSel) ∧
    (s.statusSel ≠ 0 → ∀ l₁ m l₂, s.cfg.clrMaskExt = l₁ ++ (s.statusSel, m) :: l₂ →
      (∀ e ∈ l₁, e.1 ≠ s.statusSel) → t.st s.statusSel = s.st s.statusSel &&& ~~~m) ∧
    ∀ j, j ≠ s.statusSel → t.st j = s.st j

/-- R128: the first byte of a pair replaces bits 7:0 of the address latch, all higher bits kept, and re-arms. -/
def Obligations.FirstAddressByte : Prop :=
  ∀ (b : Byte) (s : State), ∃ t, exec (.waFirst b) s = .next t ∧
    t = { s with
      addressLatch := t.addressLatch
      writeStage := 1
      interruptLine := s.pendingAndEnabled
      raData := s.memRead t.addressLatch
      raStatus := s.st s.statusSel } ∧
    t.addressLatch % 256 = b.toNat ∧ t.addressLatch / 256 = s.addressLatch / 256

/-- R129, R130, R134: a second byte `B` with its top bit clear sets the address to `((B & 0x3F) << 8) | A`, records bit 6,
and `writeStage` returns to 0. -/
def Obligations.SecondByteSetsAddress : Prop :=
  ∀ (b : Byte) (s : State), b.getLsbD 7 = false → ∃ t, exec (.waSecond b) s = .next t ∧
    t = { s with
      addressLatch := (b &&& 0x3F).toNat * 256 + s.addressLatch % 256
      addressAutoIncrement := if b.getLsbD 6 then 1 else 0
      writeStage := 0
      interruptLine := s.pendingAndEnabled
      raData := s.memRead ((b &&& 0x3F).toNat * 256 + s.addressLatch % 256)
      raStatus := s.st s.statusSel }

/-- R129, R134: a second byte `B` with its top bit set writes register `B & 0x3F` with the latched byte: it does what
`REGWRITE` of that index and value does. -/
def Obligations.SecondByteWritesRegister : Prop :=
  ∀ (b : Byte) (s : State), b.getLsbD 7 = true →
    ∃ t, exec (.waSecond b) s = .next t ∧
      exec (.regwrite (BitVec.ofNat 6 b.toNat) (BitVec.ofNat 8 s.addressLatch)) s = .next t

/-- R92, R93, R96: with no byte pending, the two address-mode cycles of a pair do what the pair's operation does. -/
def Obligations.PairIsItsTwoCycles : Prop :=
  ∀ (p : BitVec 16) (s : State), s.writeStage = 0 →
    ∃ t, exec (decodePair p) s = .next t ∧
      s.busCycles [0x100 ||| (p.extractLsb' 0 8).setWidth 10, 0x100 ||| (p.extractLsb' 8 8).setWidth 10] = t

/-- R130: `SETADDR.R` and `SETADDR.W` load the 14-bit address, record their mode, and re-arm; the address is the same for
both forms. -/
def Obligations.SetAddressPairs : Prop :=
  ∀ (a : BitVec 14) (s : State), ∃ t u, exec (.setaddrR a) s = .next t ∧ exec (.setaddrW a) s = .next u ∧
    t = { s with
      addressLatch := a.toNat
      addressAutoIncrement := 0
      writeStage := 0
      interruptLine := s.pendingAndEnabled
      raData := s.memRead a.toNat
      raStatus := s.st s.statusSel } ∧
    u = { t with addressAutoIncrement := 1 }

/-- R131: after any sequence of bus cycles from a state whose data latch is fresh, `RD` returns the byte at the address
latch and the latch has advanced by one. -/
def Obligations.ReadAheadCorrect : Prop :=
  ∀ (ws : List (BitVec 10)) (s : State), s.dataLatched →
    ∃ u, exec .rd (s.busCycles ws) = .next u ∧
      u.hostReads = (s.busCycles ws).hostReads ++ [(s.busCycles ws).memRead (s.busCycles ws).addressLatch] ∧
      u.addressLatch = ((s.busCycles ws).addressLatch + 1) % vramSize s.cfg

/-- R46, R129, R135: every address-mode write and every completed pair ends with the interrupt line, the status latch and
the data latch recomputed, whatever they were. -/
def Obligations.AddressWritesRearm : Prop :=
  ∀ (i : Instr) (s : State),
    (∃ b, i = .waFirst b ∨ i = .waSecond b) ∨ (∃ a, i = .setaddrR a ∨ i = .setaddrW a) ∨ (∃ h v, i = .regwrite h v) →
    ∃ t, exec i s = .next t ∧ t.interruptLine = t.pendingAndEnabled ∧ t.raStatus = t.st t.statusSel ∧
      t.raData = t.memRead t.addressLatch

/-! ## Register writes -/

/-- R140, R141, R143, R144, R146 to R148: a register write that is not the reset command stores the value under the
effective index alone, tracks the unlock sequence on the raw index, sets the dirty flags of its roles, leaves the
first byte in the low half of the address latch, and re-arms; the fields it may write are the ones listed, and no
byte of video memory is among them. -/
def Obligations.RegisterWrite : Prop :=
  ∀ (h : RegIndex) (v : Byte) (s : State), notResetCommand s.cfg (s.targetIndex h) v →
    ∃ t, exec (.regwrite h v) s = .next t ∧
      t = { s with
        regs := t.regs
        status := t.status
        addressLatch := t.addressLatch
        writeStage := 0
        raData := s.memRead t.addressLatch
        raStatus := t.st t.statusSel
        interruptLine := t.pendingAndEnabled
        paletteDirty := s.paletteDirty || s.cfg.palDirtyRegs.contains (s.targetIndex h)
        configDirty := s.configDirty || s.cfg.cfgDirtyRegs.contains (s.targetIndex h)
        coprocessorRequested := t.coprocessorRequested
        flashRequested := t.flashRequested
        unlocked := t.unlocked
        unlockProgress := t.unlockProgress
        flashMode := t.flashMode
        coprocessorProgramCounter := t.coprocessorProgramCounter
        flashRunning := t.flashRunning
        flashRetry := t.flashRetry
        flashError := t.flashError
        flashPhase := t.flashPhase } ∧
      (∀ j, t.x j = if j = s.targetIndex h then v else s.x j) ∧
      t.addressLatch % 256 = v.toNat ∧ t.addressLatch / 256 = s.addressLatch / 256 ∧
      (s.unlocked = true → t.unlocked = true ∧ t.unlockProgress = s.unlockProgress) ∧
      (s.unlocked = false → h = s.cfg.unlockReg → v = s.cfg.unlockValue →
        t.unlockProgress = s.unlockProgress + 1 ∧
        (t.unlocked = true ↔ s.unlockProgress + 1 = s.cfg.unlockCount)) ∧
      (s.unlocked = false → ¬ (h = s.cfg.unlockReg ∧ v = s.cfg.unlockValue) →
        t.unlocked = false ∧ t.unlockProgress = 0) ∧
      ∀ j, j ≠ s.cfg.srBusy → j ≠ s.cfg.srFlash → t.st j = s.st j

/-- R149: the coprocessor trigger of a register write, and the program-counter load where the configuration names one.
That `hiReg` loads bits 15:8 of a counter of 16 bits or more and leaves the bits above 15 is the model's choice, which
R149 does not settle (notes/assumptions/24.md); a configuration that names one register twice, and a counter of fewer
than 16 bits, are not spoken of. -/
def Obligations.RegisterWriteCoprocessor : Prop :=
  ∀ (h : RegIndex) (v : Byte) (s : State), configValid s.cfg = true → notResetCommand s.cfg (s.targetIndex h) v →
    ∃ t, exec (.regwrite h v) s = .next t ∧
      (s.targetIndex h = s.cfg.coprocTrigReg → v &&& s.cfg.coprocTrigMask ≠ 0 →
        t.coprocessorRequested = true ∧ t.st s.cfg.srBusy &&& s.cfg.coprocBusyMask = s.cfg.coprocBusyMask) ∧
      (¬ (s.targetIndex h = s.cfg.coprocTrigReg ∧ v &&& s.cfg.coprocTrigMask ≠ 0) →
        t.coprocessorRequested = s.coprocessorRequested ∧
        t.st s.cfg.srBusy &&& s.cfg.coprocBusyMask = s.st s.cfg.srBusy &&& s.cfg.coprocBusyMask) ∧
      (s.cfg.coprocPcLoad = none → t.coprocessorProgramCounter = s.coprocessorProgramCounter) ∧
      (∀ hi lo, s.cfg.coprocPcLoad = some (hi, lo) → hi ≠ lo → 16 ≤ s.cfg.coprocPcBits →
        s.coprocessorProgramCounter < 2 ^ s.cfg.coprocPcBits →
        t.coprocessorProgramCounter % 256 =
          (if s.targetIndex h = lo then v.toNat else s.coprocessorProgramCounter % 256) ∧
        t.coprocessorProgramCounter / 256 % 256 =
          (if s.targetIndex h = hi then v.toNat else s.coprocessorProgramCounter / 256 % 256) ∧
        t.coprocessorProgramCounter / 65536 = s.coprocessorProgramCounter / 65536)

/-- R150: the flash trigger of a register write: accepted with its mode captured while no transfer is pending, dropped with
the code `BUSY` while one is; any other register write leaves the flash fields, and `SR_FLASH`, as they are. -/
def Obligations.RegisterWriteFlash : Prop :=
  ∀ (h : RegIndex) (v : Byte) (s : State), configValid s.cfg = true → notResetCommand s.cfg (s.targetIndex h) v →
    ∃ t, exec (.regwrite h v) s = .next t ∧
      (s.targetIndex h = s.cfg.flashTrigReg → v &&& s.cfg.flashGoMask ≠ 0 → s.flashRequested = false →
        t.flashMode = { keyed := v &&& s.cfg.flashModeMask != 0, read := v &&& s.cfg.flashReadMask != 0 } ∧
        t.flashRequested = true ∧ t.flashRunning = true ∧ t.flashRetry = 0 ∧ t.flashError = .none ∧
        t.flashPhase = .validating ∧ t.st s.cfg.srFlash = 0x80 ∧
        t.st s.cfg.srBusy &&& s.cfg.flashingMask = s.cfg.flashingMask) ∧
      (s.targetIndex h = s.cfg.flashTrigReg → v &&& s.cfg.flashGoMask ≠ 0 → s.flashRequested = true →
        t.flashMode = s.flashMode ∧ t.flashRequested = true ∧ t.flashRunning = s.flashRunning ∧
        t.flashRetry = s.flashRetry ∧ t.flashError = .busy ∧ t.flashPhase = s.flashPhase ∧
        t.st s.cfg.srFlash = flashPack s.flashRunning s.flashRetry .busy s.flashPhase ∧
        t.st s.cfg.srBusy &&& s.cfg.flashingMask = s.st s.cfg.srBusy &&& s.cfg.flashingMask) ∧
      (¬ (s.targetIndex h = s.cfg.flashTrigReg ∧ v &&& s.cfg.flashGoMask ≠ 0) →
        t.flashMode = s.flashMode ∧ t.flashRequested = s.flashRequested ∧ t.flashRunning = s.flashRunning ∧
        t.flashRetry = s.flashRetry ∧ t.flashError = s.flashError ∧ t.flashPhase = s.flashPhase ∧
        t.st s.cfg.srFlash = s.st s.cfg.srFlash ∧
        t.st s.cfg.srBusy &&& s.cfg.flashingMask = s.st s.cfg.srBusy &&& s.cfg.flashingMask)

/-- R151: where the configuration has a reset command, the matching register write does what `RESET` does. -/
def Obligations.RegisterWriteResets : Prop :=
  ∀ (h : RegIndex) (v : Byte) (s : State) (r : RegIndex) (m : Byte),
    s.cfg.resetCmd = some (r, m) → s.targetIndex h = r → v &&& m ≠ 0 →
    ∃ t, exec (.regwrite h v) s = .next t ∧ exec .reset s = .next t

/-- R23, R141, R153: while the core is locked, with a mask that keeps the low three index bits only, no register write
changes `x[8..63]`. Every configuration that a step runs in has such a mask. -/
def Obligations.LockedWriteKeepsExtended : Prop :=
  ∀ (h : RegIndex) (v : Byte) (s : State), s.unlocked = false → s.cfg.lockedIndexMask.toNat < 8 →
    notResetCommand s.cfg (s.targetIndex h) v →
    ∃ t, exec (.regwrite h v) s = .next t ∧ ∀ j : RegIndex, 8 ≤ j.toNat → t.x j = s.x j

/-- R146, R97: `UNLOCK` leaves the core unlocked: from any progress short of `UNLOCK_COUNT`, or unlocked already. It writes
no register but the two its writes reach, and no byte of video memory. -/
def Obligations.UnlockUnlocks : Prop :=
  ∀ s : State, s.writeStage = 0 → (s.unlocked = true ∨ s.unlockProgress < s.cfg.unlockCount) →
    notResetCommand s.cfg (s.cfg.unlockReg &&& s.cfg.lockedIndexMask) s.cfg.unlockValue →
    notResetCommand s.cfg s.cfg.unlockReg s.cfg.unlockValue →
    ∃ t, exec .unlock s = .next t ∧ t.unlocked = true ∧ t.writeStage = 0 ∧ t.vram = s.vram ∧
      t.storage = s.storage ∧ t.hostReads = s.hostReads ∧
      (s.unlocked = false → s.unlockProgress = 0 →
        t.x (s.cfg.unlockReg &&& s.cfg.lockedIndexMask) = s.cfg.unlockValue) ∧
      (∀ j, j ≠ s.cfg.unlockReg → j ≠ s.cfg.unlockReg &&& s.cfg.lockedIndexMask → t.x j = s.x j) ∧
      ∀ j, j ≠ s.cfg.srBusy → j ≠ s.cfg.srFlash → t.st j = s.st j

/-! ## Pseudo-operations -/

/-- R97: with no byte pending, `SETREG`, `SETRADDR`, `SETWADDR` and `SELSTATUS` do what the pair they expand to does. -/
def Obligations.PseudoPairs : Prop :=
  ∀ (r : RegIndex) (v : Byte) (a : BitVec 14) (s : State), s.writeStage = 0 →
    (∃ t, exec (.setreg r v) s = .next t ∧ exec (.regwrite r v) s = .next t) ∧
    (∃ t, exec (.setraddr a) s = .next t ∧ exec (.setaddrR a) s = .next t) ∧
    (∃ t, exec (.setwaddr a) s = .next t ∧ exec (.setaddrW a) s = .next t) ∧
    (∃ t, exec (.selstatus v) s = .next t ∧ exec (.regwrite s.cfg.sselReg v) s = .next t)

/-- R97, R123: with no byte pending, `FILL` writes its run of bytes from its address up, wrapping modulo `VRAM_SIZE`, and
leaves the address latch one past them. -/
def Obligations.FillWritesRun : Prop :=
  ∀ (a : BitVec 14) (bytes : List Byte) (s : State), s.writeStage = 0 → 14 ≤ s.cfg.vramBits →
    ∃ t, exec (.fill a bytes) s = .next t ∧
      t = { s with
        vram := t.vram
        addressLatch := (a.toNat + bytes.length) % vramSize s.cfg
        addressAutoIncrement := 1
        writeStage := 0
        interruptLine := s.pendingAndEnabled
        raData := t.memRead t.addressLatch
        raStatus := s.st s.statusSel } ∧
      ∀ n, t.memRead n = View.putRun (vramSize s.cfg) s.memRead a.toNat bytes n

/-- R97, R127: with no byte pending, `DUMP` returns the run of bytes from its address up, wrapping modulo `VRAM_SIZE`. -/
def Obligations.DumpReadsRun : Prop :=
  ∀ (a : BitVec 14) (n : Nat) (s : State), s.writeStage = 0 → 14 ≤ s.cfg.vramBits →
    ∃ t, exec (.dump a n) s = .next t ∧
      t = { s with
        hostReads := s.hostReads ++ (List.range n).map (fun k => s.memRead (a.toNat + k))
        addressLatch := (a.toNat + n) % vramSize s.cfg
        addressAutoIncrement := 0
        writeStage := 0
        interruptLine := s.pendingAndEnabled
        raData := s.memRead (a.toNat + n)
        raStatus := s.st s.statusSel }

/-! ## Triggers -/

/-- R191: the coprocessor trigger sets the request and the busy bit. As a step of its own it re-arms the status latch
(notes/assumptions/14.md). -/
def Obligations.CoprocessorTrigger : Prop :=
  ∀ s : State, ∃ t, exec .coprocTrigger s = .next t ∧
    t = { s with coprocessorRequested := true, status := t.status, raStatus := t.st s.statusSel } ∧
    ∀ j, t.st j = if j = s.cfg.srBusy then s.st s.cfg.srBusy ||| s.cfg.coprocBusyMask else s.st j

/-- R150: the flash trigger, accepted or dropped. As a step of its own it re-arms the status latch
(notes/assumptions/14.md). -/
def Obligations.FlashTrigger : Prop :=
  ∀ (v : Byte) (s : State), configValid s.cfg = true →
    ∃ t, exec (.flashTrigger v) s = .next t ∧
      (s.flashRequested = false →
        t = { s with
          flashMode := { keyed := v &&& s.cfg.flashModeMask != 0, read := v &&& s.cfg.flashReadMask != 0 }
          flashRequested := true
          flashRunning := true
          flashRetry := 0
          flashError := .none
          flashPhase := .validating
          status := t.status
          raStatus := t.st s.statusSel } ∧
        ∀ j, t.st j =
          if j = s.cfg.srFlash then 0x80
          else if j = s.cfg.srBusy then s.st s.cfg.srBusy ||| s.cfg.flashingMask else s.st j) ∧
      (s.flashRequested = true →
        t = { s with flashError := .busy, status := t.status, raStatus := t.st s.statusSel } ∧
        ∀ j, t.st j =
          if j = s.cfg.srFlash then flashPack s.flashRunning s.flashRetry .busy s.flashPhase else s.st j)

/-- R108, R109: the flash status byte is `running << 7 | phase << 5 | retry << 3 | error`, with the codes of R109. -/
def Obligations.FlashStatusByte : Prop :=
  ∀ (running : Bool) (retry : BitVec 2) (error : FlashError) (phase : FlashPhase),
    (flashPack running retry error phase).toNat =
      (if running then 128 else 0) +
      32 * (match phase with
        | .validating => 0
        | .erasing => 1
        | .writing => 2
        | .done => 3) +
      8 * retry.toNat +
      (match error with
        | .none => 0
        | .header => 1
        | .sequence => 2
        | .size => 3
        | .verify => 4
        | .busy => 5
        | .full => 6)

/-! ## The pipeline -/

/-- R162, R174, R177 to R180: every `LINE` completes, writes the scanline number of its line and the blanking flag (1
outside `DISPLAY`), advances `lineY`, and leaves registers, video memory, storage, the bus state and every status bit
that no rule of the line names alone. The line `DISPLAY_LAST` samples the temperature (a free value drawn in the line),
triggers the coprocessor if its control bit is set and flushes a dirty configuration; no other line does any of it.
`coprocBegun` is the model's own (notes/assumptions/8.md), and so is the persisted page (notes/assumptions/13.md). -/
def Obligations.LineUpdatesStatus : Prop :=
  ∀ s : State, s.quiet → configValid s.cfg = true →
    ∃ t, exec .line s = .next t ∧
      t = { s with
        status := t.status
        raStatus := t.st s.statusSel
        interruptLine := t.interruptLine
        paletteDirty := t.paletteDirty
        configDirty := t.configDirty
        coprocessorRequested := t.coprocessorRequested
        lineY := (s.lineY + 1) % s.cfg.linesPerFrame
        pipeState := t.pipeState
        lineBuf := t.lineBuf
        fillSel := t.fillSel
        handedOff := t.handedOff
        paletteLUT := t.paletteLUT
        videoOut := t.videoOut
        configPage := t.configPage
        coprocBegun := false
        draws := t.draws } ∧
      t.st s.cfg.srScanline = BitVec.ofInt 8 ((s.lineY : Int) - (s.cfg.displayFirst + s.cfg.borderTop : Nat)) ∧
      (isDisplayLine s.cfg s.lineY → t.st s.cfg.srBlank &&& s.cfg.blankMask = 0) ∧
      (¬ isDisplayLine s.cfg s.lineY → t.st s.cfg.srBlank &&& s.cfg.blankMask = s.cfg.blankMask) ∧
      (isVisibleLine s.cfg s.lineY → ¬ isLastDisplay s.cfg s.lineY → t.pipeState = .active) ∧
      (¬ isVisibleLine s.cfg s.lineY ∨ isLastDisplay s.cfg s.lineY → t.pipeState = .idle) ∧
      (isLastDisplay s.cfg s.lineY →
        t.coprocessorRequested =
          (s.coprocessorRequested || s.x s.cfg.coprocFrameReg &&& s.cfg.coprocFrameMask != 0) ∧
        t.st s.cfg.srBusy &&& s.cfg.coprocBusyMask =
          (if s.x s.cfg.coprocFrameReg &&& s.cfg.coprocFrameMask = 0 then s.st s.cfg.srBusy &&& s.cfg.coprocBusyMask
          else s.cfg.coprocBusyMask) ∧
        (∃ d, s.draws ≤ d ∧ d < t.draws ∧ t.st s.cfg.srTemp = Config.tempSample d) ∧
        t.configDirty = false ∧ (s.configDirty = false → t.configPage = s.configPage)) ∧
      (¬ isLastDisplay s.cfg s.lineY →
        t.coprocessorRequested = s.coprocessorRequested ∧
        t.st s.cfg.srBusy &&& s.cfg.coprocBusyMask = s.st s.cfg.srBusy &&& s.cfg.coprocBusyMask ∧
        t.st s.cfg.srTemp = s.st s.cfg.srTemp ∧ t.configDirty = s.configDirty ∧ t.configPage = s.configPage) ∧
      ∀ (j : StatusIndex) (m : Byte), j ≠ 0 → j ≠ s.cfg.srScanline → j ≠ s.cfg.srTemp →
        (j = s.cfg.srBlank → m &&& s.cfg.blankMask = 0) → (j = s.cfg.srBusy → m &&& s.cfg.coprocBusyMask = 0) →
        t.st j &&& m = s.st j &&& m

/-- R175, R251, R253, R162: the last active line sets the interrupt-pending bit, enabled or not, and the line follows it; no
other line changes the pending bit, and no line outside `DISPLAY` changes another bit of `status[0]`. -/
def Obligations.EndOfFrameInterrupt : Prop :=
  ∀ s : State, s.quiet → configValid s.cfg = true →
    ∃ t, exec .line s = .next t ∧
      (isLastActive s.cfg s.lineY →
        t.st 0 &&& s.cfg.stInt = s.cfg.stInt ∧ t.interruptLine = t.pendingAndEnabled) ∧
      (¬ isLastActive s.cfg s.lineY →
        t.st 0 &&& s.cfg.stInt = s.st 0 &&& s.cfg.stInt ∧ t.interruptLine = s.interruptLine) ∧
      (¬ isDisplayLine s.cfg s.lineY → t.st 0 &&& ~~~s.cfg.stInt = s.st 0 &&& ~~~s.cfg.stInt)

/-- R172: a line outside `SYNC` stores one row of `LINE_PIXELS` pixels in the buffer being filled, hands that buffer off,
appends the row to the trace and flips the buffers; a line in `SYNC` does none of this. -/
def Obligations.LineHandsOff : Prop :=
  ∀ s : State, s.quiet → configValid s.cfg = true →
    ∃ t, exec .line s = .next t ∧
      (isVisibleLine s.cfg s.lineY → ∃ row, row.length = s.cfg.linePixels ∧
        t.videoOut = s.videoOut ++ [(s.lineY, row)] ∧
        t.lineBuf[s.fillSel] = row ∧ t.lineBuf[1 - s.fillSel] = s.lineBuf[1 - s.fillSel] ∧
        t.handedOff = some s.fillSel ∧ t.fillSel = 1 - s.fillSel) ∧
      (¬ isVisibleLine s.cfg s.lineY →
        t.videoOut = s.videoOut ∧ t.lineBuf = s.lineBuf ∧ t.handedOff = s.handedOff ∧ t.fillSel = s.fillSel ∧
        t.paletteLUT = s.paletteLUT ∧ t.paletteDirty = s.paletteDirty)

/-- R166, R165, R168, R171: a border line is `LINE_PIXELS` times the palette entry the background register selects, then
overlay and darkening; where the palette is dirty, the table is rebuilt first and the entry is the rebuilt one. The
flag is false after the line. A mask that reaches past the 64 entries is left out by a premise. -/
def Obligations.BorderLine : Prop :=
  ∀ (s : State) (hi : (s.x s.cfg.bgReg &&& s.cfg.bgMask).toNat < 64),
    s.quiet → configValid s.cfg = true → isVisibleLine s.cfg s.lineY → ¬ isDisplayLine s.cfg s.lineY →
    ∃ t, exec .line s = .next t ∧
      t.videoOut = s.videoOut ++ [(s.lineY, shownRow s.cfg Config.collab s.lineY
        (List.replicate s.cfg.linePixels (s.lineEntry (s.x s.cfg.bgReg &&& s.cfg.bgMask).toNat hi)))] ∧
      t.paletteDirty = false ∧ ∀ (i : Nat) (h : i < 64), t.paletteLUT[i] = s.lineEntry i h

/-- R167, R168, R169, R176: pixel `p` of a display line is the palette entry of the colour index that the scanline generator
computes from what it read, in the table rebuilt first where the palette is dirty; the flag is false after the line.
The generator's sprite flags are merged into `status[0]`. The generator is the configuration's; an index past the
palette gives a free pixel (U9). -/
def Obligations.DisplayLine : Prop :=
  ∀ (s : State), s.quiet → configValid s.cfg = true → isDisplayLine s.cfg s.lineY →
    ∃ (t : State) (base : List Pixel), exec .line s = .next t ∧
      let k := Config.collab
      let row := s.lineY - (s.cfg.displayFirst + s.cfg.borderTop)
      let answers := s.scanned k row (k.scanReads row) []
      let flags := k.scanFlags row answers
      let merged := s.st 0 ||| (flags.orMask &&& (s.cfg.st5S ||| s.cfg.stCol))
      t.videoOut = s.videoOut ++ [(s.lineY, shownRow s.cfg k s.lineY base)] ∧
      base.length = s.cfg.linePixels ∧
      (∀ p, p < s.cfg.linePixels → ∀ h : k.scanIndex row answers p < 64,
        k.scanIndex row answers p < s.paletteEntries →
        base[p]? = some (s.lineEntry (k.scanIndex row answers p) h)) ∧
      (∀ p, p < s.cfg.linePixels → s.paletteEntries ≤ k.scanIndex row answers p →
        base[p]? = some (Config.freePixel s.draws p % 2 ^ s.cfg.pixelBits)) ∧
      t.paletteDirty = false ∧ (∀ (i : Nat) (h : i < 64), t.paletteLUT[i] = s.lineEntry i h) ∧
      t.st 0 &&& (s.cfg.st5S ||| s.cfg.stCol) = merged &&& (s.cfg.st5S ||| s.cfg.stCol) ∧
      t.st 0 &&& s.cfg.stIdx = (match flags.idxOpt with
        | some i => i &&& s.cfg.stIdx
        | none => s.st 0 &&& s.cfg.stIdx)

/-- R181: two renderings of one line index from the same registers and video memory, palette dirty and nothing interleaved,
give the same row. Equal draw counters stand for the collaborators' contracts (U9), and the background index lies
in the sixteen entries that every rebuild fills. -/
def Obligations.RenderingIsDeterministic : Prop :=
  ∀ s u : State, s.quiet → u.quiet → configValid s.cfg = true → isVisibleLine s.cfg s.lineY →
    s.cfg = u.cfg → s.regs = u.regs → s.vram = u.vram → s.lineY = u.lineY → s.draws = u.draws →
    s.paletteDirty = true → u.paletteDirty = true → (s.x s.cfg.bgReg &&& s.cfg.bgMask).toNat < 16 →
    ∃ (t v : State) (row : List Pixel), exec .line s = .next t ∧ exec .line u = .next v ∧
      t.videoOut = s.videoOut ++ [(s.lineY, row)] ∧ v.videoOut = u.videoOut ++ [(s.lineY, row)]

/-- R168: the rebuild clears the flag and expands each entry of the current palette size from its bytes; further entries,
and everything else, stay. -/
def Obligations.PaletteRebuild : Prop :=
  ∀ s : State, s.quiet → ∃ t, exec .paletteRebuild s = .next t ∧
    t = { s with paletteDirty := false, paletteLUT := t.paletteLUT } ∧
    ∀ (i : Nat) (h : i < 64), t.paletteLUT[i] =
      if i < s.paletteEntries then
        Config.paletteExpand ((List.range s.cfg.paletteEntryBytes).map fun k =>
          s.memRead (s.cfg.paletteBase + i * s.cfg.paletteEntryBytes + k)) % 2 ^ s.cfg.pixelBits
      else s.paletteLUT[i]

/-- R177 to R180: the frame boundary samples the temperature (a free value), triggers the coprocessor if its control bit is
set, and flushes a dirty configuration; nothing else changes. What the persisted page then holds is free
(notes/assumptions/13.md). -/
def Obligations.FrameEnd : Prop :=
  ∀ s : State, s.quiet → configValid s.cfg = true →
    ∃ t, exec .frameEnd s = .next t ∧
      t = { s with
        status := t.status
        raStatus := t.st s.statusSel
        coprocessorRequested :=
          s.coprocessorRequested || s.x s.cfg.coprocFrameReg &&& s.cfg.coprocFrameMask != 0
        configDirty := false
        configPage := t.configPage
        draws := t.draws } ∧
      (s.configDirty = false → t.configPage = s.configPage) ∧
      t.st s.cfg.srTemp = Config.tempSample s.draws ∧
      t.st s.cfg.srBusy = (if s.x s.cfg.coprocFrameReg &&& s.cfg.coprocFrameMask = 0 then s.st s.cfg.srBusy
        else s.st s.cfg.srBusy ||| s.cfg.coprocBusyMask) ∧
      ∀ j, j ≠ s.cfg.srTemp → j ≠ s.cfg.srBusy → t.st j = s.st j

/-! ## The sandbox -/

/-- R193, R194, R197, R200: a run that halts leaves the interpreter's writes in video memory, persists the program counter,
runs a pending bulk transfer, clears the request and the busy bit, and ends with protection off. The script and
`coprocBegun` are the model's (notes/assumptions/7.md, 8.md), and so is that the transfer reads its window's fields once,
before it copies (notes/assumptions/30.md). -/
def Obligations.RunHalts : Prop :=
  ∀ (s : State) (acts rest : List CoprocAction) (pc : Nat), s.quiet →
    s.coprocessorRequested = true → (s.protActive = true ∨ s.coprocBegun = false) →
    s.coprocScript = acts ++ .halted pc :: rest → (∀ x ∈ acts, x.isAccess = true) →
    ∃ t, exec .coprocRun s = .next t ∧
      t = { s with
        vram := t.vram
        coprocessorProgramCounter := pc % 2 ^ s.cfg.coprocPcBits
        coprocessorRequested := false
        protActive := false
        status := t.status
        raStatus := t.st s.statusSel
        coprocScript := rest
        coprocBegun := s.coprocBegun || !s.protActive } ∧
      (∀ j, t.st j = if j = s.cfg.srBusy then s.st s.cfg.srBusy &&& ~~~s.cfg.coprocBusyMask else s.st j) ∧
      ∀ a, t.memRead a = View.bulkIfPending s.cfg (View.actions (vramSize s.cfg) s.memRead acts) a

/-- R198, R258, R259: a run that faults keeps the writes made before the fault, does not advance the program counter, keeps
the request and the busy bit, runs a pending bulk transfer, and ends with protection off. The script and `coprocBegun`
are the model's (notes/assumptions/7.md, 8.md), and so is that the transfer reads its window's fields once, before it
copies (notes/assumptions/30.md). -/
def Obligations.RunFaults : Prop :=
  ∀ (s : State) (acts rest : List CoprocAction), s.quiet →
    s.coprocessorRequested = true → (s.protActive = true ∨ s.coprocBegun = false) →
    s.coprocScript = acts ++ .faulted :: rest → (∀ x ∈ acts, x.isAccess = true) →
    ∃ t, exec .coprocRun s = .next t ∧
      t = { s with
        vram := t.vram
        protActive := false
        coprocScript := rest
        coprocBegun := s.coprocBegun || !s.protActive } ∧
      ∀ a, t.memRead a = View.bulkIfPending s.cfg (View.actions (vramSize s.cfg) s.memRead acts) a

/-- R194, R196, R294: while the interpreter neither halts nor faults the run stays in progress, protection on, the request
pending. That a run in progress is shown by `protActive` between steps is the model's (notes/assumptions/7.md), and so is
`coprocBegun` (notes/assumptions/8.md). -/
def Obligations.RunGoesOn : Prop :=
  ∀ s : State, s.quiet → s.coprocessorRequested = true → (s.protActive = true ∨ s.coprocBegun = false) →
    (∀ x ∈ s.coprocScript, x.isAccess = true) →
    ∃ t, exec .coprocRun s = .next t ∧
      t = { s with
        vram := t.vram
        protActive := true
        coprocScript := []
        coprocBegun := s.coprocBegun || !s.protActive } ∧
      ∀ a, t.memRead a = View.actions (vramSize s.cfg) s.memRead s.coprocScript a

/-- R106, R201, R202, R203: the bulk transfer copies byte by byte in its loop order, each byte read just before it is
written, by the window's fields, then clears `pending`; nothing but video memory changes. That the fields are read once,
before the copy, also where the copy overwrites the window, is the model's choice (notes/assumptions/30.md), and so is
the copy of a line placed with no transfer pending or during a run (notes/assumptions/14.md). -/
def Obligations.BulkTransfer : Prop :=
  ∀ s : State, s.quiet → ∃ t, exec .bulkXfer s = .next t ∧ t = { s with vram := t.vram } ∧
    ∀ a, t.memRead a = View.bulk s.cfg s.memRead a

/-- R258, R259: taking a protection fault turns protection off and saves nothing; the program counter, the request and the
busy bit stay, and a pending bulk transfer is run. The event as a step of its own, on a run in progress that
`protActive` shows between steps, is the model's (notes/assumptions/7.md, 14.md), and so is that the transfer reads its
window's fields once, before it copies (notes/assumptions/30.md). -/
def Obligations.ProtectionFault : Prop :=
  ∀ s : State, s.quiet → s.protActive = true →
    ∃ t, exec .protFault s = .next t ∧ t = { s with protActive := false, vram := t.vram } ∧
      ∀ a, t.memRead a = View.bulkIfPending s.cfg s.memRead a

/-- An internal event that is not enabled changes nothing: the model's choice, notes/assumptions/9.md (R193, R213 say when
each is enabled). -/
def Obligations.DisabledEventsDoNothing : Prop :=
  ∀ s : State,
    (s.coprocessorRequested = false ∨ (s.protActive = false ∧ s.coprocBegun = true) → exec .coprocRun s = .next s) ∧
    (s.protActive = false → exec .protFault s = .next s) ∧
    (¬ s.flashReady ∨ s.flashMode.keyed = true → exec .flashFw s = .next s) ∧
    (¬ s.flashReady ∨ s.flashMode.keyed = false ∨ s.flashMode.read = false → exec .flashKread s = .next s) ∧
    (¬ s.flashReady ∨ s.flashMode.keyed = false ∨ s.flashMode.read = true → exec .flashKwrite s = .next s)

/-! ## The flash programmer -/

/-- R100, R217 to R220, R215: a firmware block, its fields read at their offsets in the staging buffer, that fails a check
ends with that check's code, `HEADER` before `SEQUENCE` before `SIZE`, phase and retry as they were, and no byte of
storage changed. -/
def Obligations.FirmwareRejected : Prop :=
  ∀ (s : State) (code : FlashError), s.quiet → configValid s.cfg = true → s.flashReady → s.flashMode.keyed = false →
    ((code = .header ∧ ¬ fwHeaderOk s.cfg s.stagedBlock) ∨
     (code = .sequence ∧ fwHeaderOk s.cfg s.stagedBlock ∧ ¬ fwSequenceOk s s.stagedBlock) ∨
     (code = .size ∧ fwHeaderOk s.cfg s.stagedBlock ∧ fwSequenceOk s s.stagedBlock ∧
      ¬ fwTargetOk s.cfg s.stagedBlock)) →
    ∃ t, exec .flashFw s = .next t ∧
      t = { s with
        flashRunning := false
        flashRequested := false
        flashError := code
        status := t.status
        raStatus := t.st s.statusSel } ∧
      ∀ j, t.st j =
        if j = s.cfg.srFlash then flashPack false s.flashRetry code s.flashPhase
        else if j = s.cfg.srBusy then s.st s.cfg.srBusy &&& ~~~s.cfg.flashingMask
        else s.st j

/-- R100, R217, R221, R222, R223, R71: the payload of an accepted firmware block, byte `k` of it at offset `32 + k` of the
staging buffer, is programmed at its target, after an erase from the window base for block 0. A byte that block 0 of the
session erased, that no block of it has programmed since and that reads 0xFF takes the payload exactly (with
`STORAGE_EXACT`); any other programmed byte is free (R296), whatever it reads; every other byte of storage stays. The
final block closes the session, block 0 opens it. `sessionErased` and `sessionProgrammed`, which record what the session
has erased and programmed, are the model's names (notes/assumptions/34.md). -/
def Obligations.FirmwareAccepted : Prop :=
  ∀ (s : State) (b : FwBlock), s.quiet → configValid s.cfg = true → s.flashReady → s.flashMode.keyed = false →
    b = s.stagedBlock → fwHeaderOk s.cfg b → fwSequenceOk s b → fwTargetOk s.cfg b →
    ∃ t, exec .flashFw s = .next t ∧
      t = { s with
        flashRunning := false
        flashRequested := false
        flashPhase := .done
        fwSessionActive := decide (b.seq.toNat + 1 ≠ b.total.toNat)
        sessionErased :=
          if b.seq.toNat + 1 = b.total.toNat then 0
          else if b.seq.toNat = 0 then roundup (b.total.toNat * 256) (erasePage s.cfg)
          else s.sessionErased
        sessionProgrammed :=
          if b.seq.toNat + 1 = b.total.toNat then []
          else if b.seq.toNat = 0 then [b.target.toNat]
          else b.target.toNat :: s.sessionProgrammed
        storage := t.storage
        draws := s.draws + 1
        status := t.status
        raStatus := t.st s.statusSel } ∧
      (∀ j, t.st j =
        if j = s.cfg.srFlash then flashPack false s.flashRetry s.flashError .done
        else if j = s.cfg.srBusy then s.st s.cfg.srBusy &&& ~~~s.cfg.flashingMask
        else s.st j) ∧
      ∀ a,
        let old := if b.seq.toNat = 0 ∧ s.cfg.fwWindowBase ≤ a ∧
            a < s.cfg.fwWindowBase + roundup (b.total.toNat * 256) (erasePage s.cfg) then 0xFF else s.storByte a
        let fresh := if b.seq.toNat = 0 then
            s.cfg.fwWindowBase ≤ a ∧ a < s.cfg.fwWindowBase + roundup (b.total.toNat * 256) (erasePage s.cfg)
          else
            s.cfg.fwWindowBase ≤ a ∧ a < s.cfg.fwWindowBase + s.sessionErased ∧
            ∀ target ∈ s.sessionProgrammed, ¬ (target ≤ a ∧ a < target + 256)
        t.storByte a =
          if b.target.toNat ≤ a ∧ a < b.target.toNat + 256 then
            if fresh ∧ old = 0xFF ∧ s.cfg.storageExact = true then
              s.memRead (s.cfg.stageBase + 32 + (a - b.target.toNat))
            else Config.programmedByte s.draws a old (s.memRead (s.cfg.stageBase + 32 + (a - b.target.toNat)))
          else old

/-- R228: the slot a keyed transfer uses: the hint where it matches, else the lowest match, else the first free slot; none
where there is neither. -/
def Obligations.FindSlot : Prop :=
  ∀ (s : State) (hint : Nat) (id : List Byte), id.length = 16 → s.choosesSlot hint id (s.findSlot hint id)

/-- R229: no slot carries the identifier and none is free: a keyed read or write ends with `FULL`, storage and video memory
untouched. -/
def Obligations.KeyedFull : Prop :=
  ∀ (s : State) (i : Instr), s.quiet → configValid s.cfg = true → s.flashReady → s.flashMode.keyed = true →
    ((i = .flashKread ∧ s.flashMode.read = true) ∨ (i = .flashKwrite ∧ s.flashMode.read = false)) →
    s.choosesSlot s.stagedHint s.stagedId none →
    ∃ t, exec i s = .next t ∧
      t = { s with
        flashRunning := false
        flashRequested := false
        flashError := .full
        status := t.status
        raStatus := t.st s.statusSel } ∧
      ∀ j, t.st j =
        if j = s.cfg.srFlash then flashPack false s.flashRetry .full s.flashPhase
        else if j = s.cfg.srBusy then s.st s.cfg.srBusy &&& ~~~s.cfg.flashingMask
        else s.st j

/-- R232, R231: a keyed read copies the payload of the slot it finds into the staging buffer, writes the slot index back into
the hint, and changes no other byte of video memory and none of storage. -/
def Obligations.KeyedRead : Prop :=
  ∀ (s : State) (n : Nat), s.quiet → configValid s.cfg = true → s.flashReady → s.flashMode.keyed = true →
    s.flashMode.read = true → s.choosesSlot s.stagedHint s.stagedId (some n) →
    ∃ t, exec .flashKread s = .next t ∧
      t = { s with
        flashRunning := false
        flashRequested := false
        flashPhase := .done
        vram := t.vram
        status := t.status
        raStatus := t.st s.statusSel } ∧
      (∀ j, t.st j =
        if j = s.cfg.srFlash then flashPack false s.flashRetry s.flashError .done
        else if j = s.cfg.srBusy then s.st s.cfg.srBusy &&& ~~~s.cfg.flashingMask
        else s.st j) ∧
      ∀ a, a < vramSize s.cfg → t.memRead a =
        if s.cfg.stageBase ≤ a ∧ a < s.cfg.stageBase + 4 then BitVec.ofNat 8 (n / 256 ^ (a - s.cfg.stageBase))
        else if s.cfg.stageBase + 20 ≤ a ∧ a < s.cfg.stageBase + 20 + s.cfg.kbPayloadBytes then
          s.slotByte n (16 + (a - (s.cfg.stageBase + 20)))
        else s.memRead a

/-- R233, R234, R236, R216: with exact storage a keyed write stores identifier and payload in the slot it finds, at the first
attempt, keeps every other byte of storage, writes the slot index back, and ends in `DONE`. -/
def Obligations.KeyedWriteExact : Prop :=
  ∀ (s : State) (n : Nat), s.quiet → configValid s.cfg = true → s.flashReady → s.flashMode.keyed = true →
    s.flashMode.read = false → s.cfg.storageExact = true →
    s.choosesSlot s.stagedHint s.stagedId (some n) →
    ∃ t, exec .flashKwrite s = .next t ∧
      t = { s with
        flashRunning := false
        flashRequested := false
        flashPhase := .done
        vram := t.vram
        storage := t.storage
        draws := s.draws + 1
        status := t.status
        raStatus := t.st s.statusSel } ∧
      (∀ j, t.st j =
        if j = s.cfg.srFlash then flashPack false s.flashRetry s.flashError .done
        else if j = s.cfg.srBusy then s.st s.cfg.srBusy &&& ~~~s.cfg.flashingMask
        else s.st j) ∧
      (∀ a, a < vramSize s.cfg → t.memRead a =
        if s.cfg.stageBase ≤ a ∧ a < s.cfg.stageBase + 4 then BitVec.ofNat 8 (n / 256 ^ (a - s.cfg.stageBase))
        else s.memRead a) ∧
      ∀ a, t.storByte a =
        if s.cfg.kbBase + n * (16 + s.cfg.kbPayloadBytes) ≤ a ∧
            a < s.cfg.kbBase + n * (16 + s.cfg.kbPayloadBytes) + (16 + s.cfg.kbPayloadBytes) then
          s.memRead (s.cfg.stageBase + 4 + (a - (s.cfg.kbBase + n * (16 + s.cfg.kbPayloadBytes))))
        else s.storByte a

/-- R236, R235, R234, R238: whatever the storage does, a keyed write makes at most `1 + MAX_RETRIES` attempts: it ends in
`DONE` with the slot written and every other byte of storage kept, or with `VERIFY` in phase `WRITING` and
`MAX_RETRIES` retries, and no byte of storage outside the slot's page is changed. -/
def Obligations.KeyedWriteVerifies : Prop :=
  ∀ (s : State) (n : Nat), s.quiet → configValid s.cfg = true → s.flashReady → s.flashMode.keyed = true →
    s.flashMode.read = false → s.flashRetry.toNat ≤ s.cfg.maxRetries →
    s.choosesSlot s.stagedHint s.stagedId (some n) →
    ∃ t, exec .flashKwrite s = .next t ∧ t.flashRunning = false ∧ t.flashRequested = false ∧
      s.flashRetry.toNat ≤ t.flashRetry.toNat ∧ t.flashRetry.toNat ≤ s.cfg.maxRetries ∧
      ((t.flashPhase = .done ∧ t.flashError = s.flashError ∧
        ∀ a, t.storByte a =
          if s.cfg.kbBase + n * (16 + s.cfg.kbPayloadBytes) ≤ a ∧
              a < s.cfg.kbBase + n * (16 + s.cfg.kbPayloadBytes) + (16 + s.cfg.kbPayloadBytes) then
            s.memRead (s.cfg.stageBase + 4 + (a - (s.cfg.kbBase + n * (16 + s.cfg.kbPayloadBytes))))
          else s.storByte a) ∨
       (t.flashPhase = .writing ∧ t.flashError = .verify ∧ t.flashRetry.toNat = s.cfg.maxRetries ∧ t.vram = s.vram ∧
        ∀ a, a / erasePage s.cfg ≠ (s.cfg.kbBase + n * (16 + s.cfg.kbPayloadBytes)) / erasePage s.cfg →
          t.storByte a = s.storByte a))

/-- R237: a keyed write that ends without error, then a keyed read by the same identifier with storage unchanged between,
yields the payload, for all payloads. The identifiers are unique in storage before the write (R228) and the
identifier is not sixteen 0xFF bytes (R230). -/
def Obligations.KeyedRoundTrip : Prop :=
  ∀ s t u : State, s.quiet → configValid s.cfg = true → s.flashReady → s.flashMode.keyed = true →
    s.flashMode.read = false → s.slotsUnique → (∃ k, k < 16 ∧ s.memRead (s.cfg.stageBase + 4 + k) ≠ 0xFF) →
    s.flashError = .none → exec .flashKwrite s = .next t → t.flashError = .none →
    u.quiet → u.cfg = s.cfg → u.storage = t.storage → u.flashReady → u.flashMode.keyed = true →
    u.flashMode.read = true →
    (∀ k, k < 16 → u.memRead (s.cfg.stageBase + 4 + k) = s.memRead (s.cfg.stageBase + 4 + k)) →
    ∃ v, exec .flashKread u = .next v ∧ v.flashPhase = .done ∧ v.flashError = u.flashError ∧
      ∀ k, k < s.cfg.kbPayloadBytes →
        v.memRead (s.cfg.stageBase + 20 + k) = s.memRead (s.cfg.stageBase + 20 + k)

/-! ## Reset -/

/-- R280, R283, R284, R48: after reset every field has its reset value, whatever the state before, storage is unchanged, and
the persisted configuration changes nothing but registers and video memory, which hold what the page writes over the
zeroed arrays; the line buffers and the palette table are unspecified. The page's form, two lists of writes, is the
model's (notes/assumptions/13.md), and so are the empty record of a firmware session (notes/assumptions/34.md)
and `coprocBegun` false, by which the gap after a reset may hold a run (notes/assumptions/8.md). The traces and the
model's own lists stay (notes/assumptions/17.md). -/
def Obligations.ResetState : Prop :=
  ∀ s : State, ∃ t, exec .reset s = .next t ∧
    t = { State.resetWith s.cfg with
      regs := t.regs
      vram := t.vram
      raData := t.memRead 0
      lineBuf := t.lineBuf
      paletteLUT := t.paletteLUT
      storage := s.storage
      videoOut := s.videoOut
      hostReads := s.hostReads
      configPage := s.configPage
      inputs := s.inputs
      strobes := s.strobes
      coprocScript := s.coprocScript
      draws := t.draws } ∧
    (s.configPage = none → (∀ i, t.x i = 0x00) ∧ ∀ a, t.memRead a = 0x00) ∧
    (∀ page, s.configPage = some page →
      (∀ i, t.x i = lastWrite (· == i) page.regWrites) ∧
      ∀ a, t.memRead a = lastWrite (fun b => b % vramSize s.cfg == a % vramSize s.cfg) page.vramWrites)

/-- R48: the values of the state right after reset, without a persisted configuration. -/
def Obligations.ResetValues : Prop :=
  ∀ c : Config, let s := State.resetWith c
    (∀ i, s.x i = 0x00) ∧ (∀ i, s.st i = 0x00) ∧ (∀ a, s.memRead a = 0x00) ∧
    s.addressLatch = 0 ∧ s.addressAutoIncrement = 0 ∧ s.writeStage = 0 ∧ s.raData = 0 ∧ s.raStatus = 0 ∧
    s.interruptLine = false ∧ s.paletteDirty = true ∧ s.configDirty = false ∧ s.coprocessorRequested = false ∧
    s.flashRequested = false ∧ s.unlocked = false ∧ s.unlockProgress = 0 ∧
    s.flashMode = { keyed := false, read := false } ∧ s.coprocessorProgramCounter = 0 ∧ s.protActive = false ∧
    s.lineY = 0 ∧ s.pipeState = .idle ∧ s.fillSel = 0 ∧ s.handedOff = none ∧ s.flashRunning = false ∧
    s.flashRetry = 0 ∧ s.flashError = .none ∧ s.flashPhase = .validating ∧ s.fwSessionActive = false

/-- The state right after reset meets the invariants, in every configuration the spec allows. -/
def Obligations.ResetMeetsInvariants : Prop :=
  ∀ c : Config, configValid c = true →
    (State.resetWith c).Safe ∧ (keepsLevels c → (State.resetWith c).Reports)

/-- The reset signal before the first atomic action of a background operation abandons it: the state is that of `RESET`
alone, with storage as it was. For a sandbox run (its bulk transfer and its fault included) and a flash service R281,
R282 and R297 say so; that a reset also abandons `LINE`, `FRAME_END` and `PALETTE_REBUILD` is the model's inference
(notes/assumptions/5.md), since R282 does not name them. A reset at a later point is not spoken of. -/
def Obligations.ResetAbandonsWork : Prop :=
  ∀ (s : State) (rest : List Strobe) (i : Instr), s.strobes = .reset :: rest →
    (i = .line ∨ i = .frameEnd ∨ i = .paletteRebuild ∨ i = .bulkXfer ∨ (i = .protFault ∧ s.protActive = true) ∨
     (i = .coprocRun ∧ s.coprocessorRequested = true ∧ (s.protActive = true ∨ s.coprocBegun = false) ∧
      s.coprocScript ≠ []) ∨
     (i = .flashFw ∧ s.flashReady ∧ s.flashMode.keyed = false) ∨
     (i = .flashKread ∧ s.flashReady ∧ s.flashMode.keyed = true ∧ s.flashMode.read = true) ∨
     (i = .flashKwrite ∧ s.flashReady ∧ s.flashMode.keyed = true ∧ s.flashMode.read = false)) →
    ∃ t, exec i s = .next t ∧ exec .reset { s with strobes := rest } = .next t ∧ t.storage = s.storage

/-! ## What every step keeps -/

/-- R46 (I-B, I-C), R28, R37, R39, R40, R194: every step keeps the safe states safe, whatever falls inside it. -/
def Obligations.StepKeepsSafe : Prop := ∀ s t : State, s.Safe → step s = .next t → t.Safe

/-- R42, R46 (I-F), R192, R214: every step keeps the reporting bytes in agreement with the engines, whatever falls inside
it, in a configuration whose clear-on-read masks leave those bytes alone. -/
def Obligations.StepKeepsReports : Prop := ∀ s t : State, s.Reports → step s = .next t → t.Reports

/-- R26: a status register no field of the configuration names, and a bit no field names, stays 0 for ever. -/
def Obligations.UnnamedStatusStaysZero : Prop :=
  ∀ s t : State, configValid s.cfg = true →
    (∀ i : StatusIndex, i ≠ 0 → i ≠ s.cfg.srScanline → i ≠ s.cfg.srTemp → i ≠ s.cfg.srFlash →
      s.st i &&& ~~~((if i = s.cfg.srBlank then s.cfg.blankMask else 0) |||
        (if i = s.cfg.srBusy then s.cfg.coprocBusyMask ||| s.cfg.flashingMask else 0)) = 0) →
    step s = .next t →
    ∀ i : StatusIndex, i ≠ 0 → i ≠ s.cfg.srScanline → i ≠ s.cfg.srTemp → i ≠ s.cfg.srFlash →
      t.st i &&& ~~~((if i = s.cfg.srBlank then s.cfg.blankMask else 0) |||
        (if i = s.cfg.srBusy then s.cfg.coprocBusyMask ||| s.cfg.flashingMask else 0)) = 0

/-- R43, R283, R232: nothing but the firmware service and the keyed-write service changes storage: no bus cycle, no line,
no sandbox run, no keyed read and no reset of any source, whatever falls inside. -/
def Obligations.OnlyFlashWritesStorage : Prop :=
  ∀ (i : Instr) (s t : State), i ≠ .flashFw → i ≠ .flashKwrite → exec i s = .next t → t.storage = s.storage

/-- R146, R266: once set, `unlocked` is cleared only by reset. -/
def Obligations.UnlockedUntilReset : Prop :=
  ∀ (i : Instr) (s t : State), s.quiet → s.cfg.resetCmd = none → i ≠ .reset → s.unlocked = true →
    exec i s = .next t → t.unlocked = true

/-- R302, R254: a status flag (interrupt pending, 5th sprite, collision) is never lost: if it was set and is clear after an
operation that is no reset, the operation is an `RS` and the byte it returned had the flag. -/
def Obligations.NoLostStatusFlags : Prop :=
  ∀ (i : Instr) (s t : State), s.quiet → configValid s.cfg = true → s.cfg.resetCmd = none → s.statusLatched →
    i ≠ .reset → exec i s = .next t →
    s.st 0 &&& (s.cfg.stInt ||| s.cfg.st5S ||| s.cfg.stCol) &&& ~~~t.st 0 ≠ 0 →
    i = .rs ∧ t.hostReads = s.hostReads ++ [s.st 0]
end

