-- ==== Sys2Proof/Laws/Memory.lean ====
section
/-! SUPPORT. Memories: a read after a fill or a write, and that every memory operation keeps the canonical form
and the bound on the listed addresses. -/

namespace Sys2Proof.Machine

/-! ## Reading -/

theorem Mem.read_append (d : Byte) (m₁ m₂ : Mem) (a : Nat) :
    Mem.read d (m₁ ++ m₂) a = if a ∈ m₁.map Prod.fst then Mem.read d m₁ a else Mem.read d m₂ a := by
  induction m₁ with
  | nil => simp
  | cons e m ih =>
    obtain ⟨k, v⟩ := e
    by_cases h : k = a
    · simp [Mem.read, h]
    · have h' : ¬ a = k := fun e => h e.symm
      simp [Mem.read, h, h', ih]

theorem Mem.read_of_not_mem (d : Byte) (m : Mem) (a : Nat) (h : a ∉ m.map Prod.fst) : Mem.read d m a = d := by
  induction m with
  | nil => rfl
  | cons e m ih =>
    obtain ⟨k, v⟩ := e
    simp only [List.map_cons, List.mem_cons, not_or] at h
    simp [Mem.read, Ne.symm h.1, ih h.2]

theorem Mem.read_filter (d : Byte) (m : Mem) (p : Nat → Bool) (a : Nat) :
    Mem.read d (m.filter fun e => p e.1) a = if p a then Mem.read d m a else d := by
  induction m with
  | nil => simp [Mem.read]
  | cons e m ih =>
    obtain ⟨k, v⟩ := e
    by_cases hk : k = a
    · subst hk
      cases hp : p k <;> simp [hp, Mem.read, ih]
    · cases hp : p k <;> simp [hp, Mem.read, hk, ih]

/-- The cells of a run read as the run inside it and as nothing outside. -/
theorem Mem.read_cells (d : Byte) (vs : List Byte) (b a : Nat) :
    Mem.read d (Mem.cells d b vs) a = if b ≤ a then vs.getD (a - b) d else d := by
  induction vs generalizing b with
  | nil => simp [Mem.cells, Mem.read]
  | cons v vs ih =>
    simp only [Mem.cells]
    rcases Nat.lt_trichotomy a b with h | h | h
    · have h1 : ¬ b ≤ a := by omega
      have h2 : ¬ b + 1 ≤ a := by omega
      have h3 : ¬ b = a := by omega
      split <;> simp [Mem.read, ih, h2, h3]
    · subst h
      split
      · rename_i hv; simp [ih, hv]
      · simp [Mem.read]
    · have h1 : b ≤ a := by omega
      have h2 : b + 1 ≤ a := by omega
      have h3 : ¬ b = a := by omega
      have h4 : a - b = (a - (b + 1)) + 1 := by omega
      split <;> simp [Mem.read, ih, h2, h3, h4]

theorem Mem.cells_keys (d : Byte) (vs : List Byte) (b : Nat) :
    ∀ k ∈ (Mem.cells d b vs).map Prod.fst, b ≤ k ∧ k < b + vs.length := by
  induction vs generalizing b with
  | nil => simp [Mem.cells]
  | cons v vs ih =>
    intro k hk
    simp only [Mem.cells] at hk
    have step : ∀ k ∈ (Mem.cells d (b + 1) vs).map Prod.fst, b ≤ k ∧ k < b + (v :: vs).length := by
      intro k hk
      have := ih (b + 1) k hk
      simp only [List.length_cons]; omega
    split at hk
    · exact step k hk
    · rcases List.mem_cons.1 (by simpa using hk : k ∈ b :: (Mem.cells d (b + 1) vs).map Prod.fst) with h | h
      · subst h; simp
      · exact step k h

/-- A read after a fill: the run inside it, the old byte outside (the law of `Mem.fill`). -/
theorem Mem.read_fill (d : Byte) (m : Mem) (b : Nat) (vs : List Byte) (a : Nat) :
    Mem.read d (Mem.fill d m b vs) a =
      if b ≤ a ∧ a < b + vs.length then vs.getD (a - b) d else Mem.read d m a := by
  unfold Mem.fill
  have hlow := Mem.read_filter d m (fun k => decide (k < b)) a
  have hhigh := Mem.read_filter d m (fun k => decide (b + vs.length ≤ k)) a
  have klow : a ∈ (m.filter fun e => decide (e.1 < b)).map Prod.fst → a < b := by
    intro h
    obtain ⟨e, he, rfl⟩ := List.mem_map.1 h
    exact of_decide_eq_true (List.mem_filter.1 he).2
  rw [List.append_assoc, Mem.read_append, Mem.read_append, Mem.read_cells, hlow, hhigh]
  by_cases h1 : a < b
  · have h2 : ¬ (b ≤ a ∧ a < b + vs.length) := by omega
    have h3 : ¬ b + vs.length ≤ a := by omega
    have hc : a ∉ (Mem.cells d b vs).map Prod.fst := fun h => by have := Mem.cells_keys d vs b a h; omega
    by_cases hm : a ∈ (m.filter fun e => decide (e.1 < b)).map Prod.fst
    · simp [hm, h1, h2]
    · have : Mem.read d (m.filter fun e => decide (e.1 < b)) a = d := Mem.read_of_not_mem d _ a hm
      rw [hlow] at this
      simp only [h1, decide_true, if_true] at this
      simp [hm, hc, h2, h3, this]
  · have hm : a ∉ (m.filter fun e => decide (e.1 < b)).map Prod.fst := fun h => h1 (klow h)
    rw [if_neg hm]
    by_cases h2 : a < b + vs.length
    · have h3 : b ≤ a ∧ a < b + vs.length := by omega
      have h4 : ¬ b + vs.length ≤ a := by omega
      by_cases hc : a ∈ (Mem.cells d b vs).map Prod.fst
      · simp [hc, h3]
      · have := Mem.read_of_not_mem d _ a hc
        rw [Mem.read_cells] at this
        simp only [h3.1, if_true] at this
        rw [if_neg hc, if_neg (by simpa using h4), if_pos h3, this]
    · have hc : a ∉ (Mem.cells d b vs).map Prod.fst := fun h => by have := Mem.cells_keys d vs b a h; omega
      have h3 : ¬ (b ≤ a ∧ a < b + vs.length) := by omega
      have h4 : b + vs.length ≤ a := by omega
      simp [hc, h3, h4]

theorem Mem.read_write (d : Byte) (m : Mem) (b : Nat) (v : Byte) (a : Nat) :
    Mem.read d (Mem.write d m b v) a = if a = b then v else Mem.read d m a := by
  unfold Mem.write
  rw [Mem.read_fill]
  by_cases h : a = b
  · subst h; simp
  · have : ¬ (b ≤ a ∧ a < b + [v].length) := by simp only [List.length_cons, List.length_nil]; omega
    rw [if_neg this, if_neg h]

theorem Mem.readRange_length (d : Byte) (m : Mem) (a n : Nat) : (Mem.readRange d m a n).length = n := by
  simp [Mem.readRange]

theorem Mem.readRange_getD (d : Byte) (m : Mem) (a n k : Nat) (x : Byte) (h : k < n) :
    (Mem.readRange d m a n).getD k x = Mem.read d m (a + k) := by
  simp [Mem.readRange, List.getD, h]

/-! ## Canonical form -/

theorem Mem.wfFrom_mono (d : Byte) {lo lo' : Nat} {m : Mem} (h : lo' ≤ lo) (hm : Mem.wfFrom d lo m = true) :
    Mem.wfFrom d lo' m = true := by
  cases m with
  | nil => rfl
  | cons e m =>
    obtain ⟨k, v⟩ := e
    simp only [Mem.wfFrom, Bool.and_eq_true, decide_eq_true_eq] at hm ⊢
    exact ⟨⟨by omega, hm.1.2⟩, hm.2⟩

theorem Mem.wfFrom_filter (d : Byte) (p : Nat × Byte → Bool) {lo : Nat} {m : Mem} (hm : Mem.wfFrom d lo m = true) :
    Mem.wfFrom d lo (m.filter p) = true := by
  induction m generalizing lo with
  | nil => rfl
  | cons e m ih =>
    obtain ⟨k, v⟩ := e
    simp only [Mem.wfFrom, Bool.and_eq_true, decide_eq_true_eq] at hm
    rw [List.filter_cons]
    split
    · simp only [Mem.wfFrom, Bool.and_eq_true, decide_eq_true_eq]
      exact ⟨hm.1, ih hm.2⟩
    · exact Mem.wfFrom_mono d (by omega) (ih hm.2)

theorem Mem.wfFrom_append (d : Byte) {lo mid : Nat} {m₁ m₂ : Mem} (h₁ : Mem.wfFrom d lo m₁ = true)
    (hk : ∀ e ∈ m₁, e.1 < mid) (hlo : lo ≤ mid) (h₂ : Mem.wfFrom d mid m₂ = true) :
    Mem.wfFrom d lo (m₁ ++ m₂) = true := by
  induction m₁ generalizing lo with
  | nil => exact Mem.wfFrom_mono d hlo h₂
  | cons e m ih =>
    obtain ⟨k, v⟩ := e
    simp only [Mem.wfFrom, Bool.and_eq_true, decide_eq_true_eq, List.cons_append] at h₁ ⊢
    have hkm : k < mid := hk (k, v) (by simp)
    exact ⟨h₁.1, ih h₁.2 (fun e he => hk e (by simp [he])) (by omega)⟩

theorem Mem.wfFrom_cells (d : Byte) (vs : List Byte) (b : Nat) : Mem.wfFrom d b (Mem.cells d b vs) = true := by
  induction vs generalizing b with
  | nil => rfl
  | cons v vs ih =>
    simp only [Mem.cells]
    split
    · exact Mem.wfFrom_mono d (by omega) (ih (b + 1))
    · rename_i hv
      simp [Mem.wfFrom, ih (b + 1), hv]

theorem Mem.wfFrom_high (d : Byte) (hi : Nat) {lo : Nat} {m : Mem} (hm : Mem.wfFrom d lo m = true) :
    Mem.wfFrom d hi (m.filter fun e => decide (hi ≤ e.1)) = true := by
  induction m generalizing lo with
  | nil => rfl
  | cons e m ih =>
    obtain ⟨k, v⟩ := e
    simp only [Mem.wfFrom, Bool.and_eq_true, decide_eq_true_eq] at hm
    by_cases h : hi ≤ k
    · have : (m.filter fun e => decide (hi ≤ e.1)) = m.filter (fun e => decide (hi ≤ e.1)) := rfl
      rw [List.filter_cons_of_pos (by simpa using h)]
      simp only [Mem.wfFrom, Bool.and_eq_true, decide_eq_true_eq]
      exact ⟨⟨h, hm.1.2⟩, Mem.wfFrom_filter d _ hm.2⟩
    · rw [List.filter_cons_of_neg (by simpa using h)]
      exact ih hm.2

/-- A fill keeps the canonical form. -/
theorem Mem.wf_fill (d : Byte) (m : Mem) (b : Nat) (vs : List Byte) (hm : Mem.wf d m = true) :
    Mem.wf d (Mem.fill d m b vs) = true := by
  unfold Mem.wf Mem.fill
  rw [List.append_assoc]
  refine Mem.wfFrom_append d (mid := b) (Mem.wfFrom_filter d _ hm) ?_ (Nat.zero_le b) ?_
  · intro e he
    exact of_decide_eq_true (List.mem_filter.1 he).2
  · refine Mem.wfFrom_append d (mid := b + vs.length) (Mem.wfFrom_cells d vs b) ?_ (by omega) (Mem.wfFrom_high d _ hm)
    intro e he
    exact (Mem.cells_keys d vs b e.1 (List.mem_map_of_mem he)).2

/-- A write keeps the canonical form. -/
theorem Mem.wf_write (d : Byte) (m : Mem) (b : Nat) (v : Byte) (hm : Mem.wf d m = true) :
    Mem.wf d (Mem.write d m b v) = true := Mem.wf_fill d m b [v] hm

/-- A fill below a bound lists nothing at or above it. -/
theorem Mem.below_fill (d : Byte) (m : Mem) (b n : Nat) (vs : List Byte) (hm : Mem.below m n)
    (h : b + vs.length ≤ n) : Mem.below (Mem.fill d m b vs) n := by
  intro e he
  unfold Mem.fill at he
  rcases List.mem_append.1 he with he | he
  · rcases List.mem_append.1 he with he | he
    · exact hm e (List.mem_filter.1 he).1
    · have := (Mem.cells_keys d vs b e.1 (List.mem_map_of_mem he)).2; omega
  · exact hm e (List.mem_filter.1 he).1

theorem Mem.below_write (d : Byte) (m : Mem) (b n : Nat) (v : Byte) (hm : Mem.below m n) (h : b < n) :
    Mem.below (Mem.write d m b v) n := Mem.below_fill d m b n [v] hm (by simpa using h)

end Sys2Proof.Machine
end

