-- ==== Sys2Proof/Laws/State.lean ====
section
/-! SUPPORT. One lemma per field (and per accessor) for every record update of the machine that leaves it as it
was, true by rfl. What an update changes is said once, by the lemma of that operation in Laws/Ops.lean. -/

namespace Sys2Proof.Machine.State

variable (s : State)

/-! ### setX -/
@[simp] theorem setX_status (i : RegIndex) (v : Byte) : (s.setX i v).status = s.status := rfl
@[simp] theorem setX_vram (i : RegIndex) (v : Byte) : (s.setX i v).vram = s.vram := rfl
@[simp] theorem setX_addressLatch (i : RegIndex) (v : Byte) : (s.setX i v).addressLatch = s.addressLatch := rfl
@[simp] theorem setX_addressAutoIncrement (i : RegIndex) (v : Byte) : (s.setX i v).addressAutoIncrement = s.addressAutoIncrement := rfl
@[simp] theorem setX_writeStage (i : RegIndex) (v : Byte) : (s.setX i v).writeStage = s.writeStage := rfl
@[simp] theorem setX_raData (i : RegIndex) (v : Byte) : (s.setX i v).raData = s.raData := rfl
@[simp] theorem setX_raStatus (i : RegIndex) (v : Byte) : (s.setX i v).raStatus = s.raStatus := rfl
@[simp] theorem setX_interruptLine (i : RegIndex) (v : Byte) : (s.setX i v).interruptLine = s.interruptLine := rfl
@[simp] theorem setX_paletteDirty (i : RegIndex) (v : Byte) : (s.setX i v).paletteDirty = s.paletteDirty := rfl
@[simp] theorem setX_configDirty (i : RegIndex) (v : Byte) : (s.setX i v).configDirty = s.configDirty := rfl
@[simp] theorem setX_coprocessorRequested (i : RegIndex) (v : Byte) : (s.setX i v).coprocessorRequested = s.coprocessorRequested := rfl
@[simp] theorem setX_flashRequested (i : RegIndex) (v : Byte) : (s.setX i v).flashRequested = s.flashRequested := rfl
@[simp] theorem setX_unlocked (i : RegIndex) (v : Byte) : (s.setX i v).unlocked = s.unlocked := rfl
@[simp] theorem setX_unlockProgress (i : RegIndex) (v : Byte) : (s.setX i v).unlockProgress = s.unlockProgress := rfl
@[simp] theorem setX_flashMode (i : RegIndex) (v : Byte) : (s.setX i v).flashMode = s.flashMode := rfl
@[simp] theorem setX_coprocessorProgramCounter (i : RegIndex) (v : Byte) : (s.setX i v).coprocessorProgramCounter = s.coprocessorProgramCounter := rfl
@[simp] theorem setX_protActive (i : RegIndex) (v : Byte) : (s.setX i v).protActive = s.protActive := rfl
@[simp] theorem setX_lineY (i : RegIndex) (v : Byte) : (s.setX i v).lineY = s.lineY := rfl
@[simp] theorem setX_pipeState (i : RegIndex) (v : Byte) : (s.setX i v).pipeState = s.pipeState := rfl
@[simp] theorem setX_lineBuf (i : RegIndex) (v : Byte) : (s.setX i v).lineBuf = s.lineBuf := rfl
@[simp] theorem setX_fillSel (i : RegIndex) (v : Byte) : (s.setX i v).fillSel = s.fillSel := rfl
@[simp] theorem setX_handedOff (i : RegIndex) (v : Byte) : (s.setX i v).handedOff = s.handedOff := rfl
@[simp] theorem setX_paletteLUT (i : RegIndex) (v : Byte) : (s.setX i v).paletteLUT = s.paletteLUT := rfl
@[simp] theorem setX_flashRunning (i : RegIndex) (v : Byte) : (s.setX i v).flashRunning = s.flashRunning := rfl
@[simp] theorem setX_flashRetry (i : RegIndex) (v : Byte) : (s.setX i v).flashRetry = s.flashRetry := rfl
@[simp] theorem setX_flashError (i : RegIndex) (v : Byte) : (s.setX i v).flashError = s.flashError := rfl
@[simp] theorem setX_flashPhase (i : RegIndex) (v : Byte) : (s.setX i v).flashPhase = s.flashPhase := rfl
@[simp] theorem setX_fwSessionActive (i : RegIndex) (v : Byte) : (s.setX i v).fwSessionActive = s.fwSessionActive := rfl
@[simp] theorem setX_sessionErased (i : RegIndex) (v : Byte) : (s.setX i v).sessionErased = s.sessionErased := rfl
@[simp] theorem setX_sessionProgrammed (i : RegIndex) (v : Byte) : (s.setX i v).sessionProgrammed = s.sessionProgrammed := rfl
@[simp] theorem setX_storage (i : RegIndex) (v : Byte) : (s.setX i v).storage = s.storage := rfl
@[simp] theorem setX_videoOut (i : RegIndex) (v : Byte) : (s.setX i v).videoOut = s.videoOut := rfl
@[simp] theorem setX_hostReads (i : RegIndex) (v : Byte) : (s.setX i v).hostReads = s.hostReads := rfl
@[simp] theorem setX_cfg (i : RegIndex) (v : Byte) : (s.setX i v).cfg = s.cfg := rfl
@[simp] theorem setX_configPage (i : RegIndex) (v : Byte) : (s.setX i v).configPage = s.configPage := rfl
@[simp] theorem setX_inputs (i : RegIndex) (v : Byte) : (s.setX i v).inputs = s.inputs := rfl
@[simp] theorem setX_strobes (i : RegIndex) (v : Byte) : (s.setX i v).strobes = s.strobes := rfl
@[simp] theorem setX_coprocScript (i : RegIndex) (v : Byte) : (s.setX i v).coprocScript = s.coprocScript := rfl
@[simp] theorem setX_coprocBegun (i : RegIndex) (v : Byte) : (s.setX i v).coprocBegun = s.coprocBegun := rfl
@[simp] theorem setX_draws (i : RegIndex) (v : Byte) : (s.setX i v).draws = s.draws := rfl
@[simp] theorem setX_st (i : RegIndex) (v : Byte) (j : StatusIndex) : (s.setX i v).st j = s.st j := rfl
@[simp] theorem setX_memRead (i : RegIndex) (v : Byte) (j : Nat) : (s.setX i v).memRead j = s.memRead j := rfl
@[simp] theorem setX_storRead (i : RegIndex) (v : Byte) (j len : Nat) : (s.setX i v).storRead j len = s.storRead j len := rfl

/-! ### setSt -/
@[simp] theorem setSt_regs (i : StatusIndex) (v : Byte) : (s.setSt i v).regs = s.regs := rfl
@[simp] theorem setSt_vram (i : StatusIndex) (v : Byte) : (s.setSt i v).vram = s.vram := rfl
@[simp] theorem setSt_addressLatch (i : StatusIndex) (v : Byte) : (s.setSt i v).addressLatch = s.addressLatch := rfl
@[simp] theorem setSt_addressAutoIncrement (i : StatusIndex) (v : Byte) : (s.setSt i v).addressAutoIncrement = s.addressAutoIncrement := rfl
@[simp] theorem setSt_writeStage (i : StatusIndex) (v : Byte) : (s.setSt i v).writeStage = s.writeStage := rfl
@[simp] theorem setSt_raData (i : StatusIndex) (v : Byte) : (s.setSt i v).raData = s.raData := rfl
@[simp] theorem setSt_raStatus (i : StatusIndex) (v : Byte) : (s.setSt i v).raStatus = s.raStatus := rfl
@[simp] theorem setSt_interruptLine (i : StatusIndex) (v : Byte) : (s.setSt i v).interruptLine = s.interruptLine := rfl
@[simp] theorem setSt_paletteDirty (i : StatusIndex) (v : Byte) : (s.setSt i v).paletteDirty = s.paletteDirty := rfl
@[simp] theorem setSt_configDirty (i : StatusIndex) (v : Byte) : (s.setSt i v).configDirty = s.configDirty := rfl
@[simp] theorem setSt_coprocessorRequested (i : StatusIndex) (v : Byte) : (s.setSt i v).coprocessorRequested = s.coprocessorRequested := rfl
@[simp] theorem setSt_flashRequested (i : StatusIndex) (v : Byte) : (s.setSt i v).flashRequested = s.flashRequested := rfl
@[simp] theorem setSt_unlocked (i : StatusIndex) (v : Byte) : (s.setSt i v).unlocked = s.unlocked := rfl
@[simp] theorem setSt_unlockProgress (i : StatusIndex) (v : Byte) : (s.setSt i v).unlockProgress = s.unlockProgress := rfl
@[simp] theorem setSt_flashMode (i : StatusIndex) (v : Byte) : (s.setSt i v).flashMode = s.flashMode := rfl
@[simp] theorem setSt_coprocessorProgramCounter (i : StatusIndex) (v : Byte) : (s.setSt i v).coprocessorProgramCounter = s.coprocessorProgramCounter := rfl
@[simp] theorem setSt_protActive (i : StatusIndex) (v : Byte) : (s.setSt i v).protActive = s.protActive := rfl
@[simp] theorem setSt_lineY (i : StatusIndex) (v : Byte) : (s.setSt i v).lineY = s.lineY := rfl
@[simp] theorem setSt_pipeState (i : StatusIndex) (v : Byte) : (s.setSt i v).pipeState = s.pipeState := rfl
@[simp] theorem setSt_lineBuf (i : StatusIndex) (v : Byte) : (s.setSt i v).lineBuf = s.lineBuf := rfl
@[simp] theorem setSt_fillSel (i : StatusIndex) (v : Byte) : (s.setSt i v).fillSel = s.fillSel := rfl
@[simp] theorem setSt_handedOff (i : StatusIndex) (v : Byte) : (s.setSt i v).handedOff = s.handedOff := rfl
@[simp] theorem setSt_paletteLUT (i : StatusIndex) (v : Byte) : (s.setSt i v).paletteLUT = s.paletteLUT := rfl
@[simp] theorem setSt_flashRunning (i : StatusIndex) (v : Byte) : (s.setSt i v).flashRunning = s.flashRunning := rfl
@[simp] theorem setSt_flashRetry (i : StatusIndex) (v : Byte) : (s.setSt i v).flashRetry = s.flashRetry := rfl
@[simp] theorem setSt_flashError (i : StatusIndex) (v : Byte) : (s.setSt i v).flashError = s.flashError := rfl
@[simp] theorem setSt_flashPhase (i : StatusIndex) (v : Byte) : (s.setSt i v).flashPhase = s.flashPhase := rfl
@[simp] theorem setSt_fwSessionActive (i : StatusIndex) (v : Byte) : (s.setSt i v).fwSessionActive = s.fwSessionActive := rfl
@[simp] theorem setSt_sessionErased (i : StatusIndex) (v : Byte) : (s.setSt i v).sessionErased = s.sessionErased := rfl
@[simp] theorem setSt_sessionProgrammed (i : StatusIndex) (v : Byte) : (s.setSt i v).sessionProgrammed = s.sessionProgrammed := rfl
@[simp] theorem setSt_storage (i : StatusIndex) (v : Byte) : (s.setSt i v).storage = s.storage := rfl
@[simp] theorem setSt_videoOut (i : StatusIndex) (v : Byte) : (s.setSt i v).videoOut = s.videoOut := rfl
@[simp] theorem setSt_hostReads (i : StatusIndex) (v : Byte) : (s.setSt i v).hostReads = s.hostReads := rfl
@[simp] theorem setSt_cfg (i : StatusIndex) (v : Byte) : (s.setSt i v).cfg = s.cfg := rfl
@[simp] theorem setSt_configPage (i : StatusIndex) (v : Byte) : (s.setSt i v).configPage = s.configPage := rfl
@[simp] theorem setSt_inputs (i : StatusIndex) (v : Byte) : (s.setSt i v).inputs = s.inputs := rfl
@[simp] theorem setSt_strobes (i : StatusIndex) (v : Byte) : (s.setSt i v).strobes = s.strobes := rfl
@[simp] theorem setSt_coprocScript (i : StatusIndex) (v : Byte) : (s.setSt i v).coprocScript = s.coprocScript := rfl
@[simp] theorem setSt_coprocBegun (i : StatusIndex) (v : Byte) : (s.setSt i v).coprocBegun = s.coprocBegun := rfl
@[simp] theorem setSt_draws (i : StatusIndex) (v : Byte) : (s.setSt i v).draws = s.draws := rfl
@[simp] theorem setSt_x (i : StatusIndex) (v : Byte) (j : RegIndex) : (s.setSt i v).x j = s.x j := rfl
@[simp] theorem setSt_statusSel (i : StatusIndex) (v : Byte) : (s.setSt i v).statusSel = s.statusSel := rfl
@[simp] theorem setSt_memRead (i : StatusIndex) (v : Byte) (j : Nat) : (s.setSt i v).memRead j = s.memRead j := rfl
@[simp] theorem setSt_storRead (i : StatusIndex) (v : Byte) (j len : Nat) : (s.setSt i v).storRead j len = s.storRead j len := rfl

/-! ### memWrite -/
@[simp] theorem memWrite_regs (a : Nat) (v : Byte) : (s.memWrite a v).regs = s.regs := rfl
@[simp] theorem memWrite_status (a : Nat) (v : Byte) : (s.memWrite a v).status = s.status := rfl
@[simp] theorem memWrite_addressLatch (a : Nat) (v : Byte) : (s.memWrite a v).addressLatch = s.addressLatch := rfl
@[simp] theorem memWrite_addressAutoIncrement (a : Nat) (v : Byte) : (s.memWrite a v).addressAutoIncrement = s.addressAutoIncrement := rfl
@[simp] theorem memWrite_writeStage (a : Nat) (v : Byte) : (s.memWrite a v).writeStage = s.writeStage := rfl
@[simp] theorem memWrite_raData (a : Nat) (v : Byte) : (s.memWrite a v).raData = s.raData := rfl
@[simp] theorem memWrite_raStatus (a : Nat) (v : Byte) : (s.memWrite a v).raStatus = s.raStatus := rfl
@[simp] theorem memWrite_interruptLine (a : Nat) (v : Byte) : (s.memWrite a v).interruptLine = s.interruptLine := rfl
@[simp] theorem memWrite_paletteDirty (a : Nat) (v : Byte) : (s.memWrite a v).paletteDirty = s.paletteDirty := rfl
@[simp] theorem memWrite_configDirty (a : Nat) (v : Byte) : (s.memWrite a v).configDirty = s.configDirty := rfl
@[simp] theorem memWrite_coprocessorRequested (a : Nat) (v : Byte) : (s.memWrite a v).coprocessorRequested = s.coprocessorRequested := rfl
@[simp] theorem memWrite_flashRequested (a : Nat) (v : Byte) : (s.memWrite a v).flashRequested = s.flashRequested := rfl
@[simp] theorem memWrite_unlocked (a : Nat) (v : Byte) : (s.memWrite a v).unlocked = s.unlocked := rfl
@[simp] theorem memWrite_unlockProgress (a : Nat) (v : Byte) : (s.memWrite a v).unlockProgress = s.unlockProgress := rfl
@[simp] theorem memWrite_flashMode (a : Nat) (v : Byte) : (s.memWrite a v).flashMode = s.flashMode := rfl
@[simp] theorem memWrite_coprocessorProgramCounter (a : Nat) (v : Byte) : (s.memWrite a v).coprocessorProgramCounter = s.coprocessorProgramCounter := rfl
@[simp] theorem memWrite_protActive (a : Nat) (v : Byte) : (s.memWrite a v).protActive = s.protActive := rfl
@[simp] theorem memWrite_lineY (a : Nat) (v : Byte) : (s.memWrite a v).lineY = s.lineY := rfl
@[simp] theorem memWrite_pipeState (a : Nat) (v : Byte) : (s.memWrite a v).pipeState = s.pipeState := rfl
@[simp] theorem memWrite_lineBuf (a : Nat) (v : Byte) : (s.memWrite a v).lineBuf = s.lineBuf := rfl
@[simp] theorem memWrite_fillSel (a : Nat) (v : Byte) : (s.memWrite a v).fillSel = s.fillSel := rfl
@[simp] theorem memWrite_handedOff (a : Nat) (v : Byte) : (s.memWrite a v).handedOff = s.handedOff := rfl
@[simp] theorem memWrite_paletteLUT (a : Nat) (v : Byte) : (s.memWrite a v).paletteLUT = s.paletteLUT := rfl
@[simp] theorem memWrite_flashRunning (a : Nat) (v : Byte) : (s.memWrite a v).flashRunning = s.flashRunning := rfl
@[simp] theorem memWrite_flashRetry (a : Nat) (v : Byte) : (s.memWrite a v).flashRetry = s.flashRetry := rfl
@[simp] theorem memWrite_flashError (a : Nat) (v : Byte) : (s.memWrite a v).flashError = s.flashError := rfl
@[simp] theorem memWrite_flashPhase (a : Nat) (v : Byte) : (s.memWrite a v).flashPhase = s.flashPhase := rfl
@[simp] theorem memWrite_fwSessionActive (a : Nat) (v : Byte) : (s.memWrite a v).fwSessionActive = s.fwSessionActive := rfl
@[simp] theorem memWrite_sessionErased (a : Nat) (v : Byte) : (s.memWrite a v).sessionErased = s.sessionErased := rfl
@[simp] theorem memWrite_sessionProgrammed (a : Nat) (v : Byte) : (s.memWrite a v).sessionProgrammed = s.sessionProgrammed := rfl
@[simp] theorem memWrite_storage (a : Nat) (v : Byte) : (s.memWrite a v).storage = s.storage := rfl
@[simp] theorem memWrite_videoOut (a : Nat) (v : Byte) : (s.memWrite a v).videoOut = s.videoOut := rfl
@[simp] theorem memWrite_hostReads (a : Nat) (v : Byte) : (s.memWrite a v).hostReads = s.hostReads := rfl
@[simp] theorem memWrite_cfg (a : Nat) (v : Byte) : (s.memWrite a v).cfg = s.cfg := rfl
@[simp] theorem memWrite_configPage (a : Nat) (v : Byte) : (s.memWrite a v).configPage = s.configPage := rfl
@[simp] theorem memWrite_inputs (a : Nat) (v : Byte) : (s.memWrite a v).inputs = s.inputs := rfl
@[simp] theorem memWrite_strobes (a : Nat) (v : Byte) : (s.memWrite a v).strobes = s.strobes := rfl
@[simp] theorem memWrite_coprocScript (a : Nat) (v : Byte) : (s.memWrite a v).coprocScript = s.coprocScript := rfl
@[simp] theorem memWrite_coprocBegun (a : Nat) (v : Byte) : (s.memWrite a v).coprocBegun = s.coprocBegun := rfl
@[simp] theorem memWrite_draws (a : Nat) (v : Byte) : (s.memWrite a v).draws = s.draws := rfl
@[simp] theorem memWrite_x (a : Nat) (v : Byte) (j : RegIndex) : (s.memWrite a v).x j = s.x j := rfl
@[simp] theorem memWrite_statusSel (a : Nat) (v : Byte) : (s.memWrite a v).statusSel = s.statusSel := rfl
@[simp] theorem memWrite_st (a : Nat) (v : Byte) (j : StatusIndex) : (s.memWrite a v).st j = s.st j := rfl
@[simp] theorem memWrite_storRead (a : Nat) (v : Byte) (j len : Nat) : (s.memWrite a v).storRead j len = s.storRead j len := rfl

/-! ### updateInt -/
@[simp] theorem updateInt_regs : (s.updateInt).regs = s.regs := rfl
@[simp] theorem updateInt_status : (s.updateInt).status = s.status := rfl
@[simp] theorem updateInt_vram : (s.updateInt).vram = s.vram := rfl
@[simp] theorem updateInt_addressLatch : (s.updateInt).addressLatch = s.addressLatch := rfl
@[simp] theorem updateInt_addressAutoIncrement : (s.updateInt).addressAutoIncrement = s.addressAutoIncrement := rfl
@[simp] theorem updateInt_writeStage : (s.updateInt).writeStage = s.writeStage := rfl
@[simp] theorem updateInt_raData : (s.updateInt).raData = s.raData := rfl
@[simp] theorem updateInt_raStatus : (s.updateInt).raStatus = s.raStatus := rfl
@[simp] theorem updateInt_paletteDirty : (s.updateInt).paletteDirty = s.paletteDirty := rfl
@[simp] theorem updateInt_configDirty : (s.updateInt).configDirty = s.configDirty := rfl
@[simp] theorem updateInt_coprocessorRequested : (s.updateInt).coprocessorRequested = s.coprocessorRequested := rfl
@[simp] theorem updateInt_flashRequested : (s.updateInt).flashRequested = s.flashRequested := rfl
@[simp] theorem updateInt_unlocked : (s.updateInt).unlocked = s.unlocked := rfl
@[simp] theorem updateInt_unlockProgress : (s.updateInt).unlockProgress = s.unlockProgress := rfl
@[simp] theorem updateInt_flashMode : (s.updateInt).flashMode = s.flashMode := rfl
@[simp] theorem updateInt_coprocessorProgramCounter : (s.updateInt).coprocessorProgramCounter = s.coprocessorProgramCounter := rfl
@[simp] theorem updateInt_protActive : (s.updateInt).protActive = s.protActive := rfl
@[simp] theorem updateInt_lineY : (s.updateInt).lineY = s.lineY := rfl
@[simp] theorem updateInt_pipeState : (s.updateInt).pipeState = s.pipeState := rfl
@[simp] theorem updateInt_lineBuf : (s.updateInt).lineBuf = s.lineBuf := rfl
@[simp] theorem updateInt_fillSel : (s.updateInt).fillSel = s.fillSel := rfl
@[simp] theorem updateInt_handedOff : (s.updateInt).handedOff = s.handedOff := rfl
@[simp] theorem updateInt_paletteLUT : (s.updateInt).paletteLUT = s.paletteLUT := rfl
@[simp] theorem updateInt_flashRunning : (s.updateInt).flashRunning = s.flashRunning := rfl
@[simp] theorem updateInt_flashRetry : (s.updateInt).flashRetry = s.flashRetry := rfl
@[simp] theorem updateInt_flashError : (s.updateInt).flashError = s.flashError := rfl
@[simp] theorem updateInt_flashPhase : (s.updateInt).flashPhase = s.flashPhase := rfl
@[simp] theorem updateInt_fwSessionActive : (s.updateInt).fwSessionActive = s.fwSessionActive := rfl
@[simp] theorem updateInt_sessionErased : (s.updateInt).sessionErased = s.sessionErased := rfl
@[simp] theorem updateInt_sessionProgrammed : (s.updateInt).sessionProgrammed = s.sessionProgrammed := rfl
@[simp] theorem updateInt_storage : (s.updateInt).storage = s.storage := rfl
@[simp] theorem updateInt_videoOut : (s.updateInt).videoOut = s.videoOut := rfl
@[simp] theorem updateInt_hostReads : (s.updateInt).hostReads = s.hostReads := rfl
@[simp] theorem updateInt_cfg : (s.updateInt).cfg = s.cfg := rfl
@[simp] theorem updateInt_configPage : (s.updateInt).configPage = s.configPage := rfl
@[simp] theorem updateInt_inputs : (s.updateInt).inputs = s.inputs := rfl
@[simp] theorem updateInt_strobes : (s.updateInt).strobes = s.strobes := rfl
@[simp] theorem updateInt_coprocScript : (s.updateInt).coprocScript = s.coprocScript := rfl
@[simp] theorem updateInt_coprocBegun : (s.updateInt).coprocBegun = s.coprocBegun := rfl
@[simp] theorem updateInt_draws : (s.updateInt).draws = s.draws := rfl
@[simp] theorem updateInt_x (j : RegIndex) : (s.updateInt).x j = s.x j := rfl
@[simp] theorem updateInt_statusSel : (s.updateInt).statusSel = s.statusSel := rfl
@[simp] theorem updateInt_st (j : StatusIndex) : (s.updateInt).st j = s.st j := rfl
@[simp] theorem updateInt_memRead (j : Nat) : (s.updateInt).memRead j = s.memRead j := rfl
@[simp] theorem updateInt_storRead (j len : Nat) : (s.updateInt).storRead j len = s.storRead j len := rfl

/-! ### rearmData -/
@[simp] theorem rearmData_regs : (s.rearmData).regs = s.regs := rfl
@[simp] theorem rearmData_status : (s.rearmData).status = s.status := rfl
@[simp] theorem rearmData_vram : (s.rearmData).vram = s.vram := rfl
@[simp] theorem rearmData_addressLatch : (s.rearmData).addressLatch = s.addressLatch := rfl
@[simp] theorem rearmData_addressAutoIncrement : (s.rearmData).addressAutoIncrement = s.addressAutoIncrement := rfl
@[simp] theorem rearmData_writeStage : (s.rearmData).writeStage = s.writeStage := rfl
@[simp] theorem rearmData_raStatus : (s.rearmData).raStatus = s.raStatus := rfl
@[simp] theorem rearmData_interruptLine : (s.rearmData).interruptLine = s.interruptLine := rfl
@[simp] theorem rearmData_paletteDirty : (s.rearmData).paletteDirty = s.paletteDirty := rfl
@[simp] theorem rearmData_configDirty : (s.rearmData).configDirty = s.configDirty := rfl
@[simp] theorem rearmData_coprocessorRequested : (s.rearmData).coprocessorRequested = s.coprocessorRequested := rfl
@[simp] theorem rearmData_flashRequested : (s.rearmData).flashRequested = s.flashRequested := rfl
@[simp] theorem rearmData_unlocked : (s.rearmData).unlocked = s.unlocked := rfl
@[simp] theorem rearmData_unlockProgress : (s.rearmData).unlockProgress = s.unlockProgress := rfl
@[simp] theorem rearmData_flashMode : (s.rearmData).flashMode = s.flashMode := rfl
@[simp] theorem rearmData_coprocessorProgramCounter : (s.rearmData).coprocessorProgramCounter = s.coprocessorProgramCounter := rfl
@[simp] theorem rearmData_protActive : (s.rearmData).protActive = s.protActive := rfl
@[simp] theorem rearmData_lineY : (s.rearmData).lineY = s.lineY := rfl
@[simp] theorem rearmData_pipeState : (s.rearmData).pipeState = s.pipeState := rfl
@[simp] theorem rearmData_lineBuf : (s.rearmData).lineBuf = s.lineBuf := rfl
@[simp] theorem rearmData_fillSel : (s.rearmData).fillSel = s.fillSel := rfl
@[simp] theorem rearmData_handedOff : (s.rearmData).handedOff = s.handedOff := rfl
@[simp] theorem rearmData_paletteLUT : (s.rearmData).paletteLUT = s.paletteLUT := rfl
@[simp] theorem rearmData_flashRunning : (s.rearmData).flashRunning = s.flashRunning := rfl
@[simp] theorem rearmData_flashRetry : (s.rearmData).flashRetry = s.flashRetry := rfl
@[simp] theorem rearmData_flashError : (s.rearmData).flashError = s.flashError := rfl
@[simp] theorem rearmData_flashPhase : (s.rearmData).flashPhase = s.flashPhase := rfl
@[simp] theorem rearmData_fwSessionActive : (s.rearmData).fwSessionActive = s.fwSessionActive := rfl
@[simp] theorem rearmData_sessionErased : (s.rearmData).sessionErased = s.sessionErased := rfl
@[simp] theorem rearmData_sessionProgrammed : (s.rearmData).sessionProgrammed = s.sessionProgrammed := rfl
@[simp] theorem rearmData_storage : (s.rearmData).storage = s.storage := rfl
@[simp] theorem rearmData_videoOut : (s.rearmData).videoOut = s.videoOut := rfl
@[simp] theorem rearmData_hostReads : (s.rearmData).hostReads = s.hostReads := rfl
@[simp] theorem rearmData_cfg : (s.rearmData).cfg = s.cfg := rfl
@[simp] theorem rearmData_configPage : (s.rearmData).configPage = s.configPage := rfl
@[simp] theorem rearmData_inputs : (s.rearmData).inputs = s.inputs := rfl
@[simp] theorem rearmData_strobes : (s.rearmData).strobes = s.strobes := rfl
@[simp] theorem rearmData_coprocScript : (s.rearmData).coprocScript = s.coprocScript := rfl
@[simp] theorem rearmData_coprocBegun : (s.rearmData).coprocBegun = s.coprocBegun := rfl
@[simp] theorem rearmData_draws : (s.rearmData).draws = s.draws := rfl
@[simp] theorem rearmData_x (j : RegIndex) : (s.rearmData).x j = s.x j := rfl
@[simp] theorem rearmData_statusSel : (s.rearmData).statusSel = s.statusSel := rfl
@[simp] theorem rearmData_st (j : StatusIndex) : (s.rearmData).st j = s.st j := rfl
@[simp] theorem rearmData_memRead (j : Nat) : (s.rearmData).memRead j = s.memRead j := rfl
@[simp] theorem rearmData_storRead (j len : Nat) : (s.rearmData).storRead j len = s.storRead j len := rfl

/-! ### rearmStatus -/
@[simp] theorem rearmStatus_regs : (s.rearmStatus).regs = s.regs := rfl
@[simp] theorem rearmStatus_status : (s.rearmStatus).status = s.status := rfl
@[simp] theorem rearmStatus_vram : (s.rearmStatus).vram = s.vram := rfl
@[simp] theorem rearmStatus_addressLatch : (s.rearmStatus).addressLatch = s.addressLatch := rfl
@[simp] theorem rearmStatus_addressAutoIncrement : (s.rearmStatus).addressAutoIncrement = s.addressAutoIncrement := rfl
@[simp] theorem rearmStatus_writeStage : (s.rearmStatus).writeStage = s.writeStage := rfl
@[simp] theorem rearmStatus_raData : (s.rearmStatus).raData = s.raData := rfl
@[simp] theorem rearmStatus_interruptLine : (s.rearmStatus).interruptLine = s.interruptLine := rfl
@[simp] theorem rearmStatus_paletteDirty : (s.rearmStatus).paletteDirty = s.paletteDirty := rfl
@[simp] theorem rearmStatus_configDirty : (s.rearmStatus).configDirty = s.configDirty := rfl
@[simp] theorem rearmStatus_coprocessorRequested : (s.rearmStatus).coprocessorRequested = s.coprocessorRequested := rfl
@[simp] theorem rearmStatus_flashRequested : (s.rearmStatus).flashRequested = s.flashRequested := rfl
@[simp] theorem rearmStatus_unlocked : (s.rearmStatus).unlocked = s.unlocked := rfl
@[simp] theorem rearmStatus_unlockProgress : (s.rearmStatus).unlockProgress = s.unlockProgress := rfl
@[simp] theorem rearmStatus_flashMode : (s.rearmStatus).flashMode = s.flashMode := rfl
@[simp] theorem rearmStatus_coprocessorProgramCounter : (s.rearmStatus).coprocessorProgramCounter = s.coprocessorProgramCounter := rfl
@[simp] theorem rearmStatus_protActive : (s.rearmStatus).protActive = s.protActive := rfl
@[simp] theorem rearmStatus_lineY : (s.rearmStatus).lineY = s.lineY := rfl
@[simp] theorem rearmStatus_pipeState : (s.rearmStatus).pipeState = s.pipeState := rfl
@[simp] theorem rearmStatus_lineBuf : (s.rearmStatus).lineBuf = s.lineBuf := rfl
@[simp] theorem rearmStatus_fillSel : (s.rearmStatus).fillSel = s.fillSel := rfl
@[simp] theorem rearmStatus_handedOff : (s.rearmStatus).handedOff = s.handedOff := rfl
@[simp] theorem rearmStatus_paletteLUT : (s.rearmStatus).paletteLUT = s.paletteLUT := rfl
@[simp] theorem rearmStatus_flashRunning : (s.rearmStatus).flashRunning = s.flashRunning := rfl
@[simp] theorem rearmStatus_flashRetry : (s.rearmStatus).flashRetry = s.flashRetry := rfl
@[simp] theorem rearmStatus_flashError : (s.rearmStatus).flashError = s.flashError := rfl
@[simp] theorem rearmStatus_flashPhase : (s.rearmStatus).flashPhase = s.flashPhase := rfl
@[simp] theorem rearmStatus_fwSessionActive : (s.rearmStatus).fwSessionActive = s.fwSessionActive := rfl
@[simp] theorem rearmStatus_sessionErased : (s.rearmStatus).sessionErased = s.sessionErased := rfl
@[simp] theorem rearmStatus_sessionProgrammed : (s.rearmStatus).sessionProgrammed = s.sessionProgrammed := rfl
@[simp] theorem rearmStatus_storage : (s.rearmStatus).storage = s.storage := rfl
@[simp] theorem rearmStatus_videoOut : (s.rearmStatus).videoOut = s.videoOut := rfl
@[simp] theorem rearmStatus_hostReads : (s.rearmStatus).hostReads = s.hostReads := rfl
@[simp] theorem rearmStatus_cfg : (s.rearmStatus).cfg = s.cfg := rfl
@[simp] theorem rearmStatus_configPage : (s.rearmStatus).configPage = s.configPage := rfl
@[simp] theorem rearmStatus_inputs : (s.rearmStatus).inputs = s.inputs := rfl
@[simp] theorem rearmStatus_strobes : (s.rearmStatus).strobes = s.strobes := rfl
@[simp] theorem rearmStatus_coprocScript : (s.rearmStatus).coprocScript = s.coprocScript := rfl
@[simp] theorem rearmStatus_coprocBegun : (s.rearmStatus).coprocBegun = s.coprocBegun := rfl
@[simp] theorem rearmStatus_draws : (s.rearmStatus).draws = s.draws := rfl
@[simp] theorem rearmStatus_x (j : RegIndex) : (s.rearmStatus).x j = s.x j := rfl
@[simp] theorem rearmStatus_statusSel : (s.rearmStatus).statusSel = s.statusSel := rfl
@[simp] theorem rearmStatus_st (j : StatusIndex) : (s.rearmStatus).st j = s.st j := rfl
@[simp] theorem rearmStatus_memRead (j : Nat) : (s.rearmStatus).memRead j = s.memRead j := rfl
@[simp] theorem rearmStatus_storRead (j len : Nat) : (s.rearmStatus).storRead j len = s.storRead j len := rfl

/-! ### rearmAll -/
@[simp] theorem rearmAll_regs : (s.rearmAll).regs = s.regs := rfl
@[simp] theorem rearmAll_status : (s.rearmAll).status = s.status := rfl
@[simp] theorem rearmAll_vram : (s.rearmAll).vram = s.vram := rfl
@[simp] theorem rearmAll_addressLatch : (s.rearmAll).addressLatch = s.addressLatch := rfl
@[simp] theorem rearmAll_addressAutoIncrement : (s.rearmAll).addressAutoIncrement = s.addressAutoIncrement := rfl
@[simp] theorem rearmAll_writeStage : (s.rearmAll).writeStage = s.writeStage := rfl
@[simp] theorem rearmAll_paletteDirty : (s.rearmAll).paletteDirty = s.paletteDirty := rfl
@[simp] theorem rearmAll_configDirty : (s.rearmAll).configDirty = s.configDirty := rfl
@[simp] theorem rearmAll_coprocessorRequested : (s.rearmAll).coprocessorRequested = s.coprocessorRequested := rfl
@[simp] theorem rearmAll_flashRequested : (s.rearmAll).flashRequested = s.flashRequested := rfl
@[simp] theorem rearmAll_unlocked : (s.rearmAll).unlocked = s.unlocked := rfl
@[simp] theorem rearmAll_unlockProgress : (s.rearmAll).unlockProgress = s.unlockProgress := rfl
@[simp] theorem rearmAll_flashMode : (s.rearmAll).flashMode = s.flashMode := rfl
@[simp] theorem rearmAll_coprocessorProgramCounter : (s.rearmAll).coprocessorProgramCounter = s.coprocessorProgramCounter := rfl
@[simp] theorem rearmAll_protActive : (s.rearmAll).protActive = s.protActive := rfl
@[simp] theorem rearmAll_lineY : (s.rearmAll).lineY = s.lineY := rfl
@[simp] theorem rearmAll_pipeState : (s.rearmAll).pipeState = s.pipeState := rfl
@[simp] theorem rearmAll_lineBuf : (s.rearmAll).lineBuf = s.lineBuf := rfl
@[simp] theorem rearmAll_fillSel : (s.rearmAll).fillSel = s.fillSel := rfl
@[simp] theorem rearmAll_handedOff : (s.rearmAll).handedOff = s.handedOff := rfl
@[simp] theorem rearmAll_paletteLUT : (s.rearmAll).paletteLUT = s.paletteLUT := rfl
@[simp] theorem rearmAll_flashRunning : (s.rearmAll).flashRunning = s.flashRunning := rfl
@[simp] theorem rearmAll_flashRetry : (s.rearmAll).flashRetry = s.flashRetry := rfl
@[simp] theorem rearmAll_flashError : (s.rearmAll).flashError = s.flashError := rfl
@[simp] theorem rearmAll_flashPhase : (s.rearmAll).flashPhase = s.flashPhase := rfl
@[simp] theorem rearmAll_fwSessionActive : (s.rearmAll).fwSessionActive = s.fwSessionActive := rfl
@[simp] theorem rearmAll_sessionErased : (s.rearmAll).sessionErased = s.sessionErased := rfl
@[simp] theorem rearmAll_sessionProgrammed : (s.rearmAll).sessionProgrammed = s.sessionProgrammed := rfl
@[simp] theorem rearmAll_storage : (s.rearmAll).storage = s.storage := rfl
@[simp] theorem rearmAll_videoOut : (s.rearmAll).videoOut = s.videoOut := rfl
@[simp] theorem rearmAll_hostReads : (s.rearmAll).hostReads = s.hostReads := rfl
@[simp] theorem rearmAll_cfg : (s.rearmAll).cfg = s.cfg := rfl
@[simp] theorem rearmAll_configPage : (s.rearmAll).configPage = s.configPage := rfl
@[simp] theorem rearmAll_inputs : (s.rearmAll).inputs = s.inputs := rfl
@[simp] theorem rearmAll_strobes : (s.rearmAll).strobes = s.strobes := rfl
@[simp] theorem rearmAll_coprocScript : (s.rearmAll).coprocScript = s.coprocScript := rfl
@[simp] theorem rearmAll_coprocBegun : (s.rearmAll).coprocBegun = s.coprocBegun := rfl
@[simp] theorem rearmAll_draws : (s.rearmAll).draws = s.draws := rfl
@[simp] theorem rearmAll_x (j : RegIndex) : (s.rearmAll).x j = s.x j := rfl
@[simp] theorem rearmAll_statusSel : (s.rearmAll).statusSel = s.statusSel := rfl
@[simp] theorem rearmAll_st (j : StatusIndex) : (s.rearmAll).st j = s.st j := rfl
@[simp] theorem rearmAll_memRead (j : Nat) : (s.rearmAll).memRead j = s.memRead j := rfl
@[simp] theorem rearmAll_storRead (j len : Nat) : (s.rearmAll).storRead j len = s.storRead j len := rfl

/-! ### advanceLatch -/
@[simp] theorem advanceLatch_regs : (s.advanceLatch).regs = s.regs := rfl
@[simp] theorem advanceLatch_status : (s.advanceLatch).status = s.status := rfl
@[simp] theorem advanceLatch_vram : (s.advanceLatch).vram = s.vram := rfl
@[simp] theorem advanceLatch_addressAutoIncrement : (s.advanceLatch).addressAutoIncrement = s.addressAutoIncrement := rfl
@[simp] theorem advanceLatch_writeStage : (s.advanceLatch).writeStage = s.writeStage := rfl
@[simp] theorem advanceLatch_raData : (s.advanceLatch).raData = s.raData := rfl
@[simp] theorem advanceLatch_raStatus : (s.advanceLatch).raStatus = s.raStatus := rfl
@[simp] theorem advanceLatch_interruptLine : (s.advanceLatch).interruptLine = s.interruptLine := rfl
@[simp] theorem advanceLatch_paletteDirty : (s.advanceLatch).paletteDirty = s.paletteDirty := rfl
@[simp] theorem advanceLatch_configDirty : (s.advanceLatch).configDirty = s.configDirty := rfl
@[simp] theorem advanceLatch_coprocessorRequested : (s.advanceLatch).coprocessorRequested = s.coprocessorRequested := rfl
@[simp] theorem advanceLatch_flashRequested : (s.advanceLatch).flashRequested = s.flashRequested := rfl
@[simp] theorem advanceLatch_unlocked : (s.advanceLatch).unlocked = s.unlocked := rfl
@[simp] theorem advanceLatch_unlockProgress : (s.advanceLatch).unlockProgress = s.unlockProgress := rfl
@[simp] theorem advanceLatch_flashMode : (s.advanceLatch).flashMode = s.flashMode := rfl
@[simp] theorem advanceLatch_coprocessorProgramCounter : (s.advanceLatch).coprocessorProgramCounter = s.coprocessorProgramCounter := rfl
@[simp] theorem advanceLatch_protActive : (s.advanceLatch).protActive = s.protActive := rfl
@[simp] theorem advanceLatch_lineY : (s.advanceLatch).lineY = s.lineY := rfl
@[simp] theorem advanceLatch_pipeState : (s.advanceLatch).pipeState = s.pipeState := rfl
@[simp] theorem advanceLatch_lineBuf : (s.advanceLatch).lineBuf = s.lineBuf := rfl
@[simp] theorem advanceLatch_fillSel : (s.advanceLatch).fillSel = s.fillSel := rfl
@[simp] theorem advanceLatch_handedOff : (s.advanceLatch).handedOff = s.handedOff := rfl
@[simp] theorem advanceLatch_paletteLUT : (s.advanceLatch).paletteLUT = s.paletteLUT := rfl
@[simp] theorem advanceLatch_flashRunning : (s.advanceLatch).flashRunning = s.flashRunning := rfl
@[simp] theorem advanceLatch_flashRetry : (s.advanceLatch).flashRetry = s.flashRetry := rfl
@[simp] theorem advanceLatch_flashError : (s.advanceLatch).flashError = s.flashError := rfl
@[simp] theorem advanceLatch_flashPhase : (s.advanceLatch).flashPhase = s.flashPhase := rfl
@[simp] theorem advanceLatch_fwSessionActive : (s.advanceLatch).fwSessionActive = s.fwSessionActive := rfl
@[simp] theorem advanceLatch_sessionErased : (s.advanceLatch).sessionErased = s.sessionErased := rfl
@[simp] theorem advanceLatch_sessionProgrammed : (s.advanceLatch).sessionProgrammed = s.sessionProgrammed := rfl
@[simp] theorem advanceLatch_storage : (s.advanceLatch).storage = s.storage := rfl
@[simp] theorem advanceLatch_videoOut : (s.advanceLatch).videoOut = s.videoOut := rfl
@[simp] theorem advanceLatch_hostReads : (s.advanceLatch).hostReads = s.hostReads := rfl
@[simp] theorem advanceLatch_cfg : (s.advanceLatch).cfg = s.cfg := rfl
@[simp] theorem advanceLatch_configPage : (s.advanceLatch).configPage = s.configPage := rfl
@[simp] theorem advanceLatch_inputs : (s.advanceLatch).inputs = s.inputs := rfl
@[simp] theorem advanceLatch_strobes : (s.advanceLatch).strobes = s.strobes := rfl
@[simp] theorem advanceLatch_coprocScript : (s.advanceLatch).coprocScript = s.coprocScript := rfl
@[simp] theorem advanceLatch_coprocBegun : (s.advanceLatch).coprocBegun = s.coprocBegun := rfl
@[simp] theorem advanceLatch_draws : (s.advanceLatch).draws = s.draws := rfl
@[simp] theorem advanceLatch_x (j : RegIndex) : (s.advanceLatch).x j = s.x j := rfl
@[simp] theorem advanceLatch_statusSel : (s.advanceLatch).statusSel = s.statusSel := rfl
@[simp] theorem advanceLatch_st (j : StatusIndex) : (s.advanceLatch).st j = s.st j := rfl
@[simp] theorem advanceLatch_memRead (j : Nat) : (s.advanceLatch).memRead j = s.memRead j := rfl
@[simp] theorem advanceLatch_storRead (j len : Nat) : (s.advanceLatch).storRead j len = s.storRead j len := rfl

/-! ### setLatchLow -/
@[simp] theorem setLatchLow_regs (b : Byte) : (s.setLatchLow b).regs = s.regs := rfl
@[simp] theorem setLatchLow_status (b : Byte) : (s.setLatchLow b).status = s.status := rfl
@[simp] theorem setLatchLow_vram (b : Byte) : (s.setLatchLow b).vram = s.vram := rfl
@[simp] theorem setLatchLow_addressAutoIncrement (b : Byte) : (s.setLatchLow b).addressAutoIncrement = s.addressAutoIncrement := rfl
@[simp] theorem setLatchLow_writeStage (b : Byte) : (s.setLatchLow b).writeStage = s.writeStage := rfl
@[simp] theorem setLatchLow_raData (b : Byte) : (s.setLatchLow b).raData = s.raData := rfl
@[simp] theorem setLatchLow_raStatus (b : Byte) : (s.setLatchLow b).raStatus = s.raStatus := rfl
@[simp] theorem setLatchLow_interruptLine (b : Byte) : (s.setLatchLow b).interruptLine = s.interruptLine := rfl
@[simp] theorem setLatchLow_paletteDirty (b : Byte) : (s.setLatchLow b).paletteDirty = s.paletteDirty := rfl
@[simp] theorem setLatchLow_configDirty (b : Byte) : (s.setLatchLow b).configDirty = s.configDirty := rfl
@[simp] theorem setLatchLow_coprocessorRequested (b : Byte) : (s.setLatchLow b).coprocessorRequested = s.coprocessorRequested := rfl
@[simp] theorem setLatchLow_flashRequested (b : Byte) : (s.setLatchLow b).flashRequested = s.flashRequested := rfl
@[simp] theorem setLatchLow_unlocked (b : Byte) : (s.setLatchLow b).unlocked = s.unlocked := rfl
@[simp] theorem setLatchLow_unlockProgress (b : Byte) : (s.setLatchLow b).unlockProgress = s.unlockProgress := rfl
@[simp] theorem setLatchLow_flashMode (b : Byte) : (s.setLatchLow b).flashMode = s.flashMode := rfl
@[simp] theorem setLatchLow_coprocessorProgramCounter (b : Byte) : (s.setLatchLow b).coprocessorProgramCounter = s.coprocessorProgramCounter := rfl
@[simp] theorem setLatchLow_protActive (b : Byte) : (s.setLatchLow b).protActive = s.protActive := rfl
@[simp] theorem setLatchLow_lineY (b : Byte) : (s.setLatchLow b).lineY = s.lineY := rfl
@[simp] theorem setLatchLow_pipeState (b : Byte) : (s.setLatchLow b).pipeState = s.pipeState := rfl
@[simp] theorem setLatchLow_lineBuf (b : Byte) : (s.setLatchLow b).lineBuf = s.lineBuf := rfl
@[simp] theorem setLatchLow_fillSel (b : Byte) : (s.setLatchLow b).fillSel = s.fillSel := rfl
@[simp] theorem setLatchLow_handedOff (b : Byte) : (s.setLatchLow b).handedOff = s.handedOff := rfl
@[simp] theorem setLatchLow_paletteLUT (b : Byte) : (s.setLatchLow b).paletteLUT = s.paletteLUT := rfl
@[simp] theorem setLatchLow_flashRunning (b : Byte) : (s.setLatchLow b).flashRunning = s.flashRunning := rfl
@[simp] theorem setLatchLow_flashRetry (b : Byte) : (s.setLatchLow b).flashRetry = s.flashRetry := rfl
@[simp] theorem setLatchLow_flashError (b : Byte) : (s.setLatchLow b).flashError = s.flashError := rfl
@[simp] theorem setLatchLow_flashPhase (b : Byte) : (s.setLatchLow b).flashPhase = s.flashPhase := rfl
@[simp] theorem setLatchLow_fwSessionActive (b : Byte) : (s.setLatchLow b).fwSessionActive = s.fwSessionActive := rfl
@[simp] theorem setLatchLow_sessionErased (b : Byte) : (s.setLatchLow b).sessionErased = s.sessionErased := rfl
@[simp] theorem setLatchLow_sessionProgrammed (b : Byte) : (s.setLatchLow b).sessionProgrammed = s.sessionProgrammed := rfl
@[simp] theorem setLatchLow_storage (b : Byte) : (s.setLatchLow b).storage = s.storage := rfl
@[simp] theorem setLatchLow_videoOut (b : Byte) : (s.setLatchLow b).videoOut = s.videoOut := rfl
@[simp] theorem setLatchLow_hostReads (b : Byte) : (s.setLatchLow b).hostReads = s.hostReads := rfl
@[simp] theorem setLatchLow_cfg (b : Byte) : (s.setLatchLow b).cfg = s.cfg := rfl
@[simp] theorem setLatchLow_configPage (b : Byte) : (s.setLatchLow b).configPage = s.configPage := rfl
@[simp] theorem setLatchLow_inputs (b : Byte) : (s.setLatchLow b).inputs = s.inputs := rfl
@[simp] theorem setLatchLow_strobes (b : Byte) : (s.setLatchLow b).strobes = s.strobes := rfl
@[simp] theorem setLatchLow_coprocScript (b : Byte) : (s.setLatchLow b).coprocScript = s.coprocScript := rfl
@[simp] theorem setLatchLow_coprocBegun (b : Byte) : (s.setLatchLow b).coprocBegun = s.coprocBegun := rfl
@[simp] theorem setLatchLow_draws (b : Byte) : (s.setLatchLow b).draws = s.draws := rfl
@[simp] theorem setLatchLow_x (b : Byte) (j : RegIndex) : (s.setLatchLow b).x j = s.x j := rfl
@[simp] theorem setLatchLow_statusSel (b : Byte) : (s.setLatchLow b).statusSel = s.statusSel := rfl
@[simp] theorem setLatchLow_st (b : Byte) (j : StatusIndex) : (s.setLatchLow b).st j = s.st j := rfl
@[simp] theorem setLatchLow_memRead (b : Byte) (j : Nat) : (s.setLatchLow b).memRead j = s.memRead j := rfl
@[simp] theorem setLatchLow_storRead (b : Byte) (j len : Nat) : (s.setLatchLow b).storRead j len = s.storRead j len := rfl

/-! ### draw -/
@[simp] theorem draw_regs : (s.draw).regs = s.regs := rfl
@[simp] theorem draw_status : (s.draw).status = s.status := rfl
@[simp] theorem draw_vram : (s.draw).vram = s.vram := rfl
@[simp] theorem draw_addressLatch : (s.draw).addressLatch = s.addressLatch := rfl
@[simp] theorem draw_addressAutoIncrement : (s.draw).addressAutoIncrement = s.addressAutoIncrement := rfl
@[simp] theorem draw_writeStage : (s.draw).writeStage = s.writeStage := rfl
@[simp] theorem draw_raData : (s.draw).raData = s.raData := rfl
@[simp] theorem draw_raStatus : (s.draw).raStatus = s.raStatus := rfl
@[simp] theorem draw_interruptLine : (s.draw).interruptLine = s.interruptLine := rfl
@[simp] theorem draw_paletteDirty : (s.draw).paletteDirty = s.paletteDirty := rfl
@[simp] theorem draw_configDirty : (s.draw).configDirty = s.configDirty := rfl
@[simp] theorem draw_coprocessorRequested : (s.draw).coprocessorRequested = s.coprocessorRequested := rfl
@[simp] theorem draw_flashRequested : (s.draw).flashRequested = s.flashRequested := rfl
@[simp] theorem draw_unlocked : (s.draw).unlocked = s.unlocked := rfl
@[simp] theorem draw_unlockProgress : (s.draw).unlockProgress = s.unlockProgress := rfl
@[simp] theorem draw_flashMode : (s.draw).flashMode = s.flashMode := rfl
@[simp] theorem draw_coprocessorProgramCounter : (s.draw).coprocessorProgramCounter = s.coprocessorProgramCounter := rfl
@[simp] theorem draw_protActive : (s.draw).protActive = s.protActive := rfl
@[simp] theorem draw_lineY : (s.draw).lineY = s.lineY := rfl
@[simp] theorem draw_pipeState : (s.draw).pipeState = s.pipeState := rfl
@[simp] theorem draw_lineBuf : (s.draw).lineBuf = s.lineBuf := rfl
@[simp] theorem draw_fillSel : (s.draw).fillSel = s.fillSel := rfl
@[simp] theorem draw_handedOff : (s.draw).handedOff = s.handedOff := rfl
@[simp] theorem draw_paletteLUT : (s.draw).paletteLUT = s.paletteLUT := rfl
@[simp] theorem draw_flashRunning : (s.draw).flashRunning = s.flashRunning := rfl
@[simp] theorem draw_flashRetry : (s.draw).flashRetry = s.flashRetry := rfl
@[simp] theorem draw_flashError : (s.draw).flashError = s.flashError := rfl
@[simp] theorem draw_flashPhase : (s.draw).flashPhase = s.flashPhase := rfl
@[simp] theorem draw_fwSessionActive : (s.draw).fwSessionActive = s.fwSessionActive := rfl
@[simp] theorem draw_sessionErased : (s.draw).sessionErased = s.sessionErased := rfl
@[simp] theorem draw_sessionProgrammed : (s.draw).sessionProgrammed = s.sessionProgrammed := rfl
@[simp] theorem draw_storage : (s.draw).storage = s.storage := rfl
@[simp] theorem draw_videoOut : (s.draw).videoOut = s.videoOut := rfl
@[simp] theorem draw_hostReads : (s.draw).hostReads = s.hostReads := rfl
@[simp] theorem draw_cfg : (s.draw).cfg = s.cfg := rfl
@[simp] theorem draw_configPage : (s.draw).configPage = s.configPage := rfl
@[simp] theorem draw_inputs : (s.draw).inputs = s.inputs := rfl
@[simp] theorem draw_strobes : (s.draw).strobes = s.strobes := rfl
@[simp] theorem draw_coprocScript : (s.draw).coprocScript = s.coprocScript := rfl
@[simp] theorem draw_coprocBegun : (s.draw).coprocBegun = s.coprocBegun := rfl
@[simp] theorem draw_x (j : RegIndex) : (s.draw).x j = s.x j := rfl
@[simp] theorem draw_statusSel : (s.draw).statusSel = s.statusSel := rfl
@[simp] theorem draw_st (j : StatusIndex) : (s.draw).st j = s.st j := rfl
@[simp] theorem draw_memRead (j : Nat) : (s.draw).memRead j = s.memRead j := rfl
@[simp] theorem draw_storRead (j len : Nat) : (s.draw).storRead j len = s.storRead j len := rfl

/-! ### storErase -/
@[simp] theorem storErase_regs (a n : Nat) : (s.storErase a n).regs = s.regs := rfl
@[simp] theorem storErase_status (a n : Nat) : (s.storErase a n).status = s.status := rfl
@[simp] theorem storErase_vram (a n : Nat) : (s.storErase a n).vram = s.vram := rfl
@[simp] theorem storErase_addressLatch (a n : Nat) : (s.storErase a n).addressLatch = s.addressLatch := rfl
@[simp] theorem storErase_addressAutoIncrement (a n : Nat) : (s.storErase a n).addressAutoIncrement = s.addressAutoIncrement := rfl
@[simp] theorem storErase_writeStage (a n : Nat) : (s.storErase a n).writeStage = s.writeStage := rfl
@[simp] theorem storErase_raData (a n : Nat) : (s.storErase a n).raData = s.raData := rfl
@[simp] theorem storErase_raStatus (a n : Nat) : (s.storErase a n).raStatus = s.raStatus := rfl
@[simp] theorem storErase_interruptLine (a n : Nat) : (s.storErase a n).interruptLine = s.interruptLine := rfl
@[simp] theorem storErase_paletteDirty (a n : Nat) : (s.storErase a n).paletteDirty = s.paletteDirty := rfl
@[simp] theorem storErase_configDirty (a n : Nat) : (s.storErase a n).configDirty = s.configDirty := rfl
@[simp] theorem storErase_coprocessorRequested (a n : Nat) : (s.storErase a n).coprocessorRequested = s.coprocessorRequested := rfl
@[simp] theorem storErase_flashRequested (a n : Nat) : (s.storErase a n).flashRequested = s.flashRequested := rfl
@[simp] theorem storErase_unlocked (a n : Nat) : (s.storErase a n).unlocked = s.unlocked := rfl
@[simp] theorem storErase_unlockProgress (a n : Nat) : (s.storErase a n).unlockProgress = s.unlockProgress := rfl
@[simp] theorem storErase_flashMode (a n : Nat) : (s.storErase a n).flashMode = s.flashMode := rfl
@[simp] theorem storErase_coprocessorProgramCounter (a n : Nat) : (s.storErase a n).coprocessorProgramCounter = s.coprocessorProgramCounter := rfl
@[simp] theorem storErase_protActive (a n : Nat) : (s.storErase a n).protActive = s.protActive := rfl
@[simp] theorem storErase_lineY (a n : Nat) : (s.storErase a n).lineY = s.lineY := rfl
@[simp] theorem storErase_pipeState (a n : Nat) : (s.storErase a n).pipeState = s.pipeState := rfl
@[simp] theorem storErase_lineBuf (a n : Nat) : (s.storErase a n).lineBuf = s.lineBuf := rfl
@[simp] theorem storErase_fillSel (a n : Nat) : (s.storErase a n).fillSel = s.fillSel := rfl
@[simp] theorem storErase_handedOff (a n : Nat) : (s.storErase a n).handedOff = s.handedOff := rfl
@[simp] theorem storErase_paletteLUT (a n : Nat) : (s.storErase a n).paletteLUT = s.paletteLUT := rfl
@[simp] theorem storErase_flashRunning (a n : Nat) : (s.storErase a n).flashRunning = s.flashRunning := rfl
@[simp] theorem storErase_flashRetry (a n : Nat) : (s.storErase a n).flashRetry = s.flashRetry := rfl
@[simp] theorem storErase_flashError (a n : Nat) : (s.storErase a n).flashError = s.flashError := rfl
@[simp] theorem storErase_flashPhase (a n : Nat) : (s.storErase a n).flashPhase = s.flashPhase := rfl
@[simp] theorem storErase_fwSessionActive (a n : Nat) : (s.storErase a n).fwSessionActive = s.fwSessionActive := rfl
@[simp] theorem storErase_sessionErased (a n : Nat) : (s.storErase a n).sessionErased = s.sessionErased := rfl
@[simp] theorem storErase_sessionProgrammed (a n : Nat) : (s.storErase a n).sessionProgrammed = s.sessionProgrammed := rfl
@[simp] theorem storErase_videoOut (a n : Nat) : (s.storErase a n).videoOut = s.videoOut := rfl
@[simp] theorem storErase_hostReads (a n : Nat) : (s.storErase a n).hostReads = s.hostReads := rfl
@[simp] theorem storErase_cfg (a n : Nat) : (s.storErase a n).cfg = s.cfg := rfl
@[simp] theorem storErase_configPage (a n : Nat) : (s.storErase a n).configPage = s.configPage := rfl
@[simp] theorem storErase_inputs (a n : Nat) : (s.storErase a n).inputs = s.inputs := rfl
@[simp] theorem storErase_strobes (a n : Nat) : (s.storErase a n).strobes = s.strobes := rfl
@[simp] theorem storErase_coprocScript (a n : Nat) : (s.storErase a n).coprocScript = s.coprocScript := rfl
@[simp] theorem storErase_coprocBegun (a n : Nat) : (s.storErase a n).coprocBegun = s.coprocBegun := rfl
@[simp] theorem storErase_draws (a n : Nat) : (s.storErase a n).draws = s.draws := rfl
@[simp] theorem storErase_x (a n : Nat) (j : RegIndex) : (s.storErase a n).x j = s.x j := rfl
@[simp] theorem storErase_statusSel (a n : Nat) : (s.storErase a n).statusSel = s.statusSel := rfl
@[simp] theorem storErase_st (a n : Nat) (j : StatusIndex) : (s.storErase a n).st j = s.st j := rfl
@[simp] theorem storErase_memRead (a n : Nat) (j : Nat) : (s.storErase a n).memRead j = s.memRead j := rfl

/-! ### storProgram -/
@[simp] theorem storProgram_regs (fresh : Nat → Bool) (a : Nat) (vs : List Byte) : (s.storProgram fresh a vs).regs = s.regs := rfl
@[simp] theorem storProgram_status (fresh : Nat → Bool) (a : Nat) (vs : List Byte) : (s.storProgram fresh a vs).status = s.status := rfl
@[simp] theorem storProgram_vram (fresh : Nat → Bool) (a : Nat) (vs : List Byte) : (s.storProgram fresh a vs).vram = s.vram := rfl
@[simp] theorem storProgram_addressLatch (fresh : Nat → Bool) (a : Nat) (vs : List Byte) : (s.storProgram fresh a vs).addressLatch = s.addressLatch := rfl
@[simp] theorem storProgram_addressAutoIncrement (fresh : Nat → Bool) (a : Nat) (vs : List Byte) : (s.storProgram fresh a vs).addressAutoIncrement = s.addressAutoIncrement := rfl
@[simp] theorem storProgram_writeStage (fresh : Nat → Bool) (a : Nat) (vs : List Byte) : (s.storProgram fresh a vs).writeStage = s.writeStage := rfl
@[simp] theorem storProgram_raData (fresh : Nat → Bool) (a : Nat) (vs : List Byte) : (s.storProgram fresh a vs).raData = s.raData := rfl
@[simp] theorem storProgram_raStatus (fresh : Nat → Bool) (a : Nat) (vs : List Byte) : (s.storProgram fresh a vs).raStatus = s.raStatus := rfl
@[simp] theorem storProgram_interruptLine (fresh : Nat → Bool) (a : Nat) (vs : List Byte) : (s.storProgram fresh a vs).interruptLine = s.interruptLine := rfl
@[simp] theorem storProgram_paletteDirty (fresh : Nat → Bool) (a : Nat) (vs : List Byte) : (s.storProgram fresh a vs).paletteDirty = s.paletteDirty := rfl
@[simp] theorem storProgram_configDirty (fresh : Nat → Bool) (a : Nat) (vs : List Byte) : (s.storProgram fresh a vs).configDirty = s.configDirty := rfl
@[simp] theorem storProgram_coprocessorRequested (fresh : Nat → Bool) (a : Nat) (vs : List Byte) : (s.storProgram fresh a vs).coprocessorRequested = s.coprocessorRequested := rfl
@[simp] theorem storProgram_flashRequested (fresh : Nat → Bool) (a : Nat) (vs : List Byte) : (s.storProgram fresh a vs).flashRequested = s.flashRequested := rfl
@[simp] theorem storProgram_unlocked (fresh : Nat → Bool) (a : Nat) (vs : List Byte) : (s.storProgram fresh a vs).unlocked = s.unlocked := rfl
@[simp] theorem storProgram_unlockProgress (fresh : Nat → Bool) (a : Nat) (vs : List Byte) : (s.storProgram fresh a vs).unlockProgress = s.unlockProgress := rfl
@[simp] theorem storProgram_flashMode (fresh : Nat → Bool) (a : Nat) (vs : List Byte) : (s.storProgram fresh a vs).flashMode = s.flashMode := rfl
@[simp] theorem storProgram_coprocessorProgramCounter (fresh : Nat → Bool) (a : Nat) (vs : List Byte) : (s.storProgram fresh a vs).coprocessorProgramCounter = s.coprocessorProgramCounter := rfl
@[simp] theorem storProgram_protActive (fresh : Nat → Bool) (a : Nat) (vs : List Byte) : (s.storProgram fresh a vs).protActive = s.protActive := rfl
@[simp] theorem storProgram_lineY (fresh : Nat → Bool) (a : Nat) (vs : List Byte) : (s.storProgram fresh a vs).lineY = s.lineY := rfl
@[simp] theorem storProgram_pipeState (fresh : Nat → Bool) (a : Nat) (vs : List Byte) : (s.storProgram fresh a vs).pipeState = s.pipeState := rfl
@[simp] theorem storProgram_lineBuf (fresh : Nat → Bool) (a : Nat) (vs : List Byte) : (s.storProgram fresh a vs).lineBuf = s.lineBuf := rfl
@[simp] theorem storProgram_fillSel (fresh : Nat → Bool) (a : Nat) (vs : List Byte) : (s.storProgram fresh a vs).fillSel = s.fillSel := rfl
@[simp] theorem storProgram_handedOff (fresh : Nat → Bool) (a : Nat) (vs : List Byte) : (s.storProgram fresh a vs).handedOff = s.handedOff := rfl
@[simp] theorem storProgram_paletteLUT (fresh : Nat → Bool) (a : Nat) (vs : List Byte) : (s.storProgram fresh a vs).paletteLUT = s.paletteLUT := rfl
@[simp] theorem storProgram_flashRunning (fresh : Nat → Bool) (a : Nat) (vs : List Byte) : (s.storProgram fresh a vs).flashRunning = s.flashRunning := rfl
@[simp] theorem storProgram_flashRetry (fresh : Nat → Bool) (a : Nat) (vs : List Byte) : (s.storProgram fresh a vs).flashRetry = s.flashRetry := rfl
@[simp] theorem storProgram_flashError (fresh : Nat → Bool) (a : Nat) (vs : List Byte) : (s.storProgram fresh a vs).flashError = s.flashError := rfl
@[simp] theorem storProgram_flashPhase (fresh : Nat → Bool) (a : Nat) (vs : List Byte) : (s.storProgram fresh a vs).flashPhase = s.flashPhase := rfl
@[simp] theorem storProgram_fwSessionActive (fresh : Nat → Bool) (a : Nat) (vs : List Byte) : (s.storProgram fresh a vs).fwSessionActive = s.fwSessionActive := rfl
@[simp] theorem storProgram_sessionErased (fresh : Nat → Bool) (a : Nat) (vs : List Byte) : (s.storProgram fresh a vs).sessionErased = s.sessionErased := rfl
@[simp] theorem storProgram_sessionProgrammed (fresh : Nat → Bool) (a : Nat) (vs : List Byte) : (s.storProgram fresh a vs).sessionProgrammed = s.sessionProgrammed := rfl
@[simp] theorem storProgram_videoOut (fresh : Nat → Bool) (a : Nat) (vs : List Byte) : (s.storProgram fresh a vs).videoOut = s.videoOut := rfl
@[simp] theorem storProgram_hostReads (fresh : Nat → Bool) (a : Nat) (vs : List Byte) : (s.storProgram fresh a vs).hostReads = s.hostReads := rfl
@[simp] theorem storProgram_cfg (fresh : Nat → Bool) (a : Nat) (vs : List Byte) : (s.storProgram fresh a vs).cfg = s.cfg := rfl
@[simp] theorem storProgram_configPage (fresh : Nat → Bool) (a : Nat) (vs : List Byte) : (s.storProgram fresh a vs).configPage = s.configPage := rfl
@[simp] theorem storProgram_inputs (fresh : Nat → Bool) (a : Nat) (vs : List Byte) : (s.storProgram fresh a vs).inputs = s.inputs := rfl
@[simp] theorem storProgram_strobes (fresh : Nat → Bool) (a : Nat) (vs : List Byte) : (s.storProgram fresh a vs).strobes = s.strobes := rfl
@[simp] theorem storProgram_coprocScript (fresh : Nat → Bool) (a : Nat) (vs : List Byte) : (s.storProgram fresh a vs).coprocScript = s.coprocScript := rfl
@[simp] theorem storProgram_coprocBegun (fresh : Nat → Bool) (a : Nat) (vs : List Byte) : (s.storProgram fresh a vs).coprocBegun = s.coprocBegun := rfl
@[simp] theorem storProgram_x (fresh : Nat → Bool) (a : Nat) (vs : List Byte) (j : RegIndex) : (s.storProgram fresh a vs).x j = s.x j := rfl
@[simp] theorem storProgram_statusSel (fresh : Nat → Bool) (a : Nat) (vs : List Byte) : (s.storProgram fresh a vs).statusSel = s.statusSel := rfl
@[simp] theorem storProgram_st (fresh : Nat → Bool) (a : Nat) (vs : List Byte) (j : StatusIndex) : (s.storProgram fresh a vs).st j = s.st j := rfl
@[simp] theorem storProgram_memRead (fresh : Nat → Bool) (a : Nat) (vs : List Byte) (j : Nat) : (s.storProgram fresh a vs).memRead j = s.memRead j := rfl

/-! ### storTorn -/
@[simp] theorem storTorn_regs (f : State → State) (a n : Nat) : (s.storTorn f a n).regs = s.regs := rfl
@[simp] theorem storTorn_status (f : State → State) (a n : Nat) : (s.storTorn f a n).status = s.status := rfl
@[simp] theorem storTorn_vram (f : State → State) (a n : Nat) : (s.storTorn f a n).vram = s.vram := rfl
@[simp] theorem storTorn_addressLatch (f : State → State) (a n : Nat) : (s.storTorn f a n).addressLatch = s.addressLatch := rfl
@[simp] theorem storTorn_addressAutoIncrement (f : State → State) (a n : Nat) : (s.storTorn f a n).addressAutoIncrement = s.addressAutoIncrement := rfl
@[simp] theorem storTorn_writeStage (f : State → State) (a n : Nat) : (s.storTorn f a n).writeStage = s.writeStage := rfl
@[simp] theorem storTorn_raData (f : State → State) (a n : Nat) : (s.storTorn f a n).raData = s.raData := rfl
@[simp] theorem storTorn_raStatus (f : State → State) (a n : Nat) : (s.storTorn f a n).raStatus = s.raStatus := rfl
@[simp] theorem storTorn_interruptLine (f : State → State) (a n : Nat) : (s.storTorn f a n).interruptLine = s.interruptLine := rfl
@[simp] theorem storTorn_paletteDirty (f : State → State) (a n : Nat) : (s.storTorn f a n).paletteDirty = s.paletteDirty := rfl
@[simp] theorem storTorn_configDirty (f : State → State) (a n : Nat) : (s.storTorn f a n).configDirty = s.configDirty := rfl
@[simp] theorem storTorn_coprocessorRequested (f : State → State) (a n : Nat) : (s.storTorn f a n).coprocessorRequested = s.coprocessorRequested := rfl
@[simp] theorem storTorn_flashRequested (f : State → State) (a n : Nat) : (s.storTorn f a n).flashRequested = s.flashRequested := rfl
@[simp] theorem storTorn_unlocked (f : State → State) (a n : Nat) : (s.storTorn f a n).unlocked = s.unlocked := rfl
@[simp] theorem storTorn_unlockProgress (f : State → State) (a n : Nat) : (s.storTorn f a n).unlockProgress = s.unlockProgress := rfl
@[simp] theorem storTorn_flashMode (f : State → State) (a n : Nat) : (s.storTorn f a n).flashMode = s.flashMode := rfl
@[simp] theorem storTorn_coprocessorProgramCounter (f : State → State) (a n : Nat) : (s.storTorn f a n).coprocessorProgramCounter = s.coprocessorProgramCounter := rfl
@[simp] theorem storTorn_protActive (f : State → State) (a n : Nat) : (s.storTorn f a n).protActive = s.protActive := rfl
@[simp] theorem storTorn_lineY (f : State → State) (a n : Nat) : (s.storTorn f a n).lineY = s.lineY := rfl
@[simp] theorem storTorn_pipeState (f : State → State) (a n : Nat) : (s.storTorn f a n).pipeState = s.pipeState := rfl
@[simp] theorem storTorn_lineBuf (f : State → State) (a n : Nat) : (s.storTorn f a n).lineBuf = s.lineBuf := rfl
@[simp] theorem storTorn_fillSel (f : State → State) (a n : Nat) : (s.storTorn f a n).fillSel = s.fillSel := rfl
@[simp] theorem storTorn_handedOff (f : State → State) (a n : Nat) : (s.storTorn f a n).handedOff = s.handedOff := rfl
@[simp] theorem storTorn_paletteLUT (f : State → State) (a n : Nat) : (s.storTorn f a n).paletteLUT = s.paletteLUT := rfl
@[simp] theorem storTorn_flashRunning (f : State → State) (a n : Nat) : (s.storTorn f a n).flashRunning = s.flashRunning := rfl
@[simp] theorem storTorn_flashRetry (f : State → State) (a n : Nat) : (s.storTorn f a n).flashRetry = s.flashRetry := rfl
@[simp] theorem storTorn_flashError (f : State → State) (a n : Nat) : (s.storTorn f a n).flashError = s.flashError := rfl
@[simp] theorem storTorn_flashPhase (f : State → State) (a n : Nat) : (s.storTorn f a n).flashPhase = s.flashPhase := rfl
@[simp] theorem storTorn_fwSessionActive (f : State → State) (a n : Nat) : (s.storTorn f a n).fwSessionActive = s.fwSessionActive := rfl
@[simp] theorem storTorn_sessionErased (f : State → State) (a n : Nat) : (s.storTorn f a n).sessionErased = s.sessionErased := rfl
@[simp] theorem storTorn_sessionProgrammed (f : State → State) (a n : Nat) : (s.storTorn f a n).sessionProgrammed = s.sessionProgrammed := rfl
@[simp] theorem storTorn_videoOut (f : State → State) (a n : Nat) : (s.storTorn f a n).videoOut = s.videoOut := rfl
@[simp] theorem storTorn_hostReads (f : State → State) (a n : Nat) : (s.storTorn f a n).hostReads = s.hostReads := rfl
@[simp] theorem storTorn_cfg (f : State → State) (a n : Nat) : (s.storTorn f a n).cfg = s.cfg := rfl
@[simp] theorem storTorn_configPage (f : State → State) (a n : Nat) : (s.storTorn f a n).configPage = s.configPage := rfl
@[simp] theorem storTorn_inputs (f : State → State) (a n : Nat) : (s.storTorn f a n).inputs = s.inputs := rfl
@[simp] theorem storTorn_strobes (f : State → State) (a n : Nat) : (s.storTorn f a n).strobes = s.strobes := rfl
@[simp] theorem storTorn_coprocScript (f : State → State) (a n : Nat) : (s.storTorn f a n).coprocScript = s.coprocScript := rfl
@[simp] theorem storTorn_coprocBegun (f : State → State) (a n : Nat) : (s.storTorn f a n).coprocBegun = s.coprocBegun := rfl
@[simp] theorem storTorn_x (f : State → State) (a n : Nat) (j : RegIndex) : (s.storTorn f a n).x j = s.x j := rfl
@[simp] theorem storTorn_statusSel (f : State → State) (a n : Nat) : (s.storTorn f a n).statusSel = s.statusSel := rfl
@[simp] theorem storTorn_st (f : State → State) (a n : Nat) (j : StatusIndex) : (s.storTorn f a n).st j = s.st j := rfl
@[simp] theorem storTorn_memRead (f : State → State) (a n : Nat) (j : Nat) : (s.storTorn f a n).memRead j = s.memRead j := rfl

/-! ### cacheFlush -/
@[simp] theorem cacheFlush_regs (a n : Nat) : (s.cacheFlush a n).regs = s.regs := rfl
@[simp] theorem cacheFlush_status (a n : Nat) : (s.cacheFlush a n).status = s.status := rfl
@[simp] theorem cacheFlush_vram (a n : Nat) : (s.cacheFlush a n).vram = s.vram := rfl
@[simp] theorem cacheFlush_addressLatch (a n : Nat) : (s.cacheFlush a n).addressLatch = s.addressLatch := rfl
@[simp] theorem cacheFlush_addressAutoIncrement (a n : Nat) : (s.cacheFlush a n).addressAutoIncrement = s.addressAutoIncrement := rfl
@[simp] theorem cacheFlush_writeStage (a n : Nat) : (s.cacheFlush a n).writeStage = s.writeStage := rfl
@[simp] theorem cacheFlush_raData (a n : Nat) : (s.cacheFlush a n).raData = s.raData := rfl
@[simp] theorem cacheFlush_raStatus (a n : Nat) : (s.cacheFlush a n).raStatus = s.raStatus := rfl
@[simp] theorem cacheFlush_interruptLine (a n : Nat) : (s.cacheFlush a n).interruptLine = s.interruptLine := rfl
@[simp] theorem cacheFlush_paletteDirty (a n : Nat) : (s.cacheFlush a n).paletteDirty = s.paletteDirty := rfl
@[simp] theorem cacheFlush_configDirty (a n : Nat) : (s.cacheFlush a n).configDirty = s.configDirty := rfl
@[simp] theorem cacheFlush_coprocessorRequested (a n : Nat) : (s.cacheFlush a n).coprocessorRequested = s.coprocessorRequested := rfl
@[simp] theorem cacheFlush_flashRequested (a n : Nat) : (s.cacheFlush a n).flashRequested = s.flashRequested := rfl
@[simp] theorem cacheFlush_unlocked (a n : Nat) : (s.cacheFlush a n).unlocked = s.unlocked := rfl
@[simp] theorem cacheFlush_unlockProgress (a n : Nat) : (s.cacheFlush a n).unlockProgress = s.unlockProgress := rfl
@[simp] theorem cacheFlush_flashMode (a n : Nat) : (s.cacheFlush a n).flashMode = s.flashMode := rfl
@[simp] theorem cacheFlush_coprocessorProgramCounter (a n : Nat) : (s.cacheFlush a n).coprocessorProgramCounter = s.coprocessorProgramCounter := rfl
@[simp] theorem cacheFlush_protActive (a n : Nat) : (s.cacheFlush a n).protActive = s.protActive := rfl
@[simp] theorem cacheFlush_lineY (a n : Nat) : (s.cacheFlush a n).lineY = s.lineY := rfl
@[simp] theorem cacheFlush_pipeState (a n : Nat) : (s.cacheFlush a n).pipeState = s.pipeState := rfl
@[simp] theorem cacheFlush_lineBuf (a n : Nat) : (s.cacheFlush a n).lineBuf = s.lineBuf := rfl
@[simp] theorem cacheFlush_fillSel (a n : Nat) : (s.cacheFlush a n).fillSel = s.fillSel := rfl
@[simp] theorem cacheFlush_handedOff (a n : Nat) : (s.cacheFlush a n).handedOff = s.handedOff := rfl
@[simp] theorem cacheFlush_paletteLUT (a n : Nat) : (s.cacheFlush a n).paletteLUT = s.paletteLUT := rfl
@[simp] theorem cacheFlush_flashRunning (a n : Nat) : (s.cacheFlush a n).flashRunning = s.flashRunning := rfl
@[simp] theorem cacheFlush_flashRetry (a n : Nat) : (s.cacheFlush a n).flashRetry = s.flashRetry := rfl
@[simp] theorem cacheFlush_flashError (a n : Nat) : (s.cacheFlush a n).flashError = s.flashError := rfl
@[simp] theorem cacheFlush_flashPhase (a n : Nat) : (s.cacheFlush a n).flashPhase = s.flashPhase := rfl
@[simp] theorem cacheFlush_fwSessionActive (a n : Nat) : (s.cacheFlush a n).fwSessionActive = s.fwSessionActive := rfl
@[simp] theorem cacheFlush_sessionErased (a n : Nat) : (s.cacheFlush a n).sessionErased = s.sessionErased := rfl
@[simp] theorem cacheFlush_sessionProgrammed (a n : Nat) : (s.cacheFlush a n).sessionProgrammed = s.sessionProgrammed := rfl
@[simp] theorem cacheFlush_storage (a n : Nat) : (s.cacheFlush a n).storage = s.storage := rfl
@[simp] theorem cacheFlush_videoOut (a n : Nat) : (s.cacheFlush a n).videoOut = s.videoOut := rfl
@[simp] theorem cacheFlush_hostReads (a n : Nat) : (s.cacheFlush a n).hostReads = s.hostReads := rfl
@[simp] theorem cacheFlush_cfg (a n : Nat) : (s.cacheFlush a n).cfg = s.cfg := rfl
@[simp] theorem cacheFlush_configPage (a n : Nat) : (s.cacheFlush a n).configPage = s.configPage := rfl
@[simp] theorem cacheFlush_inputs (a n : Nat) : (s.cacheFlush a n).inputs = s.inputs := rfl
@[simp] theorem cacheFlush_strobes (a n : Nat) : (s.cacheFlush a n).strobes = s.strobes := rfl
@[simp] theorem cacheFlush_coprocScript (a n : Nat) : (s.cacheFlush a n).coprocScript = s.coprocScript := rfl
@[simp] theorem cacheFlush_coprocBegun (a n : Nat) : (s.cacheFlush a n).coprocBegun = s.coprocBegun := rfl
@[simp] theorem cacheFlush_draws (a n : Nat) : (s.cacheFlush a n).draws = s.draws := rfl
@[simp] theorem cacheFlush_x (a n : Nat) (j : RegIndex) : (s.cacheFlush a n).x j = s.x j := rfl
@[simp] theorem cacheFlush_statusSel (a n : Nat) : (s.cacheFlush a n).statusSel = s.statusSel := rfl
@[simp] theorem cacheFlush_st (a n : Nat) (j : StatusIndex) : (s.cacheFlush a n).st j = s.st j := rfl
@[simp] theorem cacheFlush_memRead (a n : Nat) (j : Nat) : (s.cacheFlush a n).memRead j = s.memRead j := rfl
@[simp] theorem cacheFlush_storRead (a n : Nat) (j len : Nat) : (s.cacheFlush a n).storRead j len = s.storRead j len := rfl

/-! ### takeProtectionFault -/
@[simp] theorem takeProtectionFault_regs : (s.takeProtectionFault).regs = s.regs := rfl
@[simp] theorem takeProtectionFault_status : (s.takeProtectionFault).status = s.status := rfl
@[simp] theorem takeProtectionFault_vram : (s.takeProtectionFault).vram = s.vram := rfl
@[simp] theorem takeProtectionFault_addressLatch : (s.takeProtectionFault).addressLatch = s.addressLatch := rfl
@[simp] theorem takeProtectionFault_addressAutoIncrement : (s.takeProtectionFault).addressAutoIncrement = s.addressAutoIncrement := rfl
@[simp] theorem takeProtectionFault_writeStage : (s.takeProtectionFault).writeStage = s.writeStage := rfl
@[simp] theorem takeProtectionFault_raData : (s.takeProtectionFault).raData = s.raData := rfl
@[simp] theorem takeProtectionFault_raStatus : (s.takeProtectionFault).raStatus = s.raStatus := rfl
@[simp] theorem takeProtectionFault_interruptLine : (s.takeProtectionFault).interruptLine = s.interruptLine := rfl
@[simp] theorem takeProtectionFault_paletteDirty : (s.takeProtectionFault).paletteDirty = s.paletteDirty := rfl
@[simp] theorem takeProtectionFault_configDirty : (s.takeProtectionFault).configDirty = s.configDirty := rfl
@[simp] theorem takeProtectionFault_coprocessorRequested : (s.takeProtectionFault).coprocessorRequested = s.coprocessorRequested := rfl
@[simp] theorem takeProtectionFault_flashRequested : (s.takeProtectionFault).flashRequested = s.flashRequested := rfl
@[simp] theorem takeProtectionFault_unlocked : (s.takeProtectionFault).unlocked = s.unlocked := rfl
@[simp] theorem takeProtectionFault_unlockProgress : (s.takeProtectionFault).unlockProgress = s.unlockProgress := rfl
@[simp] theorem takeProtectionFault_flashMode : (s.takeProtectionFault).flashMode = s.flashMode := rfl
@[simp] theorem takeProtectionFault_coprocessorProgramCounter : (s.takeProtectionFault).coprocessorProgramCounter = s.coprocessorProgramCounter := rfl
@[simp] theorem takeProtectionFault_lineY : (s.takeProtectionFault).lineY = s.lineY := rfl
@[simp] theorem takeProtectionFault_pipeState : (s.takeProtectionFault).pipeState = s.pipeState := rfl
@[simp] theorem takeProtectionFault_lineBuf : (s.takeProtectionFault).lineBuf = s.lineBuf := rfl
@[simp] theorem takeProtectionFault_fillSel : (s.takeProtectionFault).fillSel = s.fillSel := rfl
@[simp] theorem takeProtectionFault_handedOff : (s.takeProtectionFault).handedOff = s.handedOff := rfl
@[simp] theorem takeProtectionFault_paletteLUT : (s.takeProtectionFault).paletteLUT = s.paletteLUT := rfl
@[simp] theorem takeProtectionFault_flashRunning : (s.takeProtectionFault).flashRunning = s.flashRunning := rfl
@[simp] theorem takeProtectionFault_flashRetry : (s.takeProtectionFault).flashRetry = s.flashRetry := rfl
@[simp] theorem takeProtectionFault_flashError : (s.takeProtectionFault).flashError = s.flashError := rfl
@[simp] theorem takeProtectionFault_flashPhase : (s.takeProtectionFault).flashPhase = s.flashPhase := rfl
@[simp] theorem takeProtectionFault_fwSessionActive : (s.takeProtectionFault).fwSessionActive = s.fwSessionActive := rfl
@[simp] theorem takeProtectionFault_sessionErased : (s.takeProtectionFault).sessionErased = s.sessionErased := rfl
@[simp] theorem takeProtectionFault_sessionProgrammed : (s.takeProtectionFault).sessionProgrammed = s.sessionProgrammed := rfl
@[simp] theorem takeProtectionFault_storage : (s.takeProtectionFault).storage = s.storage := rfl
@[simp] theorem takeProtectionFault_videoOut : (s.takeProtectionFault).videoOut = s.videoOut := rfl
@[simp] theorem takeProtectionFault_hostReads : (s.takeProtectionFault).hostReads = s.hostReads := rfl
@[simp] theorem takeProtectionFault_cfg : (s.takeProtectionFault).cfg = s.cfg := rfl
@[simp] theorem takeProtectionFault_configPage : (s.takeProtectionFault).configPage = s.configPage := rfl
@[simp] theorem takeProtectionFault_inputs : (s.takeProtectionFault).inputs = s.inputs := rfl
@[simp] theorem takeProtectionFault_strobes : (s.takeProtectionFault).strobes = s.strobes := rfl
@[simp] theorem takeProtectionFault_coprocScript : (s.takeProtectionFault).coprocScript = s.coprocScript := rfl
@[simp] theorem takeProtectionFault_coprocBegun : (s.takeProtectionFault).coprocBegun = s.coprocBegun := rfl
@[simp] theorem takeProtectionFault_draws : (s.takeProtectionFault).draws = s.draws := rfl
@[simp] theorem takeProtectionFault_x (j : RegIndex) : (s.takeProtectionFault).x j = s.x j := rfl
@[simp] theorem takeProtectionFault_statusSel : (s.takeProtectionFault).statusSel = s.statusSel := rfl
@[simp] theorem takeProtectionFault_st (j : StatusIndex) : (s.takeProtectionFault).st j = s.st j := rfl
@[simp] theorem takeProtectionFault_memRead (j : Nat) : (s.takeProtectionFault).memRead j = s.memRead j := rfl
@[simp] theorem takeProtectionFault_storRead (j len : Nat) : (s.takeProtectionFault).storRead j len = s.storRead j len := rfl

/-! ### protEnable -/
@[simp] theorem protEnable_regs : (s.protEnable).regs = s.regs := rfl
@[simp] theorem protEnable_status : (s.protEnable).status = s.status := rfl
@[simp] theorem protEnable_vram : (s.protEnable).vram = s.vram := rfl
@[simp] theorem protEnable_addressLatch : (s.protEnable).addressLatch = s.addressLatch := rfl
@[simp] theorem protEnable_addressAutoIncrement : (s.protEnable).addressAutoIncrement = s.addressAutoIncrement := rfl
@[simp] theorem protEnable_writeStage : (s.protEnable).writeStage = s.writeStage := rfl
@[simp] theorem protEnable_raData : (s.protEnable).raData = s.raData := rfl
@[simp] theorem protEnable_raStatus : (s.protEnable).raStatus = s.raStatus := rfl
@[simp] theorem protEnable_interruptLine : (s.protEnable).interruptLine = s.interruptLine := rfl
@[simp] theorem protEnable_paletteDirty : (s.protEnable).paletteDirty = s.paletteDirty := rfl
@[simp] theorem protEnable_configDirty : (s.protEnable).configDirty = s.configDirty := rfl
@[simp] theorem protEnable_coprocessorRequested : (s.protEnable).coprocessorRequested = s.coprocessorRequested := rfl
@[simp] theorem protEnable_flashRequested : (s.protEnable).flashRequested = s.flashRequested := rfl
@[simp] theorem protEnable_unlocked : (s.protEnable).unlocked = s.unlocked := rfl
@[simp] theorem protEnable_unlockProgress : (s.protEnable).unlockProgress = s.unlockProgress := rfl
@[simp] theorem protEnable_flashMode : (s.protEnable).flashMode = s.flashMode := rfl
@[simp] theorem protEnable_coprocessorProgramCounter : (s.protEnable).coprocessorProgramCounter = s.coprocessorProgramCounter := rfl
@[simp] theorem protEnable_lineY : (s.protEnable).lineY = s.lineY := rfl
@[simp] theorem protEnable_pipeState : (s.protEnable).pipeState = s.pipeState := rfl
@[simp] theorem protEnable_lineBuf : (s.protEnable).lineBuf = s.lineBuf := rfl
@[simp] theorem protEnable_fillSel : (s.protEnable).fillSel = s.fillSel := rfl
@[simp] theorem protEnable_handedOff : (s.protEnable).handedOff = s.handedOff := rfl
@[simp] theorem protEnable_paletteLUT : (s.protEnable).paletteLUT = s.paletteLUT := rfl
@[simp] theorem protEnable_flashRunning : (s.protEnable).flashRunning = s.flashRunning := rfl
@[simp] theorem protEnable_flashRetry : (s.protEnable).flashRetry = s.flashRetry := rfl
@[simp] theorem protEnable_flashError : (s.protEnable).flashError = s.flashError := rfl
@[simp] theorem protEnable_flashPhase : (s.protEnable).flashPhase = s.flashPhase := rfl
@[simp] theorem protEnable_fwSessionActive : (s.protEnable).fwSessionActive = s.fwSessionActive := rfl
@[simp] theorem protEnable_sessionErased : (s.protEnable).sessionErased = s.sessionErased := rfl
@[simp] theorem protEnable_sessionProgrammed : (s.protEnable).sessionProgrammed = s.sessionProgrammed := rfl
@[simp] theorem protEnable_storage : (s.protEnable).storage = s.storage := rfl
@[simp] theorem protEnable_videoOut : (s.protEnable).videoOut = s.videoOut := rfl
@[simp] theorem protEnable_hostReads : (s.protEnable).hostReads = s.hostReads := rfl
@[simp] theorem protEnable_cfg : (s.protEnable).cfg = s.cfg := rfl
@[simp] theorem protEnable_configPage : (s.protEnable).configPage = s.configPage := rfl
@[simp] theorem protEnable_inputs : (s.protEnable).inputs = s.inputs := rfl
@[simp] theorem protEnable_strobes : (s.protEnable).strobes = s.strobes := rfl
@[simp] theorem protEnable_coprocScript : (s.protEnable).coprocScript = s.coprocScript := rfl
@[simp] theorem protEnable_coprocBegun : (s.protEnable).coprocBegun = s.coprocBegun := rfl
@[simp] theorem protEnable_draws : (s.protEnable).draws = s.draws := rfl
@[simp] theorem protEnable_x (j : RegIndex) : (s.protEnable).x j = s.x j := rfl
@[simp] theorem protEnable_statusSel : (s.protEnable).statusSel = s.statusSel := rfl
@[simp] theorem protEnable_st (j : StatusIndex) : (s.protEnable).st j = s.st j := rfl
@[simp] theorem protEnable_memRead (j : Nat) : (s.protEnable).memRead j = s.memRead j := rfl
@[simp] theorem protEnable_storRead (j len : Nat) : (s.protEnable).storRead j len = s.storRead j len := rfl

/-! ### protDisable -/
@[simp] theorem protDisable_regs : (s.protDisable).regs = s.regs := rfl
@[simp] theorem protDisable_status : (s.protDisable).status = s.status := rfl
@[simp] theorem protDisable_vram : (s.protDisable).vram = s.vram := rfl
@[simp] theorem protDisable_addressLatch : (s.protDisable).addressLatch = s.addressLatch := rfl
@[simp] theorem protDisable_addressAutoIncrement : (s.protDisable).addressAutoIncrement = s.addressAutoIncrement := rfl
@[simp] theorem protDisable_writeStage : (s.protDisable).writeStage = s.writeStage := rfl
@[simp] theorem protDisable_raData : (s.protDisable).raData = s.raData := rfl
@[simp] theorem protDisable_raStatus : (s.protDisable).raStatus = s.raStatus := rfl
@[simp] theorem protDisable_interruptLine : (s.protDisable).interruptLine = s.interruptLine := rfl
@[simp] theorem protDisable_paletteDirty : (s.protDisable).paletteDirty = s.paletteDirty := rfl
@[simp] theorem protDisable_configDirty : (s.protDisable).configDirty = s.configDirty := rfl
@[simp] theorem protDisable_coprocessorRequested : (s.protDisable).coprocessorRequested = s.coprocessorRequested := rfl
@[simp] theorem protDisable_flashRequested : (s.protDisable).flashRequested = s.flashRequested := rfl
@[simp] theorem protDisable_unlocked : (s.protDisable).unlocked = s.unlocked := rfl
@[simp] theorem protDisable_unlockProgress : (s.protDisable).unlockProgress = s.unlockProgress := rfl
@[simp] theorem protDisable_flashMode : (s.protDisable).flashMode = s.flashMode := rfl
@[simp] theorem protDisable_coprocessorProgramCounter : (s.protDisable).coprocessorProgramCounter = s.coprocessorProgramCounter := rfl
@[simp] theorem protDisable_lineY : (s.protDisable).lineY = s.lineY := rfl
@[simp] theorem protDisable_pipeState : (s.protDisable).pipeState = s.pipeState := rfl
@[simp] theorem protDisable_lineBuf : (s.protDisable).lineBuf = s.lineBuf := rfl
@[simp] theorem protDisable_fillSel : (s.protDisable).fillSel = s.fillSel := rfl
@[simp] theorem protDisable_handedOff : (s.protDisable).handedOff = s.handedOff := rfl
@[simp] theorem protDisable_paletteLUT : (s.protDisable).paletteLUT = s.paletteLUT := rfl
@[simp] theorem protDisable_flashRunning : (s.protDisable).flashRunning = s.flashRunning := rfl
@[simp] theorem protDisable_flashRetry : (s.protDisable).flashRetry = s.flashRetry := rfl
@[simp] theorem protDisable_flashError : (s.protDisable).flashError = s.flashError := rfl
@[simp] theorem protDisable_flashPhase : (s.protDisable).flashPhase = s.flashPhase := rfl
@[simp] theorem protDisable_fwSessionActive : (s.protDisable).fwSessionActive = s.fwSessionActive := rfl
@[simp] theorem protDisable_sessionErased : (s.protDisable).sessionErased = s.sessionErased := rfl
@[simp] theorem protDisable_sessionProgrammed : (s.protDisable).sessionProgrammed = s.sessionProgrammed := rfl
@[simp] theorem protDisable_storage : (s.protDisable).storage = s.storage := rfl
@[simp] theorem protDisable_videoOut : (s.protDisable).videoOut = s.videoOut := rfl
@[simp] theorem protDisable_hostReads : (s.protDisable).hostReads = s.hostReads := rfl
@[simp] theorem protDisable_cfg : (s.protDisable).cfg = s.cfg := rfl
@[simp] theorem protDisable_configPage : (s.protDisable).configPage = s.configPage := rfl
@[simp] theorem protDisable_inputs : (s.protDisable).inputs = s.inputs := rfl
@[simp] theorem protDisable_strobes : (s.protDisable).strobes = s.strobes := rfl
@[simp] theorem protDisable_coprocScript : (s.protDisable).coprocScript = s.coprocScript := rfl
@[simp] theorem protDisable_coprocBegun : (s.protDisable).coprocBegun = s.coprocBegun := rfl
@[simp] theorem protDisable_draws : (s.protDisable).draws = s.draws := rfl
@[simp] theorem protDisable_x (j : RegIndex) : (s.protDisable).x j = s.x j := rfl
@[simp] theorem protDisable_statusSel : (s.protDisable).statusSel = s.statusSel := rfl
@[simp] theorem protDisable_st (j : StatusIndex) : (s.protDisable).st j = s.st j := rfl
@[simp] theorem protDisable_memRead (j : Nat) : (s.protDisable).memRead j = s.memRead j := rfl
@[simp] theorem protDisable_storRead (j len : Nat) : (s.protDisable).storRead j len = s.storRead j len := rfl

/-! ### packFlash -/
@[simp] theorem packFlash_regs : (s.packFlash).regs = s.regs := rfl
@[simp] theorem packFlash_vram : (s.packFlash).vram = s.vram := rfl
@[simp] theorem packFlash_addressLatch : (s.packFlash).addressLatch = s.addressLatch := rfl
@[simp] theorem packFlash_addressAutoIncrement : (s.packFlash).addressAutoIncrement = s.addressAutoIncrement := rfl
@[simp] theorem packFlash_writeStage : (s.packFlash).writeStage = s.writeStage := rfl
@[simp] theorem packFlash_raData : (s.packFlash).raData = s.raData := rfl
@[simp] theorem packFlash_raStatus : (s.packFlash).raStatus = s.raStatus := rfl
@[simp] theorem packFlash_interruptLine : (s.packFlash).interruptLine = s.interruptLine := rfl
@[simp] theorem packFlash_paletteDirty : (s.packFlash).paletteDirty = s.paletteDirty := rfl
@[simp] theorem packFlash_configDirty : (s.packFlash).configDirty = s.configDirty := rfl
@[simp] theorem packFlash_coprocessorRequested : (s.packFlash).coprocessorRequested = s.coprocessorRequested := rfl
@[simp] theorem packFlash_flashRequested : (s.packFlash).flashRequested = s.flashRequested := rfl
@[simp] theorem packFlash_unlocked : (s.packFlash).unlocked = s.unlocked := rfl
@[simp] theorem packFlash_unlockProgress : (s.packFlash).unlockProgress = s.unlockProgress := rfl
@[simp] theorem packFlash_flashMode : (s.packFlash).flashMode = s.flashMode := rfl
@[simp] theorem packFlash_coprocessorProgramCounter : (s.packFlash).coprocessorProgramCounter = s.coprocessorProgramCounter := rfl
@[simp] theorem packFlash_protActive : (s.packFlash).protActive = s.protActive := rfl
@[simp] theorem packFlash_lineY : (s.packFlash).lineY = s.lineY := rfl
@[simp] theorem packFlash_pipeState : (s.packFlash).pipeState = s.pipeState := rfl
@[simp] theorem packFlash_lineBuf : (s.packFlash).lineBuf = s.lineBuf := rfl
@[simp] theorem packFlash_fillSel : (s.packFlash).fillSel = s.fillSel := rfl
@[simp] theorem packFlash_handedOff : (s.packFlash).handedOff = s.handedOff := rfl
@[simp] theorem packFlash_paletteLUT : (s.packFlash).paletteLUT = s.paletteLUT := rfl
@[simp] theorem packFlash_flashRunning : (s.packFlash).flashRunning = s.flashRunning := rfl
@[simp] theorem packFlash_flashRetry : (s.packFlash).flashRetry = s.flashRetry := rfl
@[simp] theorem packFlash_flashError : (s.packFlash).flashError = s.flashError := rfl
@[simp] theorem packFlash_flashPhase : (s.packFlash).flashPhase = s.flashPhase := rfl
@[simp] theorem packFlash_fwSessionActive : (s.packFlash).fwSessionActive = s.fwSessionActive := rfl
@[simp] theorem packFlash_sessionErased : (s.packFlash).sessionErased = s.sessionErased := rfl
@[simp] theorem packFlash_sessionProgrammed : (s.packFlash).sessionProgrammed = s.sessionProgrammed := rfl
@[simp] theorem packFlash_storage : (s.packFlash).storage = s.storage := rfl
@[simp] theorem packFlash_videoOut : (s.packFlash).videoOut = s.videoOut := rfl
@[simp] theorem packFlash_hostReads : (s.packFlash).hostReads = s.hostReads := rfl
@[simp] theorem packFlash_cfg : (s.packFlash).cfg = s.cfg := rfl
@[simp] theorem packFlash_configPage : (s.packFlash).configPage = s.configPage := rfl
@[simp] theorem packFlash_inputs : (s.packFlash).inputs = s.inputs := rfl
@[simp] theorem packFlash_strobes : (s.packFlash).strobes = s.strobes := rfl
@[simp] theorem packFlash_coprocScript : (s.packFlash).coprocScript = s.coprocScript := rfl
@[simp] theorem packFlash_coprocBegun : (s.packFlash).coprocBegun = s.coprocBegun := rfl
@[simp] theorem packFlash_draws : (s.packFlash).draws = s.draws := rfl
@[simp] theorem packFlash_x (j : RegIndex) : (s.packFlash).x j = s.x j := rfl
@[simp] theorem packFlash_statusSel : (s.packFlash).statusSel = s.statusSel := rfl
@[simp] theorem packFlash_memRead (j : Nat) : (s.packFlash).memRead j = s.memRead j := rfl
@[simp] theorem packFlash_storRead (j len : Nat) : (s.packFlash).storRead j len = s.storRead j len := rfl

/-! ### setFlashPhase -/
@[simp] theorem setFlashPhase_regs (p : FlashPhase) : (s.setFlashPhase p).regs = s.regs := rfl
@[simp] theorem setFlashPhase_vram (p : FlashPhase) : (s.setFlashPhase p).vram = s.vram := rfl
@[simp] theorem setFlashPhase_addressLatch (p : FlashPhase) : (s.setFlashPhase p).addressLatch = s.addressLatch := rfl
@[simp] theorem setFlashPhase_addressAutoIncrement (p : FlashPhase) : (s.setFlashPhase p).addressAutoIncrement = s.addressAutoIncrement := rfl
@[simp] theorem setFlashPhase_writeStage (p : FlashPhase) : (s.setFlashPhase p).writeStage = s.writeStage := rfl
@[simp] theorem setFlashPhase_raData (p : FlashPhase) : (s.setFlashPhase p).raData = s.raData := rfl
@[simp] theorem setFlashPhase_interruptLine (p : FlashPhase) : (s.setFlashPhase p).interruptLine = s.interruptLine := rfl
@[simp] theorem setFlashPhase_paletteDirty (p : FlashPhase) : (s.setFlashPhase p).paletteDirty = s.paletteDirty := rfl
@[simp] theorem setFlashPhase_configDirty (p : FlashPhase) : (s.setFlashPhase p).configDirty = s.configDirty := rfl
@[simp] theorem setFlashPhase_coprocessorRequested (p : FlashPhase) : (s.setFlashPhase p).coprocessorRequested = s.coprocessorRequested := rfl
@[simp] theorem setFlashPhase_flashRequested (p : FlashPhase) : (s.setFlashPhase p).flashRequested = s.flashRequested := rfl
@[simp] theorem setFlashPhase_unlocked (p : FlashPhase) : (s.setFlashPhase p).unlocked = s.unlocked := rfl
@[simp] theorem setFlashPhase_unlockProgress (p : FlashPhase) : (s.setFlashPhase p).unlockProgress = s.unlockProgress := rfl
@[simp] theorem setFlashPhase_flashMode (p : FlashPhase) : (s.setFlashPhase p).flashMode = s.flashMode := rfl
@[simp] theorem setFlashPhase_coprocessorProgramCounter (p : FlashPhase) : (s.setFlashPhase p).coprocessorProgramCounter = s.coprocessorProgramCounter := rfl
@[simp] theorem setFlashPhase_protActive (p : FlashPhase) : (s.setFlashPhase p).protActive = s.protActive := rfl
@[simp] theorem setFlashPhase_lineY (p : FlashPhase) : (s.setFlashPhase p).lineY = s.lineY := rfl
@[simp] theorem setFlashPhase_pipeState (p : FlashPhase) : (s.setFlashPhase p).pipeState = s.pipeState := rfl
@[simp] theorem setFlashPhase_lineBuf (p : FlashPhase) : (s.setFlashPhase p).lineBuf = s.lineBuf := rfl
@[simp] theorem setFlashPhase_fillSel (p : FlashPhase) : (s.setFlashPhase p).fillSel = s.fillSel := rfl
@[simp] theorem setFlashPhase_handedOff (p : FlashPhase) : (s.setFlashPhase p).handedOff = s.handedOff := rfl
@[simp] theorem setFlashPhase_paletteLUT (p : FlashPhase) : (s.setFlashPhase p).paletteLUT = s.paletteLUT := rfl
@[simp] theorem setFlashPhase_flashRunning (p : FlashPhase) : (s.setFlashPhase p).flashRunning = s.flashRunning := rfl
@[simp] theorem setFlashPhase_flashRetry (p : FlashPhase) : (s.setFlashPhase p).flashRetry = s.flashRetry := rfl
@[simp] theorem setFlashPhase_flashError (p : FlashPhase) : (s.setFlashPhase p).flashError = s.flashError := rfl
@[simp] theorem setFlashPhase_fwSessionActive (p : FlashPhase) : (s.setFlashPhase p).fwSessionActive = s.fwSessionActive := rfl
@[simp] theorem setFlashPhase_sessionErased (p : FlashPhase) : (s.setFlashPhase p).sessionErased = s.sessionErased := rfl
@[simp] theorem setFlashPhase_sessionProgrammed (p : FlashPhase) : (s.setFlashPhase p).sessionProgrammed = s.sessionProgrammed := rfl
@[simp] theorem setFlashPhase_storage (p : FlashPhase) : (s.setFlashPhase p).storage = s.storage := rfl
@[simp] theorem setFlashPhase_videoOut (p : FlashPhase) : (s.setFlashPhase p).videoOut = s.videoOut := rfl
@[simp] theorem setFlashPhase_hostReads (p : FlashPhase) : (s.setFlashPhase p).hostReads = s.hostReads := rfl
@[simp] theorem setFlashPhase_cfg (p : FlashPhase) : (s.setFlashPhase p).cfg = s.cfg := rfl
@[simp] theorem setFlashPhase_configPage (p : FlashPhase) : (s.setFlashPhase p).configPage = s.configPage := rfl
@[simp] theorem setFlashPhase_inputs (p : FlashPhase) : (s.setFlashPhase p).inputs = s.inputs := rfl
@[simp] theorem setFlashPhase_strobes (p : FlashPhase) : (s.setFlashPhase p).strobes = s.strobes := rfl
@[simp] theorem setFlashPhase_coprocScript (p : FlashPhase) : (s.setFlashPhase p).coprocScript = s.coprocScript := rfl
@[simp] theorem setFlashPhase_coprocBegun (p : FlashPhase) : (s.setFlashPhase p).coprocBegun = s.coprocBegun := rfl
@[simp] theorem setFlashPhase_draws (p : FlashPhase) : (s.setFlashPhase p).draws = s.draws := rfl
@[simp] theorem setFlashPhase_x (p : FlashPhase) (j : RegIndex) : (s.setFlashPhase p).x j = s.x j := rfl
@[simp] theorem setFlashPhase_statusSel (p : FlashPhase) : (s.setFlashPhase p).statusSel = s.statusSel := rfl
@[simp] theorem setFlashPhase_memRead (p : FlashPhase) (j : Nat) : (s.setFlashPhase p).memRead j = s.memRead j := rfl
@[simp] theorem setFlashPhase_storRead (p : FlashPhase) (j len : Nat) : (s.setFlashPhase p).storRead j len = s.storRead j len := rfl

/-! ### setFlashRetry -/
@[simp] theorem setFlashRetry_regs (n : BitVec 2) : (s.setFlashRetry n).regs = s.regs := rfl
@[simp] theorem setFlashRetry_vram (n : BitVec 2) : (s.setFlashRetry n).vram = s.vram := rfl
@[simp] theorem setFlashRetry_addressLatch (n : BitVec 2) : (s.setFlashRetry n).addressLatch = s.addressLatch := rfl
@[simp] theorem setFlashRetry_addressAutoIncrement (n : BitVec 2) : (s.setFlashRetry n).addressAutoIncrement = s.addressAutoIncrement := rfl
@[simp] theorem setFlashRetry_writeStage (n : BitVec 2) : (s.setFlashRetry n).writeStage = s.writeStage := rfl
@[simp] theorem setFlashRetry_raData (n : BitVec 2) : (s.setFlashRetry n).raData = s.raData := rfl
@[simp] theorem setFlashRetry_interruptLine (n : BitVec 2) : (s.setFlashRetry n).interruptLine = s.interruptLine := rfl
@[simp] theorem setFlashRetry_paletteDirty (n : BitVec 2) : (s.setFlashRetry n).paletteDirty = s.paletteDirty := rfl
@[simp] theorem setFlashRetry_configDirty (n : BitVec 2) : (s.setFlashRetry n).configDirty = s.configDirty := rfl
@[simp] theorem setFlashRetry_coprocessorRequested (n : BitVec 2) : (s.setFlashRetry n).coprocessorRequested = s.coprocessorRequested := rfl
@[simp] theorem setFlashRetry_flashRequested (n : BitVec 2) : (s.setFlashRetry n).flashRequested = s.flashRequested := rfl
@[simp] theorem setFlashRetry_unlocked (n : BitVec 2) : (s.setFlashRetry n).unlocked = s.unlocked := rfl
@[simp] theorem setFlashRetry_unlockProgress (n : BitVec 2) : (s.setFlashRetry n).unlockProgress = s.unlockProgress := rfl
@[simp] theorem setFlashRetry_flashMode (n : BitVec 2) : (s.setFlashRetry n).flashMode = s.flashMode := rfl
@[simp] theorem setFlashRetry_coprocessorProgramCounter (n : BitVec 2) : (s.setFlashRetry n).coprocessorProgramCounter = s.coprocessorProgramCounter := rfl
@[simp] theorem setFlashRetry_protActive (n : BitVec 2) : (s.setFlashRetry n).protActive = s.protActive := rfl
@[simp] theorem setFlashRetry_lineY (n : BitVec 2) : (s.setFlashRetry n).lineY = s.lineY := rfl
@[simp] theorem setFlashRetry_pipeState (n : BitVec 2) : (s.setFlashRetry n).pipeState = s.pipeState := rfl
@[simp] theorem setFlashRetry_lineBuf (n : BitVec 2) : (s.setFlashRetry n).lineBuf = s.lineBuf := rfl
@[simp] theorem setFlashRetry_fillSel (n : BitVec 2) : (s.setFlashRetry n).fillSel = s.fillSel := rfl
@[simp] theorem setFlashRetry_handedOff (n : BitVec 2) : (s.setFlashRetry n).handedOff = s.handedOff := rfl
@[simp] theorem setFlashRetry_paletteLUT (n : BitVec 2) : (s.setFlashRetry n).paletteLUT = s.paletteLUT := rfl
@[simp] theorem setFlashRetry_flashRunning (n : BitVec 2) : (s.setFlashRetry n).flashRunning = s.flashRunning := rfl
@[simp] theorem setFlashRetry_flashError (n : BitVec 2) : (s.setFlashRetry n).flashError = s.flashError := rfl
@[simp] theorem setFlashRetry_flashPhase (n : BitVec 2) : (s.setFlashRetry n).flashPhase = s.flashPhase := rfl
@[simp] theorem setFlashRetry_fwSessionActive (n : BitVec 2) : (s.setFlashRetry n).fwSessionActive = s.fwSessionActive := rfl
@[simp] theorem setFlashRetry_sessionErased (n : BitVec 2) : (s.setFlashRetry n).sessionErased = s.sessionErased := rfl
@[simp] theorem setFlashRetry_sessionProgrammed (n : BitVec 2) : (s.setFlashRetry n).sessionProgrammed = s.sessionProgrammed := rfl
@[simp] theorem setFlashRetry_storage (n : BitVec 2) : (s.setFlashRetry n).storage = s.storage := rfl
@[simp] theorem setFlashRetry_videoOut (n : BitVec 2) : (s.setFlashRetry n).videoOut = s.videoOut := rfl
@[simp] theorem setFlashRetry_hostReads (n : BitVec 2) : (s.setFlashRetry n).hostReads = s.hostReads := rfl
@[simp] theorem setFlashRetry_cfg (n : BitVec 2) : (s.setFlashRetry n).cfg = s.cfg := rfl
@[simp] theorem setFlashRetry_configPage (n : BitVec 2) : (s.setFlashRetry n).configPage = s.configPage := rfl
@[simp] theorem setFlashRetry_inputs (n : BitVec 2) : (s.setFlashRetry n).inputs = s.inputs := rfl
@[simp] theorem setFlashRetry_strobes (n : BitVec 2) : (s.setFlashRetry n).strobes = s.strobes := rfl
@[simp] theorem setFlashRetry_coprocScript (n : BitVec 2) : (s.setFlashRetry n).coprocScript = s.coprocScript := rfl
@[simp] theorem setFlashRetry_coprocBegun (n : BitVec 2) : (s.setFlashRetry n).coprocBegun = s.coprocBegun := rfl
@[simp] theorem setFlashRetry_draws (n : BitVec 2) : (s.setFlashRetry n).draws = s.draws := rfl
@[simp] theorem setFlashRetry_x (n : BitVec 2) (j : RegIndex) : (s.setFlashRetry n).x j = s.x j := rfl
@[simp] theorem setFlashRetry_statusSel (n : BitVec 2) : (s.setFlashRetry n).statusSel = s.statusSel := rfl
@[simp] theorem setFlashRetry_memRead (n : BitVec 2) (j : Nat) : (s.setFlashRetry n).memRead j = s.memRead j := rfl
@[simp] theorem setFlashRetry_storRead (n : BitVec 2) (j len : Nat) : (s.setFlashRetry n).storRead j len = s.storRead j len := rfl

/-! ### raiseFlashError -/
@[simp] theorem raiseFlashError_regs (e : FlashError) : (s.raiseFlashError e).regs = s.regs := rfl
@[simp] theorem raiseFlashError_vram (e : FlashError) : (s.raiseFlashError e).vram = s.vram := rfl
@[simp] theorem raiseFlashError_addressLatch (e : FlashError) : (s.raiseFlashError e).addressLatch = s.addressLatch := rfl
@[simp] theorem raiseFlashError_addressAutoIncrement (e : FlashError) : (s.raiseFlashError e).addressAutoIncrement = s.addressAutoIncrement := rfl
@[simp] theorem raiseFlashError_writeStage (e : FlashError) : (s.raiseFlashError e).writeStage = s.writeStage := rfl
@[simp] theorem raiseFlashError_raData (e : FlashError) : (s.raiseFlashError e).raData = s.raData := rfl
@[simp] theorem raiseFlashError_interruptLine (e : FlashError) : (s.raiseFlashError e).interruptLine = s.interruptLine := rfl
@[simp] theorem raiseFlashError_paletteDirty (e : FlashError) : (s.raiseFlashError e).paletteDirty = s.paletteDirty := rfl
@[simp] theorem raiseFlashError_configDirty (e : FlashError) : (s.raiseFlashError e).configDirty = s.configDirty := rfl
@[simp] theorem raiseFlashError_coprocessorRequested (e : FlashError) : (s.raiseFlashError e).coprocessorRequested = s.coprocessorRequested := rfl
@[simp] theorem raiseFlashError_flashRequested (e : FlashError) : (s.raiseFlashError e).flashRequested = s.flashRequested := rfl
@[simp] theorem raiseFlashError_unlocked (e : FlashError) : (s.raiseFlashError e).unlocked = s.unlocked := rfl
@[simp] theorem raiseFlashError_unlockProgress (e : FlashError) : (s.raiseFlashError e).unlockProgress = s.unlockProgress := rfl
@[simp] theorem raiseFlashError_flashMode (e : FlashError) : (s.raiseFlashError e).flashMode = s.flashMode := rfl
@[simp] theorem raiseFlashError_coprocessorProgramCounter (e : FlashError) : (s.raiseFlashError e).coprocessorProgramCounter = s.coprocessorProgramCounter := rfl
@[simp] theorem raiseFlashError_protActive (e : FlashError) : (s.raiseFlashError e).protActive = s.protActive := rfl
@[simp] theorem raiseFlashError_lineY (e : FlashError) : (s.raiseFlashError e).lineY = s.lineY := rfl
@[simp] theorem raiseFlashError_pipeState (e : FlashError) : (s.raiseFlashError e).pipeState = s.pipeState := rfl
@[simp] theorem raiseFlashError_lineBuf (e : FlashError) : (s.raiseFlashError e).lineBuf = s.lineBuf := rfl
@[simp] theorem raiseFlashError_fillSel (e : FlashError) : (s.raiseFlashError e).fillSel = s.fillSel := rfl
@[simp] theorem raiseFlashError_handedOff (e : FlashError) : (s.raiseFlashError e).handedOff = s.handedOff := rfl
@[simp] theorem raiseFlashError_paletteLUT (e : FlashError) : (s.raiseFlashError e).paletteLUT = s.paletteLUT := rfl
@[simp] theorem raiseFlashError_flashRunning (e : FlashError) : (s.raiseFlashError e).flashRunning = s.flashRunning := rfl
@[simp] theorem raiseFlashError_flashRetry (e : FlashError) : (s.raiseFlashError e).flashRetry = s.flashRetry := rfl
@[simp] theorem raiseFlashError_flashPhase (e : FlashError) : (s.raiseFlashError e).flashPhase = s.flashPhase := rfl
@[simp] theorem raiseFlashError_fwSessionActive (e : FlashError) : (s.raiseFlashError e).fwSessionActive = s.fwSessionActive := rfl
@[simp] theorem raiseFlashError_sessionErased (e : FlashError) : (s.raiseFlashError e).sessionErased = s.sessionErased := rfl
@[simp] theorem raiseFlashError_sessionProgrammed (e : FlashError) : (s.raiseFlashError e).sessionProgrammed = s.sessionProgrammed := rfl
@[simp] theorem raiseFlashError_storage (e : FlashError) : (s.raiseFlashError e).storage = s.storage := rfl
@[simp] theorem raiseFlashError_videoOut (e : FlashError) : (s.raiseFlashError e).videoOut = s.videoOut := rfl
@[simp] theorem raiseFlashError_hostReads (e : FlashError) : (s.raiseFlashError e).hostReads = s.hostReads := rfl
@[simp] theorem raiseFlashError_cfg (e : FlashError) : (s.raiseFlashError e).cfg = s.cfg := rfl
@[simp] theorem raiseFlashError_configPage (e : FlashError) : (s.raiseFlashError e).configPage = s.configPage := rfl
@[simp] theorem raiseFlashError_inputs (e : FlashError) : (s.raiseFlashError e).inputs = s.inputs := rfl
@[simp] theorem raiseFlashError_strobes (e : FlashError) : (s.raiseFlashError e).strobes = s.strobes := rfl
@[simp] theorem raiseFlashError_coprocScript (e : FlashError) : (s.raiseFlashError e).coprocScript = s.coprocScript := rfl
@[simp] theorem raiseFlashError_coprocBegun (e : FlashError) : (s.raiseFlashError e).coprocBegun = s.coprocBegun := rfl
@[simp] theorem raiseFlashError_draws (e : FlashError) : (s.raiseFlashError e).draws = s.draws := rfl
@[simp] theorem raiseFlashError_x (e : FlashError) (j : RegIndex) : (s.raiseFlashError e).x j = s.x j := rfl
@[simp] theorem raiseFlashError_statusSel (e : FlashError) : (s.raiseFlashError e).statusSel = s.statusSel := rfl
@[simp] theorem raiseFlashError_memRead (e : FlashError) (j : Nat) : (s.raiseFlashError e).memRead j = s.memRead j := rfl
@[simp] theorem raiseFlashError_storRead (e : FlashError) (j len : Nat) : (s.raiseFlashError e).storRead j len = s.storRead j len := rfl

/-! ### flashReturn -/
@[simp] theorem flashReturn_regs : (s.flashReturn).regs = s.regs := rfl
@[simp] theorem flashReturn_vram : (s.flashReturn).vram = s.vram := rfl
@[simp] theorem flashReturn_addressLatch : (s.flashReturn).addressLatch = s.addressLatch := rfl
@[simp] theorem flashReturn_addressAutoIncrement : (s.flashReturn).addressAutoIncrement = s.addressAutoIncrement := rfl
@[simp] theorem flashReturn_writeStage : (s.flashReturn).writeStage = s.writeStage := rfl
@[simp] theorem flashReturn_raData : (s.flashReturn).raData = s.raData := rfl
@[simp] theorem flashReturn_interruptLine : (s.flashReturn).interruptLine = s.interruptLine := rfl
@[simp] theorem flashReturn_paletteDirty : (s.flashReturn).paletteDirty = s.paletteDirty := rfl
@[simp] theorem flashReturn_configDirty : (s.flashReturn).configDirty = s.configDirty := rfl
@[simp] theorem flashReturn_coprocessorRequested : (s.flashReturn).coprocessorRequested = s.coprocessorRequested := rfl
@[simp] theorem flashReturn_unlocked : (s.flashReturn).unlocked = s.unlocked := rfl
@[simp] theorem flashReturn_unlockProgress : (s.flashReturn).unlockProgress = s.unlockProgress := rfl
@[simp] theorem flashReturn_flashMode : (s.flashReturn).flashMode = s.flashMode := rfl
@[simp] theorem flashReturn_coprocessorProgramCounter : (s.flashReturn).coprocessorProgramCounter = s.coprocessorProgramCounter := rfl
@[simp] theorem flashReturn_protActive : (s.flashReturn).protActive = s.protActive := rfl
@[simp] theorem flashReturn_lineY : (s.flashReturn).lineY = s.lineY := rfl
@[simp] theorem flashReturn_pipeState : (s.flashReturn).pipeState = s.pipeState := rfl
@[simp] theorem flashReturn_lineBuf : (s.flashReturn).lineBuf = s.lineBuf := rfl
@[simp] theorem flashReturn_fillSel : (s.flashReturn).fillSel = s.fillSel := rfl
@[simp] theorem flashReturn_handedOff : (s.flashReturn).handedOff = s.handedOff := rfl
@[simp] theorem flashReturn_paletteLUT : (s.flashReturn).paletteLUT = s.paletteLUT := rfl
@[simp] theorem flashReturn_flashRetry : (s.flashReturn).flashRetry = s.flashRetry := rfl
@[simp] theorem flashReturn_flashError : (s.flashReturn).flashError = s.flashError := rfl
@[simp] theorem flashReturn_flashPhase : (s.flashReturn).flashPhase = s.flashPhase := rfl
@[simp] theorem flashReturn_fwSessionActive : (s.flashReturn).fwSessionActive = s.fwSessionActive := rfl
@[simp] theorem flashReturn_sessionErased : (s.flashReturn).sessionErased = s.sessionErased := rfl
@[simp] theorem flashReturn_sessionProgrammed : (s.flashReturn).sessionProgrammed = s.sessionProgrammed := rfl
@[simp] theorem flashReturn_storage : (s.flashReturn).storage = s.storage := rfl
@[simp] theorem flashReturn_videoOut : (s.flashReturn).videoOut = s.videoOut := rfl
@[simp] theorem flashReturn_hostReads : (s.flashReturn).hostReads = s.hostReads := rfl
@[simp] theorem flashReturn_cfg : (s.flashReturn).cfg = s.cfg := rfl
@[simp] theorem flashReturn_configPage : (s.flashReturn).configPage = s.configPage := rfl
@[simp] theorem flashReturn_inputs : (s.flashReturn).inputs = s.inputs := rfl
@[simp] theorem flashReturn_strobes : (s.flashReturn).strobes = s.strobes := rfl
@[simp] theorem flashReturn_coprocScript : (s.flashReturn).coprocScript = s.coprocScript := rfl
@[simp] theorem flashReturn_coprocBegun : (s.flashReturn).coprocBegun = s.coprocBegun := rfl
@[simp] theorem flashReturn_draws : (s.flashReturn).draws = s.draws := rfl
@[simp] theorem flashReturn_x (j : RegIndex) : (s.flashReturn).x j = s.x j := rfl
@[simp] theorem flashReturn_statusSel : (s.flashReturn).statusSel = s.statusSel := rfl
@[simp] theorem flashReturn_memRead (j : Nat) : (s.flashReturn).memRead j = s.memRead j := rfl
@[simp] theorem flashReturn_storRead (j len : Nat) : (s.flashReturn).storRead j len = s.storRead j len := rfl

/-! ### coprocTriggerOp -/
@[simp] theorem coprocTriggerOp_regs : (s.coprocTriggerOp).regs = s.regs := rfl
@[simp] theorem coprocTriggerOp_vram : (s.coprocTriggerOp).vram = s.vram := rfl
@[simp] theorem coprocTriggerOp_addressLatch : (s.coprocTriggerOp).addressLatch = s.addressLatch := rfl
@[simp] theorem coprocTriggerOp_addressAutoIncrement : (s.coprocTriggerOp).addressAutoIncrement = s.addressAutoIncrement := rfl
@[simp] theorem coprocTriggerOp_writeStage : (s.coprocTriggerOp).writeStage = s.writeStage := rfl
@[simp] theorem coprocTriggerOp_raData : (s.coprocTriggerOp).raData = s.raData := rfl
@[simp] theorem coprocTriggerOp_raStatus : (s.coprocTriggerOp).raStatus = s.raStatus := rfl
@[simp] theorem coprocTriggerOp_interruptLine : (s.coprocTriggerOp).interruptLine = s.interruptLine := rfl
@[simp] theorem coprocTriggerOp_paletteDirty : (s.coprocTriggerOp).paletteDirty = s.paletteDirty := rfl
@[simp] theorem coprocTriggerOp_configDirty : (s.coprocTriggerOp).configDirty = s.configDirty := rfl
@[simp] theorem coprocTriggerOp_flashRequested : (s.coprocTriggerOp).flashRequested = s.flashRequested := rfl
@[simp] theorem coprocTriggerOp_unlocked : (s.coprocTriggerOp).unlocked = s.unlocked := rfl
@[simp] theorem coprocTriggerOp_unlockProgress : (s.coprocTriggerOp).unlockProgress = s.unlockProgress := rfl
@[simp] theorem coprocTriggerOp_flashMode : (s.coprocTriggerOp).flashMode = s.flashMode := rfl
@[simp] theorem coprocTriggerOp_coprocessorProgramCounter : (s.coprocTriggerOp).coprocessorProgramCounter = s.coprocessorProgramCounter := rfl
@[simp] theorem coprocTriggerOp_protActive : (s.coprocTriggerOp).protActive = s.protActive := rfl
@[simp] theorem coprocTriggerOp_lineY : (s.coprocTriggerOp).lineY = s.lineY := rfl
@[simp] theorem coprocTriggerOp_pipeState : (s.coprocTriggerOp).pipeState = s.pipeState := rfl
@[simp] theorem coprocTriggerOp_lineBuf : (s.coprocTriggerOp).lineBuf = s.lineBuf := rfl
@[simp] theorem coprocTriggerOp_fillSel : (s.coprocTriggerOp).fillSel = s.fillSel := rfl
@[simp] theorem coprocTriggerOp_handedOff : (s.coprocTriggerOp).handedOff = s.handedOff := rfl
@[simp] theorem coprocTriggerOp_paletteLUT : (s.coprocTriggerOp).paletteLUT = s.paletteLUT := rfl
@[simp] theorem coprocTriggerOp_flashRunning : (s.coprocTriggerOp).flashRunning = s.flashRunning := rfl
@[simp] theorem coprocTriggerOp_flashRetry : (s.coprocTriggerOp).flashRetry = s.flashRetry := rfl
@[simp] theorem coprocTriggerOp_flashError : (s.coprocTriggerOp).flashError = s.flashError := rfl
@[simp] theorem coprocTriggerOp_flashPhase : (s.coprocTriggerOp).flashPhase = s.flashPhase := rfl
@[simp] theorem coprocTriggerOp_fwSessionActive : (s.coprocTriggerOp).fwSessionActive = s.fwSessionActive := rfl
@[simp] theorem coprocTriggerOp_sessionErased : (s.coprocTriggerOp).sessionErased = s.sessionErased := rfl
@[simp] theorem coprocTriggerOp_sessionProgrammed : (s.coprocTriggerOp).sessionProgrammed = s.sessionProgrammed := rfl
@[simp] theorem coprocTriggerOp_storage : (s.coprocTriggerOp).storage = s.storage := rfl
@[simp] theorem coprocTriggerOp_videoOut : (s.coprocTriggerOp).videoOut = s.videoOut := rfl
@[simp] theorem coprocTriggerOp_hostReads : (s.coprocTriggerOp).hostReads = s.hostReads := rfl
@[simp] theorem coprocTriggerOp_cfg : (s.coprocTriggerOp).cfg = s.cfg := rfl
@[simp] theorem coprocTriggerOp_configPage : (s.coprocTriggerOp).configPage = s.configPage := rfl
@[simp] theorem coprocTriggerOp_inputs : (s.coprocTriggerOp).inputs = s.inputs := rfl
@[simp] theorem coprocTriggerOp_strobes : (s.coprocTriggerOp).strobes = s.strobes := rfl
@[simp] theorem coprocTriggerOp_coprocScript : (s.coprocTriggerOp).coprocScript = s.coprocScript := rfl
@[simp] theorem coprocTriggerOp_coprocBegun : (s.coprocTriggerOp).coprocBegun = s.coprocBegun := rfl
@[simp] theorem coprocTriggerOp_draws : (s.coprocTriggerOp).draws = s.draws := rfl
@[simp] theorem coprocTriggerOp_x (j : RegIndex) : (s.coprocTriggerOp).x j = s.x j := rfl
@[simp] theorem coprocTriggerOp_statusSel : (s.coprocTriggerOp).statusSel = s.statusSel := rfl
@[simp] theorem coprocTriggerOp_memRead (j : Nat) : (s.coprocTriggerOp).memRead j = s.memRead j := rfl
@[simp] theorem coprocTriggerOp_storRead (j len : Nat) : (s.coprocTriggerOp).storRead j len = s.storRead j len := rfl

/-! ### setAddr -/
@[simp] theorem setAddr_regs (addr : BitVec 14) (m : BitVec 1) : (s.setAddr addr m).regs = s.regs := rfl
@[simp] theorem setAddr_status (addr : BitVec 14) (m : BitVec 1) : (s.setAddr addr m).status = s.status := rfl
@[simp] theorem setAddr_vram (addr : BitVec 14) (m : BitVec 1) : (s.setAddr addr m).vram = s.vram := rfl
@[simp] theorem setAddr_writeStage (addr : BitVec 14) (m : BitVec 1) : (s.setAddr addr m).writeStage = s.writeStage := rfl
@[simp] theorem setAddr_raData (addr : BitVec 14) (m : BitVec 1) : (s.setAddr addr m).raData = s.raData := rfl
@[simp] theorem setAddr_raStatus (addr : BitVec 14) (m : BitVec 1) : (s.setAddr addr m).raStatus = s.raStatus := rfl
@[simp] theorem setAddr_interruptLine (addr : BitVec 14) (m : BitVec 1) : (s.setAddr addr m).interruptLine = s.interruptLine := rfl
@[simp] theorem setAddr_paletteDirty (addr : BitVec 14) (m : BitVec 1) : (s.setAddr addr m).paletteDirty = s.paletteDirty := rfl
@[simp] theorem setAddr_configDirty (addr : BitVec 14) (m : BitVec 1) : (s.setAddr addr m).configDirty = s.configDirty := rfl
@[simp] theorem setAddr_coprocessorRequested (addr : BitVec 14) (m : BitVec 1) : (s.setAddr addr m).coprocessorRequested = s.coprocessorRequested := rfl
@[simp] theorem setAddr_flashRequested (addr : BitVec 14) (m : BitVec 1) : (s.setAddr addr m).flashRequested = s.flashRequested := rfl
@[simp] theorem setAddr_unlocked (addr : BitVec 14) (m : BitVec 1) : (s.setAddr addr m).unlocked = s.unlocked := rfl
@[simp] theorem setAddr_unlockProgress (addr : BitVec 14) (m : BitVec 1) : (s.setAddr addr m).unlockProgress = s.unlockProgress := rfl
@[simp] theorem setAddr_flashMode (addr : BitVec 14) (m : BitVec 1) : (s.setAddr addr m).flashMode = s.flashMode := rfl
@[simp] theorem setAddr_coprocessorProgramCounter (addr : BitVec 14) (m : BitVec 1) : (s.setAddr addr m).coprocessorProgramCounter = s.coprocessorProgramCounter := rfl
@[simp] theorem setAddr_protActive (addr : BitVec 14) (m : BitVec 1) : (s.setAddr addr m).protActive = s.protActive := rfl
@[simp] theorem setAddr_lineY (addr : BitVec 14) (m : BitVec 1) : (s.setAddr addr m).lineY = s.lineY := rfl
@[simp] theorem setAddr_pipeState (addr : BitVec 14) (m : BitVec 1) : (s.setAddr addr m).pipeState = s.pipeState := rfl
@[simp] theorem setAddr_lineBuf (addr : BitVec 14) (m : BitVec 1) : (s.setAddr addr m).lineBuf = s.lineBuf := rfl
@[simp] theorem setAddr_fillSel (addr : BitVec 14) (m : BitVec 1) : (s.setAddr addr m).fillSel = s.fillSel := rfl
@[simp] theorem setAddr_handedOff (addr : BitVec 14) (m : BitVec 1) : (s.setAddr addr m).handedOff = s.handedOff := rfl
@[simp] theorem setAddr_paletteLUT (addr : BitVec 14) (m : BitVec 1) : (s.setAddr addr m).paletteLUT = s.paletteLUT := rfl
@[simp] theorem setAddr_flashRunning (addr : BitVec 14) (m : BitVec 1) : (s.setAddr addr m).flashRunning = s.flashRunning := rfl
@[simp] theorem setAddr_flashRetry (addr : BitVec 14) (m : BitVec 1) : (s.setAddr addr m).flashRetry = s.flashRetry := rfl
@[simp] theorem setAddr_flashError (addr : BitVec 14) (m : BitVec 1) : (s.setAddr addr m).flashError = s.flashError := rfl
@[simp] theorem setAddr_flashPhase (addr : BitVec 14) (m : BitVec 1) : (s.setAddr addr m).flashPhase = s.flashPhase := rfl
@[simp] theorem setAddr_fwSessionActive (addr : BitVec 14) (m : BitVec 1) : (s.setAddr addr m).fwSessionActive = s.fwSessionActive := rfl
@[simp] theorem setAddr_sessionErased (addr : BitVec 14) (m : BitVec 1) : (s.setAddr addr m).sessionErased = s.sessionErased := rfl
@[simp] theorem setAddr_sessionProgrammed (addr : BitVec 14) (m : BitVec 1) : (s.setAddr addr m).sessionProgrammed = s.sessionProgrammed := rfl
@[simp] theorem setAddr_storage (addr : BitVec 14) (m : BitVec 1) : (s.setAddr addr m).storage = s.storage := rfl
@[simp] theorem setAddr_videoOut (addr : BitVec 14) (m : BitVec 1) : (s.setAddr addr m).videoOut = s.videoOut := rfl
@[simp] theorem setAddr_hostReads (addr : BitVec 14) (m : BitVec 1) : (s.setAddr addr m).hostReads = s.hostReads := rfl
@[simp] theorem setAddr_cfg (addr : BitVec 14) (m : BitVec 1) : (s.setAddr addr m).cfg = s.cfg := rfl
@[simp] theorem setAddr_configPage (addr : BitVec 14) (m : BitVec 1) : (s.setAddr addr m).configPage = s.configPage := rfl
@[simp] theorem setAddr_inputs (addr : BitVec 14) (m : BitVec 1) : (s.setAddr addr m).inputs = s.inputs := rfl
@[simp] theorem setAddr_strobes (addr : BitVec 14) (m : BitVec 1) : (s.setAddr addr m).strobes = s.strobes := rfl
@[simp] theorem setAddr_coprocScript (addr : BitVec 14) (m : BitVec 1) : (s.setAddr addr m).coprocScript = s.coprocScript := rfl
@[simp] theorem setAddr_coprocBegun (addr : BitVec 14) (m : BitVec 1) : (s.setAddr addr m).coprocBegun = s.coprocBegun := rfl
@[simp] theorem setAddr_draws (addr : BitVec 14) (m : BitVec 1) : (s.setAddr addr m).draws = s.draws := rfl
@[simp] theorem setAddr_x (addr : BitVec 14) (m : BitVec 1) (j : RegIndex) : (s.setAddr addr m).x j = s.x j := rfl
@[simp] theorem setAddr_statusSel (addr : BitVec 14) (m : BitVec 1) : (s.setAddr addr m).statusSel = s.statusSel := rfl
@[simp] theorem setAddr_st (addr : BitVec 14) (m : BitVec 1) (j : StatusIndex) : (s.setAddr addr m).st j = s.st j := rfl
@[simp] theorem setAddr_memRead (addr : BitVec 14) (m : BitVec 1) (j : Nat) : (s.setAddr addr m).memRead j = s.memRead j := rfl
@[simp] theorem setAddr_storRead (addr : BitVec 14) (m : BitVec 1) (j len : Nat) : (s.setAddr addr m).storRead j len = s.storRead j len := rfl

/-! ### dirtyEffects -/
@[simp] theorem dirtyEffects_regs (i : RegIndex) : (s.dirtyEffects i).regs = s.regs := rfl
@[simp] theorem dirtyEffects_status (i : RegIndex) : (s.dirtyEffects i).status = s.status := rfl
@[simp] theorem dirtyEffects_vram (i : RegIndex) : (s.dirtyEffects i).vram = s.vram := rfl
@[simp] theorem dirtyEffects_addressLatch (i : RegIndex) : (s.dirtyEffects i).addressLatch = s.addressLatch := rfl
@[simp] theorem dirtyEffects_addressAutoIncrement (i : RegIndex) : (s.dirtyEffects i).addressAutoIncrement = s.addressAutoIncrement := rfl
@[simp] theorem dirtyEffects_writeStage (i : RegIndex) : (s.dirtyEffects i).writeStage = s.writeStage := rfl
@[simp] theorem dirtyEffects_raData (i : RegIndex) : (s.dirtyEffects i).raData = s.raData := rfl
@[simp] theorem dirtyEffects_raStatus (i : RegIndex) : (s.dirtyEffects i).raStatus = s.raStatus := rfl
@[simp] theorem dirtyEffects_interruptLine (i : RegIndex) : (s.dirtyEffects i).interruptLine = s.interruptLine := rfl
@[simp] theorem dirtyEffects_coprocessorRequested (i : RegIndex) : (s.dirtyEffects i).coprocessorRequested = s.coprocessorRequested := rfl
@[simp] theorem dirtyEffects_flashRequested (i : RegIndex) : (s.dirtyEffects i).flashRequested = s.flashRequested := rfl
@[simp] theorem dirtyEffects_unlocked (i : RegIndex) : (s.dirtyEffects i).unlocked = s.unlocked := rfl
@[simp] theorem dirtyEffects_unlockProgress (i : RegIndex) : (s.dirtyEffects i).unlockProgress = s.unlockProgress := rfl
@[simp] theorem dirtyEffects_flashMode (i : RegIndex) : (s.dirtyEffects i).flashMode = s.flashMode := rfl
@[simp] theorem dirtyEffects_coprocessorProgramCounter (i : RegIndex) : (s.dirtyEffects i).coprocessorProgramCounter = s.coprocessorProgramCounter := rfl
@[simp] theorem dirtyEffects_protActive (i : RegIndex) : (s.dirtyEffects i).protActive = s.protActive := rfl
@[simp] theorem dirtyEffects_lineY (i : RegIndex) : (s.dirtyEffects i).lineY = s.lineY := rfl
@[simp] theorem dirtyEffects_pipeState (i : RegIndex) : (s.dirtyEffects i).pipeState = s.pipeState := rfl
@[simp] theorem dirtyEffects_lineBuf (i : RegIndex) : (s.dirtyEffects i).lineBuf = s.lineBuf := rfl
@[simp] theorem dirtyEffects_fillSel (i : RegIndex) : (s.dirtyEffects i).fillSel = s.fillSel := rfl
@[simp] theorem dirtyEffects_handedOff (i : RegIndex) : (s.dirtyEffects i).handedOff = s.handedOff := rfl
@[simp] theorem dirtyEffects_paletteLUT (i : RegIndex) : (s.dirtyEffects i).paletteLUT = s.paletteLUT := rfl
@[simp] theorem dirtyEffects_flashRunning (i : RegIndex) : (s.dirtyEffects i).flashRunning = s.flashRunning := rfl
@[simp] theorem dirtyEffects_flashRetry (i : RegIndex) : (s.dirtyEffects i).flashRetry = s.flashRetry := rfl
@[simp] theorem dirtyEffects_flashError (i : RegIndex) : (s.dirtyEffects i).flashError = s.flashError := rfl
@[simp] theorem dirtyEffects_flashPhase (i : RegIndex) : (s.dirtyEffects i).flashPhase = s.flashPhase := rfl
@[simp] theorem dirtyEffects_fwSessionActive (i : RegIndex) : (s.dirtyEffects i).fwSessionActive = s.fwSessionActive := rfl
@[simp] theorem dirtyEffects_sessionErased (i : RegIndex) : (s.dirtyEffects i).sessionErased = s.sessionErased := rfl
@[simp] theorem dirtyEffects_sessionProgrammed (i : RegIndex) : (s.dirtyEffects i).sessionProgrammed = s.sessionProgrammed := rfl
@[simp] theorem dirtyEffects_storage (i : RegIndex) : (s.dirtyEffects i).storage = s.storage := rfl
@[simp] theorem dirtyEffects_videoOut (i : RegIndex) : (s.dirtyEffects i).videoOut = s.videoOut := rfl
@[simp] theorem dirtyEffects_hostReads (i : RegIndex) : (s.dirtyEffects i).hostReads = s.hostReads := rfl
@[simp] theorem dirtyEffects_cfg (i : RegIndex) : (s.dirtyEffects i).cfg = s.cfg := rfl
@[simp] theorem dirtyEffects_configPage (i : RegIndex) : (s.dirtyEffects i).configPage = s.configPage := rfl
@[simp] theorem dirtyEffects_inputs (i : RegIndex) : (s.dirtyEffects i).inputs = s.inputs := rfl
@[simp] theorem dirtyEffects_strobes (i : RegIndex) : (s.dirtyEffects i).strobes = s.strobes := rfl
@[simp] theorem dirtyEffects_coprocScript (i : RegIndex) : (s.dirtyEffects i).coprocScript = s.coprocScript := rfl
@[simp] theorem dirtyEffects_coprocBegun (i : RegIndex) : (s.dirtyEffects i).coprocBegun = s.coprocBegun := rfl
@[simp] theorem dirtyEffects_draws (i : RegIndex) : (s.dirtyEffects i).draws = s.draws := rfl
@[simp] theorem dirtyEffects_x (i : RegIndex) (j : RegIndex) : (s.dirtyEffects i).x j = s.x j := rfl
@[simp] theorem dirtyEffects_statusSel (i : RegIndex) : (s.dirtyEffects i).statusSel = s.statusSel := rfl
@[simp] theorem dirtyEffects_st (i : RegIndex) (j : StatusIndex) : (s.dirtyEffects i).st j = s.st j := rfl
@[simp] theorem dirtyEffects_memRead (i : RegIndex) (j : Nat) : (s.dirtyEffects i).memRead j = s.memRead j := rfl
@[simp] theorem dirtyEffects_storRead (i : RegIndex) (j len : Nat) : (s.dirtyEffects i).storRead j len = s.storRead j len := rfl

/-! ### readStage -/
@[simp] theorem readStage_regs : (s.readStage).regs = s.regs := rfl
@[simp] theorem readStage_status : (s.readStage).status = s.status := rfl
@[simp] theorem readStage_vram : (s.readStage).vram = s.vram := rfl
@[simp] theorem readStage_addressLatch : (s.readStage).addressLatch = s.addressLatch := rfl
@[simp] theorem readStage_addressAutoIncrement : (s.readStage).addressAutoIncrement = s.addressAutoIncrement := rfl
@[simp] theorem readStage_raData : (s.readStage).raData = s.raData := rfl
@[simp] theorem readStage_raStatus : (s.readStage).raStatus = s.raStatus := rfl
@[simp] theorem readStage_interruptLine : (s.readStage).interruptLine = s.interruptLine := rfl
@[simp] theorem readStage_paletteDirty : (s.readStage).paletteDirty = s.paletteDirty := rfl
@[simp] theorem readStage_configDirty : (s.readStage).configDirty = s.configDirty := rfl
@[simp] theorem readStage_coprocessorRequested : (s.readStage).coprocessorRequested = s.coprocessorRequested := rfl
@[simp] theorem readStage_flashRequested : (s.readStage).flashRequested = s.flashRequested := rfl
@[simp] theorem readStage_unlocked : (s.readStage).unlocked = s.unlocked := rfl
@[simp] theorem readStage_unlockProgress : (s.readStage).unlockProgress = s.unlockProgress := rfl
@[simp] theorem readStage_flashMode : (s.readStage).flashMode = s.flashMode := rfl
@[simp] theorem readStage_coprocessorProgramCounter : (s.readStage).coprocessorProgramCounter = s.coprocessorProgramCounter := rfl
@[simp] theorem readStage_protActive : (s.readStage).protActive = s.protActive := rfl
@[simp] theorem readStage_lineY : (s.readStage).lineY = s.lineY := rfl
@[simp] theorem readStage_pipeState : (s.readStage).pipeState = s.pipeState := rfl
@[simp] theorem readStage_lineBuf : (s.readStage).lineBuf = s.lineBuf := rfl
@[simp] theorem readStage_fillSel : (s.readStage).fillSel = s.fillSel := rfl
@[simp] theorem readStage_handedOff : (s.readStage).handedOff = s.handedOff := rfl
@[simp] theorem readStage_paletteLUT : (s.readStage).paletteLUT = s.paletteLUT := rfl
@[simp] theorem readStage_flashRunning : (s.readStage).flashRunning = s.flashRunning := rfl
@[simp] theorem readStage_flashRetry : (s.readStage).flashRetry = s.flashRetry := rfl
@[simp] theorem readStage_flashError : (s.readStage).flashError = s.flashError := rfl
@[simp] theorem readStage_flashPhase : (s.readStage).flashPhase = s.flashPhase := rfl
@[simp] theorem readStage_fwSessionActive : (s.readStage).fwSessionActive = s.fwSessionActive := rfl
@[simp] theorem readStage_sessionErased : (s.readStage).sessionErased = s.sessionErased := rfl
@[simp] theorem readStage_sessionProgrammed : (s.readStage).sessionProgrammed = s.sessionProgrammed := rfl
@[simp] theorem readStage_storage : (s.readStage).storage = s.storage := rfl
@[simp] theorem readStage_videoOut : (s.readStage).videoOut = s.videoOut := rfl
@[simp] theorem readStage_hostReads : (s.readStage).hostReads = s.hostReads := rfl
@[simp] theorem readStage_cfg : (s.readStage).cfg = s.cfg := rfl
@[simp] theorem readStage_configPage : (s.readStage).configPage = s.configPage := rfl
@[simp] theorem readStage_inputs : (s.readStage).inputs = s.inputs := rfl
@[simp] theorem readStage_strobes : (s.readStage).strobes = s.strobes := rfl
@[simp] theorem readStage_coprocScript : (s.readStage).coprocScript = s.coprocScript := rfl
@[simp] theorem readStage_coprocBegun : (s.readStage).coprocBegun = s.coprocBegun := rfl
@[simp] theorem readStage_draws : (s.readStage).draws = s.draws := rfl
@[simp] theorem readStage_x (j : RegIndex) : (s.readStage).x j = s.x j := rfl
@[simp] theorem readStage_statusSel : (s.readStage).statusSel = s.statusSel := rfl
@[simp] theorem readStage_st (j : StatusIndex) : (s.readStage).st j = s.st j := rfl
@[simp] theorem readStage_memRead (j : Nat) : (s.readStage).memRead j = s.memRead j := rfl
@[simp] theorem readStage_storRead (j len : Nat) : (s.readStage).storRead j len = s.storRead j len := rfl

/-! ### hostReturn -/
@[simp] theorem hostReturn_regs (v : Byte) : (s.hostReturn v).regs = s.regs := rfl
@[simp] theorem hostReturn_status (v : Byte) : (s.hostReturn v).status = s.status := rfl
@[simp] theorem hostReturn_vram (v : Byte) : (s.hostReturn v).vram = s.vram := rfl
@[simp] theorem hostReturn_addressLatch (v : Byte) : (s.hostReturn v).addressLatch = s.addressLatch := rfl
@[simp] theorem hostReturn_addressAutoIncrement (v : Byte) : (s.hostReturn v).addressAutoIncrement = s.addressAutoIncrement := rfl
@[simp] theorem hostReturn_writeStage (v : Byte) : (s.hostReturn v).writeStage = s.writeStage := rfl
@[simp] theorem hostReturn_raData (v : Byte) : (s.hostReturn v).raData = s.raData := rfl
@[simp] theorem hostReturn_raStatus (v : Byte) : (s.hostReturn v).raStatus = s.raStatus := rfl
@[simp] theorem hostReturn_interruptLine (v : Byte) : (s.hostReturn v).interruptLine = s.interruptLine := rfl
@[simp] theorem hostReturn_paletteDirty (v : Byte) : (s.hostReturn v).paletteDirty = s.paletteDirty := rfl
@[simp] theorem hostReturn_configDirty (v : Byte) : (s.hostReturn v).configDirty = s.configDirty := rfl
@[simp] theorem hostReturn_coprocessorRequested (v : Byte) : (s.hostReturn v).coprocessorRequested = s.coprocessorRequested := rfl
@[simp] theorem hostReturn_flashRequested (v : Byte) : (s.hostReturn v).flashRequested = s.flashRequested := rfl
@[simp] theorem hostReturn_unlocked (v : Byte) : (s.hostReturn v).unlocked = s.unlocked := rfl
@[simp] theorem hostReturn_unlockProgress (v : Byte) : (s.hostReturn v).unlockProgress = s.unlockProgress := rfl
@[simp] theorem hostReturn_flashMode (v : Byte) : (s.hostReturn v).flashMode = s.flashMode := rfl
@[simp] theorem hostReturn_coprocessorProgramCounter (v : Byte) : (s.hostReturn v).coprocessorProgramCounter = s.coprocessorProgramCounter := rfl
@[simp] theorem hostReturn_protActive (v : Byte) : (s.hostReturn v).protActive = s.protActive := rfl
@[simp] theorem hostReturn_lineY (v : Byte) : (s.hostReturn v).lineY = s.lineY := rfl
@[simp] theorem hostReturn_pipeState (v : Byte) : (s.hostReturn v).pipeState = s.pipeState := rfl
@[simp] theorem hostReturn_lineBuf (v : Byte) : (s.hostReturn v).lineBuf = s.lineBuf := rfl
@[simp] theorem hostReturn_fillSel (v : Byte) : (s.hostReturn v).fillSel = s.fillSel := rfl
@[simp] theorem hostReturn_handedOff (v : Byte) : (s.hostReturn v).handedOff = s.handedOff := rfl
@[simp] theorem hostReturn_paletteLUT (v : Byte) : (s.hostReturn v).paletteLUT = s.paletteLUT := rfl
@[simp] theorem hostReturn_flashRunning (v : Byte) : (s.hostReturn v).flashRunning = s.flashRunning := rfl
@[simp] theorem hostReturn_flashRetry (v : Byte) : (s.hostReturn v).flashRetry = s.flashRetry := rfl
@[simp] theorem hostReturn_flashError (v : Byte) : (s.hostReturn v).flashError = s.flashError := rfl
@[simp] theorem hostReturn_flashPhase (v : Byte) : (s.hostReturn v).flashPhase = s.flashPhase := rfl
@[simp] theorem hostReturn_fwSessionActive (v : Byte) : (s.hostReturn v).fwSessionActive = s.fwSessionActive := rfl
@[simp] theorem hostReturn_sessionErased (v : Byte) : (s.hostReturn v).sessionErased = s.sessionErased := rfl
@[simp] theorem hostReturn_sessionProgrammed (v : Byte) : (s.hostReturn v).sessionProgrammed = s.sessionProgrammed := rfl
@[simp] theorem hostReturn_storage (v : Byte) : (s.hostReturn v).storage = s.storage := rfl
@[simp] theorem hostReturn_videoOut (v : Byte) : (s.hostReturn v).videoOut = s.videoOut := rfl
@[simp] theorem hostReturn_cfg (v : Byte) : (s.hostReturn v).cfg = s.cfg := rfl
@[simp] theorem hostReturn_configPage (v : Byte) : (s.hostReturn v).configPage = s.configPage := rfl
@[simp] theorem hostReturn_inputs (v : Byte) : (s.hostReturn v).inputs = s.inputs := rfl
@[simp] theorem hostReturn_strobes (v : Byte) : (s.hostReturn v).strobes = s.strobes := rfl
@[simp] theorem hostReturn_coprocScript (v : Byte) : (s.hostReturn v).coprocScript = s.coprocScript := rfl
@[simp] theorem hostReturn_coprocBegun (v : Byte) : (s.hostReturn v).coprocBegun = s.coprocBegun := rfl
@[simp] theorem hostReturn_draws (v : Byte) : (s.hostReturn v).draws = s.draws := rfl
@[simp] theorem hostReturn_x (v : Byte) (j : RegIndex) : (s.hostReturn v).x j = s.x j := rfl
@[simp] theorem hostReturn_statusSel (v : Byte) : (s.hostReturn v).statusSel = s.statusSel := rfl
@[simp] theorem hostReturn_st (v : Byte) (j : StatusIndex) : (s.hostReturn v).st j = s.st j := rfl
@[simp] theorem hostReturn_memRead (v : Byte) (j : Nat) : (s.hostReturn v).memRead j = s.memRead j := rfl
@[simp] theorem hostReturn_storRead (v : Byte) (j len : Nat) : (s.hostReturn v).storRead j len = s.storRead j len := rfl

/-! ### statusClearOnRead -/
@[simp] theorem statusClearOnRead_regs (i : StatusIndex) : (s.statusClearOnRead i).regs = s.regs := rfl
@[simp] theorem statusClearOnRead_vram (i : StatusIndex) : (s.statusClearOnRead i).vram = s.vram := rfl
@[simp] theorem statusClearOnRead_addressLatch (i : StatusIndex) : (s.statusClearOnRead i).addressLatch = s.addressLatch := rfl
@[simp] theorem statusClearOnRead_addressAutoIncrement (i : StatusIndex) : (s.statusClearOnRead i).addressAutoIncrement = s.addressAutoIncrement := rfl
@[simp] theorem statusClearOnRead_writeStage (i : StatusIndex) : (s.statusClearOnRead i).writeStage = s.writeStage := rfl
@[simp] theorem statusClearOnRead_raData (i : StatusIndex) : (s.statusClearOnRead i).raData = s.raData := rfl
@[simp] theorem statusClearOnRead_raStatus (i : StatusIndex) : (s.statusClearOnRead i).raStatus = s.raStatus := rfl
@[simp] theorem statusClearOnRead_interruptLine (i : StatusIndex) : (s.statusClearOnRead i).interruptLine = s.interruptLine := rfl
@[simp] theorem statusClearOnRead_paletteDirty (i : StatusIndex) : (s.statusClearOnRead i).paletteDirty = s.paletteDirty := rfl
@[simp] theorem statusClearOnRead_configDirty (i : StatusIndex) : (s.statusClearOnRead i).configDirty = s.configDirty := rfl
@[simp] theorem statusClearOnRead_coprocessorRequested (i : StatusIndex) : (s.statusClearOnRead i).coprocessorRequested = s.coprocessorRequested := rfl
@[simp] theorem statusClearOnRead_flashRequested (i : StatusIndex) : (s.statusClearOnRead i).flashRequested = s.flashRequested := rfl
@[simp] theorem statusClearOnRead_unlocked (i : StatusIndex) : (s.statusClearOnRead i).unlocked = s.unlocked := rfl
@[simp] theorem statusClearOnRead_unlockProgress (i : StatusIndex) : (s.statusClearOnRead i).unlockProgress = s.unlockProgress := rfl
@[simp] theorem statusClearOnRead_flashMode (i : StatusIndex) : (s.statusClearOnRead i).flashMode = s.flashMode := rfl
@[simp] theorem statusClearOnRead_coprocessorProgramCounter (i : StatusIndex) : (s.statusClearOnRead i).coprocessorProgramCounter = s.coprocessorProgramCounter := rfl
@[simp] theorem statusClearOnRead_protActive (i : StatusIndex) : (s.statusClearOnRead i).protActive = s.protActive := rfl
@[simp] theorem statusClearOnRead_lineY (i : StatusIndex) : (s.statusClearOnRead i).lineY = s.lineY := rfl
@[simp] theorem statusClearOnRead_pipeState (i : StatusIndex) : (s.statusClearOnRead i).pipeState = s.pipeState := rfl
@[simp] theorem statusClearOnRead_lineBuf (i : StatusIndex) : (s.statusClearOnRead i).lineBuf = s.lineBuf := rfl
@[simp] theorem statusClearOnRead_fillSel (i : StatusIndex) : (s.statusClearOnRead i).fillSel = s.fillSel := rfl
@[simp] theorem statusClearOnRead_handedOff (i : StatusIndex) : (s.statusClearOnRead i).handedOff = s.handedOff := rfl
@[simp] theorem statusClearOnRead_paletteLUT (i : StatusIndex) : (s.statusClearOnRead i).paletteLUT = s.paletteLUT := rfl
@[simp] theorem statusClearOnRead_flashRunning (i : StatusIndex) : (s.statusClearOnRead i).flashRunning = s.flashRunning := rfl
@[simp] theorem statusClearOnRead_flashRetry (i : StatusIndex) : (s.statusClearOnRead i).flashRetry = s.flashRetry := rfl
@[simp] theorem statusClearOnRead_flashError (i : StatusIndex) : (s.statusClearOnRead i).flashError = s.flashError := rfl
@[simp] theorem statusClearOnRead_flashPhase (i : StatusIndex) : (s.statusClearOnRead i).flashPhase = s.flashPhase := rfl
@[simp] theorem statusClearOnRead_fwSessionActive (i : StatusIndex) : (s.statusClearOnRead i).fwSessionActive = s.fwSessionActive := rfl
@[simp] theorem statusClearOnRead_sessionErased (i : StatusIndex) : (s.statusClearOnRead i).sessionErased = s.sessionErased := rfl
@[simp] theorem statusClearOnRead_sessionProgrammed (i : StatusIndex) : (s.statusClearOnRead i).sessionProgrammed = s.sessionProgrammed := rfl
@[simp] theorem statusClearOnRead_storage (i : StatusIndex) : (s.statusClearOnRead i).storage = s.storage := rfl
@[simp] theorem statusClearOnRead_videoOut (i : StatusIndex) : (s.statusClearOnRead i).videoOut = s.videoOut := rfl
@[simp] theorem statusClearOnRead_hostReads (i : StatusIndex) : (s.statusClearOnRead i).hostReads = s.hostReads := rfl
@[simp] theorem statusClearOnRead_cfg (i : StatusIndex) : (s.statusClearOnRead i).cfg = s.cfg := rfl
@[simp] theorem statusClearOnRead_configPage (i : StatusIndex) : (s.statusClearOnRead i).configPage = s.configPage := rfl
@[simp] theorem statusClearOnRead_inputs (i : StatusIndex) : (s.statusClearOnRead i).inputs = s.inputs := rfl
@[simp] theorem statusClearOnRead_strobes (i : StatusIndex) : (s.statusClearOnRead i).strobes = s.strobes := rfl
@[simp] theorem statusClearOnRead_coprocScript (i : StatusIndex) : (s.statusClearOnRead i).coprocScript = s.coprocScript := rfl
@[simp] theorem statusClearOnRead_coprocBegun (i : StatusIndex) : (s.statusClearOnRead i).coprocBegun = s.coprocBegun := rfl
@[simp] theorem statusClearOnRead_draws (i : StatusIndex) : (s.statusClearOnRead i).draws = s.draws := rfl
@[simp] theorem statusClearOnRead_x (i : StatusIndex) (j : RegIndex) : (s.statusClearOnRead i).x j = s.x j := rfl
@[simp] theorem statusClearOnRead_statusSel (i : StatusIndex) : (s.statusClearOnRead i).statusSel = s.statusSel := rfl
@[simp] theorem statusClearOnRead_memRead (i : StatusIndex) (j : Nat) : (s.statusClearOnRead i).memRead j = s.memRead j := rfl
@[simp] theorem statusClearOnRead_storRead (i : StatusIndex) (j len : Nat) : (s.statusClearOnRead i).storRead j len = s.storRead j len := rfl

/-! ### withStrobes -/
@[simp] theorem withStrobes_regs (l : List Strobe) : (s.withStrobes l).regs = s.regs := rfl
@[simp] theorem withStrobes_status (l : List Strobe) : (s.withStrobes l).status = s.status := rfl
@[simp] theorem withStrobes_vram (l : List Strobe) : (s.withStrobes l).vram = s.vram := rfl
@[simp] theorem withStrobes_addressLatch (l : List Strobe) : (s.withStrobes l).addressLatch = s.addressLatch := rfl
@[simp] theorem withStrobes_addressAutoIncrement (l : List Strobe) : (s.withStrobes l).addressAutoIncrement = s.addressAutoIncrement := rfl
@[simp] theorem withStrobes_writeStage (l : List Strobe) : (s.withStrobes l).writeStage = s.writeStage := rfl
@[simp] theorem withStrobes_raData (l : List Strobe) : (s.withStrobes l).raData = s.raData := rfl
@[simp] theorem withStrobes_raStatus (l : List Strobe) : (s.withStrobes l).raStatus = s.raStatus := rfl
@[simp] theorem withStrobes_interruptLine (l : List Strobe) : (s.withStrobes l).interruptLine = s.interruptLine := rfl
@[simp] theorem withStrobes_paletteDirty (l : List Strobe) : (s.withStrobes l).paletteDirty = s.paletteDirty := rfl
@[simp] theorem withStrobes_configDirty (l : List Strobe) : (s.withStrobes l).configDirty = s.configDirty := rfl
@[simp] theorem withStrobes_coprocessorRequested (l : List Strobe) : (s.withStrobes l).coprocessorRequested = s.coprocessorRequested := rfl
@[simp] theorem withStrobes_flashRequested (l : List Strobe) : (s.withStrobes l).flashRequested = s.flashRequested := rfl
@[simp] theorem withStrobes_unlocked (l : List Strobe) : (s.withStrobes l).unlocked = s.unlocked := rfl
@[simp] theorem withStrobes_unlockProgress (l : List Strobe) : (s.withStrobes l).unlockProgress = s.unlockProgress := rfl
@[simp] theorem withStrobes_flashMode (l : List Strobe) : (s.withStrobes l).flashMode = s.flashMode := rfl
@[simp] theorem withStrobes_coprocessorProgramCounter (l : List Strobe) : (s.withStrobes l).coprocessorProgramCounter = s.coprocessorProgramCounter := rfl
@[simp] theorem withStrobes_protActive (l : List Strobe) : (s.withStrobes l).protActive = s.protActive := rfl
@[simp] theorem withStrobes_lineY (l : List Strobe) : (s.withStrobes l).lineY = s.lineY := rfl
@[simp] theorem withStrobes_pipeState (l : List Strobe) : (s.withStrobes l).pipeState = s.pipeState := rfl
@[simp] theorem withStrobes_lineBuf (l : List Strobe) : (s.withStrobes l).lineBuf = s.lineBuf := rfl
@[simp] theorem withStrobes_fillSel (l : List Strobe) : (s.withStrobes l).fillSel = s.fillSel := rfl
@[simp] theorem withStrobes_handedOff (l : List Strobe) : (s.withStrobes l).handedOff = s.handedOff := rfl
@[simp] theorem withStrobes_paletteLUT (l : List Strobe) : (s.withStrobes l).paletteLUT = s.paletteLUT := rfl
@[simp] theorem withStrobes_flashRunning (l : List Strobe) : (s.withStrobes l).flashRunning = s.flashRunning := rfl
@[simp] theorem withStrobes_flashRetry (l : List Strobe) : (s.withStrobes l).flashRetry = s.flashRetry := rfl
@[simp] theorem withStrobes_flashError (l : List Strobe) : (s.withStrobes l).flashError = s.flashError := rfl
@[simp] theorem withStrobes_flashPhase (l : List Strobe) : (s.withStrobes l).flashPhase = s.flashPhase := rfl
@[simp] theorem withStrobes_fwSessionActive (l : List Strobe) : (s.withStrobes l).fwSessionActive = s.fwSessionActive := rfl
@[simp] theorem withStrobes_sessionErased (l : List Strobe) : (s.withStrobes l).sessionErased = s.sessionErased := rfl
@[simp] theorem withStrobes_sessionProgrammed (l : List Strobe) : (s.withStrobes l).sessionProgrammed = s.sessionProgrammed := rfl
@[simp] theorem withStrobes_storage (l : List Strobe) : (s.withStrobes l).storage = s.storage := rfl
@[simp] theorem withStrobes_videoOut (l : List Strobe) : (s.withStrobes l).videoOut = s.videoOut := rfl
@[simp] theorem withStrobes_hostReads (l : List Strobe) : (s.withStrobes l).hostReads = s.hostReads := rfl
@[simp] theorem withStrobes_cfg (l : List Strobe) : (s.withStrobes l).cfg = s.cfg := rfl
@[simp] theorem withStrobes_configPage (l : List Strobe) : (s.withStrobes l).configPage = s.configPage := rfl
@[simp] theorem withStrobes_inputs (l : List Strobe) : (s.withStrobes l).inputs = s.inputs := rfl
@[simp] theorem withStrobes_coprocScript (l : List Strobe) : (s.withStrobes l).coprocScript = s.coprocScript := rfl
@[simp] theorem withStrobes_coprocBegun (l : List Strobe) : (s.withStrobes l).coprocBegun = s.coprocBegun := rfl
@[simp] theorem withStrobes_draws (l : List Strobe) : (s.withStrobes l).draws = s.draws := rfl
@[simp] theorem withStrobes_x (l : List Strobe) (j : RegIndex) : (s.withStrobes l).x j = s.x j := rfl
@[simp] theorem withStrobes_statusSel (l : List Strobe) : (s.withStrobes l).statusSel = s.statusSel := rfl
@[simp] theorem withStrobes_st (l : List Strobe) (j : StatusIndex) : (s.withStrobes l).st j = s.st j := rfl
@[simp] theorem withStrobes_memRead (l : List Strobe) (j : Nat) : (s.withStrobes l).memRead j = s.memRead j := rfl
@[simp] theorem withStrobes_storRead (l : List Strobe) (j len : Nat) : (s.withStrobes l).storRead j len = s.storRead j len := rfl

/-! ### withScript -/
@[simp] theorem withScript_regs (l : List CoprocAction) : (s.withScript l).regs = s.regs := rfl
@[simp] theorem withScript_status (l : List CoprocAction) : (s.withScript l).status = s.status := rfl
@[simp] theorem withScript_vram (l : List CoprocAction) : (s.withScript l).vram = s.vram := rfl
@[simp] theorem withScript_addressLatch (l : List CoprocAction) : (s.withScript l).addressLatch = s.addressLatch := rfl
@[simp] theorem withScript_addressAutoIncrement (l : List CoprocAction) : (s.withScript l).addressAutoIncrement = s.addressAutoIncrement := rfl
@[simp] theorem withScript_writeStage (l : List CoprocAction) : (s.withScript l).writeStage = s.writeStage := rfl
@[simp] theorem withScript_raData (l : List CoprocAction) : (s.withScript l).raData = s.raData := rfl
@[simp] theorem withScript_raStatus (l : List CoprocAction) : (s.withScript l).raStatus = s.raStatus := rfl
@[simp] theorem withScript_interruptLine (l : List CoprocAction) : (s.withScript l).interruptLine = s.interruptLine := rfl
@[simp] theorem withScript_paletteDirty (l : List CoprocAction) : (s.withScript l).paletteDirty = s.paletteDirty := rfl
@[simp] theorem withScript_configDirty (l : List CoprocAction) : (s.withScript l).configDirty = s.configDirty := rfl
@[simp] theorem withScript_coprocessorRequested (l : List CoprocAction) : (s.withScript l).coprocessorRequested = s.coprocessorRequested := rfl
@[simp] theorem withScript_flashRequested (l : List CoprocAction) : (s.withScript l).flashRequested = s.flashRequested := rfl
@[simp] theorem withScript_unlocked (l : List CoprocAction) : (s.withScript l).unlocked = s.unlocked := rfl
@[simp] theorem withScript_unlockProgress (l : List CoprocAction) : (s.withScript l).unlockProgress = s.unlockProgress := rfl
@[simp] theorem withScript_flashMode (l : List CoprocAction) : (s.withScript l).flashMode = s.flashMode := rfl
@[simp] theorem withScript_coprocessorProgramCounter (l : List CoprocAction) : (s.withScript l).coprocessorProgramCounter = s.coprocessorProgramCounter := rfl
@[simp] theorem withScript_protActive (l : List CoprocAction) : (s.withScript l).protActive = s.protActive := rfl
@[simp] theorem withScript_lineY (l : List CoprocAction) : (s.withScript l).lineY = s.lineY := rfl
@[simp] theorem withScript_pipeState (l : List CoprocAction) : (s.withScript l).pipeState = s.pipeState := rfl
@[simp] theorem withScript_lineBuf (l : List CoprocAction) : (s.withScript l).lineBuf = s.lineBuf := rfl
@[simp] theorem withScript_fillSel (l : List CoprocAction) : (s.withScript l).fillSel = s.fillSel := rfl
@[simp] theorem withScript_handedOff (l : List CoprocAction) : (s.withScript l).handedOff = s.handedOff := rfl
@[simp] theorem withScript_paletteLUT (l : List CoprocAction) : (s.withScript l).paletteLUT = s.paletteLUT := rfl
@[simp] theorem withScript_flashRunning (l : List CoprocAction) : (s.withScript l).flashRunning = s.flashRunning := rfl
@[simp] theorem withScript_flashRetry (l : List CoprocAction) : (s.withScript l).flashRetry = s.flashRetry := rfl
@[simp] theorem withScript_flashError (l : List CoprocAction) : (s.withScript l).flashError = s.flashError := rfl
@[simp] theorem withScript_flashPhase (l : List CoprocAction) : (s.withScript l).flashPhase = s.flashPhase := rfl
@[simp] theorem withScript_fwSessionActive (l : List CoprocAction) : (s.withScript l).fwSessionActive = s.fwSessionActive := rfl
@[simp] theorem withScript_sessionErased (l : List CoprocAction) : (s.withScript l).sessionErased = s.sessionErased := rfl
@[simp] theorem withScript_sessionProgrammed (l : List CoprocAction) : (s.withScript l).sessionProgrammed = s.sessionProgrammed := rfl
@[simp] theorem withScript_storage (l : List CoprocAction) : (s.withScript l).storage = s.storage := rfl
@[simp] theorem withScript_videoOut (l : List CoprocAction) : (s.withScript l).videoOut = s.videoOut := rfl
@[simp] theorem withScript_hostReads (l : List CoprocAction) : (s.withScript l).hostReads = s.hostReads := rfl
@[simp] theorem withScript_cfg (l : List CoprocAction) : (s.withScript l).cfg = s.cfg := rfl
@[simp] theorem withScript_configPage (l : List CoprocAction) : (s.withScript l).configPage = s.configPage := rfl
@[simp] theorem withScript_inputs (l : List CoprocAction) : (s.withScript l).inputs = s.inputs := rfl
@[simp] theorem withScript_strobes (l : List CoprocAction) : (s.withScript l).strobes = s.strobes := rfl
@[simp] theorem withScript_coprocBegun (l : List CoprocAction) : (s.withScript l).coprocBegun = s.coprocBegun := rfl
@[simp] theorem withScript_draws (l : List CoprocAction) : (s.withScript l).draws = s.draws := rfl
@[simp] theorem withScript_x (l : List CoprocAction) (j : RegIndex) : (s.withScript l).x j = s.x j := rfl
@[simp] theorem withScript_statusSel (l : List CoprocAction) : (s.withScript l).statusSel = s.statusSel := rfl
@[simp] theorem withScript_st (l : List CoprocAction) (j : StatusIndex) : (s.withScript l).st j = s.st j := rfl
@[simp] theorem withScript_memRead (l : List CoprocAction) (j : Nat) : (s.withScript l).memRead j = s.memRead j := rfl
@[simp] theorem withScript_storRead (l : List CoprocAction) (j len : Nat) : (s.withScript l).storRead j len = s.storRead j len := rfl

/-! ### withInputs -/
@[simp] theorem withInputs_regs (l : List TraceLine) : (s.withInputs l).regs = s.regs := rfl
@[simp] theorem withInputs_status (l : List TraceLine) : (s.withInputs l).status = s.status := rfl
@[simp] theorem withInputs_vram (l : List TraceLine) : (s.withInputs l).vram = s.vram := rfl
@[simp] theorem withInputs_addressLatch (l : List TraceLine) : (s.withInputs l).addressLatch = s.addressLatch := rfl
@[simp] theorem withInputs_addressAutoIncrement (l : List TraceLine) : (s.withInputs l).addressAutoIncrement = s.addressAutoIncrement := rfl
@[simp] theorem withInputs_writeStage (l : List TraceLine) : (s.withInputs l).writeStage = s.writeStage := rfl
@[simp] theorem withInputs_raData (l : List TraceLine) : (s.withInputs l).raData = s.raData := rfl
@[simp] theorem withInputs_raStatus (l : List TraceLine) : (s.withInputs l).raStatus = s.raStatus := rfl
@[simp] theorem withInputs_interruptLine (l : List TraceLine) : (s.withInputs l).interruptLine = s.interruptLine := rfl
@[simp] theorem withInputs_paletteDirty (l : List TraceLine) : (s.withInputs l).paletteDirty = s.paletteDirty := rfl
@[simp] theorem withInputs_configDirty (l : List TraceLine) : (s.withInputs l).configDirty = s.configDirty := rfl
@[simp] theorem withInputs_coprocessorRequested (l : List TraceLine) : (s.withInputs l).coprocessorRequested = s.coprocessorRequested := rfl
@[simp] theorem withInputs_flashRequested (l : List TraceLine) : (s.withInputs l).flashRequested = s.flashRequested := rfl
@[simp] theorem withInputs_unlocked (l : List TraceLine) : (s.withInputs l).unlocked = s.unlocked := rfl
@[simp] theorem withInputs_unlockProgress (l : List TraceLine) : (s.withInputs l).unlockProgress = s.unlockProgress := rfl
@[simp] theorem withInputs_flashMode (l : List TraceLine) : (s.withInputs l).flashMode = s.flashMode := rfl
@[simp] theorem withInputs_coprocessorProgramCounter (l : List TraceLine) : (s.withInputs l).coprocessorProgramCounter = s.coprocessorProgramCounter := rfl
@[simp] theorem withInputs_protActive (l : List TraceLine) : (s.withInputs l).protActive = s.protActive := rfl
@[simp] theorem withInputs_lineY (l : List TraceLine) : (s.withInputs l).lineY = s.lineY := rfl
@[simp] theorem withInputs_pipeState (l : List TraceLine) : (s.withInputs l).pipeState = s.pipeState := rfl
@[simp] theorem withInputs_lineBuf (l : List TraceLine) : (s.withInputs l).lineBuf = s.lineBuf := rfl
@[simp] theorem withInputs_fillSel (l : List TraceLine) : (s.withInputs l).fillSel = s.fillSel := rfl
@[simp] theorem withInputs_handedOff (l : List TraceLine) : (s.withInputs l).handedOff = s.handedOff := rfl
@[simp] theorem withInputs_paletteLUT (l : List TraceLine) : (s.withInputs l).paletteLUT = s.paletteLUT := rfl
@[simp] theorem withInputs_flashRunning (l : List TraceLine) : (s.withInputs l).flashRunning = s.flashRunning := rfl
@[simp] theorem withInputs_flashRetry (l : List TraceLine) : (s.withInputs l).flashRetry = s.flashRetry := rfl
@[simp] theorem withInputs_flashError (l : List TraceLine) : (s.withInputs l).flashError = s.flashError := rfl
@[simp] theorem withInputs_flashPhase (l : List TraceLine) : (s.withInputs l).flashPhase = s.flashPhase := rfl
@[simp] theorem withInputs_fwSessionActive (l : List TraceLine) : (s.withInputs l).fwSessionActive = s.fwSessionActive := rfl
@[simp] theorem withInputs_sessionErased (l : List TraceLine) : (s.withInputs l).sessionErased = s.sessionErased := rfl
@[simp] theorem withInputs_sessionProgrammed (l : List TraceLine) : (s.withInputs l).sessionProgrammed = s.sessionProgrammed := rfl
@[simp] theorem withInputs_storage (l : List TraceLine) : (s.withInputs l).storage = s.storage := rfl
@[simp] theorem withInputs_videoOut (l : List TraceLine) : (s.withInputs l).videoOut = s.videoOut := rfl
@[simp] theorem withInputs_hostReads (l : List TraceLine) : (s.withInputs l).hostReads = s.hostReads := rfl
@[simp] theorem withInputs_cfg (l : List TraceLine) : (s.withInputs l).cfg = s.cfg := rfl
@[simp] theorem withInputs_configPage (l : List TraceLine) : (s.withInputs l).configPage = s.configPage := rfl
@[simp] theorem withInputs_strobes (l : List TraceLine) : (s.withInputs l).strobes = s.strobes := rfl
@[simp] theorem withInputs_coprocScript (l : List TraceLine) : (s.withInputs l).coprocScript = s.coprocScript := rfl
@[simp] theorem withInputs_coprocBegun (l : List TraceLine) : (s.withInputs l).coprocBegun = s.coprocBegun := rfl
@[simp] theorem withInputs_draws (l : List TraceLine) : (s.withInputs l).draws = s.draws := rfl
@[simp] theorem withInputs_x (l : List TraceLine) (j : RegIndex) : (s.withInputs l).x j = s.x j := rfl
@[simp] theorem withInputs_statusSel (l : List TraceLine) : (s.withInputs l).statusSel = s.statusSel := rfl
@[simp] theorem withInputs_st (l : List TraceLine) (j : StatusIndex) : (s.withInputs l).st j = s.st j := rfl
@[simp] theorem withInputs_memRead (l : List TraceLine) (j : Nat) : (s.withInputs l).memRead j = s.memRead j := rfl
@[simp] theorem withInputs_storRead (l : List TraceLine) (j len : Nat) : (s.withInputs l).storRead j len = s.storRead j len := rfl

/-! ### setPalette -/
@[simp] theorem setPalette_regs (k : Collaborators) (i : Nat) (e : List Byte) : (s.setPalette k i e).regs = s.regs := rfl
@[simp] theorem setPalette_status (k : Collaborators) (i : Nat) (e : List Byte) : (s.setPalette k i e).status = s.status := rfl
@[simp] theorem setPalette_vram (k : Collaborators) (i : Nat) (e : List Byte) : (s.setPalette k i e).vram = s.vram := rfl
@[simp] theorem setPalette_addressLatch (k : Collaborators) (i : Nat) (e : List Byte) : (s.setPalette k i e).addressLatch = s.addressLatch := rfl
@[simp] theorem setPalette_addressAutoIncrement (k : Collaborators) (i : Nat) (e : List Byte) : (s.setPalette k i e).addressAutoIncrement = s.addressAutoIncrement := rfl
@[simp] theorem setPalette_writeStage (k : Collaborators) (i : Nat) (e : List Byte) : (s.setPalette k i e).writeStage = s.writeStage := rfl
@[simp] theorem setPalette_raData (k : Collaborators) (i : Nat) (e : List Byte) : (s.setPalette k i e).raData = s.raData := rfl
@[simp] theorem setPalette_raStatus (k : Collaborators) (i : Nat) (e : List Byte) : (s.setPalette k i e).raStatus = s.raStatus := rfl
@[simp] theorem setPalette_interruptLine (k : Collaborators) (i : Nat) (e : List Byte) : (s.setPalette k i e).interruptLine = s.interruptLine := rfl
@[simp] theorem setPalette_paletteDirty (k : Collaborators) (i : Nat) (e : List Byte) : (s.setPalette k i e).paletteDirty = s.paletteDirty := rfl
@[simp] theorem setPalette_configDirty (k : Collaborators) (i : Nat) (e : List Byte) : (s.setPalette k i e).configDirty = s.configDirty := rfl
@[simp] theorem setPalette_coprocessorRequested (k : Collaborators) (i : Nat) (e : List Byte) : (s.setPalette k i e).coprocessorRequested = s.coprocessorRequested := rfl
@[simp] theorem setPalette_flashRequested (k : Collaborators) (i : Nat) (e : List Byte) : (s.setPalette k i e).flashRequested = s.flashRequested := rfl
@[simp] theorem setPalette_unlocked (k : Collaborators) (i : Nat) (e : List Byte) : (s.setPalette k i e).unlocked = s.unlocked := rfl
@[simp] theorem setPalette_unlockProgress (k : Collaborators) (i : Nat) (e : List Byte) : (s.setPalette k i e).unlockProgress = s.unlockProgress := rfl
@[simp] theorem setPalette_flashMode (k : Collaborators) (i : Nat) (e : List Byte) : (s.setPalette k i e).flashMode = s.flashMode := rfl
@[simp] theorem setPalette_coprocessorProgramCounter (k : Collaborators) (i : Nat) (e : List Byte) : (s.setPalette k i e).coprocessorProgramCounter = s.coprocessorProgramCounter := rfl
@[simp] theorem setPalette_protActive (k : Collaborators) (i : Nat) (e : List Byte) : (s.setPalette k i e).protActive = s.protActive := rfl
@[simp] theorem setPalette_lineY (k : Collaborators) (i : Nat) (e : List Byte) : (s.setPalette k i e).lineY = s.lineY := rfl
@[simp] theorem setPalette_pipeState (k : Collaborators) (i : Nat) (e : List Byte) : (s.setPalette k i e).pipeState = s.pipeState := rfl
@[simp] theorem setPalette_lineBuf (k : Collaborators) (i : Nat) (e : List Byte) : (s.setPalette k i e).lineBuf = s.lineBuf := rfl
@[simp] theorem setPalette_fillSel (k : Collaborators) (i : Nat) (e : List Byte) : (s.setPalette k i e).fillSel = s.fillSel := rfl
@[simp] theorem setPalette_handedOff (k : Collaborators) (i : Nat) (e : List Byte) : (s.setPalette k i e).handedOff = s.handedOff := rfl
@[simp] theorem setPalette_flashRunning (k : Collaborators) (i : Nat) (e : List Byte) : (s.setPalette k i e).flashRunning = s.flashRunning := rfl
@[simp] theorem setPalette_flashRetry (k : Collaborators) (i : Nat) (e : List Byte) : (s.setPalette k i e).flashRetry = s.flashRetry := rfl
@[simp] theorem setPalette_flashError (k : Collaborators) (i : Nat) (e : List Byte) : (s.setPalette k i e).flashError = s.flashError := rfl
@[simp] theorem setPalette_flashPhase (k : Collaborators) (i : Nat) (e : List Byte) : (s.setPalette k i e).flashPhase = s.flashPhase := rfl
@[simp] theorem setPalette_fwSessionActive (k : Collaborators) (i : Nat) (e : List Byte) : (s.setPalette k i e).fwSessionActive = s.fwSessionActive := rfl
@[simp] theorem setPalette_sessionErased (k : Collaborators) (i : Nat) (e : List Byte) : (s.setPalette k i e).sessionErased = s.sessionErased := rfl
@[simp] theorem setPalette_sessionProgrammed (k : Collaborators) (i : Nat) (e : List Byte) : (s.setPalette k i e).sessionProgrammed = s.sessionProgrammed := rfl
@[simp] theorem setPalette_storage (k : Collaborators) (i : Nat) (e : List Byte) : (s.setPalette k i e).storage = s.storage := rfl
@[simp] theorem setPalette_videoOut (k : Collaborators) (i : Nat) (e : List Byte) : (s.setPalette k i e).videoOut = s.videoOut := rfl
@[simp] theorem setPalette_hostReads (k : Collaborators) (i : Nat) (e : List Byte) : (s.setPalette k i e).hostReads = s.hostReads := rfl
@[simp] theorem setPalette_cfg (k : Collaborators) (i : Nat) (e : List Byte) : (s.setPalette k i e).cfg = s.cfg := rfl
@[simp] theorem setPalette_configPage (k : Collaborators) (i : Nat) (e : List Byte) : (s.setPalette k i e).configPage = s.configPage := rfl
@[simp] theorem setPalette_inputs (k : Collaborators) (i : Nat) (e : List Byte) : (s.setPalette k i e).inputs = s.inputs := rfl
@[simp] theorem setPalette_strobes (k : Collaborators) (i : Nat) (e : List Byte) : (s.setPalette k i e).strobes = s.strobes := rfl
@[simp] theorem setPalette_coprocScript (k : Collaborators) (i : Nat) (e : List Byte) : (s.setPalette k i e).coprocScript = s.coprocScript := rfl
@[simp] theorem setPalette_coprocBegun (k : Collaborators) (i : Nat) (e : List Byte) : (s.setPalette k i e).coprocBegun = s.coprocBegun := rfl
@[simp] theorem setPalette_draws (k : Collaborators) (i : Nat) (e : List Byte) : (s.setPalette k i e).draws = s.draws := rfl
@[simp] theorem setPalette_x (k : Collaborators) (i : Nat) (e : List Byte) (j : RegIndex) : (s.setPalette k i e).x j = s.x j := rfl
@[simp] theorem setPalette_statusSel (k : Collaborators) (i : Nat) (e : List Byte) : (s.setPalette k i e).statusSel = s.statusSel := rfl
@[simp] theorem setPalette_st (k : Collaborators) (i : Nat) (e : List Byte) (j : StatusIndex) : (s.setPalette k i e).st j = s.st j := rfl
@[simp] theorem setPalette_memRead (k : Collaborators) (i : Nat) (e : List Byte) (j : Nat) : (s.setPalette k i e).memRead j = s.memRead j := rfl
@[simp] theorem setPalette_storRead (k : Collaborators) (i : Nat) (e : List Byte) (j len : Nat) : (s.setPalette k i e).storRead j len = s.storRead j len := rfl

/-! ### clearPaletteDirty -/
@[simp] theorem clearPaletteDirty_regs : (s.clearPaletteDirty).regs = s.regs := rfl
@[simp] theorem clearPaletteDirty_status : (s.clearPaletteDirty).status = s.status := rfl
@[simp] theorem clearPaletteDirty_vram : (s.clearPaletteDirty).vram = s.vram := rfl
@[simp] theorem clearPaletteDirty_addressLatch : (s.clearPaletteDirty).addressLatch = s.addressLatch := rfl
@[simp] theorem clearPaletteDirty_addressAutoIncrement : (s.clearPaletteDirty).addressAutoIncrement = s.addressAutoIncrement := rfl
@[simp] theorem clearPaletteDirty_writeStage : (s.clearPaletteDirty).writeStage = s.writeStage := rfl
@[simp] theorem clearPaletteDirty_raData : (s.clearPaletteDirty).raData = s.raData := rfl
@[simp] theorem clearPaletteDirty_raStatus : (s.clearPaletteDirty).raStatus = s.raStatus := rfl
@[simp] theorem clearPaletteDirty_interruptLine : (s.clearPaletteDirty).interruptLine = s.interruptLine := rfl
@[simp] theorem clearPaletteDirty_configDirty : (s.clearPaletteDirty).configDirty = s.configDirty := rfl
@[simp] theorem clearPaletteDirty_coprocessorRequested : (s.clearPaletteDirty).coprocessorRequested = s.coprocessorRequested := rfl
@[simp] theorem clearPaletteDirty_flashRequested : (s.clearPaletteDirty).flashRequested = s.flashRequested := rfl
@[simp] theorem clearPaletteDirty_unlocked : (s.clearPaletteDirty).unlocked = s.unlocked := rfl
@[simp] theorem clearPaletteDirty_unlockProgress : (s.clearPaletteDirty).unlockProgress = s.unlockProgress := rfl
@[simp] theorem clearPaletteDirty_flashMode : (s.clearPaletteDirty).flashMode = s.flashMode := rfl
@[simp] theorem clearPaletteDirty_coprocessorProgramCounter : (s.clearPaletteDirty).coprocessorProgramCounter = s.coprocessorProgramCounter := rfl
@[simp] theorem clearPaletteDirty_protActive : (s.clearPaletteDirty).protActive = s.protActive := rfl
@[simp] theorem clearPaletteDirty_lineY : (s.clearPaletteDirty).lineY = s.lineY := rfl
@[simp] theorem clearPaletteDirty_pipeState : (s.clearPaletteDirty).pipeState = s.pipeState := rfl
@[simp] theorem clearPaletteDirty_lineBuf : (s.clearPaletteDirty).lineBuf = s.lineBuf := rfl
@[simp] theorem clearPaletteDirty_fillSel : (s.clearPaletteDirty).fillSel = s.fillSel := rfl
@[simp] theorem clearPaletteDirty_handedOff : (s.clearPaletteDirty).handedOff = s.handedOff := rfl
@[simp] theorem clearPaletteDirty_paletteLUT : (s.clearPaletteDirty).paletteLUT = s.paletteLUT := rfl
@[simp] theorem clearPaletteDirty_flashRunning : (s.clearPaletteDirty).flashRunning = s.flashRunning := rfl
@[simp] theorem clearPaletteDirty_flashRetry : (s.clearPaletteDirty).flashRetry = s.flashRetry := rfl
@[simp] theorem clearPaletteDirty_flashError : (s.clearPaletteDirty).flashError = s.flashError := rfl
@[simp] theorem clearPaletteDirty_flashPhase : (s.clearPaletteDirty).flashPhase = s.flashPhase := rfl
@[simp] theorem clearPaletteDirty_fwSessionActive : (s.clearPaletteDirty).fwSessionActive = s.fwSessionActive := rfl
@[simp] theorem clearPaletteDirty_sessionErased : (s.clearPaletteDirty).sessionErased = s.sessionErased := rfl
@[simp] theorem clearPaletteDirty_sessionProgrammed : (s.clearPaletteDirty).sessionProgrammed = s.sessionProgrammed := rfl
@[simp] theorem clearPaletteDirty_storage : (s.clearPaletteDirty).storage = s.storage := rfl
@[simp] theorem clearPaletteDirty_videoOut : (s.clearPaletteDirty).videoOut = s.videoOut := rfl
@[simp] theorem clearPaletteDirty_hostReads : (s.clearPaletteDirty).hostReads = s.hostReads := rfl
@[simp] theorem clearPaletteDirty_cfg : (s.clearPaletteDirty).cfg = s.cfg := rfl
@[simp] theorem clearPaletteDirty_configPage : (s.clearPaletteDirty).configPage = s.configPage := rfl
@[simp] theorem clearPaletteDirty_inputs : (s.clearPaletteDirty).inputs = s.inputs := rfl
@[simp] theorem clearPaletteDirty_strobes : (s.clearPaletteDirty).strobes = s.strobes := rfl
@[simp] theorem clearPaletteDirty_coprocScript : (s.clearPaletteDirty).coprocScript = s.coprocScript := rfl
@[simp] theorem clearPaletteDirty_coprocBegun : (s.clearPaletteDirty).coprocBegun = s.coprocBegun := rfl
@[simp] theorem clearPaletteDirty_draws : (s.clearPaletteDirty).draws = s.draws := rfl
@[simp] theorem clearPaletteDirty_x (j : RegIndex) : (s.clearPaletteDirty).x j = s.x j := rfl
@[simp] theorem clearPaletteDirty_statusSel : (s.clearPaletteDirty).statusSel = s.statusSel := rfl
@[simp] theorem clearPaletteDirty_st (j : StatusIndex) : (s.clearPaletteDirty).st j = s.st j := rfl
@[simp] theorem clearPaletteDirty_memRead (j : Nat) : (s.clearPaletteDirty).memRead j = s.memRead j := rfl
@[simp] theorem clearPaletteDirty_storRead (j len : Nat) : (s.clearPaletteDirty).storRead j len = s.storRead j len := rfl

/-! ### mergeSpriteFlags -/
@[simp] theorem mergeSpriteFlags_regs (f : SpriteFlags) : (s.mergeSpriteFlags f).regs = s.regs := rfl
@[simp] theorem mergeSpriteFlags_vram (f : SpriteFlags) : (s.mergeSpriteFlags f).vram = s.vram := rfl
@[simp] theorem mergeSpriteFlags_addressLatch (f : SpriteFlags) : (s.mergeSpriteFlags f).addressLatch = s.addressLatch := rfl
@[simp] theorem mergeSpriteFlags_addressAutoIncrement (f : SpriteFlags) : (s.mergeSpriteFlags f).addressAutoIncrement = s.addressAutoIncrement := rfl
@[simp] theorem mergeSpriteFlags_writeStage (f : SpriteFlags) : (s.mergeSpriteFlags f).writeStage = s.writeStage := rfl
@[simp] theorem mergeSpriteFlags_raData (f : SpriteFlags) : (s.mergeSpriteFlags f).raData = s.raData := rfl
@[simp] theorem mergeSpriteFlags_interruptLine (f : SpriteFlags) : (s.mergeSpriteFlags f).interruptLine = s.interruptLine := rfl
@[simp] theorem mergeSpriteFlags_paletteDirty (f : SpriteFlags) : (s.mergeSpriteFlags f).paletteDirty = s.paletteDirty := rfl
@[simp] theorem mergeSpriteFlags_configDirty (f : SpriteFlags) : (s.mergeSpriteFlags f).configDirty = s.configDirty := rfl
@[simp] theorem mergeSpriteFlags_coprocessorRequested (f : SpriteFlags) : (s.mergeSpriteFlags f).coprocessorRequested = s.coprocessorRequested := rfl
@[simp] theorem mergeSpriteFlags_flashRequested (f : SpriteFlags) : (s.mergeSpriteFlags f).flashRequested = s.flashRequested := rfl
@[simp] theorem mergeSpriteFlags_unlocked (f : SpriteFlags) : (s.mergeSpriteFlags f).unlocked = s.unlocked := rfl
@[simp] theorem mergeSpriteFlags_unlockProgress (f : SpriteFlags) : (s.mergeSpriteFlags f).unlockProgress = s.unlockProgress := rfl
@[simp] theorem mergeSpriteFlags_flashMode (f : SpriteFlags) : (s.mergeSpriteFlags f).flashMode = s.flashMode := rfl
@[simp] theorem mergeSpriteFlags_coprocessorProgramCounter (f : SpriteFlags) : (s.mergeSpriteFlags f).coprocessorProgramCounter = s.coprocessorProgramCounter := rfl
@[simp] theorem mergeSpriteFlags_protActive (f : SpriteFlags) : (s.mergeSpriteFlags f).protActive = s.protActive := rfl
@[simp] theorem mergeSpriteFlags_lineY (f : SpriteFlags) : (s.mergeSpriteFlags f).lineY = s.lineY := rfl
@[simp] theorem mergeSpriteFlags_pipeState (f : SpriteFlags) : (s.mergeSpriteFlags f).pipeState = s.pipeState := rfl
@[simp] theorem mergeSpriteFlags_lineBuf (f : SpriteFlags) : (s.mergeSpriteFlags f).lineBuf = s.lineBuf := rfl
@[simp] theorem mergeSpriteFlags_fillSel (f : SpriteFlags) : (s.mergeSpriteFlags f).fillSel = s.fillSel := rfl
@[simp] theorem mergeSpriteFlags_handedOff (f : SpriteFlags) : (s.mergeSpriteFlags f).handedOff = s.handedOff := rfl
@[simp] theorem mergeSpriteFlags_paletteLUT (f : SpriteFlags) : (s.mergeSpriteFlags f).paletteLUT = s.paletteLUT := rfl
@[simp] theorem mergeSpriteFlags_flashRunning (f : SpriteFlags) : (s.mergeSpriteFlags f).flashRunning = s.flashRunning := rfl
@[simp] theorem mergeSpriteFlags_flashRetry (f : SpriteFlags) : (s.mergeSpriteFlags f).flashRetry = s.flashRetry := rfl
@[simp] theorem mergeSpriteFlags_flashError (f : SpriteFlags) : (s.mergeSpriteFlags f).flashError = s.flashError := rfl
@[simp] theorem mergeSpriteFlags_flashPhase (f : SpriteFlags) : (s.mergeSpriteFlags f).flashPhase = s.flashPhase := rfl
@[simp] theorem mergeSpriteFlags_fwSessionActive (f : SpriteFlags) : (s.mergeSpriteFlags f).fwSessionActive = s.fwSessionActive := rfl
@[simp] theorem mergeSpriteFlags_sessionErased (f : SpriteFlags) : (s.mergeSpriteFlags f).sessionErased = s.sessionErased := rfl
@[simp] theorem mergeSpriteFlags_sessionProgrammed (f : SpriteFlags) : (s.mergeSpriteFlags f).sessionProgrammed = s.sessionProgrammed := rfl
@[simp] theorem mergeSpriteFlags_storage (f : SpriteFlags) : (s.mergeSpriteFlags f).storage = s.storage := rfl
@[simp] theorem mergeSpriteFlags_videoOut (f : SpriteFlags) : (s.mergeSpriteFlags f).videoOut = s.videoOut := rfl
@[simp] theorem mergeSpriteFlags_hostReads (f : SpriteFlags) : (s.mergeSpriteFlags f).hostReads = s.hostReads := rfl
@[simp] theorem mergeSpriteFlags_cfg (f : SpriteFlags) : (s.mergeSpriteFlags f).cfg = s.cfg := rfl
@[simp] theorem mergeSpriteFlags_configPage (f : SpriteFlags) : (s.mergeSpriteFlags f).configPage = s.configPage := rfl
@[simp] theorem mergeSpriteFlags_inputs (f : SpriteFlags) : (s.mergeSpriteFlags f).inputs = s.inputs := rfl
@[simp] theorem mergeSpriteFlags_strobes (f : SpriteFlags) : (s.mergeSpriteFlags f).strobes = s.strobes := rfl
@[simp] theorem mergeSpriteFlags_coprocScript (f : SpriteFlags) : (s.mergeSpriteFlags f).coprocScript = s.coprocScript := rfl
@[simp] theorem mergeSpriteFlags_coprocBegun (f : SpriteFlags) : (s.mergeSpriteFlags f).coprocBegun = s.coprocBegun := rfl
@[simp] theorem mergeSpriteFlags_draws (f : SpriteFlags) : (s.mergeSpriteFlags f).draws = s.draws := rfl
@[simp] theorem mergeSpriteFlags_x (f : SpriteFlags) (j : RegIndex) : (s.mergeSpriteFlags f).x j = s.x j := rfl
@[simp] theorem mergeSpriteFlags_statusSel (f : SpriteFlags) : (s.mergeSpriteFlags f).statusSel = s.statusSel := rfl
@[simp] theorem mergeSpriteFlags_memRead (f : SpriteFlags) (j : Nat) : (s.mergeSpriteFlags f).memRead j = s.memRead j := rfl
@[simp] theorem mergeSpriteFlags_storRead (f : SpriteFlags) (j len : Nat) : (s.mergeSpriteFlags f).storRead j len = s.storRead j len := rfl

/-! ### handOff -/
@[simp] theorem handOff_regs (y : Nat) (row : List Pixel) : (s.handOff y row).regs = s.regs := rfl
@[simp] theorem handOff_status (y : Nat) (row : List Pixel) : (s.handOff y row).status = s.status := rfl
@[simp] theorem handOff_vram (y : Nat) (row : List Pixel) : (s.handOff y row).vram = s.vram := rfl
@[simp] theorem handOff_addressLatch (y : Nat) (row : List Pixel) : (s.handOff y row).addressLatch = s.addressLatch := rfl
@[simp] theorem handOff_addressAutoIncrement (y : Nat) (row : List Pixel) : (s.handOff y row).addressAutoIncrement = s.addressAutoIncrement := rfl
@[simp] theorem handOff_writeStage (y : Nat) (row : List Pixel) : (s.handOff y row).writeStage = s.writeStage := rfl
@[simp] theorem handOff_raData (y : Nat) (row : List Pixel) : (s.handOff y row).raData = s.raData := rfl
@[simp] theorem handOff_raStatus (y : Nat) (row : List Pixel) : (s.handOff y row).raStatus = s.raStatus := rfl
@[simp] theorem handOff_interruptLine (y : Nat) (row : List Pixel) : (s.handOff y row).interruptLine = s.interruptLine := rfl
@[simp] theorem handOff_paletteDirty (y : Nat) (row : List Pixel) : (s.handOff y row).paletteDirty = s.paletteDirty := rfl
@[simp] theorem handOff_configDirty (y : Nat) (row : List Pixel) : (s.handOff y row).configDirty = s.configDirty := rfl
@[simp] theorem handOff_coprocessorRequested (y : Nat) (row : List Pixel) : (s.handOff y row).coprocessorRequested = s.coprocessorRequested := rfl
@[simp] theorem handOff_flashRequested (y : Nat) (row : List Pixel) : (s.handOff y row).flashRequested = s.flashRequested := rfl
@[simp] theorem handOff_unlocked (y : Nat) (row : List Pixel) : (s.handOff y row).unlocked = s.unlocked := rfl
@[simp] theorem handOff_unlockProgress (y : Nat) (row : List Pixel) : (s.handOff y row).unlockProgress = s.unlockProgress := rfl
@[simp] theorem handOff_flashMode (y : Nat) (row : List Pixel) : (s.handOff y row).flashMode = s.flashMode := rfl
@[simp] theorem handOff_coprocessorProgramCounter (y : Nat) (row : List Pixel) : (s.handOff y row).coprocessorProgramCounter = s.coprocessorProgramCounter := rfl
@[simp] theorem handOff_protActive (y : Nat) (row : List Pixel) : (s.handOff y row).protActive = s.protActive := rfl
@[simp] theorem handOff_lineY (y : Nat) (row : List Pixel) : (s.handOff y row).lineY = s.lineY := rfl
@[simp] theorem handOff_pipeState (y : Nat) (row : List Pixel) : (s.handOff y row).pipeState = s.pipeState := rfl
@[simp] theorem handOff_paletteLUT (y : Nat) (row : List Pixel) : (s.handOff y row).paletteLUT = s.paletteLUT := rfl
@[simp] theorem handOff_flashRunning (y : Nat) (row : List Pixel) : (s.handOff y row).flashRunning = s.flashRunning := rfl
@[simp] theorem handOff_flashRetry (y : Nat) (row : List Pixel) : (s.handOff y row).flashRetry = s.flashRetry := rfl
@[simp] theorem handOff_flashError (y : Nat) (row : List Pixel) : (s.handOff y row).flashError = s.flashError := rfl
@[simp] theorem handOff_flashPhase (y : Nat) (row : List Pixel) : (s.handOff y row).flashPhase = s.flashPhase := rfl
@[simp] theorem handOff_fwSessionActive (y : Nat) (row : List Pixel) : (s.handOff y row).fwSessionActive = s.fwSessionActive := rfl
@[simp] theorem handOff_sessionErased (y : Nat) (row : List Pixel) : (s.handOff y row).sessionErased = s.sessionErased := rfl
@[simp] theorem handOff_sessionProgrammed (y : Nat) (row : List Pixel) : (s.handOff y row).sessionProgrammed = s.sessionProgrammed := rfl
@[simp] theorem handOff_storage (y : Nat) (row : List Pixel) : (s.handOff y row).storage = s.storage := rfl
@[simp] theorem handOff_hostReads (y : Nat) (row : List Pixel) : (s.handOff y row).hostReads = s.hostReads := rfl
@[simp] theorem handOff_cfg (y : Nat) (row : List Pixel) : (s.handOff y row).cfg = s.cfg := rfl
@[simp] theorem handOff_configPage (y : Nat) (row : List Pixel) : (s.handOff y row).configPage = s.configPage := rfl
@[simp] theorem handOff_inputs (y : Nat) (row : List Pixel) : (s.handOff y row).inputs = s.inputs := rfl
@[simp] theorem handOff_strobes (y : Nat) (row : List Pixel) : (s.handOff y row).strobes = s.strobes := rfl
@[simp] theorem handOff_coprocScript (y : Nat) (row : List Pixel) : (s.handOff y row).coprocScript = s.coprocScript := rfl
@[simp] theorem handOff_coprocBegun (y : Nat) (row : List Pixel) : (s.handOff y row).coprocBegun = s.coprocBegun := rfl
@[simp] theorem handOff_draws (y : Nat) (row : List Pixel) : (s.handOff y row).draws = s.draws := rfl
@[simp] theorem handOff_x (y : Nat) (row : List Pixel) (j : RegIndex) : (s.handOff y row).x j = s.x j := rfl
@[simp] theorem handOff_statusSel (y : Nat) (row : List Pixel) : (s.handOff y row).statusSel = s.statusSel := rfl
@[simp] theorem handOff_st (y : Nat) (row : List Pixel) (j : StatusIndex) : (s.handOff y row).st j = s.st j := rfl
@[simp] theorem handOff_memRead (y : Nat) (row : List Pixel) (j : Nat) : (s.handOff y row).memRead j = s.memRead j := rfl
@[simp] theorem handOff_storRead (y : Nat) (row : List Pixel) (j len : Nat) : (s.handOff y row).storRead j len = s.storRead j len := rfl

/-! ### updateLineStatus -/
@[simp] theorem updateLineStatus_regs (y : Nat) (r : Region) : (s.updateLineStatus y r).regs = s.regs := rfl
@[simp] theorem updateLineStatus_vram (y : Nat) (r : Region) : (s.updateLineStatus y r).vram = s.vram := rfl
@[simp] theorem updateLineStatus_addressLatch (y : Nat) (r : Region) : (s.updateLineStatus y r).addressLatch = s.addressLatch := rfl
@[simp] theorem updateLineStatus_addressAutoIncrement (y : Nat) (r : Region) : (s.updateLineStatus y r).addressAutoIncrement = s.addressAutoIncrement := rfl
@[simp] theorem updateLineStatus_writeStage (y : Nat) (r : Region) : (s.updateLineStatus y r).writeStage = s.writeStage := rfl
@[simp] theorem updateLineStatus_raData (y : Nat) (r : Region) : (s.updateLineStatus y r).raData = s.raData := rfl
@[simp] theorem updateLineStatus_interruptLine (y : Nat) (r : Region) : (s.updateLineStatus y r).interruptLine = s.interruptLine := rfl
@[simp] theorem updateLineStatus_paletteDirty (y : Nat) (r : Region) : (s.updateLineStatus y r).paletteDirty = s.paletteDirty := rfl
@[simp] theorem updateLineStatus_configDirty (y : Nat) (r : Region) : (s.updateLineStatus y r).configDirty = s.configDirty := rfl
@[simp] theorem updateLineStatus_coprocessorRequested (y : Nat) (r : Region) : (s.updateLineStatus y r).coprocessorRequested = s.coprocessorRequested := rfl
@[simp] theorem updateLineStatus_flashRequested (y : Nat) (r : Region) : (s.updateLineStatus y r).flashRequested = s.flashRequested := rfl
@[simp] theorem updateLineStatus_unlocked (y : Nat) (r : Region) : (s.updateLineStatus y r).unlocked = s.unlocked := rfl
@[simp] theorem updateLineStatus_unlockProgress (y : Nat) (r : Region) : (s.updateLineStatus y r).unlockProgress = s.unlockProgress := rfl
@[simp] theorem updateLineStatus_flashMode (y : Nat) (r : Region) : (s.updateLineStatus y r).flashMode = s.flashMode := rfl
@[simp] theorem updateLineStatus_coprocessorProgramCounter (y : Nat) (r : Region) : (s.updateLineStatus y r).coprocessorProgramCounter = s.coprocessorProgramCounter := rfl
@[simp] theorem updateLineStatus_protActive (y : Nat) (r : Region) : (s.updateLineStatus y r).protActive = s.protActive := rfl
@[simp] theorem updateLineStatus_lineY (y : Nat) (r : Region) : (s.updateLineStatus y r).lineY = s.lineY := rfl
@[simp] theorem updateLineStatus_pipeState (y : Nat) (r : Region) : (s.updateLineStatus y r).pipeState = s.pipeState := rfl
@[simp] theorem updateLineStatus_lineBuf (y : Nat) (r : Region) : (s.updateLineStatus y r).lineBuf = s.lineBuf := rfl
@[simp] theorem updateLineStatus_fillSel (y : Nat) (r : Region) : (s.updateLineStatus y r).fillSel = s.fillSel := rfl
@[simp] theorem updateLineStatus_handedOff (y : Nat) (r : Region) : (s.updateLineStatus y r).handedOff = s.handedOff := rfl
@[simp] theorem updateLineStatus_paletteLUT (y : Nat) (r : Region) : (s.updateLineStatus y r).paletteLUT = s.paletteLUT := rfl
@[simp] theorem updateLineStatus_flashRunning (y : Nat) (r : Region) : (s.updateLineStatus y r).flashRunning = s.flashRunning := rfl
@[simp] theorem updateLineStatus_flashRetry (y : Nat) (r : Region) : (s.updateLineStatus y r).flashRetry = s.flashRetry := rfl
@[simp] theorem updateLineStatus_flashError (y : Nat) (r : Region) : (s.updateLineStatus y r).flashError = s.flashError := rfl
@[simp] theorem updateLineStatus_flashPhase (y : Nat) (r : Region) : (s.updateLineStatus y r).flashPhase = s.flashPhase := rfl
@[simp] theorem updateLineStatus_fwSessionActive (y : Nat) (r : Region) : (s.updateLineStatus y r).fwSessionActive = s.fwSessionActive := rfl
@[simp] theorem updateLineStatus_sessionErased (y : Nat) (r : Region) : (s.updateLineStatus y r).sessionErased = s.sessionErased := rfl
@[simp] theorem updateLineStatus_sessionProgrammed (y : Nat) (r : Region) : (s.updateLineStatus y r).sessionProgrammed = s.sessionProgrammed := rfl
@[simp] theorem updateLineStatus_storage (y : Nat) (r : Region) : (s.updateLineStatus y r).storage = s.storage := rfl
@[simp] theorem updateLineStatus_videoOut (y : Nat) (r : Region) : (s.updateLineStatus y r).videoOut = s.videoOut := rfl
@[simp] theorem updateLineStatus_hostReads (y : Nat) (r : Region) : (s.updateLineStatus y r).hostReads = s.hostReads := rfl
@[simp] theorem updateLineStatus_cfg (y : Nat) (r : Region) : (s.updateLineStatus y r).cfg = s.cfg := rfl
@[simp] theorem updateLineStatus_configPage (y : Nat) (r : Region) : (s.updateLineStatus y r).configPage = s.configPage := rfl
@[simp] theorem updateLineStatus_inputs (y : Nat) (r : Region) : (s.updateLineStatus y r).inputs = s.inputs := rfl
@[simp] theorem updateLineStatus_strobes (y : Nat) (r : Region) : (s.updateLineStatus y r).strobes = s.strobes := rfl
@[simp] theorem updateLineStatus_coprocScript (y : Nat) (r : Region) : (s.updateLineStatus y r).coprocScript = s.coprocScript := rfl
@[simp] theorem updateLineStatus_coprocBegun (y : Nat) (r : Region) : (s.updateLineStatus y r).coprocBegun = s.coprocBegun := rfl
@[simp] theorem updateLineStatus_draws (y : Nat) (r : Region) : (s.updateLineStatus y r).draws = s.draws := rfl
@[simp] theorem updateLineStatus_x (y : Nat) (r : Region) (j : RegIndex) : (s.updateLineStatus y r).x j = s.x j := rfl
@[simp] theorem updateLineStatus_statusSel (y : Nat) (r : Region) : (s.updateLineStatus y r).statusSel = s.statusSel := rfl
@[simp] theorem updateLineStatus_memRead (y : Nat) (r : Region) (j : Nat) : (s.updateLineStatus y r).memRead j = s.memRead j := rfl
@[simp] theorem updateLineStatus_storRead (y : Nat) (r : Region) (j len : Nat) : (s.updateLineStatus y r).storRead j len = s.storRead j len := rfl

/-! ### raiseEndOfFrame -/
@[simp] theorem raiseEndOfFrame_regs : (s.raiseEndOfFrame).regs = s.regs := rfl
@[simp] theorem raiseEndOfFrame_vram : (s.raiseEndOfFrame).vram = s.vram := rfl
@[simp] theorem raiseEndOfFrame_addressLatch : (s.raiseEndOfFrame).addressLatch = s.addressLatch := rfl
@[simp] theorem raiseEndOfFrame_addressAutoIncrement : (s.raiseEndOfFrame).addressAutoIncrement = s.addressAutoIncrement := rfl
@[simp] theorem raiseEndOfFrame_writeStage : (s.raiseEndOfFrame).writeStage = s.writeStage := rfl
@[simp] theorem raiseEndOfFrame_raData : (s.raiseEndOfFrame).raData = s.raData := rfl
@[simp] theorem raiseEndOfFrame_paletteDirty : (s.raiseEndOfFrame).paletteDirty = s.paletteDirty := rfl
@[simp] theorem raiseEndOfFrame_configDirty : (s.raiseEndOfFrame).configDirty = s.configDirty := rfl
@[simp] theorem raiseEndOfFrame_coprocessorRequested : (s.raiseEndOfFrame).coprocessorRequested = s.coprocessorRequested := rfl
@[simp] theorem raiseEndOfFrame_flashRequested : (s.raiseEndOfFrame).flashRequested = s.flashRequested := rfl
@[simp] theorem raiseEndOfFrame_unlocked : (s.raiseEndOfFrame).unlocked = s.unlocked := rfl
@[simp] theorem raiseEndOfFrame_unlockProgress : (s.raiseEndOfFrame).unlockProgress = s.unlockProgress := rfl
@[simp] theorem raiseEndOfFrame_flashMode : (s.raiseEndOfFrame).flashMode = s.flashMode := rfl
@[simp] theorem raiseEndOfFrame_coprocessorProgramCounter : (s.raiseEndOfFrame).coprocessorProgramCounter = s.coprocessorProgramCounter := rfl
@[simp] theorem raiseEndOfFrame_protActive : (s.raiseEndOfFrame).protActive = s.protActive := rfl
@[simp] theorem raiseEndOfFrame_lineY : (s.raiseEndOfFrame).lineY = s.lineY := rfl
@[simp] theorem raiseEndOfFrame_pipeState : (s.raiseEndOfFrame).pipeState = s.pipeState := rfl
@[simp] theorem raiseEndOfFrame_lineBuf : (s.raiseEndOfFrame).lineBuf = s.lineBuf := rfl
@[simp] theorem raiseEndOfFrame_fillSel : (s.raiseEndOfFrame).fillSel = s.fillSel := rfl
@[simp] theorem raiseEndOfFrame_handedOff : (s.raiseEndOfFrame).handedOff = s.handedOff := rfl
@[simp] theorem raiseEndOfFrame_paletteLUT : (s.raiseEndOfFrame).paletteLUT = s.paletteLUT := rfl
@[simp] theorem raiseEndOfFrame_flashRunning : (s.raiseEndOfFrame).flashRunning = s.flashRunning := rfl
@[simp] theorem raiseEndOfFrame_flashRetry : (s.raiseEndOfFrame).flashRetry = s.flashRetry := rfl
@[simp] theorem raiseEndOfFrame_flashError : (s.raiseEndOfFrame).flashError = s.flashError := rfl
@[simp] theorem raiseEndOfFrame_flashPhase : (s.raiseEndOfFrame).flashPhase = s.flashPhase := rfl
@[simp] theorem raiseEndOfFrame_fwSessionActive : (s.raiseEndOfFrame).fwSessionActive = s.fwSessionActive := rfl
@[simp] theorem raiseEndOfFrame_sessionErased : (s.raiseEndOfFrame).sessionErased = s.sessionErased := rfl
@[simp] theorem raiseEndOfFrame_sessionProgrammed : (s.raiseEndOfFrame).sessionProgrammed = s.sessionProgrammed := rfl
@[simp] theorem raiseEndOfFrame_storage : (s.raiseEndOfFrame).storage = s.storage := rfl
@[simp] theorem raiseEndOfFrame_videoOut : (s.raiseEndOfFrame).videoOut = s.videoOut := rfl
@[simp] theorem raiseEndOfFrame_hostReads : (s.raiseEndOfFrame).hostReads = s.hostReads := rfl
@[simp] theorem raiseEndOfFrame_cfg : (s.raiseEndOfFrame).cfg = s.cfg := rfl
@[simp] theorem raiseEndOfFrame_configPage : (s.raiseEndOfFrame).configPage = s.configPage := rfl
@[simp] theorem raiseEndOfFrame_inputs : (s.raiseEndOfFrame).inputs = s.inputs := rfl
@[simp] theorem raiseEndOfFrame_strobes : (s.raiseEndOfFrame).strobes = s.strobes := rfl
@[simp] theorem raiseEndOfFrame_coprocScript : (s.raiseEndOfFrame).coprocScript = s.coprocScript := rfl
@[simp] theorem raiseEndOfFrame_coprocBegun : (s.raiseEndOfFrame).coprocBegun = s.coprocBegun := rfl
@[simp] theorem raiseEndOfFrame_draws : (s.raiseEndOfFrame).draws = s.draws := rfl
@[simp] theorem raiseEndOfFrame_x (j : RegIndex) : (s.raiseEndOfFrame).x j = s.x j := rfl
@[simp] theorem raiseEndOfFrame_statusSel : (s.raiseEndOfFrame).statusSel = s.statusSel := rfl
@[simp] theorem raiseEndOfFrame_memRead (j : Nat) : (s.raiseEndOfFrame).memRead j = s.memRead j := rfl
@[simp] theorem raiseEndOfFrame_storRead (j len : Nat) : (s.raiseEndOfFrame).storRead j len = s.storRead j len := rfl

/-! ### sampleTemperature -/
@[simp] theorem sampleTemperature_regs : (s.sampleTemperature).regs = s.regs := rfl
@[simp] theorem sampleTemperature_vram : (s.sampleTemperature).vram = s.vram := rfl
@[simp] theorem sampleTemperature_addressLatch : (s.sampleTemperature).addressLatch = s.addressLatch := rfl
@[simp] theorem sampleTemperature_addressAutoIncrement : (s.sampleTemperature).addressAutoIncrement = s.addressAutoIncrement := rfl
@[simp] theorem sampleTemperature_writeStage : (s.sampleTemperature).writeStage = s.writeStage := rfl
@[simp] theorem sampleTemperature_raData : (s.sampleTemperature).raData = s.raData := rfl
@[simp] theorem sampleTemperature_interruptLine : (s.sampleTemperature).interruptLine = s.interruptLine := rfl
@[simp] theorem sampleTemperature_paletteDirty : (s.sampleTemperature).paletteDirty = s.paletteDirty := rfl
@[simp] theorem sampleTemperature_configDirty : (s.sampleTemperature).configDirty = s.configDirty := rfl
@[simp] theorem sampleTemperature_coprocessorRequested : (s.sampleTemperature).coprocessorRequested = s.coprocessorRequested := rfl
@[simp] theorem sampleTemperature_flashRequested : (s.sampleTemperature).flashRequested = s.flashRequested := rfl
@[simp] theorem sampleTemperature_unlocked : (s.sampleTemperature).unlocked = s.unlocked := rfl
@[simp] theorem sampleTemperature_unlockProgress : (s.sampleTemperature).unlockProgress = s.unlockProgress := rfl
@[simp] theorem sampleTemperature_flashMode : (s.sampleTemperature).flashMode = s.flashMode := rfl
@[simp] theorem sampleTemperature_coprocessorProgramCounter : (s.sampleTemperature).coprocessorProgramCounter = s.coprocessorProgramCounter := rfl
@[simp] theorem sampleTemperature_protActive : (s.sampleTemperature).protActive = s.protActive := rfl
@[simp] theorem sampleTemperature_lineY : (s.sampleTemperature).lineY = s.lineY := rfl
@[simp] theorem sampleTemperature_pipeState : (s.sampleTemperature).pipeState = s.pipeState := rfl
@[simp] theorem sampleTemperature_lineBuf : (s.sampleTemperature).lineBuf = s.lineBuf := rfl
@[simp] theorem sampleTemperature_fillSel : (s.sampleTemperature).fillSel = s.fillSel := rfl
@[simp] theorem sampleTemperature_handedOff : (s.sampleTemperature).handedOff = s.handedOff := rfl
@[simp] theorem sampleTemperature_paletteLUT : (s.sampleTemperature).paletteLUT = s.paletteLUT := rfl
@[simp] theorem sampleTemperature_flashRunning : (s.sampleTemperature).flashRunning = s.flashRunning := rfl
@[simp] theorem sampleTemperature_flashRetry : (s.sampleTemperature).flashRetry = s.flashRetry := rfl
@[simp] theorem sampleTemperature_flashError : (s.sampleTemperature).flashError = s.flashError := rfl
@[simp] theorem sampleTemperature_flashPhase : (s.sampleTemperature).flashPhase = s.flashPhase := rfl
@[simp] theorem sampleTemperature_fwSessionActive : (s.sampleTemperature).fwSessionActive = s.fwSessionActive := rfl
@[simp] theorem sampleTemperature_sessionErased : (s.sampleTemperature).sessionErased = s.sessionErased := rfl
@[simp] theorem sampleTemperature_sessionProgrammed : (s.sampleTemperature).sessionProgrammed = s.sessionProgrammed := rfl
@[simp] theorem sampleTemperature_storage : (s.sampleTemperature).storage = s.storage := rfl
@[simp] theorem sampleTemperature_videoOut : (s.sampleTemperature).videoOut = s.videoOut := rfl
@[simp] theorem sampleTemperature_hostReads : (s.sampleTemperature).hostReads = s.hostReads := rfl
@[simp] theorem sampleTemperature_cfg : (s.sampleTemperature).cfg = s.cfg := rfl
@[simp] theorem sampleTemperature_configPage : (s.sampleTemperature).configPage = s.configPage := rfl
@[simp] theorem sampleTemperature_inputs : (s.sampleTemperature).inputs = s.inputs := rfl
@[simp] theorem sampleTemperature_strobes : (s.sampleTemperature).strobes = s.strobes := rfl
@[simp] theorem sampleTemperature_coprocScript : (s.sampleTemperature).coprocScript = s.coprocScript := rfl
@[simp] theorem sampleTemperature_coprocBegun : (s.sampleTemperature).coprocBegun = s.coprocBegun := rfl
@[simp] theorem sampleTemperature_x (j : RegIndex) : (s.sampleTemperature).x j = s.x j := rfl
@[simp] theorem sampleTemperature_statusSel : (s.sampleTemperature).statusSel = s.statusSel := rfl
@[simp] theorem sampleTemperature_memRead (j : Nat) : (s.sampleTemperature).memRead j = s.memRead j := rfl
@[simp] theorem sampleTemperature_storRead (j len : Nat) : (s.sampleTemperature).storRead j len = s.storRead j len := rfl

/-! ### frameTrigger -/
@[simp] theorem frameTrigger_regs : (s.frameTrigger).regs = s.regs := rfl
@[simp] theorem frameTrigger_vram : (s.frameTrigger).vram = s.vram := rfl
@[simp] theorem frameTrigger_addressLatch : (s.frameTrigger).addressLatch = s.addressLatch := rfl
@[simp] theorem frameTrigger_addressAutoIncrement : (s.frameTrigger).addressAutoIncrement = s.addressAutoIncrement := rfl
@[simp] theorem frameTrigger_writeStage : (s.frameTrigger).writeStage = s.writeStage := rfl
@[simp] theorem frameTrigger_raData : (s.frameTrigger).raData = s.raData := rfl
@[simp] theorem frameTrigger_interruptLine : (s.frameTrigger).interruptLine = s.interruptLine := rfl
@[simp] theorem frameTrigger_paletteDirty : (s.frameTrigger).paletteDirty = s.paletteDirty := rfl
@[simp] theorem frameTrigger_configDirty : (s.frameTrigger).configDirty = s.configDirty := rfl
@[simp] theorem frameTrigger_flashRequested : (s.frameTrigger).flashRequested = s.flashRequested := rfl
@[simp] theorem frameTrigger_unlocked : (s.frameTrigger).unlocked = s.unlocked := rfl
@[simp] theorem frameTrigger_unlockProgress : (s.frameTrigger).unlockProgress = s.unlockProgress := rfl
@[simp] theorem frameTrigger_flashMode : (s.frameTrigger).flashMode = s.flashMode := rfl
@[simp] theorem frameTrigger_coprocessorProgramCounter : (s.frameTrigger).coprocessorProgramCounter = s.coprocessorProgramCounter := rfl
@[simp] theorem frameTrigger_protActive : (s.frameTrigger).protActive = s.protActive := rfl
@[simp] theorem frameTrigger_lineY : (s.frameTrigger).lineY = s.lineY := rfl
@[simp] theorem frameTrigger_pipeState : (s.frameTrigger).pipeState = s.pipeState := rfl
@[simp] theorem frameTrigger_lineBuf : (s.frameTrigger).lineBuf = s.lineBuf := rfl
@[simp] theorem frameTrigger_fillSel : (s.frameTrigger).fillSel = s.fillSel := rfl
@[simp] theorem frameTrigger_handedOff : (s.frameTrigger).handedOff = s.handedOff := rfl
@[simp] theorem frameTrigger_paletteLUT : (s.frameTrigger).paletteLUT = s.paletteLUT := rfl
@[simp] theorem frameTrigger_flashRunning : (s.frameTrigger).flashRunning = s.flashRunning := rfl
@[simp] theorem frameTrigger_flashRetry : (s.frameTrigger).flashRetry = s.flashRetry := rfl
@[simp] theorem frameTrigger_flashError : (s.frameTrigger).flashError = s.flashError := rfl
@[simp] theorem frameTrigger_flashPhase : (s.frameTrigger).flashPhase = s.flashPhase := rfl
@[simp] theorem frameTrigger_fwSessionActive : (s.frameTrigger).fwSessionActive = s.fwSessionActive := rfl
@[simp] theorem frameTrigger_sessionErased : (s.frameTrigger).sessionErased = s.sessionErased := rfl
@[simp] theorem frameTrigger_sessionProgrammed : (s.frameTrigger).sessionProgrammed = s.sessionProgrammed := rfl
@[simp] theorem frameTrigger_storage : (s.frameTrigger).storage = s.storage := rfl
@[simp] theorem frameTrigger_videoOut : (s.frameTrigger).videoOut = s.videoOut := rfl
@[simp] theorem frameTrigger_hostReads : (s.frameTrigger).hostReads = s.hostReads := rfl
@[simp] theorem frameTrigger_cfg : (s.frameTrigger).cfg = s.cfg := rfl
@[simp] theorem frameTrigger_configPage : (s.frameTrigger).configPage = s.configPage := rfl
@[simp] theorem frameTrigger_inputs : (s.frameTrigger).inputs = s.inputs := rfl
@[simp] theorem frameTrigger_strobes : (s.frameTrigger).strobes = s.strobes := rfl
@[simp] theorem frameTrigger_coprocScript : (s.frameTrigger).coprocScript = s.coprocScript := rfl
@[simp] theorem frameTrigger_coprocBegun : (s.frameTrigger).coprocBegun = s.coprocBegun := rfl
@[simp] theorem frameTrigger_draws : (s.frameTrigger).draws = s.draws := rfl
@[simp] theorem frameTrigger_x (j : RegIndex) : (s.frameTrigger).x j = s.x j := rfl
@[simp] theorem frameTrigger_statusSel : (s.frameTrigger).statusSel = s.statusSel := rfl
@[simp] theorem frameTrigger_memRead (j : Nat) : (s.frameTrigger).memRead j = s.memRead j := rfl
@[simp] theorem frameTrigger_storRead (j len : Nat) : (s.frameTrigger).storRead j len = s.storRead j len := rfl

/-! ### clearConfigDirty -/
@[simp] theorem clearConfigDirty_regs : (s.clearConfigDirty).regs = s.regs := rfl
@[simp] theorem clearConfigDirty_status : (s.clearConfigDirty).status = s.status := rfl
@[simp] theorem clearConfigDirty_vram : (s.clearConfigDirty).vram = s.vram := rfl
@[simp] theorem clearConfigDirty_addressLatch : (s.clearConfigDirty).addressLatch = s.addressLatch := rfl
@[simp] theorem clearConfigDirty_addressAutoIncrement : (s.clearConfigDirty).addressAutoIncrement = s.addressAutoIncrement := rfl
@[simp] theorem clearConfigDirty_writeStage : (s.clearConfigDirty).writeStage = s.writeStage := rfl
@[simp] theorem clearConfigDirty_raData : (s.clearConfigDirty).raData = s.raData := rfl
@[simp] theorem clearConfigDirty_raStatus : (s.clearConfigDirty).raStatus = s.raStatus := rfl
@[simp] theorem clearConfigDirty_interruptLine : (s.clearConfigDirty).interruptLine = s.interruptLine := rfl
@[simp] theorem clearConfigDirty_paletteDirty : (s.clearConfigDirty).paletteDirty = s.paletteDirty := rfl
@[simp] theorem clearConfigDirty_coprocessorRequested : (s.clearConfigDirty).coprocessorRequested = s.coprocessorRequested := rfl
@[simp] theorem clearConfigDirty_flashRequested : (s.clearConfigDirty).flashRequested = s.flashRequested := rfl
@[simp] theorem clearConfigDirty_unlocked : (s.clearConfigDirty).unlocked = s.unlocked := rfl
@[simp] theorem clearConfigDirty_unlockProgress : (s.clearConfigDirty).unlockProgress = s.unlockProgress := rfl
@[simp] theorem clearConfigDirty_flashMode : (s.clearConfigDirty).flashMode = s.flashMode := rfl
@[simp] theorem clearConfigDirty_coprocessorProgramCounter : (s.clearConfigDirty).coprocessorProgramCounter = s.coprocessorProgramCounter := rfl
@[simp] theorem clearConfigDirty_protActive : (s.clearConfigDirty).protActive = s.protActive := rfl
@[simp] theorem clearConfigDirty_lineY : (s.clearConfigDirty).lineY = s.lineY := rfl
@[simp] theorem clearConfigDirty_pipeState : (s.clearConfigDirty).pipeState = s.pipeState := rfl
@[simp] theorem clearConfigDirty_lineBuf : (s.clearConfigDirty).lineBuf = s.lineBuf := rfl
@[simp] theorem clearConfigDirty_fillSel : (s.clearConfigDirty).fillSel = s.fillSel := rfl
@[simp] theorem clearConfigDirty_handedOff : (s.clearConfigDirty).handedOff = s.handedOff := rfl
@[simp] theorem clearConfigDirty_paletteLUT : (s.clearConfigDirty).paletteLUT = s.paletteLUT := rfl
@[simp] theorem clearConfigDirty_flashRunning : (s.clearConfigDirty).flashRunning = s.flashRunning := rfl
@[simp] theorem clearConfigDirty_flashRetry : (s.clearConfigDirty).flashRetry = s.flashRetry := rfl
@[simp] theorem clearConfigDirty_flashError : (s.clearConfigDirty).flashError = s.flashError := rfl
@[simp] theorem clearConfigDirty_flashPhase : (s.clearConfigDirty).flashPhase = s.flashPhase := rfl
@[simp] theorem clearConfigDirty_fwSessionActive : (s.clearConfigDirty).fwSessionActive = s.fwSessionActive := rfl
@[simp] theorem clearConfigDirty_sessionErased : (s.clearConfigDirty).sessionErased = s.sessionErased := rfl
@[simp] theorem clearConfigDirty_sessionProgrammed : (s.clearConfigDirty).sessionProgrammed = s.sessionProgrammed := rfl
@[simp] theorem clearConfigDirty_storage : (s.clearConfigDirty).storage = s.storage := rfl
@[simp] theorem clearConfigDirty_videoOut : (s.clearConfigDirty).videoOut = s.videoOut := rfl
@[simp] theorem clearConfigDirty_hostReads : (s.clearConfigDirty).hostReads = s.hostReads := rfl
@[simp] theorem clearConfigDirty_cfg : (s.clearConfigDirty).cfg = s.cfg := rfl
@[simp] theorem clearConfigDirty_configPage : (s.clearConfigDirty).configPage = s.configPage := rfl
@[simp] theorem clearConfigDirty_inputs : (s.clearConfigDirty).inputs = s.inputs := rfl
@[simp] theorem clearConfigDirty_strobes : (s.clearConfigDirty).strobes = s.strobes := rfl
@[simp] theorem clearConfigDirty_coprocScript : (s.clearConfigDirty).coprocScript = s.coprocScript := rfl
@[simp] theorem clearConfigDirty_coprocBegun : (s.clearConfigDirty).coprocBegun = s.coprocBegun := rfl
@[simp] theorem clearConfigDirty_draws : (s.clearConfigDirty).draws = s.draws := rfl
@[simp] theorem clearConfigDirty_x (j : RegIndex) : (s.clearConfigDirty).x j = s.x j := rfl
@[simp] theorem clearConfigDirty_statusSel : (s.clearConfigDirty).statusSel = s.statusSel := rfl
@[simp] theorem clearConfigDirty_st (j : StatusIndex) : (s.clearConfigDirty).st j = s.st j := rfl
@[simp] theorem clearConfigDirty_memRead (j : Nat) : (s.clearConfigDirty).memRead j = s.memRead j := rfl
@[simp] theorem clearConfigDirty_storRead (j len : Nat) : (s.clearConfigDirty).storRead j len = s.storRead j len := rfl

/-! ### configSave -/
@[simp] theorem configSave_regs : (s.configSave).regs = s.regs := rfl
@[simp] theorem configSave_status : (s.configSave).status = s.status := rfl
@[simp] theorem configSave_vram : (s.configSave).vram = s.vram := rfl
@[simp] theorem configSave_addressLatch : (s.configSave).addressLatch = s.addressLatch := rfl
@[simp] theorem configSave_addressAutoIncrement : (s.configSave).addressAutoIncrement = s.addressAutoIncrement := rfl
@[simp] theorem configSave_writeStage : (s.configSave).writeStage = s.writeStage := rfl
@[simp] theorem configSave_raData : (s.configSave).raData = s.raData := rfl
@[simp] theorem configSave_raStatus : (s.configSave).raStatus = s.raStatus := rfl
@[simp] theorem configSave_interruptLine : (s.configSave).interruptLine = s.interruptLine := rfl
@[simp] theorem configSave_paletteDirty : (s.configSave).paletteDirty = s.paletteDirty := rfl
@[simp] theorem configSave_configDirty : (s.configSave).configDirty = s.configDirty := rfl
@[simp] theorem configSave_coprocessorRequested : (s.configSave).coprocessorRequested = s.coprocessorRequested := rfl
@[simp] theorem configSave_flashRequested : (s.configSave).flashRequested = s.flashRequested := rfl
@[simp] theorem configSave_unlocked : (s.configSave).unlocked = s.unlocked := rfl
@[simp] theorem configSave_unlockProgress : (s.configSave).unlockProgress = s.unlockProgress := rfl
@[simp] theorem configSave_flashMode : (s.configSave).flashMode = s.flashMode := rfl
@[simp] theorem configSave_coprocessorProgramCounter : (s.configSave).coprocessorProgramCounter = s.coprocessorProgramCounter := rfl
@[simp] theorem configSave_protActive : (s.configSave).protActive = s.protActive := rfl
@[simp] theorem configSave_lineY : (s.configSave).lineY = s.lineY := rfl
@[simp] theorem configSave_pipeState : (s.configSave).pipeState = s.pipeState := rfl
@[simp] theorem configSave_lineBuf : (s.configSave).lineBuf = s.lineBuf := rfl
@[simp] theorem configSave_fillSel : (s.configSave).fillSel = s.fillSel := rfl
@[simp] theorem configSave_handedOff : (s.configSave).handedOff = s.handedOff := rfl
@[simp] theorem configSave_paletteLUT : (s.configSave).paletteLUT = s.paletteLUT := rfl
@[simp] theorem configSave_flashRunning : (s.configSave).flashRunning = s.flashRunning := rfl
@[simp] theorem configSave_flashRetry : (s.configSave).flashRetry = s.flashRetry := rfl
@[simp] theorem configSave_flashError : (s.configSave).flashError = s.flashError := rfl
@[simp] theorem configSave_flashPhase : (s.configSave).flashPhase = s.flashPhase := rfl
@[simp] theorem configSave_fwSessionActive : (s.configSave).fwSessionActive = s.fwSessionActive := rfl
@[simp] theorem configSave_sessionErased : (s.configSave).sessionErased = s.sessionErased := rfl
@[simp] theorem configSave_sessionProgrammed : (s.configSave).sessionProgrammed = s.sessionProgrammed := rfl
@[simp] theorem configSave_storage : (s.configSave).storage = s.storage := rfl
@[simp] theorem configSave_videoOut : (s.configSave).videoOut = s.videoOut := rfl
@[simp] theorem configSave_hostReads : (s.configSave).hostReads = s.hostReads := rfl
@[simp] theorem configSave_cfg : (s.configSave).cfg = s.cfg := rfl
@[simp] theorem configSave_inputs : (s.configSave).inputs = s.inputs := rfl
@[simp] theorem configSave_strobes : (s.configSave).strobes = s.strobes := rfl
@[simp] theorem configSave_coprocScript : (s.configSave).coprocScript = s.coprocScript := rfl
@[simp] theorem configSave_coprocBegun : (s.configSave).coprocBegun = s.coprocBegun := rfl
@[simp] theorem configSave_x (j : RegIndex) : (s.configSave).x j = s.x j := rfl
@[simp] theorem configSave_statusSel : (s.configSave).statusSel = s.statusSel := rfl
@[simp] theorem configSave_st (j : StatusIndex) : (s.configSave).st j = s.st j := rfl
@[simp] theorem configSave_memRead (j : Nat) : (s.configSave).memRead j = s.memRead j := rfl
@[simp] theorem configSave_storRead (j len : Nat) : (s.configSave).storRead j len = s.storRead j len := rfl

/-! ### setPipe -/
@[simp] theorem setPipe_regs (p : PipeState) : (s.setPipe p).regs = s.regs := rfl
@[simp] theorem setPipe_status (p : PipeState) : (s.setPipe p).status = s.status := rfl
@[simp] theorem setPipe_vram (p : PipeState) : (s.setPipe p).vram = s.vram := rfl
@[simp] theorem setPipe_addressLatch (p : PipeState) : (s.setPipe p).addressLatch = s.addressLatch := rfl
@[simp] theorem setPipe_addressAutoIncrement (p : PipeState) : (s.setPipe p).addressAutoIncrement = s.addressAutoIncrement := rfl
@[simp] theorem setPipe_writeStage (p : PipeState) : (s.setPipe p).writeStage = s.writeStage := rfl
@[simp] theorem setPipe_raData (p : PipeState) : (s.setPipe p).raData = s.raData := rfl
@[simp] theorem setPipe_raStatus (p : PipeState) : (s.setPipe p).raStatus = s.raStatus := rfl
@[simp] theorem setPipe_interruptLine (p : PipeState) : (s.setPipe p).interruptLine = s.interruptLine := rfl
@[simp] theorem setPipe_paletteDirty (p : PipeState) : (s.setPipe p).paletteDirty = s.paletteDirty := rfl
@[simp] theorem setPipe_configDirty (p : PipeState) : (s.setPipe p).configDirty = s.configDirty := rfl
@[simp] theorem setPipe_coprocessorRequested (p : PipeState) : (s.setPipe p).coprocessorRequested = s.coprocessorRequested := rfl
@[simp] theorem setPipe_flashRequested (p : PipeState) : (s.setPipe p).flashRequested = s.flashRequested := rfl
@[simp] theorem setPipe_unlocked (p : PipeState) : (s.setPipe p).unlocked = s.unlocked := rfl
@[simp] theorem setPipe_unlockProgress (p : PipeState) : (s.setPipe p).unlockProgress = s.unlockProgress := rfl
@[simp] theorem setPipe_flashMode (p : PipeState) : (s.setPipe p).flashMode = s.flashMode := rfl
@[simp] theorem setPipe_coprocessorProgramCounter (p : PipeState) : (s.setPipe p).coprocessorProgramCounter = s.coprocessorProgramCounter := rfl
@[simp] theorem setPipe_protActive (p : PipeState) : (s.setPipe p).protActive = s.protActive := rfl
@[simp] theorem setPipe_lineY (p : PipeState) : (s.setPipe p).lineY = s.lineY := rfl
@[simp] theorem setPipe_lineBuf (p : PipeState) : (s.setPipe p).lineBuf = s.lineBuf := rfl
@[simp] theorem setPipe_fillSel (p : PipeState) : (s.setPipe p).fillSel = s.fillSel := rfl
@[simp] theorem setPipe_handedOff (p : PipeState) : (s.setPipe p).handedOff = s.handedOff := rfl
@[simp] theorem setPipe_paletteLUT (p : PipeState) : (s.setPipe p).paletteLUT = s.paletteLUT := rfl
@[simp] theorem setPipe_flashRunning (p : PipeState) : (s.setPipe p).flashRunning = s.flashRunning := rfl
@[simp] theorem setPipe_flashRetry (p : PipeState) : (s.setPipe p).flashRetry = s.flashRetry := rfl
@[simp] theorem setPipe_flashError (p : PipeState) : (s.setPipe p).flashError = s.flashError := rfl
@[simp] theorem setPipe_flashPhase (p : PipeState) : (s.setPipe p).flashPhase = s.flashPhase := rfl
@[simp] theorem setPipe_fwSessionActive (p : PipeState) : (s.setPipe p).fwSessionActive = s.fwSessionActive := rfl
@[simp] theorem setPipe_sessionErased (p : PipeState) : (s.setPipe p).sessionErased = s.sessionErased := rfl
@[simp] theorem setPipe_sessionProgrammed (p : PipeState) : (s.setPipe p).sessionProgrammed = s.sessionProgrammed := rfl
@[simp] theorem setPipe_storage (p : PipeState) : (s.setPipe p).storage = s.storage := rfl
@[simp] theorem setPipe_videoOut (p : PipeState) : (s.setPipe p).videoOut = s.videoOut := rfl
@[simp] theorem setPipe_hostReads (p : PipeState) : (s.setPipe p).hostReads = s.hostReads := rfl
@[simp] theorem setPipe_cfg (p : PipeState) : (s.setPipe p).cfg = s.cfg := rfl
@[simp] theorem setPipe_configPage (p : PipeState) : (s.setPipe p).configPage = s.configPage := rfl
@[simp] theorem setPipe_inputs (p : PipeState) : (s.setPipe p).inputs = s.inputs := rfl
@[simp] theorem setPipe_strobes (p : PipeState) : (s.setPipe p).strobes = s.strobes := rfl
@[simp] theorem setPipe_coprocScript (p : PipeState) : (s.setPipe p).coprocScript = s.coprocScript := rfl
@[simp] theorem setPipe_coprocBegun (p : PipeState) : (s.setPipe p).coprocBegun = s.coprocBegun := rfl
@[simp] theorem setPipe_draws (p : PipeState) : (s.setPipe p).draws = s.draws := rfl
@[simp] theorem setPipe_x (p : PipeState) (j : RegIndex) : (s.setPipe p).x j = s.x j := rfl
@[simp] theorem setPipe_statusSel (p : PipeState) : (s.setPipe p).statusSel = s.statusSel := rfl
@[simp] theorem setPipe_st (p : PipeState) (j : StatusIndex) : (s.setPipe p).st j = s.st j := rfl
@[simp] theorem setPipe_memRead (p : PipeState) (j : Nat) : (s.setPipe p).memRead j = s.memRead j := rfl
@[simp] theorem setPipe_storRead (p : PipeState) (j len : Nat) : (s.setPipe p).storRead j len = s.storRead j len := rfl

/-! ### nextLine -/
@[simp] theorem nextLine_regs (y : Nat) : (s.nextLine y).regs = s.regs := rfl
@[simp] theorem nextLine_status (y : Nat) : (s.nextLine y).status = s.status := rfl
@[simp] theorem nextLine_vram (y : Nat) : (s.nextLine y).vram = s.vram := rfl
@[simp] theorem nextLine_addressLatch (y : Nat) : (s.nextLine y).addressLatch = s.addressLatch := rfl
@[simp] theorem nextLine_addressAutoIncrement (y : Nat) : (s.nextLine y).addressAutoIncrement = s.addressAutoIncrement := rfl
@[simp] theorem nextLine_writeStage (y : Nat) : (s.nextLine y).writeStage = s.writeStage := rfl
@[simp] theorem nextLine_raData (y : Nat) : (s.nextLine y).raData = s.raData := rfl
@[simp] theorem nextLine_raStatus (y : Nat) : (s.nextLine y).raStatus = s.raStatus := rfl
@[simp] theorem nextLine_interruptLine (y : Nat) : (s.nextLine y).interruptLine = s.interruptLine := rfl
@[simp] theorem nextLine_paletteDirty (y : Nat) : (s.nextLine y).paletteDirty = s.paletteDirty := rfl
@[simp] theorem nextLine_configDirty (y : Nat) : (s.nextLine y).configDirty = s.configDirty := rfl
@[simp] theorem nextLine_coprocessorRequested (y : Nat) : (s.nextLine y).coprocessorRequested = s.coprocessorRequested := rfl
@[simp] theorem nextLine_flashRequested (y : Nat) : (s.nextLine y).flashRequested = s.flashRequested := rfl
@[simp] theorem nextLine_unlocked (y : Nat) : (s.nextLine y).unlocked = s.unlocked := rfl
@[simp] theorem nextLine_unlockProgress (y : Nat) : (s.nextLine y).unlockProgress = s.unlockProgress := rfl
@[simp] theorem nextLine_flashMode (y : Nat) : (s.nextLine y).flashMode = s.flashMode := rfl
@[simp] theorem nextLine_coprocessorProgramCounter (y : Nat) : (s.nextLine y).coprocessorProgramCounter = s.coprocessorProgramCounter := rfl
@[simp] theorem nextLine_protActive (y : Nat) : (s.nextLine y).protActive = s.protActive := rfl
@[simp] theorem nextLine_pipeState (y : Nat) : (s.nextLine y).pipeState = s.pipeState := rfl
@[simp] theorem nextLine_lineBuf (y : Nat) : (s.nextLine y).lineBuf = s.lineBuf := rfl
@[simp] theorem nextLine_fillSel (y : Nat) : (s.nextLine y).fillSel = s.fillSel := rfl
@[simp] theorem nextLine_handedOff (y : Nat) : (s.nextLine y).handedOff = s.handedOff := rfl
@[simp] theorem nextLine_paletteLUT (y : Nat) : (s.nextLine y).paletteLUT = s.paletteLUT := rfl
@[simp] theorem nextLine_flashRunning (y : Nat) : (s.nextLine y).flashRunning = s.flashRunning := rfl
@[simp] theorem nextLine_flashRetry (y : Nat) : (s.nextLine y).flashRetry = s.flashRetry := rfl
@[simp] theorem nextLine_flashError (y : Nat) : (s.nextLine y).flashError = s.flashError := rfl
@[simp] theorem nextLine_flashPhase (y : Nat) : (s.nextLine y).flashPhase = s.flashPhase := rfl
@[simp] theorem nextLine_fwSessionActive (y : Nat) : (s.nextLine y).fwSessionActive = s.fwSessionActive := rfl
@[simp] theorem nextLine_sessionErased (y : Nat) : (s.nextLine y).sessionErased = s.sessionErased := rfl
@[simp] theorem nextLine_sessionProgrammed (y : Nat) : (s.nextLine y).sessionProgrammed = s.sessionProgrammed := rfl
@[simp] theorem nextLine_storage (y : Nat) : (s.nextLine y).storage = s.storage := rfl
@[simp] theorem nextLine_videoOut (y : Nat) : (s.nextLine y).videoOut = s.videoOut := rfl
@[simp] theorem nextLine_hostReads (y : Nat) : (s.nextLine y).hostReads = s.hostReads := rfl
@[simp] theorem nextLine_cfg (y : Nat) : (s.nextLine y).cfg = s.cfg := rfl
@[simp] theorem nextLine_configPage (y : Nat) : (s.nextLine y).configPage = s.configPage := rfl
@[simp] theorem nextLine_inputs (y : Nat) : (s.nextLine y).inputs = s.inputs := rfl
@[simp] theorem nextLine_strobes (y : Nat) : (s.nextLine y).strobes = s.strobes := rfl
@[simp] theorem nextLine_coprocScript (y : Nat) : (s.nextLine y).coprocScript = s.coprocScript := rfl
@[simp] theorem nextLine_draws (y : Nat) : (s.nextLine y).draws = s.draws := rfl
@[simp] theorem nextLine_x (y : Nat) (j : RegIndex) : (s.nextLine y).x j = s.x j := rfl
@[simp] theorem nextLine_statusSel (y : Nat) : (s.nextLine y).statusSel = s.statusSel := rfl
@[simp] theorem nextLine_st (y : Nat) (j : StatusIndex) : (s.nextLine y).st j = s.st j := rfl
@[simp] theorem nextLine_memRead (y : Nat) (j : Nat) : (s.nextLine y).memRead j = s.memRead j := rfl
@[simp] theorem nextLine_storRead (y : Nat) (j len : Nat) : (s.nextLine y).storRead j len = s.storRead j len := rfl

/-! ### setCoprocPc -/
@[simp] theorem setCoprocPc_regs (pc : Nat) : (s.setCoprocPc pc).regs = s.regs := rfl
@[simp] theorem setCoprocPc_status (pc : Nat) : (s.setCoprocPc pc).status = s.status := rfl
@[simp] theorem setCoprocPc_vram (pc : Nat) : (s.setCoprocPc pc).vram = s.vram := rfl
@[simp] theorem setCoprocPc_addressLatch (pc : Nat) : (s.setCoprocPc pc).addressLatch = s.addressLatch := rfl
@[simp] theorem setCoprocPc_addressAutoIncrement (pc : Nat) : (s.setCoprocPc pc).addressAutoIncrement = s.addressAutoIncrement := rfl
@[simp] theorem setCoprocPc_writeStage (pc : Nat) : (s.setCoprocPc pc).writeStage = s.writeStage := rfl
@[simp] theorem setCoprocPc_raData (pc : Nat) : (s.setCoprocPc pc).raData = s.raData := rfl
@[simp] theorem setCoprocPc_raStatus (pc : Nat) : (s.setCoprocPc pc).raStatus = s.raStatus := rfl
@[simp] theorem setCoprocPc_interruptLine (pc : Nat) : (s.setCoprocPc pc).interruptLine = s.interruptLine := rfl
@[simp] theorem setCoprocPc_paletteDirty (pc : Nat) : (s.setCoprocPc pc).paletteDirty = s.paletteDirty := rfl
@[simp] theorem setCoprocPc_configDirty (pc : Nat) : (s.setCoprocPc pc).configDirty = s.configDirty := rfl
@[simp] theorem setCoprocPc_coprocessorRequested (pc : Nat) : (s.setCoprocPc pc).coprocessorRequested = s.coprocessorRequested := rfl
@[simp] theorem setCoprocPc_flashRequested (pc : Nat) : (s.setCoprocPc pc).flashRequested = s.flashRequested := rfl
@[simp] theorem setCoprocPc_unlocked (pc : Nat) : (s.setCoprocPc pc).unlocked = s.unlocked := rfl
@[simp] theorem setCoprocPc_unlockProgress (pc : Nat) : (s.setCoprocPc pc).unlockProgress = s.unlockProgress := rfl
@[simp] theorem setCoprocPc_flashMode (pc : Nat) : (s.setCoprocPc pc).flashMode = s.flashMode := rfl
@[simp] theorem setCoprocPc_protActive (pc : Nat) : (s.setCoprocPc pc).protActive = s.protActive := rfl
@[simp] theorem setCoprocPc_lineY (pc : Nat) : (s.setCoprocPc pc).lineY = s.lineY := rfl
@[simp] theorem setCoprocPc_pipeState (pc : Nat) : (s.setCoprocPc pc).pipeState = s.pipeState := rfl
@[simp] theorem setCoprocPc_lineBuf (pc : Nat) : (s.setCoprocPc pc).lineBuf = s.lineBuf := rfl
@[simp] theorem setCoprocPc_fillSel (pc : Nat) : (s.setCoprocPc pc).fillSel = s.fillSel := rfl
@[simp] theorem setCoprocPc_handedOff (pc : Nat) : (s.setCoprocPc pc).handedOff = s.handedOff := rfl
@[simp] theorem setCoprocPc_paletteLUT (pc : Nat) : (s.setCoprocPc pc).paletteLUT = s.paletteLUT := rfl
@[simp] theorem setCoprocPc_flashRunning (pc : Nat) : (s.setCoprocPc pc).flashRunning = s.flashRunning := rfl
@[simp] theorem setCoprocPc_flashRetry (pc : Nat) : (s.setCoprocPc pc).flashRetry = s.flashRetry := rfl
@[simp] theorem setCoprocPc_flashError (pc : Nat) : (s.setCoprocPc pc).flashError = s.flashError := rfl
@[simp] theorem setCoprocPc_flashPhase (pc : Nat) : (s.setCoprocPc pc).flashPhase = s.flashPhase := rfl
@[simp] theorem setCoprocPc_fwSessionActive (pc : Nat) : (s.setCoprocPc pc).fwSessionActive = s.fwSessionActive := rfl
@[simp] theorem setCoprocPc_sessionErased (pc : Nat) : (s.setCoprocPc pc).sessionErased = s.sessionErased := rfl
@[simp] theorem setCoprocPc_sessionProgrammed (pc : Nat) : (s.setCoprocPc pc).sessionProgrammed = s.sessionProgrammed := rfl
@[simp] theorem setCoprocPc_storage (pc : Nat) : (s.setCoprocPc pc).storage = s.storage := rfl
@[simp] theorem setCoprocPc_videoOut (pc : Nat) : (s.setCoprocPc pc).videoOut = s.videoOut := rfl
@[simp] theorem setCoprocPc_hostReads (pc : Nat) : (s.setCoprocPc pc).hostReads = s.hostReads := rfl
@[simp] theorem setCoprocPc_cfg (pc : Nat) : (s.setCoprocPc pc).cfg = s.cfg := rfl
@[simp] theorem setCoprocPc_configPage (pc : Nat) : (s.setCoprocPc pc).configPage = s.configPage := rfl
@[simp] theorem setCoprocPc_inputs (pc : Nat) : (s.setCoprocPc pc).inputs = s.inputs := rfl
@[simp] theorem setCoprocPc_strobes (pc : Nat) : (s.setCoprocPc pc).strobes = s.strobes := rfl
@[simp] theorem setCoprocPc_coprocScript (pc : Nat) : (s.setCoprocPc pc).coprocScript = s.coprocScript := rfl
@[simp] theorem setCoprocPc_coprocBegun (pc : Nat) : (s.setCoprocPc pc).coprocBegun = s.coprocBegun := rfl
@[simp] theorem setCoprocPc_draws (pc : Nat) : (s.setCoprocPc pc).draws = s.draws := rfl
@[simp] theorem setCoprocPc_x (pc : Nat) (j : RegIndex) : (s.setCoprocPc pc).x j = s.x j := rfl
@[simp] theorem setCoprocPc_statusSel (pc : Nat) : (s.setCoprocPc pc).statusSel = s.statusSel := rfl
@[simp] theorem setCoprocPc_st (pc : Nat) (j : StatusIndex) : (s.setCoprocPc pc).st j = s.st j := rfl
@[simp] theorem setCoprocPc_memRead (pc : Nat) (j : Nat) : (s.setCoprocPc pc).memRead j = s.memRead j := rfl
@[simp] theorem setCoprocPc_storRead (pc : Nat) (j len : Nat) : (s.setCoprocPc pc).storRead j len = s.storRead j len := rfl

/-! ### coprocFinish -/
@[simp] theorem coprocFinish_regs : (s.coprocFinish).regs = s.regs := rfl
@[simp] theorem coprocFinish_vram : (s.coprocFinish).vram = s.vram := rfl
@[simp] theorem coprocFinish_addressLatch : (s.coprocFinish).addressLatch = s.addressLatch := rfl
@[simp] theorem coprocFinish_addressAutoIncrement : (s.coprocFinish).addressAutoIncrement = s.addressAutoIncrement := rfl
@[simp] theorem coprocFinish_writeStage : (s.coprocFinish).writeStage = s.writeStage := rfl
@[simp] theorem coprocFinish_raData : (s.coprocFinish).raData = s.raData := rfl
@[simp] theorem coprocFinish_interruptLine : (s.coprocFinish).interruptLine = s.interruptLine := rfl
@[simp] theorem coprocFinish_paletteDirty : (s.coprocFinish).paletteDirty = s.paletteDirty := rfl
@[simp] theorem coprocFinish_configDirty : (s.coprocFinish).configDirty = s.configDirty := rfl
@[simp] theorem coprocFinish_flashRequested : (s.coprocFinish).flashRequested = s.flashRequested := rfl
@[simp] theorem coprocFinish_unlocked : (s.coprocFinish).unlocked = s.unlocked := rfl
@[simp] theorem coprocFinish_unlockProgress : (s.coprocFinish).unlockProgress = s.unlockProgress := rfl
@[simp] theorem coprocFinish_flashMode : (s.coprocFinish).flashMode = s.flashMode := rfl
@[simp] theorem coprocFinish_coprocessorProgramCounter : (s.coprocFinish).coprocessorProgramCounter = s.coprocessorProgramCounter := rfl
@[simp] theorem coprocFinish_protActive : (s.coprocFinish).protActive = s.protActive := rfl
@[simp] theorem coprocFinish_lineY : (s.coprocFinish).lineY = s.lineY := rfl
@[simp] theorem coprocFinish_pipeState : (s.coprocFinish).pipeState = s.pipeState := rfl
@[simp] theorem coprocFinish_lineBuf : (s.coprocFinish).lineBuf = s.lineBuf := rfl
@[simp] theorem coprocFinish_fillSel : (s.coprocFinish).fillSel = s.fillSel := rfl
@[simp] theorem coprocFinish_handedOff : (s.coprocFinish).handedOff = s.handedOff := rfl
@[simp] theorem coprocFinish_paletteLUT : (s.coprocFinish).paletteLUT = s.paletteLUT := rfl
@[simp] theorem coprocFinish_flashRunning : (s.coprocFinish).flashRunning = s.flashRunning := rfl
@[simp] theorem coprocFinish_flashRetry : (s.coprocFinish).flashRetry = s.flashRetry := rfl
@[simp] theorem coprocFinish_flashError : (s.coprocFinish).flashError = s.flashError := rfl
@[simp] theorem coprocFinish_flashPhase : (s.coprocFinish).flashPhase = s.flashPhase := rfl
@[simp] theorem coprocFinish_fwSessionActive : (s.coprocFinish).fwSessionActive = s.fwSessionActive := rfl
@[simp] theorem coprocFinish_sessionErased : (s.coprocFinish).sessionErased = s.sessionErased := rfl
@[simp] theorem coprocFinish_sessionProgrammed : (s.coprocFinish).sessionProgrammed = s.sessionProgrammed := rfl
@[simp] theorem coprocFinish_storage : (s.coprocFinish).storage = s.storage := rfl
@[simp] theorem coprocFinish_videoOut : (s.coprocFinish).videoOut = s.videoOut := rfl
@[simp] theorem coprocFinish_hostReads : (s.coprocFinish).hostReads = s.hostReads := rfl
@[simp] theorem coprocFinish_cfg : (s.coprocFinish).cfg = s.cfg := rfl
@[simp] theorem coprocFinish_configPage : (s.coprocFinish).configPage = s.configPage := rfl
@[simp] theorem coprocFinish_inputs : (s.coprocFinish).inputs = s.inputs := rfl
@[simp] theorem coprocFinish_strobes : (s.coprocFinish).strobes = s.strobes := rfl
@[simp] theorem coprocFinish_coprocScript : (s.coprocFinish).coprocScript = s.coprocScript := rfl
@[simp] theorem coprocFinish_coprocBegun : (s.coprocFinish).coprocBegun = s.coprocBegun := rfl
@[simp] theorem coprocFinish_draws : (s.coprocFinish).draws = s.draws := rfl
@[simp] theorem coprocFinish_x (j : RegIndex) : (s.coprocFinish).x j = s.x j := rfl
@[simp] theorem coprocFinish_statusSel : (s.coprocFinish).statusSel = s.statusSel := rfl
@[simp] theorem coprocFinish_memRead (j : Nat) : (s.coprocFinish).memRead j = s.memRead j := rfl
@[simp] theorem coprocFinish_storRead (j len : Nat) : (s.coprocFinish).storRead j len = s.storRead j len := rfl

/-! ### beginRun -/
@[simp] theorem beginRun_regs : (s.beginRun).regs = s.regs := rfl
@[simp] theorem beginRun_status : (s.beginRun).status = s.status := rfl
@[simp] theorem beginRun_vram : (s.beginRun).vram = s.vram := rfl
@[simp] theorem beginRun_addressLatch : (s.beginRun).addressLatch = s.addressLatch := rfl
@[simp] theorem beginRun_addressAutoIncrement : (s.beginRun).addressAutoIncrement = s.addressAutoIncrement := rfl
@[simp] theorem beginRun_writeStage : (s.beginRun).writeStage = s.writeStage := rfl
@[simp] theorem beginRun_raData : (s.beginRun).raData = s.raData := rfl
@[simp] theorem beginRun_raStatus : (s.beginRun).raStatus = s.raStatus := rfl
@[simp] theorem beginRun_interruptLine : (s.beginRun).interruptLine = s.interruptLine := rfl
@[simp] theorem beginRun_paletteDirty : (s.beginRun).paletteDirty = s.paletteDirty := rfl
@[simp] theorem beginRun_configDirty : (s.beginRun).configDirty = s.configDirty := rfl
@[simp] theorem beginRun_coprocessorRequested : (s.beginRun).coprocessorRequested = s.coprocessorRequested := rfl
@[simp] theorem beginRun_flashRequested : (s.beginRun).flashRequested = s.flashRequested := rfl
@[simp] theorem beginRun_unlocked : (s.beginRun).unlocked = s.unlocked := rfl
@[simp] theorem beginRun_unlockProgress : (s.beginRun).unlockProgress = s.unlockProgress := rfl
@[simp] theorem beginRun_flashMode : (s.beginRun).flashMode = s.flashMode := rfl
@[simp] theorem beginRun_coprocessorProgramCounter : (s.beginRun).coprocessorProgramCounter = s.coprocessorProgramCounter := rfl
@[simp] theorem beginRun_lineY : (s.beginRun).lineY = s.lineY := rfl
@[simp] theorem beginRun_pipeState : (s.beginRun).pipeState = s.pipeState := rfl
@[simp] theorem beginRun_lineBuf : (s.beginRun).lineBuf = s.lineBuf := rfl
@[simp] theorem beginRun_fillSel : (s.beginRun).fillSel = s.fillSel := rfl
@[simp] theorem beginRun_handedOff : (s.beginRun).handedOff = s.handedOff := rfl
@[simp] theorem beginRun_paletteLUT : (s.beginRun).paletteLUT = s.paletteLUT := rfl
@[simp] theorem beginRun_flashRunning : (s.beginRun).flashRunning = s.flashRunning := rfl
@[simp] theorem beginRun_flashRetry : (s.beginRun).flashRetry = s.flashRetry := rfl
@[simp] theorem beginRun_flashError : (s.beginRun).flashError = s.flashError := rfl
@[simp] theorem beginRun_flashPhase : (s.beginRun).flashPhase = s.flashPhase := rfl
@[simp] theorem beginRun_fwSessionActive : (s.beginRun).fwSessionActive = s.fwSessionActive := rfl
@[simp] theorem beginRun_sessionErased : (s.beginRun).sessionErased = s.sessionErased := rfl
@[simp] theorem beginRun_sessionProgrammed : (s.beginRun).sessionProgrammed = s.sessionProgrammed := rfl
@[simp] theorem beginRun_storage : (s.beginRun).storage = s.storage := rfl
@[simp] theorem beginRun_videoOut : (s.beginRun).videoOut = s.videoOut := rfl
@[simp] theorem beginRun_hostReads : (s.beginRun).hostReads = s.hostReads := rfl
@[simp] theorem beginRun_cfg : (s.beginRun).cfg = s.cfg := rfl
@[simp] theorem beginRun_configPage : (s.beginRun).configPage = s.configPage := rfl
@[simp] theorem beginRun_inputs : (s.beginRun).inputs = s.inputs := rfl
@[simp] theorem beginRun_strobes : (s.beginRun).strobes = s.strobes := rfl
@[simp] theorem beginRun_coprocScript : (s.beginRun).coprocScript = s.coprocScript := rfl
@[simp] theorem beginRun_draws : (s.beginRun).draws = s.draws := rfl
@[simp] theorem beginRun_x (j : RegIndex) : (s.beginRun).x j = s.x j := rfl
@[simp] theorem beginRun_statusSel : (s.beginRun).statusSel = s.statusSel := rfl
@[simp] theorem beginRun_st (j : StatusIndex) : (s.beginRun).st j = s.st j := rfl
@[simp] theorem beginRun_memRead (j : Nat) : (s.beginRun).memRead j = s.memRead j := rfl
@[simp] theorem beginRun_storRead (j len : Nat) : (s.beginRun).storRead j len = s.storRead j len := rfl

/-! ### openSession -/
@[simp] theorem openSession_regs (total : Nat) : (s.openSession total).regs = s.regs := rfl
@[simp] theorem openSession_status (total : Nat) : (s.openSession total).status = s.status := rfl
@[simp] theorem openSession_vram (total : Nat) : (s.openSession total).vram = s.vram := rfl
@[simp] theorem openSession_addressLatch (total : Nat) : (s.openSession total).addressLatch = s.addressLatch := rfl
@[simp] theorem openSession_addressAutoIncrement (total : Nat) : (s.openSession total).addressAutoIncrement = s.addressAutoIncrement := rfl
@[simp] theorem openSession_writeStage (total : Nat) : (s.openSession total).writeStage = s.writeStage := rfl
@[simp] theorem openSession_raData (total : Nat) : (s.openSession total).raData = s.raData := rfl
@[simp] theorem openSession_raStatus (total : Nat) : (s.openSession total).raStatus = s.raStatus := rfl
@[simp] theorem openSession_interruptLine (total : Nat) : (s.openSession total).interruptLine = s.interruptLine := rfl
@[simp] theorem openSession_paletteDirty (total : Nat) : (s.openSession total).paletteDirty = s.paletteDirty := rfl
@[simp] theorem openSession_configDirty (total : Nat) : (s.openSession total).configDirty = s.configDirty := rfl
@[simp] theorem openSession_coprocessorRequested (total : Nat) : (s.openSession total).coprocessorRequested = s.coprocessorRequested := rfl
@[simp] theorem openSession_flashRequested (total : Nat) : (s.openSession total).flashRequested = s.flashRequested := rfl
@[simp] theorem openSession_unlocked (total : Nat) : (s.openSession total).unlocked = s.unlocked := rfl
@[simp] theorem openSession_unlockProgress (total : Nat) : (s.openSession total).unlockProgress = s.unlockProgress := rfl
@[simp] theorem openSession_flashMode (total : Nat) : (s.openSession total).flashMode = s.flashMode := rfl
@[simp] theorem openSession_coprocessorProgramCounter (total : Nat) : (s.openSession total).coprocessorProgramCounter = s.coprocessorProgramCounter := rfl
@[simp] theorem openSession_protActive (total : Nat) : (s.openSession total).protActive = s.protActive := rfl
@[simp] theorem openSession_lineY (total : Nat) : (s.openSession total).lineY = s.lineY := rfl
@[simp] theorem openSession_pipeState (total : Nat) : (s.openSession total).pipeState = s.pipeState := rfl
@[simp] theorem openSession_lineBuf (total : Nat) : (s.openSession total).lineBuf = s.lineBuf := rfl
@[simp] theorem openSession_fillSel (total : Nat) : (s.openSession total).fillSel = s.fillSel := rfl
@[simp] theorem openSession_handedOff (total : Nat) : (s.openSession total).handedOff = s.handedOff := rfl
@[simp] theorem openSession_paletteLUT (total : Nat) : (s.openSession total).paletteLUT = s.paletteLUT := rfl
@[simp] theorem openSession_flashRunning (total : Nat) : (s.openSession total).flashRunning = s.flashRunning := rfl
@[simp] theorem openSession_flashRetry (total : Nat) : (s.openSession total).flashRetry = s.flashRetry := rfl
@[simp] theorem openSession_flashError (total : Nat) : (s.openSession total).flashError = s.flashError := rfl
@[simp] theorem openSession_flashPhase (total : Nat) : (s.openSession total).flashPhase = s.flashPhase := rfl
@[simp] theorem openSession_storage (total : Nat) : (s.openSession total).storage = s.storage := rfl
@[simp] theorem openSession_videoOut (total : Nat) : (s.openSession total).videoOut = s.videoOut := rfl
@[simp] theorem openSession_hostReads (total : Nat) : (s.openSession total).hostReads = s.hostReads := rfl
@[simp] theorem openSession_cfg (total : Nat) : (s.openSession total).cfg = s.cfg := rfl
@[simp] theorem openSession_configPage (total : Nat) : (s.openSession total).configPage = s.configPage := rfl
@[simp] theorem openSession_inputs (total : Nat) : (s.openSession total).inputs = s.inputs := rfl
@[simp] theorem openSession_strobes (total : Nat) : (s.openSession total).strobes = s.strobes := rfl
@[simp] theorem openSession_coprocScript (total : Nat) : (s.openSession total).coprocScript = s.coprocScript := rfl
@[simp] theorem openSession_coprocBegun (total : Nat) : (s.openSession total).coprocBegun = s.coprocBegun := rfl
@[simp] theorem openSession_draws (total : Nat) : (s.openSession total).draws = s.draws := rfl
@[simp] theorem openSession_x (total : Nat) (j : RegIndex) : (s.openSession total).x j = s.x j := rfl
@[simp] theorem openSession_statusSel (total : Nat) : (s.openSession total).statusSel = s.statusSel := rfl
@[simp] theorem openSession_st (total : Nat) (j : StatusIndex) : (s.openSession total).st j = s.st j := rfl
@[simp] theorem openSession_memRead (total : Nat) (j : Nat) : (s.openSession total).memRead j = s.memRead j := rfl
@[simp] theorem openSession_storRead (total : Nat) (j len : Nat) : (s.openSession total).storRead j len = s.storRead j len := rfl

/-! ### noteBlock -/
@[simp] theorem noteBlock_regs (target : Nat) : (s.noteBlock target).regs = s.regs := rfl
@[simp] theorem noteBlock_status (target : Nat) : (s.noteBlock target).status = s.status := rfl
@[simp] theorem noteBlock_vram (target : Nat) : (s.noteBlock target).vram = s.vram := rfl
@[simp] theorem noteBlock_addressLatch (target : Nat) : (s.noteBlock target).addressLatch = s.addressLatch := rfl
@[simp] theorem noteBlock_addressAutoIncrement (target : Nat) : (s.noteBlock target).addressAutoIncrement = s.addressAutoIncrement := rfl
@[simp] theorem noteBlock_writeStage (target : Nat) : (s.noteBlock target).writeStage = s.writeStage := rfl
@[simp] theorem noteBlock_raData (target : Nat) : (s.noteBlock target).raData = s.raData := rfl
@[simp] theorem noteBlock_raStatus (target : Nat) : (s.noteBlock target).raStatus = s.raStatus := rfl
@[simp] theorem noteBlock_interruptLine (target : Nat) : (s.noteBlock target).interruptLine = s.interruptLine := rfl
@[simp] theorem noteBlock_paletteDirty (target : Nat) : (s.noteBlock target).paletteDirty = s.paletteDirty := rfl
@[simp] theorem noteBlock_configDirty (target : Nat) : (s.noteBlock target).configDirty = s.configDirty := rfl
@[simp] theorem noteBlock_coprocessorRequested (target : Nat) : (s.noteBlock target).coprocessorRequested = s.coprocessorRequested := rfl
@[simp] theorem noteBlock_flashRequested (target : Nat) : (s.noteBlock target).flashRequested = s.flashRequested := rfl
@[simp] theorem noteBlock_unlocked (target : Nat) : (s.noteBlock target).unlocked = s.unlocked := rfl
@[simp] theorem noteBlock_unlockProgress (target : Nat) : (s.noteBlock target).unlockProgress = s.unlockProgress := rfl
@[simp] theorem noteBlock_flashMode (target : Nat) : (s.noteBlock target).flashMode = s.flashMode := rfl
@[simp] theorem noteBlock_coprocessorProgramCounter (target : Nat) : (s.noteBlock target).coprocessorProgramCounter = s.coprocessorProgramCounter := rfl
@[simp] theorem noteBlock_protActive (target : Nat) : (s.noteBlock target).protActive = s.protActive := rfl
@[simp] theorem noteBlock_lineY (target : Nat) : (s.noteBlock target).lineY = s.lineY := rfl
@[simp] theorem noteBlock_pipeState (target : Nat) : (s.noteBlock target).pipeState = s.pipeState := rfl
@[simp] theorem noteBlock_lineBuf (target : Nat) : (s.noteBlock target).lineBuf = s.lineBuf := rfl
@[simp] theorem noteBlock_fillSel (target : Nat) : (s.noteBlock target).fillSel = s.fillSel := rfl
@[simp] theorem noteBlock_handedOff (target : Nat) : (s.noteBlock target).handedOff = s.handedOff := rfl
@[simp] theorem noteBlock_paletteLUT (target : Nat) : (s.noteBlock target).paletteLUT = s.paletteLUT := rfl
@[simp] theorem noteBlock_flashRunning (target : Nat) : (s.noteBlock target).flashRunning = s.flashRunning := rfl
@[simp] theorem noteBlock_flashRetry (target : Nat) : (s.noteBlock target).flashRetry = s.flashRetry := rfl
@[simp] theorem noteBlock_flashError (target : Nat) : (s.noteBlock target).flashError = s.flashError := rfl
@[simp] theorem noteBlock_flashPhase (target : Nat) : (s.noteBlock target).flashPhase = s.flashPhase := rfl
@[simp] theorem noteBlock_fwSessionActive (target : Nat) : (s.noteBlock target).fwSessionActive = s.fwSessionActive := rfl
@[simp] theorem noteBlock_sessionErased (target : Nat) : (s.noteBlock target).sessionErased = s.sessionErased := rfl
@[simp] theorem noteBlock_storage (target : Nat) : (s.noteBlock target).storage = s.storage := rfl
@[simp] theorem noteBlock_videoOut (target : Nat) : (s.noteBlock target).videoOut = s.videoOut := rfl
@[simp] theorem noteBlock_hostReads (target : Nat) : (s.noteBlock target).hostReads = s.hostReads := rfl
@[simp] theorem noteBlock_cfg (target : Nat) : (s.noteBlock target).cfg = s.cfg := rfl
@[simp] theorem noteBlock_configPage (target : Nat) : (s.noteBlock target).configPage = s.configPage := rfl
@[simp] theorem noteBlock_inputs (target : Nat) : (s.noteBlock target).inputs = s.inputs := rfl
@[simp] theorem noteBlock_strobes (target : Nat) : (s.noteBlock target).strobes = s.strobes := rfl
@[simp] theorem noteBlock_coprocScript (target : Nat) : (s.noteBlock target).coprocScript = s.coprocScript := rfl
@[simp] theorem noteBlock_coprocBegun (target : Nat) : (s.noteBlock target).coprocBegun = s.coprocBegun := rfl
@[simp] theorem noteBlock_draws (target : Nat) : (s.noteBlock target).draws = s.draws := rfl
@[simp] theorem noteBlock_x (target : Nat) (j : RegIndex) : (s.noteBlock target).x j = s.x j := rfl
@[simp] theorem noteBlock_statusSel (target : Nat) : (s.noteBlock target).statusSel = s.statusSel := rfl
@[simp] theorem noteBlock_st (target : Nat) (j : StatusIndex) : (s.noteBlock target).st j = s.st j := rfl
@[simp] theorem noteBlock_memRead (target : Nat) (j : Nat) : (s.noteBlock target).memRead j = s.memRead j := rfl
@[simp] theorem noteBlock_storRead (target : Nat) (j len : Nat) : (s.noteBlock target).storRead j len = s.storRead j len := rfl

/-! ### closeSession -/
@[simp] theorem closeSession_regs : (s.closeSession).regs = s.regs := rfl
@[simp] theorem closeSession_status : (s.closeSession).status = s.status := rfl
@[simp] theorem closeSession_vram : (s.closeSession).vram = s.vram := rfl
@[simp] theorem closeSession_addressLatch : (s.closeSession).addressLatch = s.addressLatch := rfl
@[simp] theorem closeSession_addressAutoIncrement : (s.closeSession).addressAutoIncrement = s.addressAutoIncrement := rfl
@[simp] theorem closeSession_writeStage : (s.closeSession).writeStage = s.writeStage := rfl
@[simp] theorem closeSession_raData : (s.closeSession).raData = s.raData := rfl
@[simp] theorem closeSession_raStatus : (s.closeSession).raStatus = s.raStatus := rfl
@[simp] theorem closeSession_interruptLine : (s.closeSession).interruptLine = s.interruptLine := rfl
@[simp] theorem closeSession_paletteDirty : (s.closeSession).paletteDirty = s.paletteDirty := rfl
@[simp] theorem closeSession_configDirty : (s.closeSession).configDirty = s.configDirty := rfl
@[simp] theorem closeSession_coprocessorRequested : (s.closeSession).coprocessorRequested = s.coprocessorRequested := rfl
@[simp] theorem closeSession_flashRequested : (s.closeSession).flashRequested = s.flashRequested := rfl
@[simp] theorem closeSession_unlocked : (s.closeSession).unlocked = s.unlocked := rfl
@[simp] theorem closeSession_unlockProgress : (s.closeSession).unlockProgress = s.unlockProgress := rfl
@[simp] theorem closeSession_flashMode : (s.closeSession).flashMode = s.flashMode := rfl
@[simp] theorem closeSession_coprocessorProgramCounter : (s.closeSession).coprocessorProgramCounter = s.coprocessorProgramCounter := rfl
@[simp] theorem closeSession_protActive : (s.closeSession).protActive = s.protActive := rfl
@[simp] theorem closeSession_lineY : (s.closeSession).lineY = s.lineY := rfl
@[simp] theorem closeSession_pipeState : (s.closeSession).pipeState = s.pipeState := rfl
@[simp] theorem closeSession_lineBuf : (s.closeSession).lineBuf = s.lineBuf := rfl
@[simp] theorem closeSession_fillSel : (s.closeSession).fillSel = s.fillSel := rfl
@[simp] theorem closeSession_handedOff : (s.closeSession).handedOff = s.handedOff := rfl
@[simp] theorem closeSession_paletteLUT : (s.closeSession).paletteLUT = s.paletteLUT := rfl
@[simp] theorem closeSession_flashRunning : (s.closeSession).flashRunning = s.flashRunning := rfl
@[simp] theorem closeSession_flashRetry : (s.closeSession).flashRetry = s.flashRetry := rfl
@[simp] theorem closeSession_flashError : (s.closeSession).flashError = s.flashError := rfl
@[simp] theorem closeSession_flashPhase : (s.closeSession).flashPhase = s.flashPhase := rfl
@[simp] theorem closeSession_storage : (s.closeSession).storage = s.storage := rfl
@[simp] theorem closeSession_videoOut : (s.closeSession).videoOut = s.videoOut := rfl
@[simp] theorem closeSession_hostReads : (s.closeSession).hostReads = s.hostReads := rfl
@[simp] theorem closeSession_cfg : (s.closeSession).cfg = s.cfg := rfl
@[simp] theorem closeSession_configPage : (s.closeSession).configPage = s.configPage := rfl
@[simp] theorem closeSession_inputs : (s.closeSession).inputs = s.inputs := rfl
@[simp] theorem closeSession_strobes : (s.closeSession).strobes = s.strobes := rfl
@[simp] theorem closeSession_coprocScript : (s.closeSession).coprocScript = s.coprocScript := rfl
@[simp] theorem closeSession_coprocBegun : (s.closeSession).coprocBegun = s.coprocBegun := rfl
@[simp] theorem closeSession_draws : (s.closeSession).draws = s.draws := rfl
@[simp] theorem closeSession_x (j : RegIndex) : (s.closeSession).x j = s.x j := rfl
@[simp] theorem closeSession_statusSel : (s.closeSession).statusSel = s.statusSel := rfl
@[simp] theorem closeSession_st (j : StatusIndex) : (s.closeSession).st j = s.st j := rfl
@[simp] theorem closeSession_memRead (j : Nat) : (s.closeSession).memRead j = s.memRead j := rfl
@[simp] theorem closeSession_storRead (j len : Nat) : (s.closeSession).storRead j len = s.storRead j len := rfl

end Sys2Proof.Machine.State
end

