-- ==== Sys2Proof/Laws/Ops.lean ====
section
/-! SUPPORT. What each shared operation changes, said once: the accessors after a write, and for every operation
the values of the fields it writes. What it leaves is in Laws/State.lean. -/

namespace Sys2Proof.Machine

/-! ## The two register files -/

theorem State.x_setX (s : State) (i j : RegIndex) (v : Byte) : (s.setX i v).x j = if j = i then v else s.x j := by
  unfold State.x State.setX
  by_cases h : j = i
  · subst h; simp
  · have h' : ¬ i.toNat = j.toNat := fun e => h (BitVec.eq_of_toNat_eq e.symm)
    rw [if_neg h]
    exact Vector.getElem_set_ne i.isLt j.isLt h'

theorem State.st_setSt (s : State) (i j : StatusIndex) (v : Byte) :
    (s.setSt i v).st j = if j = i then v else s.st j := by
  unfold State.st State.setSt
  by_cases h : j = i
  · subst h; simp
  · have h' : ¬ i.toNat = j.toNat := fun e => h (BitVec.eq_of_toNat_eq e.symm)
    rw [if_neg h]
    exact Vector.getElem_set_ne i.isLt j.isLt h'

@[simp] theorem State.x_setX_self (s : State) (i : RegIndex) (v : Byte) : (s.setX i v).x i = v := by
  rw [State.x_setX, if_pos rfl]

@[simp] theorem State.st_setSt_self (s : State) (i : StatusIndex) (v : Byte) : (s.setSt i v).st i = v := by
  rw [State.st_setSt, if_pos rfl]

/-- Two register files are the same where they read the same. -/
theorem State.regs_ext {s t : State} (h : ∀ j, s.x j = t.x j) : s.regs = t.regs := by
  apply Vector.ext
  intro n hn
  have := h (BitVec.ofNat 6 n)
  simpa [State.x, Nat.mod_eq_of_lt hn] using this

/-- Two status files are the same where they read the same. -/
theorem State.status_ext {s t : State} (h : ∀ j, s.st j = t.st j) : s.status = t.status := by
  apply Vector.ext
  intro n hn
  have := h (BitVec.ofNat 8 n)
  simpa [State.st, Nat.mod_eq_of_lt hn] using this

/-! ## Video memory -/

theorem vramSize_pos (c : Config) : 0 < vramSize c := Nat.two_pow_pos c.vramBits

theorem erasePage_pos (c : Config) : 0 < erasePage c := Nat.two_pow_pos c.erasePageBits

theorem State.memRead_memWrite (s : State) (a b : Nat) (v : Byte) :
    (s.memWrite a v).memRead b = if b % vramSize s.cfg = a % vramSize s.cfg then v else s.memRead b := by
  simp only [State.memRead, State.memWrite, Mem.read_write]

theorem State.memRead_congr {s t : State} (hv : s.vram = t.vram) (hc : s.cfg = t.cfg) (a : Nat) :
    s.memRead a = t.memRead a := by
  simp only [State.memRead, hv, hc]

theorem State.memRead_mod (s : State) (a : Nat) : s.memRead (a % vramSize s.cfg) = s.memRead a := by
  simp [State.memRead]

/-! ## The latches -/

theorem State.updateInt_line (s : State) : s.updateInt.interruptLine = interruptLevel s.cfg (s.st 0) (s.x s.cfg.ieReg) :=
  rfl

theorem State.rearmData_data (s : State) : s.rearmData.raData = s.memRead s.addressLatch := rfl

theorem State.rearmStatus_latch (s : State) : s.rearmStatus.raStatus = s.st s.statusSel := rfl

/-- All that `rearmAll` does: the three latches are made to agree with what they follow. -/
theorem State.rearmAll_eq (s : State) :
    s.rearmAll = { s with
      interruptLine := interruptLevel s.cfg (s.st 0) (s.x s.cfg.ieReg)
      raData := s.memRead s.addressLatch
      raStatus := s.st s.statusSel } := rfl

/-- After `rearmAll` the three latches agree (R46 I-B, I-C, I-D). -/
theorem State.rearmAll_agrees (s : State) :
    s.rearmAll.lineAgrees ∧ s.rearmAll.statusLatched ∧ s.rearmAll.dataLatched := ⟨rfl, rfl, rfl⟩

/-- The latches of the state before do not matter to `rearmAll`. -/
theorem State.rearmAll_forgets (s : State) (l : Bool) (d v : Byte) :
    ({ s with interruptLine := l, raData := d, raStatus := v } : State).rearmAll = s.rearmAll := rfl

theorem State.rearmAll_idem (s : State) : s.rearmAll.rearmAll = s.rearmAll :=
  (congrArg State.rearmAll (State.rearmAll_eq s)).trans (State.rearmAll_forgets s _ _ _)

theorem State.setLatchLow_latch (s : State) (b : Byte) :
    (s.setLatchLow b).addressLatch = s.addressLatch - s.addressLatch % 256 + b.toNat := rfl

/-- The byte put into the low half is the byte read from it. -/
@[simp] theorem State.latchLow_setLatchLow (s : State) (b : Byte) : (s.setLatchLow b).latchLow = b := by
  unfold State.latchLow
  rw [State.setLatchLow_latch]
  apply BitVec.eq_of_toNat_eq
  rw [BitVec.toNat_ofNat]
  have := b.isLt
  omega

/-- Putting back the low half changes nothing. -/
@[simp] theorem State.setLatchLow_latchLow (s : State) : s.setLatchLow s.latchLow = s := by
  have h : s.addressLatch - s.addressLatch % 256 + s.latchLow.toNat = s.addressLatch := by
    have : s.latchLow.toNat = s.addressLatch % 256 := BitVec.toNat_ofNat ..
    have := Nat.mod_le s.addressLatch 256
    omega
  unfold State.setLatchLow
  rw [h]

theorem State.setLatchLow_lt (s : State) (b : Byte) {n : Nat} (hn : 8 ≤ n) (h : s.addressLatch < 2 ^ n) :
    (s.setLatchLow b).addressLatch < 2 ^ n := by
  rw [State.setLatchLow_latch]
  have hb := b.isLt
  have hd : (2 : Nat) ^ n = 256 * 2 ^ (n - 8) := by
    rw [show (256 : Nat) = 2 ^ 8 from rfl, ← Nat.pow_add]; congr 1; omega
  have h1 : s.addressLatch / 256 < 2 ^ (n - 8) := by
    rw [Nat.div_lt_iff_lt_mul (by decide)]; omega
  omega

theorem State.advanceLatch_latch (s : State) : s.advanceLatch.addressLatch = (s.addressLatch + 1) % vramSize s.cfg := rfl

/-- The formula of R33, as the statements write it. -/
theorem State.interruptLevel_eq (s : State) :
    interruptLevel s.cfg (s.st 0) (s.x s.cfg.ieReg) = s.pendingAndEnabled := by
  unfold interruptLevel State.pendingAndEnabled
  by_cases h1 : s.st 0 &&& s.cfg.stInt = 0 <;> by_cases h2 : s.x s.cfg.ieReg &&& s.cfg.ieMask = 0 <;> simp_all

/-- A whole address pair, closed (R129, R130). -/
theorem State.setAddr_closed (s : State) (addr : BitVec 14) (m : BitVec 1) :
    (({ s with writeStage := 0 } : State).setAddr addr m).rearmAll = { s with
      addressLatch := addr.toNat
      addressAutoIncrement := m
      writeStage := 0
      interruptLine := s.pendingAndEnabled
      raData := s.memRead addr.toNat
      raStatus := s.st s.statusSel } := by
  rw [← State.interruptLevel_eq]; rfl

/-- A first byte, closed (R128). -/
theorem State.waFirstCycle_eq (s : State) (b : Byte) :
    s.waFirstCycle b = { s with
      addressLatch := s.addressLatch - s.addressLatch % 256 + b.toNat
      writeStage := 1
      interruptLine := s.pendingAndEnabled
      raData := s.memRead (s.addressLatch - s.addressLatch % 256 + b.toNat)
      raStatus := s.st s.statusSel } := by
  rw [← State.interruptLevel_eq]; rfl

/-- A second byte in the address form (R129). -/
theorem State.waSecondCycle_address (s : State) (b : Byte) (h : b.getLsbD 7 = false) :
    s.waSecondCycle b =
      (({ s with writeStage := 0 } : State).setAddr (pairAddress (b.extractLsb' 0 6) s.latchLow)
        (b.extractLsb' 6 1)).rearmAll := by
  unfold State.waSecondCycle State.pairEffect
  rw [h]; rfl

/-- A second byte in the register form (R129). -/
theorem State.waSecondCycle_register (s : State) (b : Byte) (h : b.getLsbD 7 = true) :
    s.waSecondCycle b =
      (({ s with writeStage := 0 } : State).regWrite (b.extractLsb' 0 6) s.latchLow).rearmAll := by
  unfold State.waSecondCycle State.pairEffect
  rw [h]; rfl

/-! ## Masks -/

/-- Setting a mask's bits leaves a disjoint mask's. -/
theorem and_or_of_disjoint {v m n : Byte} (h : n &&& m = 0) : (v ||| n) &&& m = v &&& m := by
  rw [BitVec.and_or_distrib_right, h]; exact BitVec.or_zero

/-- Clearing a mask's bits leaves a disjoint mask's. -/
theorem and_not_of_disjoint {v m n : Byte} (h : n &&& m = 0) : (v &&& ~~~n) &&& m = v &&& m := by
  apply BitVec.eq_of_getLsbD_eq
  intro i hi
  have := congrArg (fun b => b.getLsbD i) h
  simp only [BitVec.getLsbD_and, BitVec.getLsbD_not, hi, decide_true, Bool.true_and] at this ⊢
  cases hm : m.getLsbD i <;> cases hn : n.getLsbD i <;> simp_all

/-- A mask cleared reads 0 under the mask. -/
theorem and_not_self_mask (v m : Byte) : (v &&& ~~~m) &&& m = 0 := by
  rw [BitVec.and_assoc, BitVec.and_comm (~~~m), BitVec.and_not_self]; exact BitVec.and_zero

/-- A mask set reads whole under the mask. -/
theorem or_and_self_mask (v m : Byte) : (v ||| m) &&& m = m := by
  apply BitVec.eq_of_getLsbD_eq
  intro i _
  simp only [BitVec.getLsbD_and, BitVec.getLsbD_or]
  cases v.getLsbD i <;> cases m.getLsbD i <;> rfl

theorem and_eq_zero_comm {m n : Byte} (h : m &&& n = 0) : n &&& m = 0 := by rwa [BitVec.and_comm]

/-! ## Engine and flash status -/

theorem State.st_packFlash (s : State) (j : StatusIndex) :
    s.packFlash.st j =
      if j = s.cfg.srFlash then flashPack s.flashRunning s.flashRetry s.flashError s.flashPhase else s.st j :=
  State.st_setSt ..

theorem State.packFlash_packed (s : State) : s.packFlash.flashPacked := by
  unfold State.flashPacked
  rw [State.packFlash_cfg, State.st_packFlash, if_pos rfl]
  rfl

theorem State.st_setFlashPhase (s : State) (p : FlashPhase) (j : StatusIndex) :
    (s.setFlashPhase p).st j =
      if j = s.cfg.srFlash then flashPack s.flashRunning s.flashRetry s.flashError p else s.st j :=
  State.st_packFlash { s with flashPhase := p } j

theorem State.st_setFlashRetry (s : State) (n : BitVec 2) (j : StatusIndex) :
    (s.setFlashRetry n).st j =
      if j = s.cfg.srFlash then flashPack s.flashRunning n s.flashError s.flashPhase else s.st j :=
  State.st_packFlash { s with flashRetry := n } j

theorem State.st_raiseFlashError (s : State) (e : FlashError) (j : StatusIndex) :
    (s.raiseFlashError e).st j =
      if j = s.cfg.srFlash then flashPack s.flashRunning s.flashRetry e s.flashPhase else s.st j :=
  State.st_packFlash { s with flashError := e } j

theorem State.setFlashPhase_phase (s : State) (p : FlashPhase) : (s.setFlashPhase p).flashPhase = p := rfl
theorem State.setFlashRetry_retry (s : State) (n : BitVec 2) : (s.setFlashRetry n).flashRetry = n := rfl
theorem State.raiseFlashError_error (s : State) (e : FlashError) : (s.raiseFlashError e).flashError = e := rfl
theorem State.setFlashPhase_latch (s : State) (p : FlashPhase) : (s.setFlashPhase p).statusLatched := rfl
theorem State.setFlashRetry_latch (s : State) (n : BitVec 2) : (s.setFlashRetry n).statusLatched := rfl
theorem State.raiseFlashError_latch (s : State) (e : FlashError) : (s.raiseFlashError e).statusLatched := rfl

theorem State.st_flashReturn (s : State) (j : StatusIndex) :
    s.flashReturn.st j =
      if j = s.cfg.srBusy then
        (if s.cfg.srBusy = s.cfg.srFlash then flashPack false s.flashRetry s.flashError s.flashPhase
         else s.st s.cfg.srBusy) &&& ~~~s.cfg.flashingMask
      else if j = s.cfg.srFlash then flashPack false s.flashRetry s.flashError s.flashPhase
      else s.st j := by
  have h : ∀ i, (({ s with flashRunning := false } : State).packFlash).st i =
      if i = s.cfg.srFlash then flashPack false s.flashRetry s.flashError s.flashPhase else s.st i :=
    fun i => State.st_packFlash { s with flashRunning := false } i
  show ((({ s with flashRunning := false } : State).packFlash).setSt s.cfg.srBusy
    ((({ s with flashRunning := false } : State).packFlash).st s.cfg.srBusy &&& ~~~s.cfg.flashingMask)).st j = _
  rw [State.st_setSt, h, h]

theorem State.flashReturn_running (s : State) : s.flashReturn.flashRunning = false := rfl
theorem State.flashReturn_requested (s : State) : s.flashReturn.flashRequested = false := rfl
theorem State.flashReturn_latch (s : State) : s.flashReturn.statusLatched := rfl

theorem State.st_coprocTriggerOp (s : State) (j : StatusIndex) :
    s.coprocTriggerOp.st j = if j = s.cfg.srBusy then s.st s.cfg.srBusy ||| s.cfg.coprocBusyMask else s.st j :=
  State.st_setSt ..

theorem State.coprocTriggerOp_requested (s : State) : s.coprocTriggerOp.coprocessorRequested = true := rfl

theorem State.st_coprocFinish (s : State) (j : StatusIndex) :
    s.coprocFinish.st j = if j = s.cfg.srBusy then s.st s.cfg.srBusy &&& ~~~s.cfg.coprocBusyMask else s.st j :=
  State.st_setSt ..

theorem State.coprocFinish_requested (s : State) : s.coprocFinish.coprocessorRequested = false := rfl
theorem State.coprocFinish_latch (s : State) : s.coprocFinish.statusLatched := rfl

/-! ## Pipeline status -/

theorem State.st_mergeSpriteFlags (s : State) (f : SpriteFlags) (j : StatusIndex) :
    (s.mergeSpriteFlags f).st j = if j = 0 then mergeSprites s.cfg f (s.st 0) else s.st j :=
  State.st_setSt ..

theorem State.mergeSpriteFlags_latch (s : State) (f : SpriteFlags) : (s.mergeSpriteFlags f).statusLatched := rfl

theorem State.st_updateLineStatus (s : State) (y : Nat) (r : Region) (j : StatusIndex) :
    (s.updateLineStatus y r).st j =
      if j = s.cfg.srBlank then
        blankByte s.cfg r (if s.cfg.srBlank = s.cfg.srScanline then scanlineByte s.cfg y else s.st s.cfg.srBlank)
      else if j = s.cfg.srScanline then scanlineByte s.cfg y
      else s.st j := by
  show ((s.setSt s.cfg.srScanline (scanlineByte s.cfg y)).setSt s.cfg.srBlank (blankByte s.cfg r
    ((s.setSt s.cfg.srScanline (scanlineByte s.cfg y)).st s.cfg.srBlank))).st j = _
  rw [State.st_setSt, State.st_setSt, State.st_setSt]

theorem State.updateLineStatus_latch (s : State) (y : Nat) (r : Region) : (s.updateLineStatus y r).statusLatched := rfl

theorem State.st_raiseEndOfFrame (s : State) (j : StatusIndex) :
    s.raiseEndOfFrame.st j = if j = 0 then s.st 0 ||| s.cfg.stInt else s.st j :=
  State.st_setSt ..

theorem State.raiseEndOfFrame_agrees (s : State) : s.raiseEndOfFrame.lineAgrees ∧ s.raiseEndOfFrame.statusLatched :=
  ⟨rfl, rfl⟩

theorem State.st_sampleTemperature (s : State) (j : StatusIndex) :
    s.sampleTemperature.st j = if j = s.cfg.srTemp then Config.tempSample s.draws else s.st j :=
  State.st_setSt ..

theorem State.sampleTemperature_latch (s : State) : s.sampleTemperature.statusLatched := rfl

theorem State.st_frameTrigger (s : State) (j : StatusIndex) :
    s.frameTrigger.st j = if j = s.cfg.srBusy then s.st s.cfg.srBusy ||| s.cfg.coprocBusyMask else s.st j :=
  State.st_setSt ..

theorem State.frameTrigger_latch (s : State) : s.frameTrigger.statusLatched := rfl

theorem State.st_statusClearOnRead (s : State) (i j : StatusIndex) :
    (s.statusClearOnRead i).st j = if j = i then clearOnRead s.cfg i (s.st i) else s.st j :=
  State.st_setSt ..

/-! ## Register writes -/

theorem State.flashAccept_st (s : State) (a : Byte) (j : StatusIndex) :
    (s.flashAccept a).st j = if j = s.cfg.srBusy then s.st s.cfg.srBusy ||| s.cfg.flashingMask else s.st j :=
  State.st_setSt ..

/-- A dropped trigger records `BUSY` and changes nothing else (R150). -/
theorem State.flashTriggerOp_dropped (s : State) (a : Byte) (h : s.flashRequested = true) :
    s.flashTriggerOp a = ({ s with flashError := .busy } : State).packFlash := by
  unfold State.flashTriggerOp; rw [if_pos h]

/-- An accepted trigger (R150). -/
theorem State.flashTriggerOp_accepted (s : State) (a : Byte) (h : s.flashRequested = false) :
    s.flashTriggerOp a = (s.flashAccept a).packFlash := by
  unfold State.flashTriggerOp; rw [if_neg (by simp [h])]

/-- A field that neither the request nor the status nor the flash fields hold is as before a flash trigger. -/
theorem State.flashTriggerOp_frame (s : State) (a : Byte) :
    s.flashTriggerOp a = { s with
      status := (s.flashTriggerOp a).status
      flashMode := (s.flashTriggerOp a).flashMode
      flashRequested := (s.flashTriggerOp a).flashRequested
      flashRunning := (s.flashTriggerOp a).flashRunning
      flashRetry := (s.flashTriggerOp a).flashRetry
      flashError := (s.flashTriggerOp a).flashError
      flashPhase := (s.flashTriggerOp a).flashPhase } := by
  unfold State.flashTriggerOp
  split <;> rfl

/-- What unlock tracking leaves and what it sets (R146). -/
theorem State.unlockTrack_eq (s : State) (h : RegIndex) (a : Byte) :
    s.unlockTrack h a = { s with
      unlocked := (s.unlockTrack h a).unlocked
      unlockProgress := (s.unlockTrack h a).unlockProgress } := by
  unfold State.unlockTrack
  split
  · rfl
  · split <;> rfl

theorem State.unlockTrack_unlocked (s : State) (h : RegIndex) (a : Byte) (hu : s.unlocked = true) :
    s.unlockTrack h a = s := by
  unfold State.unlockTrack; rw [if_pos hu]

theorem State.coprocPcEffect_eq (s : State) (i : RegIndex) (a : Byte) :
    s.coprocPcEffect i a =
      { s with coprocessorProgramCounter := (s.coprocPcEffect i a).coprocessorProgramCounter } := by
  unfold State.coprocPcEffect
  split
  · rfl
  · split <;> rfl

theorem State.coprocEffect_eq (s : State) (i : RegIndex) (a : Byte) :
    s.coprocEffect i a = { s with
      coprocessorRequested := (s.coprocEffect i a).coprocessorRequested
      status := (s.coprocEffect i a).status } := by
  unfold State.coprocEffect
  split <;> rfl

theorem State.flashEffect_frame (s : State) (i : RegIndex) (a : Byte) :
    s.flashEffect i a = { s with
      status := (s.flashEffect i a).status
      flashMode := (s.flashEffect i a).flashMode
      flashRequested := (s.flashEffect i a).flashRequested
      flashRunning := (s.flashEffect i a).flashRunning
      flashRetry := (s.flashEffect i a).flashRetry
      flashError := (s.flashEffect i a).flashError
      flashPhase := (s.flashEffect i a).flashPhase } := by
  unfold State.flashEffect
  split
  · exact State.flashTriggerOp_frame s a
  · rfl

/-- A register write that is not the reset command ends without it (R142 row 7). -/
theorem State.resetEffect_of_not (s : State) (i : RegIndex) (a : Byte) (h : isResetWrite s.cfg i a = false) :
    s.resetEffect i a = s := by
  unfold State.resetEffect; rw [h]; rfl

/-! ## Reset -/

/-- `ConfigApply` changes control registers and video memory only (R284). -/
theorem State.configApply_frame (s : State) : ∃ r m, s.configApply = { s with regs := r, vram := m } := by
  have hreg : ∀ (l : List (RegIndex × Byte)) (u : State), ∃ r, l.foldl (fun u e => u.setX e.1 e.2) u = { u with regs := r } := by
    intro l
    induction l with
    | nil => intro u; exact ⟨u.regs, rfl⟩
    | cons e l ih =>
      intro u
      obtain ⟨r, hr⟩ := ih (u.setX e.1 e.2)
      exact ⟨r, by rw [List.foldl_cons, hr]; rfl⟩
  have hmem : ∀ (l : List (Nat × Byte)) (u : State), ∃ m, l.foldl (fun u e => u.memWrite e.1 e.2) u = { u with vram := m } := by
    intro l
    induction l with
    | nil => intro u; exact ⟨u.vram, rfl⟩
    | cons e l ih =>
      intro u
      obtain ⟨m, hm⟩ := ih (u.memWrite e.1 e.2)
      exact ⟨m, by rw [List.foldl_cons, hm]; rfl⟩
  unfold State.configApply
  split
  · exact ⟨s.regs, s.vram, rfl⟩
  · rename_i page _
    obtain ⟨r, hr⟩ := hreg page.regWrites s
    obtain ⟨m, hm⟩ := hmem page.vramWrites (page.regWrites.foldl (fun u e => u.setX e.1 e.2) s)
    exact ⟨r, m, by dsimp only; rw [hm, hr]⟩

theorem State.configApply_none (s : State) (h : s.configPage = none) : s.configApply = s := by
  unfold State.configApply; rw [h]

/-- The whole of `Reset()` (R280) but for what `ConfigApply` puts into the registers and video memory. -/
theorem State.resetOp_eq (s : State) :
    ∃ r m, s.resetFields.configApply = { s.resetFields with regs := r, vram := m } ∧
      s.resetOp = ({ s.resetFields with regs := r, vram := m } : State).rearmAll := by
  obtain ⟨r, m, h⟩ := s.resetFields.configApply_frame
  exact ⟨r, m, h, congrArg State.rearmAll h⟩

/-- Reset leaves these: storage (R283) and what belongs to the model or to its traces. -/
theorem State.resetOp_keeps (s : State) :
    s.resetOp.storage = s.storage ∧ s.resetOp.videoOut = s.videoOut ∧ s.resetOp.hostReads = s.hostReads ∧
    s.resetOp.cfg = s.cfg ∧ s.resetOp.configPage = s.configPage ∧ s.resetOp.inputs = s.inputs ∧
    s.resetOp.strobes = s.strobes ∧ s.resetOp.coprocScript = s.coprocScript := by
  obtain ⟨r, m, _, h⟩ := s.resetOp_eq
  rw [h]
  exact ⟨rfl, rfl, rfl, rfl, rfl, rfl, rfl, rfl⟩

theorem State.resetOp_agrees (s : State) : s.resetOp.lineAgrees ∧ s.resetOp.statusLatched ∧ s.resetOp.dataLatched :=
  State.rearmAll_agrees _

/-- Unlock tracking looks at the lock alone. -/
theorem State.unlockTrack_congr {s u : State} (hc : u.cfg = s.cfg) (hu : u.unlocked = s.unlocked)
    (hp : u.unlockProgress = s.unlockProgress) (h : RegIndex) (a : Byte) :
    u.unlockTrack h a = { u with
      unlocked := (s.unlockTrack h a).unlocked
      unlockProgress := (s.unlockTrack h a).unlockProgress } := by
  cases u; cases s
  dsimp only at hc hu hp
  subst hc hu hp
  unfold State.unlockTrack
  dsimp only
  split
  · rfl
  · split <;> rfl

/-- The program-counter load looks at the counter alone. -/
theorem State.coprocPcEffect_congr {s u : State} (hc : u.cfg = s.cfg)
    (hp : u.coprocessorProgramCounter = s.coprocessorProgramCounter) (i : RegIndex) (a : Byte) :
    u.coprocPcEffect i a =
      { u with coprocessorProgramCounter := (s.coprocPcEffect i a).coprocessorProgramCounter } := by
  cases u; cases s
  dsimp only at hc hp
  subst hc hp
  unfold State.coprocPcEffect
  dsimp only
  split
  · rfl
  · split <;> rfl

/-- The coprocessor trigger looks at the request and the status alone. -/
theorem State.coprocEffect_congr {s u : State} (hc : u.cfg = s.cfg) (hs : u.status = s.status)
    (hr : u.coprocessorRequested = s.coprocessorRequested) (i : RegIndex) (a : Byte) :
    u.coprocEffect i a = { u with
      coprocessorRequested := (s.coprocEffect i a).coprocessorRequested
      status := (s.coprocEffect i a).status } := by
  cases u; cases s
  dsimp only at hc hs hr
  subst hc hs hr
  unfold State.coprocEffect
  dsimp only
  split <;> rfl

/-- The flash trigger looks at the request, the status and the flash fields alone. -/
theorem State.flashTriggerOp_congr {s u : State} (hc : u.cfg = s.cfg)
    (hr : u.flashRequested = s.flashRequested) (hm : u.flashMode = s.flashMode) (hru : u.flashRunning = s.flashRunning)
    (hre : u.flashRetry = s.flashRetry) (hp : u.flashPhase = s.flashPhase) (a : Byte) :
    u.flashTriggerOp a = { u with
      status := (u.flashTriggerOp a).status
      flashMode := (s.flashTriggerOp a).flashMode
      flashRequested := (s.flashTriggerOp a).flashRequested
      flashRunning := (s.flashTriggerOp a).flashRunning
      flashRetry := (s.flashTriggerOp a).flashRetry
      flashError := (s.flashTriggerOp a).flashError
      flashPhase := (s.flashTriggerOp a).flashPhase } := by
  cases u; cases s
  dsimp only at hc hr hm hru hre hp
  subst hc hr hm hru hre hp
  unfold State.flashTriggerOp
  dsimp only
  split <;> rfl

theorem State.flashEffect_congr {s u : State} (hc : u.cfg = s.cfg)
    (hr : u.flashRequested = s.flashRequested) (hm : u.flashMode = s.flashMode) (hru : u.flashRunning = s.flashRunning)
    (hre : u.flashRetry = s.flashRetry) (he : u.flashError = s.flashError) (hp : u.flashPhase = s.flashPhase)
    (i : RegIndex) (a : Byte) :
    u.flashEffect i a = { u with
      status := (u.flashEffect i a).status
      flashMode := (s.flashEffect i a).flashMode
      flashRequested := (s.flashEffect i a).flashRequested
      flashRunning := (s.flashEffect i a).flashRunning
      flashRetry := (s.flashEffect i a).flashRetry
      flashError := (s.flashEffect i a).flashError
      flashPhase := (s.flashEffect i a).flashPhase } := by
  cases u; cases s
  dsimp only at hc hr hm hru hre he hp
  subst hc hr hm hru hre he hp
  unfold State.flashEffect State.flashTriggerOp
  dsimp only
  split
  · split <;> rfl
  · rfl

/-- The status after a flash trigger, from the status before it and the flash fields after it. -/
theorem State.flashEffect_status {s u : State} (hc : u.cfg = s.cfg) (hs : u.status = s.status)
    (hr : u.flashRequested = s.flashRequested) (hru : u.flashRunning = s.flashRunning)
    (hre : u.flashRetry = s.flashRetry) (hp : u.flashPhase = s.flashPhase)
    (i : RegIndex) (a : Byte) : (u.flashEffect i a).status = (s.flashEffect i a).status := by
  cases u; cases s
  dsimp only at hc hs hr hru hre hp
  subst hc hs hr hru hre hp
  unfold State.flashEffect State.flashTriggerOp
  dsimp only
  split
  · split <;> rfl
  · rfl

/-- The effects of a register write before row 7 of R142. -/
def State.regEffects (s : State) (h : RegIndex) (a : Byte) : State :=
  (((((s.setX (s.effectiveIndex h) a).unlockTrack h a).dirtyEffects (s.effectiveIndex h)).coprocPcEffect
    (s.effectiveIndex h) a).coprocEffect (s.effectiveIndex h) a).flashEffect (s.effectiveIndex h) a

/-- All that the effects of a register write (R140, R142) do before the reset command. -/
theorem State.regEffects_eq (s : State) (h : RegIndex) (a : Byte) :
    s.regEffects h a = { s with
      regs := (s.setX (s.effectiveIndex h) a).regs
      unlocked := (s.unlockTrack h a).unlocked
      unlockProgress := (s.unlockTrack h a).unlockProgress
      paletteDirty := s.paletteDirty || s.cfg.palDirtyRegs.contains (s.effectiveIndex h)
      configDirty := s.configDirty || s.cfg.cfgDirtyRegs.contains (s.effectiveIndex h)
      coprocessorProgramCounter := (s.coprocPcEffect (s.effectiveIndex h) a).coprocessorProgramCounter
      coprocessorRequested := (s.coprocEffect (s.effectiveIndex h) a).coprocessorRequested
      status := ((s.coprocEffect (s.effectiveIndex h) a).flashEffect (s.effectiveIndex h) a).status
      flashMode := (s.flashEffect (s.effectiveIndex h) a).flashMode
      flashRequested := (s.flashEffect (s.effectiveIndex h) a).flashRequested
      flashRunning := (s.flashEffect (s.effectiveIndex h) a).flashRunning
      flashRetry := (s.flashEffect (s.effectiveIndex h) a).flashRetry
      flashError := (s.flashEffect (s.effectiveIndex h) a).flashError
      flashPhase := (s.flashEffect (s.effectiveIndex h) a).flashPhase } := by
  unfold State.regEffects
  generalize s.effectiveIndex h = i
  have hco := s.coprocEffect_eq i a
  obtain ⟨u, hu⟩ : ∃ u : State, u = { s with
      regs := (s.setX i a).regs
      unlocked := (s.unlockTrack h a).unlocked
      unlockProgress := (s.unlockTrack h a).unlockProgress
      paletteDirty := s.paletteDirty || s.cfg.palDirtyRegs.contains i
      configDirty := s.configDirty || s.cfg.cfgDirtyRegs.contains i
      coprocessorProgramCounter := (s.coprocPcEffect i a).coprocessorProgramCounter
      coprocessorRequested := (s.coprocEffect i a).coprocessorRequested
      status := (s.coprocEffect i a).status } := ⟨_, rfl⟩
  obtain ⟨v, hv⟩ : ∃ v : State, v = { s with
      regs := (s.setX i a).regs
      unlocked := (s.unlockTrack h a).unlocked
      unlockProgress := (s.unlockTrack h a).unlockProgress
      paletteDirty := s.paletteDirty || s.cfg.palDirtyRegs.contains i
      configDirty := s.configDirty || s.cfg.cfgDirtyRegs.contains i } := ⟨_, rfl⟩
  obtain ⟨w, hw⟩ : ∃ w : State, w =
      { v with coprocessorProgramCounter := (s.coprocPcEffect i a).coprocessorProgramCounter } := ⟨_, rfl⟩
  have e1 : ((s.setX i a).unlockTrack h a).dirtyEffects i = v := by
    rw [State.unlockTrack_congr (s := s) (u := s.setX i a) rfl rfl rfl h a, hv]; rfl
  have e2 : v.coprocPcEffect i a = w := by
    rw [State.coprocPcEffect_congr (s := s) (u := v) (by rw [hv]) (by rw [hv]) i a, hw]
  have e3 : w.coprocEffect i a = u := by
    rw [State.coprocEffect_congr (s := s) (u := w) (by rw [hw, hv]) (by rw [hw, hv]) (by rw [hw, hv]) i a, hu, hw, hv]
  have hchain : ((((s.setX i a).unlockTrack h a).dirtyEffects i).coprocPcEffect i a).coprocEffect i a = u := by
    rw [e1, e2, e3]
  have hst : (u.flashEffect i a).status = ((s.coprocEffect i a).flashEffect i a).status := by
    have hf : ∀ {α : Type} (f : State → α), f u = f { s with
        regs := (s.setX i a).regs
        unlocked := (s.unlockTrack h a).unlocked
        unlockProgress := (s.unlockTrack h a).unlockProgress
        paletteDirty := s.paletteDirty || s.cfg.palDirtyRegs.contains i
        configDirty := s.configDirty || s.cfg.cfgDirtyRegs.contains i
        coprocessorProgramCounter := (s.coprocPcEffect i a).coprocessorProgramCounter
        coprocessorRequested := (s.coprocEffect i a).coprocessorRequested
        status := (s.coprocEffect i a).status } := fun f => congrArg f hu
    exact State.flashEffect_status (s := s.coprocEffect i a) (u := u)
      ((hf State.cfg).trans (congrArg State.cfg hco).symm) (hf State.status)
      ((hf State.flashRequested).trans (congrArg State.flashRequested hco).symm)
      ((hf State.flashRunning).trans (congrArg State.flashRunning hco).symm)
      ((hf State.flashRetry).trans (congrArg State.flashRetry hco).symm)
      ((hf State.flashPhase).trans (congrArg State.flashPhase hco).symm) i a
  rw [hchain, State.flashEffect_congr (s := s) (u := u) (by rw [hu]) (by rw [hu]) (by rw [hu]) (by rw [hu]) (by rw [hu])
    (by rw [hu]) (by rw [hu]) i a, hst, hu]

theorem State.regWrite_eq (s : State) (h : RegIndex) (a : Byte) :
    s.regWrite h a = (s.regEffects h a).resetEffect (s.effectiveIndex h) a := rfl

/-- A register write that is not the reset command is its effects. -/
theorem State.regWrite_frame (s : State) (h : RegIndex) (a : Byte)
    (hn : isResetWrite s.cfg (s.effectiveIndex h) a = false) : s.regWrite h a = s.regEffects h a := by
  rw [State.regWrite_eq, State.resetEffect_of_not]
  rw [State.regEffects_eq]
  exact hn

/-- `Reset()` looks at what it leaves alone, so two states that agree there are reset to one. -/
theorem State.resetOp_congr {s u : State} (hl : u.interruptLine = s.interruptLine) (hd : u.raData = s.raData)
    (hr : u.raStatus = s.raStatus) (h1 : u.storage = s.storage) (h2 : u.videoOut = s.videoOut)
    (h3 : u.hostReads = s.hostReads) (h4 : u.cfg = s.cfg) (h5 : u.configPage = s.configPage)
    (h6 : u.inputs = s.inputs) (h7 : u.strobes = s.strobes) (h8 : u.coprocScript = s.coprocScript)
    (h9 : u.draws = s.draws) : u.resetOp = s.resetOp := by
  have h : u.resetFields = s.resetFields := by
    cases u; cases s
    dsimp only at hl hd hr h1 h2 h3 h4 h5 h6 h7 h8 h9
    subst hl hd hr h1 h2 h3 h4 h5 h6 h7 h8 h9
    rfl
  unfold State.resetOp
  rw [h]

/-- The reset command performs `Reset()` (R151): what the write did before it leaves no trace. -/
theorem State.regWrite_reset (s : State) (h : RegIndex) (a : Byte)
    (hr : isResetWrite s.cfg (s.effectiveIndex h) a = true) : s.regWrite h a = s.resetOp := by
  have he : (s.regEffects h a).resetEffect (s.effectiveIndex h) a = (s.regEffects h a).resetOp := by
    unfold State.resetEffect
    have hc : (s.regEffects h a).cfg = s.cfg := by rw [State.regEffects_eq]
    rw [hc, if_pos hr]
  rw [State.regWrite_eq, he]
  apply State.resetOp_congr <;> rw [State.regEffects_eq]

/-! ## Storage -/

theorem Mem.readRange_congr (d : Byte) (m₁ m₂ : Mem) (a n : Nat)
    (h : ∀ b, a ≤ b → b < a + n → Mem.read d m₁ b = Mem.read d m₂ b) :
    Mem.readRange d m₁ a n = Mem.readRange d m₂ a n := by
  unfold Mem.readRange
  apply List.map_congr_left
  intro k hk
  have := List.mem_range.1 hk
  exact h _ (by omega) (by omega)

/-- One byte of storage after an erase (R70). -/
theorem State.read_storErase (s : State) (a n b : Nat) :
    Mem.read storageUnlisted (s.storErase a n).storage b =
      if a ≤ b ∧ b < a + n then 0xFF else Mem.read storageUnlisted s.storage b := by
  unfold State.storErase
  simp only [Mem.read_fill, List.length_replicate]
  split
  · rename_i h
    rw [List.getD_eq_getElem?_getD, List.getElem?_replicate, if_pos (by omega)]; rfl
  · rfl

/-- One byte of storage after a program step (R71). -/
theorem State.read_storProgram (s : State) (fresh : Nat → Bool) (a b : Nat) (vs : List Byte) :
    Mem.read storageUnlisted (s.storProgram fresh a vs).storage b =
      if a ≤ b ∧ b < a + vs.length then
        programmed s.cfg (fresh b) s.draws b (Mem.read storageUnlisted s.storage b) (vs.getD (b - a) 0)
      else Mem.read storageUnlisted s.storage b := by
  unfold State.storProgram
  simp only [Mem.read_fill, List.length_mapIdx]
  split
  · rename_i h
    have hk : b - a < vs.length := by omega
    have hb : a + (b - a) = b := by omega
    rw [List.getD_eq_getElem?_getD, List.getD_eq_getElem?_getD, List.getElem?_mapIdx, List.getElem?_eq_getElem hk]
    simp [hb]
  · rfl

/-- One byte of storage after a primitive that a reset command cut off (U20): outside the pages the primitive touches it
is as before; there it is done, free or as before. -/
theorem State.read_storTorn (s : State) (f : State → State) (a n b : Nat) :
    let p := erasePage s.cfg
    let pages := (a + n - 1) / p - a / p + 1
    let cut := a / p + Config.tornPage s.draws pages % pages
    Mem.read storageUnlisted (s.storTorn f a n).storage b =
      if a / p ≤ b / p ∧ b / p < a / p + pages then
        if b / p < cut then Mem.read storageUnlisted (f s).storage b
        else if b / p = cut then Config.tornByte s.draws b
        else Mem.read storageUnlisted s.storage b
      else Mem.read storageUnlisted s.storage b := by
  intro p pages cut
  have hp : 0 < p := erasePage_pos s.cfg
  have hlo : a / p * p ≤ b ↔ a / p ≤ b / p := (Nat.le_div_iff_mul_le hp).symm
  have hhi : b < a / p * p + pages * p ↔ b / p < a / p + pages := by
    rw [← Nat.add_mul, Nat.div_lt_iff_lt_mul hp]
  unfold State.storTorn
  simp only [Mem.read_fill, List.length_map, List.length_range]
  by_cases h : a / p ≤ b / p ∧ b / p < a / p + pages
  · have h1 := hlo.2 h.1
    have h2 := hhi.2 h.2
    rw [if_pos ⟨h1, h2⟩, if_pos h, List.getD_eq_getElem?_getD, List.getElem?_map,
      List.getElem?_range (by show b - a / p * p < pages * p; omega)]
    show (if (a / p * p + (b - a / p * p)) / p < cut then _ else _) = _
    rw [Nat.add_sub_cancel' h1]
  · rw [if_neg h, if_neg (fun hc => h ⟨hlo.1 hc.1, hhi.1 hc.2⟩)]

/-- Programming erased bytes exactly stores the data (R71, R216). -/
theorem programmed_exact {c : Config} {draw a : Nat} {old new : Byte} (hold : old = 0xFF)
    (hex : c.storageExact = true) : programmed c true draw a old new = new := by
  unfold programmed; rw [if_pos ⟨rfl, hold, hex⟩]

/-- Programming a byte that is not fresh leaves a free value (R222, R296, U5). -/
theorem programmed_stale {c : Config} {draw a : Nat} {old new : Byte} :
    programmed c false draw a old new = Config.programmedByte draw a old new := by
  unfold programmed; rw [if_neg (fun h => by cases h.1)]

/-- Which bytes are fresh (R222, R296). -/
theorem State.sessionFresh_iff (s : State) (a : Nat) : s.sessionFresh a = true ↔
    s.cfg.fwWindowBase ≤ a ∧ a < s.cfg.fwWindowBase + s.sessionErased ∧
    ∀ t ∈ s.sessionProgrammed, ¬ (t ≤ a ∧ a < t + 256) := by
  simp [State.sessionFresh, and_assoc, Classical.or_iff_not_imp_left]

/-- After block 0 the erased range is fresh, whatever the session before (R222). -/
theorem State.sessionFresh_openSession (s : State) (total a : Nat) : (s.openSession total).sessionFresh a = true ↔
    s.cfg.fwWindowBase ≤ a ∧ a < s.cfg.fwWindowBase + sessionBytes s.cfg total := by
  simp [State.sessionFresh_iff, State.openSession]

/-- A programmed block is fresh no more, every other byte as before (R296). -/
theorem State.sessionFresh_noteBlock (s : State) (target a : Nat) : (s.noteBlock target).sessionFresh a = true ↔
    ¬ (target ≤ a ∧ a < target + 256) ∧ s.sessionFresh a = true := by
  simp only [State.sessionFresh_iff, State.noteBlock, List.forall_mem_cons]
  exact ⟨fun ⟨h1, h2, h3, h4⟩ => ⟨h3, h1, h2, h4⟩, fun ⟨h3, h1, h2, h4⟩ => ⟨h1, h2, h3, h4⟩⟩

/-- Outside a session nothing is fresh. -/
theorem State.sessionFresh_closeSession (s : State) (a : Nat) : s.closeSession.sessionFresh a = false := by
  rw [Bool.eq_false_iff]
  intro h
  have := (State.sessionFresh_iff _ _).1 h
  simp [State.closeSession] at this
  omega

/-! ## Staged blocks -/

/-- A byte of the scratch copy is the staged byte (R211). -/
theorem State.byteAt_staged (s : State) {n k : Nat} (h : k < n) : byteAt (s.staged n) k = s.memRead (s.cfg.stageBase + k) := by
  unfold byteAt State.staged
  rw [List.getD_eq_getElem?_getD, List.getElem?_map, List.getElem?_range h]
  rfl

theorem State.bytesAt_staged (s : State) {off m n : Nat} (h : off + m ≤ n) :
    bytesAt (s.staged n) off m = (List.range m).map fun k => s.memRead (s.cfg.stageBase + off + k) := by
  unfold bytesAt
  apply List.map_congr_left
  intro k hk
  rw [s.byteAt_staged (by have := List.mem_range.1 hk; omega), Nat.add_assoc]

theorem State.le32_staged (s : State) {off n : Nat} (h : off + 4 ≤ n) : le32 (s.staged n) off = s.stagedWord off := by
  unfold le32 State.stagedWord
  rw [s.byteAt_staged (by omega), s.byteAt_staged (by omega), s.byteAt_staged (by omega), s.byteAt_staged (by omega)]
  simp only [Nat.add_assoc]

/-- Format F of the scratch copy is the staged block (R100, R217). -/
theorem State.fwBlock_staged (s : State) : fwBlock (s.staged 292) = s.stagedBlock := by
  unfold fwBlock State.stagedBlock
  simp only [s.le32_staged (n := 292) (off := 0) (by decide), s.le32_staged (n := 292) (off := 4) (by decide),
    s.le32_staged (n := 292) (off := 8) (by decide), s.le32_staged (n := 292) (off := 12) (by decide),
    s.le32_staged (n := 292) (off := 16) (by decide), s.le32_staged (n := 292) (off := 20) (by decide),
    s.le32_staged (n := 292) (off := 24) (by decide), s.le32_staged (n := 292) (off := 28) (by decide),
    s.le32_staged (n := 292) (off := 288) (by decide), s.bytesAt_staged (off := 32) (m := 256) (n := 292) (by decide)]

/-- Format K of the scratch copy: the hint (R104). -/
theorem State.kbHint_staged (s : State) {n : Nat} (h : 4 ≤ n) : (kbHint (s.staged n)).toNat = s.stagedHint :=
  congrArg BitVec.toNat (s.le32_staged (off := 0) h)

/-- Format K of the scratch copy: the identifier (R104). -/
theorem State.kbId_staged (s : State) {n : Nat} (h : 20 ≤ n) : kbId (s.staged n) = s.stagedId :=
  s.bytesAt_staged (off := 4) (m := 16) (by omega)

/-! ## The canonical form is kept -/

theorem State.memWrite_wf (s : State) (a : Nat) (v : Byte) (h : Mem.wf vramUnlisted s.vram = true) :
    Mem.wf vramUnlisted (s.memWrite a v).vram = true := Mem.wf_write _ _ _ _ h

theorem State.storErase_wf (s : State) (a n : Nat) (h : Mem.wf storageUnlisted s.storage = true) :
    Mem.wf storageUnlisted (s.storErase a n).storage = true := Mem.wf_fill _ _ _ _ h

theorem State.storProgram_wf (s : State) (fresh : Nat → Bool) (a : Nat) (vs : List Byte)
    (h : Mem.wf storageUnlisted s.storage = true) :
    Mem.wf storageUnlisted (s.storProgram fresh a vs).storage = true := Mem.wf_fill _ _ _ _ h

theorem State.storTorn_wf (s : State) (f : State → State) (a n : Nat) (h : Mem.wf storageUnlisted s.storage = true) :
    Mem.wf storageUnlisted (s.storTorn f a n).storage = true := Mem.wf_fill _ _ _ _ h

/-- The memories right after reset are in canonical form, in every configuration. -/
theorem State.resetWith_wf (c : Config) : Mem.wf vramUnlisted (State.resetWith c).vram = true ∧
    Mem.wf storageUnlisted (State.resetWith c).storage = true := ⟨rfl, rfl⟩

theorem State.reset_wf : Mem.wf vramUnlisted State.reset.vram = true ∧ Mem.wf storageUnlisted State.reset.storage = true :=
  State.resetWith_wf Config.t0

end Sys2Proof.Machine
end

