-- ==== Sys2Proof/Laws/Background.lean ====
section
/-! SUPPORT. Background work: the equations of its combinators, and what each does when nothing falls inside it
(no strobes). -/

namespace Sys2Proof.Machine

/-! ## Equations -/

theorem bg_bind {α β : Type} (x : Bg α) (f : α → Bg β) (s : State) :
    (x >>= f) s = match x s with
      | .ok a t => f a t
      | .error e t => .error e t := by
  show EStateM.bind x f s = _
  unfold EStateM.bind
  cases x s <;> rfl

theorem bg_bind_ok {α β : Type} {x : Bg α} {f : α → Bg β} {s t : State} {a : α} (h : x s = .ok a t) :
    (x >>= f) s = f a t := by
  rw [bg_bind, h]

theorem bg_bind_error {α β : Type} {x : Bg α} {f : α → Bg β} {s t : State} {e : Abandon}
    (h : x s = .error e t) : (x >>= f) s = .error e t := by
  rw [bg_bind, h]

@[simp] theorem bg_pure {α : Type} (a : α) (s : State) : (pure a : Bg α) s = .ok a s := rfl
@[simp] theorem bg_modify (f : State → State) (s : State) : (modify f : Bg Unit) s = .ok () (f s) := rfl
@[simp] theorem bg_get (s : State) : (get : Bg State) s = .ok s s := rfl
@[simp] theorem bg_setStrobes (l : List Strobe) (s : State) : setStrobes l s = .ok () (s.withStrobes l) := rfl
@[simp] theorem bgState_ok {α : Type} (a : α) (s : State) : bgState (.ok a s : EStateM.Result Abandon State α) = s := rfl
@[simp] theorem bgState_error {α : Type} (e : Abandon) (s : State) :
    bgState (.error e s : EStateM.Result Abandon State α) = s := rfl
@[simp] theorem onlyIf_true (x : Bg Unit) : onlyIf true x = x := rfl
@[simp] theorem onlyIf_false (x : Bg Unit) : onlyIf false x = pure () := rfl

theorem runBg_ok {x : Bg Unit} {s t : State} (h : x s = .ok () t) : runBg x s = .next t := by
  rw [runBg, h]; rfl

theorem runBg_error {x : Bg Unit} {s t : State} {e : Abandon} (h : x s = .error e t) : runBg x s = .next t := by
  rw [runBg, h]; rfl

theorem runBg_next (x : Bg Unit) (s : State) : runBg x s = .next (bgState (x s)) := rfl

/-! ## Quiet points -/

/-- A point at which nothing falls while the strobe list is empty. -/
def PointQuiet (point : Bg Unit) : Prop := ∀ s : State, s.strobes = [] → point s = .ok () s

theorem linePoint_quiet : PointQuiet linePoint := by
  intro s h
  unfold linePoint
  rw [bg_bind_ok (bg_get s), h]
  rfl

theorem workPoint_quiet (k : Collaborators) : PointQuiet (workPoint k) := by
  intro s h
  unfold workPoint
  rw [h]
  rfl

variable {point : Bg Unit} (hp : PointQuiet point)
include hp

theorem guarded_quiet (f : State → State) {s : State} (h : s.strobes = []) : guarded point f s = .ok () (f s) := by
  unfold guarded
  rw [bg_bind_ok (hp s h)]
  rfl

theorem look_quiet {α : Type} (f : State → α) {s : State} (h : s.strobes = []) : look point f s = .ok (f s) s := by
  unfold look
  rw [bg_bind_ok (hp s h), bg_bind_ok (bg_get s)]
  rfl

theorem bgRead_quiet (a : Nat) {s : State} (h : s.strobes = []) : bgRead point a s = .ok (s.memRead a) s :=
  look_quiet hp _ h

theorem bgWrite_quiet (a : Nat) (v : Byte) {s : State} (h : s.strobes = []) :
    bgWrite point a v s = .ok () (s.memWrite a v) :=
  guarded_quiet hp _ h

omit hp in
/-- A collecting loop of reads that change nothing. -/
theorem collect_pure {α β : Type} (f : α → Bg β) (g : α → β) (s : State) (hf : ∀ a, f a s = .ok (g a) s)
    (l : List α) : collect f l s = .ok (l.map g) s := by
  induction l with
  | nil => rfl
  | cons a l ih =>
    unfold collect
    rw [bg_bind_ok (hf a), bg_bind_ok ih]
    rfl

theorem bgReadRange_quiet (a n : Nat) {s : State} (h : s.strobes = []) :
    bgReadRange point a n s = .ok ((List.range n).map fun k => s.memRead (a + k)) s :=
  collect_pure _ _ s (fun k => bgRead_quiet hp (a + k) h) _

omit hp in
/-- A loop of steps each of which is an update that keeps the strobe list empty is the fold of the updates. -/
theorem forEach_fold {α : Type} (f : α → Bg Unit) (g : State → α → State)
    (hf : ∀ a s, s.strobes = [] → f a s = .ok () (g s a)) (hg : ∀ s a, s.strobes = [] → (g s a).strobes = [])
    (l : List α) (s : State) (h : s.strobes = []) : forEach f l s = .ok () (l.foldl g s) := by
  induction l generalizing s with
  | nil => rfl
  | cons a l ih =>
    unfold forEach
    rw [bg_bind_ok (hf a s h)]
    exact ih (g s a) (hg s a h)

omit hp in
/-- The palette size, where nothing falls between the register reads. -/
theorem selectSize_quiet (sel : PalSizeSel) {s : State} (h : s.strobes = []) :
    selectSize sel s = .ok (selectedSize s.x sel) s := by
  induction sel with
  | size16 => rfl
  | size64 => rfl
  | test i mask value same other ih1 ih2 =>
    unfold selectSize selectedSize
    rw [bg_bind_ok (look_quiet linePoint_quiet _ h)]
    split
    · exact ih1
    · exact ih2

omit hp in
theorem paletteSize_quiet {s : State} (h : s.strobes = []) : paletteSize s = .ok s.paletteEntries s :=
  selectSize_quiet s.cfg.palSizeSel h

omit hp in
/-- A border row, where nothing falls between its pixels. -/
theorem fillRow_quiet {s : State} (h : s.strobes = []) :
    fillRow s = .ok ((List.range s.cfg.linePixels).map fun p => borderPixel p s) s :=
  collect_pure _ _ s (fun p => look_quiet linePoint_quiet (borderPixel p) h) _

omit hp in
/-- A storage primitive, where nothing falls before or inside it. -/
theorem storageStep_quiet (k : Collaborators) (a n : Nat) (f : State → State) {s : State} (h : s.strobes = []) :
    storageStep k a n f s = .ok () (f s) := by
  have hq := workPoint_quiet k s h
  unfold storageStep
  rw [bg_bind_ok hq]
  unfold storageInside
  rw [hq]

/-- The state after a run of writes from `a` up. -/
def State.writeRun (s : State) (a : Nat) (vs : List Byte) : State :=
  (List.range vs.length).foldl (fun t k => t.memWrite (a + k) (byteAt vs k)) s

theorem bgWriteRange_quiet (a : Nat) (vs : List Byte) {s : State} (h : s.strobes = []) :
    bgWriteRange point a vs s = .ok () (s.writeRun a vs) :=
  forEach_fold _ _ (fun k _ ht => bgWrite_quiet hp (a + k) (byteAt vs k) ht) (fun _ _ ht => ht) _ s h

omit hp in
/-- A fold of updates each of which leaves everything but video memory leaves everything but video memory. -/
theorem foldl_vram_frame {α : Type} (g : State → α → State)
    (hg : ∀ s a, ∃ m, g s a = { s with vram := m }) (l : List α) (s : State) :
    ∃ m, l.foldl g s = { s with vram := m } := by
  induction l generalizing s with
  | nil => exact ⟨s.vram, rfl⟩
  | cons a l ih =>
    obtain ⟨m, hm⟩ := hg s a
    obtain ⟨m', hm'⟩ := ih (g s a)
    exact ⟨m', by rw [List.foldl_cons, hm', hm]⟩

omit hp in
theorem State.writeRun_frame (s : State) (a : Nat) (vs : List Byte) :
    ∃ m, s.writeRun a vs = { s with vram := m } :=
  foldl_vram_frame (fun t k => t.memWrite (a + k) (byteAt vs k)) (fun _ _ => ⟨_, rfl⟩) _ s

omit hp in
@[simp] theorem State.writeRun_cfg (s : State) (a : Nat) (vs : List Byte) : (s.writeRun a vs).cfg = s.cfg := by
  obtain ⟨m, hm⟩ := State.writeRun_frame s a vs; rw [hm]

omit hp in
@[simp] theorem State.writeRun_strobes (s : State) (a : Nat) (vs : List Byte) :
    (s.writeRun a vs).strobes = s.strobes := by
  obtain ⟨m, hm⟩ := State.writeRun_frame s a vs; rw [hm]

omit hp in
/-- A read after a run of writes that does not wrap: the run inside it, the old byte outside. -/
theorem State.memRead_writeRun (s : State) (a : Nat) (vs : List Byte) (hfit : a + vs.length ≤ vramSize s.cfg)
    (b : Nat) (hb : b < vramSize s.cfg) :
    (s.writeRun a vs).memRead b = if a ≤ b ∧ b < a + vs.length then byteAt vs (b - a) else s.memRead b := by
  have key : ∀ n, n ≤ vs.length →
      (((List.range n).foldl (fun t k => t.memWrite (a + k) (byteAt vs k)) s).cfg = s.cfg) ∧
      ((List.range n).foldl (fun t k => t.memWrite (a + k) (byteAt vs k)) s).memRead b =
        if a ≤ b ∧ b < a + n then byteAt vs (b - a) else s.memRead b := by
    intro n
    induction n with
    | zero =>
      intro _
      exact ⟨rfl, (if_neg (by omega)).symm⟩
    | succ n ih =>
      intro hn
      obtain ⟨hc, hr⟩ := ih (by omega)
      rw [List.range_succ, List.foldl_append]
      refine ⟨hc, ?_⟩
      show (State.memWrite _ (a + n) (byteAt vs n)).memRead b = _
      rw [State.memRead_memWrite, hc, hr, Nat.mod_eq_of_lt hb, Nat.mod_eq_of_lt (by omega)]
      by_cases h : b = a + n
      · subst h
        rw [if_pos rfl, if_pos (by omega), Nat.add_sub_cancel_left]
      · rw [if_neg h]
        by_cases h2 : a ≤ b ∧ b < a + n
        · rw [if_pos h2, if_pos (by omega)]
        · rw [if_neg h2, if_neg (by omega)]
  exact (key vs.length (Nat.le_refl _)).2

end Sys2Proof.Machine
end

