-- ==== Sys2Proof/Laws/Decode.lean ====
section
/-! SUPPORT. Decoding of the words that encode the host cycles and pairs, and the cycle each word runs. -/

namespace Sys2Proof

theorem extract_append_low {n m : Nat} (a : BitVec n) (b : BitVec m) : (a ++ b).extractLsb' 0 m = b := by
  apply BitVec.eq_of_getLsbD_eq
  intro i hi
  simp [BitVec.getLsbD_append, hi]

theorem extract_append_high {n m : Nat} (a : BitVec n) (b : BitVec m) : (a ++ b).extractLsb' m n = a := by
  apply BitVec.eq_of_getLsbD_eq
  intro i hi
  simp [BitVec.getLsbD_append, hi]

@[simp] theorem decodeCycle_wdWord (stage : BitVec 1) (b : Byte) : decodeCycle stage (wdWord b) = .wd b := by
  have h9 : (0#2 ++ b : BitVec 10).getLsbD 9 = false := by rw [BitVec.getLsbD_append]; rfl
  have h8 : (0#2 ++ b : BitVec 10).getLsbD 8 = false := by rw [BitVec.getLsbD_append]; rfl
  unfold decodeCycle wdWord
  rw [extract_append_low, h9, h8]

theorem decodeCycle_waWord (stage : BitVec 1) (b : Byte) :
    decodeCycle stage (waWord b) = if stage = 0 then .waFirst b else .waSecond b := by
  have h9 : (1#2 ++ b : BitVec 10).getLsbD 9 = false := by rw [BitVec.getLsbD_append]; rfl
  have h8 : (1#2 ++ b : BitVec 10).getLsbD 8 = true := by rw [BitVec.getLsbD_append]; rfl
  unfold decodeCycle waWord
  rw [extract_append_low, h9, h8]

@[simp] theorem decodeCycle_rdWord (stage : BitVec 1) : decodeCycle stage rdWord = .rd := rfl

@[simp] theorem decodeCycle_rsWord (stage : BitVec 1) : decodeCycle stage rsWord = .rs := rfl

namespace Machine

@[simp] theorem State.busCycle_wd (s : State) (b : Byte) : s.busCycle (wdWord b) = s.wdCycle b := by
  unfold State.busCycle; rw [decodeCycle_wdWord]

theorem State.busCycle_waFirst (s : State) (b : Byte) (h : s.writeStage = 0) :
    s.busCycle (waWord b) = s.waFirstCycle b := by
  unfold State.busCycle; rw [decodeCycle_waWord, if_pos h]

theorem State.busCycle_waSecond (s : State) (b : Byte) (h : s.writeStage = 1) :
    s.busCycle (waWord b) = s.waSecondCycle b := by
  unfold State.busCycle; rw [decodeCycle_waWord, if_neg (by rw [h]; decide)]

@[simp] theorem State.busCycle_rd (s : State) : s.busCycle rdWord = s.rdCycle := rfl

@[simp] theorem State.busCycle_rs (s : State) : s.busCycle rsWord = s.rsCycle := rfl

theorem State.busCycles_append (s : State) (v w : List (BitVec 10)) :
    s.busCycles (v ++ w) = (s.busCycles v).busCycles w := by
  induction v generalizing s with
  | nil => rfl
  | cons x v ih => exact ih (s.busCycle x)

/-- The two cycles of a pair, from a state where the next address-mode write is a first byte (R96). -/
theorem State.busCycles_pair (s : State) (a b : Byte) (h : s.writeStage = 0) :
    s.busCycles [waWord a, waWord b] = (s.waFirstCycle a).waSecondCycle b := by
  show ((s.busCycle (waWord a)).busCycle (waWord b)) = _
  rw [State.busCycle_waFirst s a h, State.busCycle_waSecond _ b rfl]

end Machine

end Sys2Proof
end

