-- ==== Sys2Proof/Laws/Keeps.lean ====
section
/-! SUPPORT. What a background operation can do, said once: if every atomic action keeps a property of the state, so
does the operation, whatever falls inside it. One structure of hypotheses per engine; the closing lemmas take
them to `exec`. -/

namespace Sys2Proof.Machine

/-- A background computation keeps `P`, finished or abandoned. -/
def Keeps {α : Type} (P : State → Prop) (x : Bg α) : Prop := ∀ s, P s → P (bgState (x s))

section combinators

variable {P : State → Prop} {α β : Type}

theorem Keeps.pure (a : α) : Keeps P (Pure.pure a : Bg α) := fun _ h => h

theorem Keeps.modify {f : State → State} (h : ∀ s, P s → P (f s)) : Keeps P (modify f : Bg Unit) := h

theorem Keeps.get : Keeps P (MonadStateOf.get : Bg State) := fun _ h => h

theorem Keeps.bind {x : Bg α} {f : α → Bg β} (hx : Keeps P x) (hf : ∀ a, Keeps P (f a)) : Keeps P (x >>= f) := by
  intro s h
  have h1 := hx s h
  rw [bg_bind]
  cases hr : x s with
  | ok a t => rw [hr] at h1; exact hf a t h1
  | error e t => rw [hr] at h1; exact h1

theorem Keeps.seq {x : Bg Unit} {y : Bg α} (hx : Keeps P x) (hy : Keeps P y) : Keeps P (x >>= fun _ => y) :=
  hx.bind fun _ => hy

/-- A computation that begins by reading the state. -/
theorem Keeps.read {f : State → Bg α} (h : ∀ s, Keeps P (f s)) : Keeps P (fun s => f s s) := fun s hs => h s s hs

theorem Keeps.onlyIf {c : Bool} {x : Bg Unit} (hx : c = true → Keeps P x) : Keeps P (onlyIf c x) := by
  cases c
  · exact Keeps.pure ()
  · exact hx rfl

theorem Keeps.guarded {point : Bg Unit} {f : State → State} (hp : Keeps P point) (h : ∀ s, P s → P (f s)) :
    Keeps P (guarded point f) := hp.seq (Keeps.modify h)

theorem Keeps.look {point : Bg Unit} {f : State → α} (hp : Keeps P point) : Keeps P (look point f) :=
  hp.seq (Keeps.get.bind fun _ => Keeps.pure _)

theorem Keeps.selectSize (hl : Keeps P linePoint) (sel : PalSizeSel) : Keeps P (selectSize sel) := by
  induction sel with
  | size16 => exact Keeps.pure 16
  | size64 => exact Keeps.pure 64
  | test i mask value same other ih1 ih2 =>
    refine hl.look.bind fun v => ?_
    split
    · exact ih1
    · exact ih2

theorem Keeps.paletteSize (hl : Keeps P linePoint) : Keeps P paletteSize :=
  fun s hs => Keeps.selectSize hl s.cfg.palSizeSel s hs

/-- A storage primitive keeps what its effect keeps, done or cut off. -/
theorem Keeps.storageStep {k : Collaborators} {a n : Nat} {f : State → State} (hw : Keeps P (workPoint k))
    (hf : ∀ s, P s → P (f s)) (ht : ∀ s, P s → P (s.storTorn f a n)) : Keeps P (storageStep k a n f) := by
  refine hw.seq fun s hs => ?_
  have h := hw s hs
  unfold storageInside
  cases hr : workPoint k s with
  | ok u t => rw [hr] at h; exact hf t h
  | error e t =>
    rw [hr] at h
    cases e with
    | command => exact ht t h
    | signal => exact h

theorem Keeps.forEach {f : α → Bg Unit} {l : List α} (h : ∀ a, Keeps P (f a)) : Keeps P (forEach f l) := by
  induction l with
  | nil => exact Keeps.pure ()
  | cons a l ih => exact (h a).seq ih

theorem Keeps.collect {f : α → Bg β} {l : List α} (h : ∀ a, Keeps P (f a)) : Keeps P (collect f l) := by
  induction l with
  | nil => exact Keeps.pure []
  | cons a l ih => exact (h a).bind fun _ => ih.bind fun _ => Keeps.pure _

theorem Keeps.bgRead {point : Bg Unit} {a : Nat} (hp : Keeps P point) : Keeps P (bgRead point a) := hp.look

theorem Keeps.bgReadRange {point : Bg Unit} {a n : Nat} (hp : Keeps P point) : Keeps P (bgReadRange point a n) :=
  Keeps.collect fun _ => hp.bgRead

theorem Keeps.bgWrite {point : Bg Unit} {a : Nat} {v : Byte} (hp : Keeps P point)
    (h : ∀ s a v, P s → P (s.memWrite a v)) : Keeps P (bgWrite point a v) := hp.guarded fun s => h s a v

theorem Keeps.bgWriteRange {point : Bg Unit} {a : Nat} {vs : List Byte} (hp : Keeps P point)
    (h : ∀ s a v, P s → P (s.memWrite a v)) : Keeps P (bgWriteRange point a vs) :=
  Keeps.forEach fun _ => hp.bgWrite h

theorem Keeps.and {Q : State → Prop} {x : Bg α} (hx : Keeps P x) (hy : Keeps Q x) : Keeps (fun s => P s ∧ Q s) x :=
  fun s h => ⟨hx s h.1, hy s h.2⟩

end combinators

/-! ## The bus and reset inside background work -/

/-- Every bus cycle and every pair keeps `P`: one hypothesis per form. `reg` is a register write that is not the reset
command, `command` one that is. -/
structure KeptByCycles (P : State → Prop) : Prop where
  wd : ∀ s b, P s → P (s.wdCycle b)
  rd : ∀ s, P s → P s.rdCycle
  rs : ∀ s, P s → P s.rsCycle
  waFirst : ∀ s b, P s → P (s.waFirstCycle b)
  addr : ∀ s a m, P s → P (({ s with writeStage := 0 } : State).setAddr a m).rearmAll
  reg : ∀ s h a, P s → P (({ s.setLatchLow a with writeStage := 0 } : State).regEffects h a).rearmAll
  command : ∀ s i a, P s → isResetWrite s.cfg i a = true → P s.resetOp

/-- Every bus cycle, every reset and the taking of a strobe off the list keeps `P`. -/
structure KeptByBus (P : State → Prop) : Prop extends KeptByCycles P where
  resetOp : ∀ s, P s → P s.resetOp
  strobes : ∀ s l, P s → P (s.withStrobes l)

section cycles

variable {P : State → Prop} (H : KeptByCycles P)
include H

/-- A whole register pair, the reset command included. -/
theorem KeptByCycles.regPair (h : RegIndex) (a : Byte) {s : State} (hs : P s) :
    P (({ s.setLatchLow a with writeStage := 0 } : State).regWrite h a).rearmAll := by
  cases hr : isResetWrite s.cfg (s.effectiveIndex h) a with
  | false =>
    rw [State.regWrite_frame ({ s.setLatchLow a with writeStage := 0 } : State) h a hr]
    exact H.reg s h a hs
  | true =>
    rw [State.regWrite_reset ({ s.setLatchLow a with writeStage := 0 } : State) h a hr]
    have : ({ s.setLatchLow a with writeStage := 0 } : State).resetOp = s.resetOp := by
      apply State.resetOp_congr <;> rfl
    rw [this]
    have hi : s.resetOp.rearmAll = s.resetOp := State.rearmAll_idem _
    rw [hi]
    exact H.command s _ a hs hr

theorem KeptByCycles.waSecond (b : Byte) {s : State} (hs : P s) : P (s.waSecondCycle b) := by
  unfold State.waSecondCycle State.pairEffect
  split
  · have h := H.regPair (b.extractLsb' 0 6) s.latchLow hs
    rw [State.setLatchLow_latchLow] at h
    exact h
  · exact H.addr s _ _ hs

theorem KeptByCycles.cycle (s : State) (w : BitVec 10) (hs : P s) : P (s.busCycle w) := by
  unfold State.busCycle
  split
  · exact H.wd s _ hs
  · exact H.waFirst s _ hs
  · exact H.waSecond _ hs
  · exact H.rd s hs
  · exact H.rs s hs
  · exact hs

theorem KeptByCycles.busCycles (ws : List (BitVec 10)) {s : State} (h : P s) : P (s.busCycles ws) := by
  induction ws generalizing s with
  | nil => exact h
  | cons w ws ih => exact ih (H.cycle s w h)

end cycles

section bus

variable {P : State → Prop} (H : KeptByBus P)
include H

theorem KeptByBus.strobeCycle (w : BitVec 10) : Keeps P (strobeCycle w) := by
  intro s h
  unfold Machine.strobeCycle
  split
  · exact H.cycle s w h
  · exact H.cycle s w h

theorem KeptByBus.strobeReset : Keeps P strobeReset := fun s h => H.resetOp s h

theorem KeptByBus.setStrobes (l : List Strobe) : Keeps P (setStrobes l) := Keeps.modify fun s => H.strobes s l

theorem KeptByBus.lineStrobes (l : List Strobe) : Keeps P (lineStrobes l) := by
  induction l with
  | nil => exact Keeps.pure ()
  | cons x l ih =>
    cases x with
    | pass => exact H.setStrobes l
    | line => exact Keeps.pure ()
    | cycle w => exact (H.setStrobes l).seq ((H.strobeCycle w).seq ih)
    | reset => exact (H.setStrobes l).seq H.strobeReset

theorem KeptByBus.linePoint : Keeps P linePoint := Keeps.get.bind fun s => H.lineStrobes s.strobes

end bus

/-! ## The pipeline -/

/-- A point with no strobe pending changes nothing, so it keeps what implies that there is none. -/
theorem Keeps.ofQuiet {P : State → Prop} {point : Bg Unit} (hp : PointQuiet point) (h : ∀ s, P s → s.strobes = []) :
    Keeps P point := by
  intro s hs
  rw [hp s (h s hs)]
  exact hs

/-- Every atomic action of the pipeline keeps `P`. -/
structure KeptByLine (P : State → Prop) : Prop where
  setPipe : ∀ s p, P s → P (s.setPipe p)
  clearPaletteDirty : ∀ s, P s → P s.clearPaletteDirty
  setPalette : ∀ s k i e, P s → P (s.setPalette k i e)
  draw : ∀ s, P s → P s.draw
  mergeSpriteFlags : ∀ s f, P s → P (s.mergeSpriteFlags f)
  handOff : ∀ s y row, P s → P (s.handOff y row)
  updateLineStatus : ∀ s y r, P s → P (s.updateLineStatus y r)
  raiseEndOfFrame : ∀ s, P s → P s.raiseEndOfFrame
  sampleTemperature : ∀ s, P s → P s.sampleTemperature
  frameTrigger : ∀ s, P s → P s.frameTrigger
  clearConfigDirty : ∀ s, P s → P s.clearConfigDirty
  configSave : ∀ s, P s → P s.configSave
  nextLine : ∀ s y, P s → P (s.nextLine y)

section line

variable {P : State → Prop} (H : KeptByLine P) (hl : Keeps P linePoint) (k : Collaborators)
include H hl

theorem KeptByLine.paletteRebuildBody : Keeps P (paletteRebuildBody k) :=
  (hl.guarded H.clearPaletteDirty).seq
    (hl.paletteSize.bind fun _ => Keeps.forEach fun i =>
      Keeps.get.bind fun _ => hl.bgReadRange.bind fun e => Keeps.modify fun s => H.setPalette s k i e)

theorem KeptByLine.paletteCheck : Keeps P (paletteCheck k) :=
  hl.look.bind fun _ => Keeps.onlyIf fun _ => H.paletteRebuildBody hl k

omit H in
theorem Keeps.scanRead (t : ReadTarget) : Keeps P (scanRead t) := by
  cases t with
  | register i => exact hl.look
  | vram a => exact hl.bgRead

omit H in
theorem Keeps.scanAnswers (row n : Nat) (answers : List Byte) : Keeps P (scanAnswers k row n answers) := by
  induction n generalizing answers with
  | zero => exact Keeps.pure answers
  | succ n ih => exact (Keeps.scanRead hl _).bind fun v => ih (answers ++ [v])

theorem KeptByLine.displayRow (y : Nat) : Keeps P (displayRow k y) :=
  Keeps.get.bind fun _ => (Keeps.scanAnswers hl k _ _ []).bind fun _ => (H.paletteCheck hl k).seq
    (hl.paletteSize.bind fun _ => hl.look.bind fun _ => (Keeps.modify H.draw).seq
      ((hl.guarded fun s => H.mergeSpriteFlags s _).seq (Keeps.pure _)))

omit H in
theorem Keeps.fillRow : Keeps P fillRow := fun s hs => Keeps.collect (fun _ => hl.look) s hs

theorem KeptByLine.borderRow : Keeps P (borderRow k) :=
  (H.paletteCheck hl k).seq ((Keeps.fillRow hl).bind fun _ => (Keeps.modify H.draw).seq (Keeps.pure _))

theorem KeptByLine.lineRow (y : Nat) (r : Region) : Keeps P (lineRow k y r) := by
  unfold Machine.lineRow
  split
  · exact H.displayRow hl k y
  · exact H.borderRow hl k

theorem KeptByLine.linePixelWork (y : Nat) (r : Region) : Keeps P (linePixelWork k y r) := by
  unfold Machine.linePixelWork
  split
  · exact Keeps.modify fun s => H.setPipe s _
  · exact (Keeps.modify fun s => H.setPipe s _).seq
      ((H.lineRow hl k y r).bind fun _ => Keeps.modify fun s => H.handOff s y _)

theorem KeptByLine.frameEndBody : Keeps P frameEndBody :=
  (hl.guarded H.sampleTemperature).seq
    (hl.look.bind fun _ => (Keeps.onlyIf fun _ => hl.guarded H.frameTrigger).seq
      (hl.look.bind fun _ => Keeps.onlyIf fun _ =>
        (hl.guarded H.clearConfigDirty).seq (hl.guarded H.configSave)))

theorem KeptByLine.lineAt (c : Config) (y : Nat) : Keeps P (lineAt k c y) :=
  (H.linePixelWork hl k y _).seq ((hl.guarded fun s => H.updateLineStatus s y _).seq
    ((Keeps.onlyIf fun _ => hl.guarded H.raiseEndOfFrame).seq
      ((Keeps.onlyIf fun _ => (Keeps.modify fun s => H.setPipe s _).seq (H.frameEndBody hl)).seq
        (Keeps.modify fun s => H.nextLine s y))))

theorem KeptByLine.lineBody : Keeps P (lineBody k) := fun s h => H.lineAt hl k s.cfg s.lineY s h

omit hl in
/-- What a bus, a reset and the pipeline keep, a point of sandbox or flash work keeps. -/
theorem KeptByLine.workStrobes (B : KeptByBus P) (n : Nat) : Keeps P (workStrobes k n) := by
  induction n with
  | zero => exact Keeps.pure ()
  | succ n ih =>
    intro s hs
    unfold Machine.workStrobes
    split
    · exact hs
    · exact B.setStrobes _ s hs
    · exact (B.setStrobes _).seq ((B.strobeCycle _).seq ih) s hs
    · exact (B.setStrobes _).seq ((H.lineBody B.linePoint k).seq ih) s hs
    · exact (B.setStrobes _).seq B.strobeReset s hs

omit hl in
theorem KeptByLine.workPoint (B : KeptByBus P) : Keeps P (workPoint k) :=
  fun s h => H.workStrobes k B s.strobes.length s h

end line

/-- Two kept properties are kept together. -/
theorem KeptByCycles.and {P Q : State → Prop} (H : KeptByCycles P) (G : KeptByCycles Q) :
    KeptByCycles (fun s => P s ∧ Q s) where
  wd s b h := ⟨H.wd s b h.1, G.wd s b h.2⟩
  rd s h := ⟨H.rd s h.1, G.rd s h.2⟩
  rs s h := ⟨H.rs s h.1, G.rs s h.2⟩
  waFirst s b h := ⟨H.waFirst s b h.1, G.waFirst s b h.2⟩
  addr s a m h := ⟨H.addr s a m h.1, G.addr s a m h.2⟩
  reg s i a h := ⟨H.reg s i a h.1, G.reg s i a h.2⟩
  command s i a h hr := ⟨H.command s i a h.1 hr, G.command s i a h.2 hr⟩

theorem KeptByBus.and {P Q : State → Prop} (H : KeptByBus P) (G : KeptByBus Q) : KeptByBus (fun s => P s ∧ Q s) where
  toKeptByCycles := H.toKeptByCycles.and G.toKeptByCycles
  resetOp s h := ⟨H.resetOp s h.1, G.resetOp s h.2⟩
  strobes s l h := ⟨H.strobes s l h.1, G.strobes s l h.2⟩

theorem KeptByLine.and {P Q : State → Prop} (H : KeptByLine P) (G : KeptByLine Q) :
    KeptByLine (fun s => P s ∧ Q s) where
  setPipe s p h := ⟨H.setPipe s p h.1, G.setPipe s p h.2⟩
  clearPaletteDirty s h := ⟨H.clearPaletteDirty s h.1, G.clearPaletteDirty s h.2⟩
  setPalette s k i e h := ⟨H.setPalette s k i e h.1, G.setPalette s k i e h.2⟩
  draw s h := ⟨H.draw s h.1, G.draw s h.2⟩
  mergeSpriteFlags s f h := ⟨H.mergeSpriteFlags s f h.1, G.mergeSpriteFlags s f h.2⟩
  handOff s y r h := ⟨H.handOff s y r h.1, G.handOff s y r h.2⟩
  updateLineStatus s y r h := ⟨H.updateLineStatus s y r h.1, G.updateLineStatus s y r h.2⟩
  raiseEndOfFrame s h := ⟨H.raiseEndOfFrame s h.1, G.raiseEndOfFrame s h.2⟩
  sampleTemperature s h := ⟨H.sampleTemperature s h.1, G.sampleTemperature s h.2⟩
  frameTrigger s h := ⟨H.frameTrigger s h.1, G.frameTrigger s h.2⟩
  clearConfigDirty s h := ⟨H.clearConfigDirty s h.1, G.clearConfigDirty s h.2⟩
  configSave s h := ⟨H.configSave s h.1, G.configSave s h.2⟩
  nextLine s y h := ⟨H.nextLine s y h.1, G.nextLine s y h.2⟩

/-! ## The sandbox -/

/-- Every atomic action of the sandbox keeps `P`. A run begins only where an opportunity is open, and the close of
`OnHalted` comes only with protection off. -/
structure KeptBySandbox (P : State → Prop) : Prop where
  withScript : ∀ s l, P s → P (s.withScript l)
  memWrite : ∀ s a v, P s → P (s.memWrite a v)
  protDisable : ∀ s, P s → P s.protDisable
  setCoprocPc : ∀ s pc, P s → P (s.setCoprocPc pc)
  coprocFinish : ∀ s, P s → s.protActive = false → P s.coprocFinish
  beginRun : ∀ s, P s → coprocEnabled s = true → P s.beginRun

/-- Nothing of the bus or of reset installs the protection region. -/
theorem keptByBus_protOff : KeptByBus (fun s => s.protActive = false) where
  wd _ _ h := h
  rd _ h := h
  rs _ h := h
  waFirst _ _ h := h
  addr _ _ _ h := h
  reg s i a h := by
    show (State.regEffects _ i a).protActive = false
    rw [State.regEffects_eq]
    exact h
  command s _ _ _ _ := by
    obtain ⟨r, m, _, h⟩ := s.resetOp_eq
    rw [h]
    rfl
  resetOp s _ := by
    obtain ⟨r, m, _, h⟩ := s.resetOp_eq
    rw [h]
    rfl
  strobes _ _ h := h

/-- Nothing of the pipeline installs the protection region. -/
theorem keptByLine_protOff : KeptByLine (fun s => s.protActive = false) where
  setPipe _ _ h := h
  clearPaletteDirty _ h := h
  setPalette _ _ _ _ h := h
  draw _ h := h
  mergeSpriteFlags _ _ h := h
  handOff _ _ _ h := h
  updateLineStatus _ _ _ h := h
  raiseEndOfFrame _ h := h
  sampleTemperature _ h := h
  frameTrigger _ h := h
  clearConfigDirty _ h := h
  configSave _ h := h
  nextLine _ _ h := h

section bulk

variable {P : State → Prop} {k : Collaborators} (hw : Keeps P (workPoint k))
  (hm : ∀ s a v, P s → P (s.memWrite a v))
include hw hm

theorem Keeps.bulkTransfer : Keeps P (bulkTransfer k) := by
  intro s hs
  have hp : Keeps P (bulkParams k s.cfg) :=
    hw.bgReadRange.bind fun _ => hw.bgReadRange.bind fun _ => hw.bgRead.bind fun _ => hw.bgRead.bind fun _ =>
      hw.bgRead.bind fun _ => hw.bgRead.bind fun _ => Keeps.pure _
  have hb : ∀ p off, Keeps P (bulkByte k (vramSize s.cfg) p off) := fun p off =>
    hw.bgRead.bind fun _ => hw.bgWrite hm
  exact (hp.bind fun p => (Keeps.forEach (hb p)).seq (hw.bgWrite hm)) s hs

theorem Keeps.bulkIfPending : Keeps P (bulkIfPending k) := by
  intro s hs
  refine (hw.bgRead.bind fun b => Keeps.onlyIf (x := bulkTransferIn k s.cfg) fun _ => ?_) s hs
  have hp : Keeps P (bulkParams k s.cfg) :=
    hw.bgReadRange.bind fun _ => hw.bgReadRange.bind fun _ => hw.bgRead.bind fun _ => hw.bgRead.bind fun _ =>
      hw.bgRead.bind fun _ => hw.bgRead.bind fun _ => Keeps.pure _
  exact hp.bind fun p => (Keeps.forEach fun _ => hw.bgRead.bind fun _ => hw.bgWrite hm).seq (hw.bgWrite hm)

end bulk

section sandbox

variable {P : State → Prop} (H : KeptBySandbox P) {k : Collaborators} (hw : Keeps P (workPoint k))
include H hw

theorem KeptBySandbox.interpret (l : List CoprocAction) : Keeps P (interpret k l) := by
  induction l with
  | nil => exact Keeps.pure _
  | cons x l ih =>
    cases x with
    | read a => exact (hw.guarded fun s => H.withScript s l).seq ih
    | write a v => exact (hw.guarded fun s h => H.withScript _ l (H.memWrite s a v h)).seq ih
    | halted pc => exact (hw.guarded fun s => H.withScript s l).seq (Keeps.pure _)
    | faulted => exact (hw.guarded fun s => H.withScript s l).seq (Keeps.pure _)

/-- The close of a halted run: protection goes off first and stays off to its end. -/
theorem KeptBySandbox.onHalted (pc : Nat) : Keeps P (onHalted k pc) := by
  intro s hs
  have hoff : Keeps (fun t => t.protActive = false) (workPoint k) := keptByLine_protOff.workPoint k keptByBus_protOff
  have hw2 := hw.and hoff
  have hrest : Keeps (fun t => P t ∧ t.protActive = false)
      (do modify fun s => s.setCoprocPc pc; bulkIfPending k; guarded (workPoint k) State.coprocFinish : Bg Unit) :=
    (Keeps.modify fun t h => ⟨H.setCoprocPc t pc h.1, h.2⟩).seq
      ((Keeps.bulkIfPending hw2 fun t a v h => ⟨H.memWrite t a v h.1, h.2⟩).seq
        (hw2.guarded fun t h => ⟨H.coprocFinish t h.1 h.2, h.2⟩))
  exact (hrest s.protDisable ⟨H.protDisable s hs, rfl⟩).1

theorem KeptBySandbox.onFaulted : Keeps P (onFaulted k) :=
  (Keeps.modify H.protDisable).seq (Keeps.bulkIfPending hw H.memWrite)

/-- One opportunity, taken where it is open. -/
theorem KeptBySandbox.coprocRun {s : State} (hs : P s) :
    P (bgState ((onlyIf (coprocEnabled s) (coprocRunBody k)) s)) := by
  cases he : coprocEnabled s with
  | false => exact hs
  | true =>
    have hout : ∀ o, Keeps P (onOutcome k o) := by
      intro o
      cases o with
      | running => exact Keeps.pure ()
      | halted pc => exact H.onHalted hw pc
      | faulted => exact H.onFaulted hw
    have hrun : Keeps P (do let o ← Machine.interpret k s.coprocScript; onOutcome k o : Bg Unit) :=
      (H.interpret hw _).bind hout
    show P (bgState ((onlyIf (!s.protActive) (modify State.beginRun) >>= fun _ =>
      (do let o ← Machine.interpret k s.coprocScript; onOutcome k o : Bg Unit)) s))
    cases hp : s.protActive with
    | false => exact hrun s.beginRun (H.beginRun s hs he)
    | true => exact hrun s hs

end sandbox

/-! ## The flash programmer -/

/-- Every atomic action of the flash programmer that leaves storage alone keeps `P`, and so does a trigger. -/
structure KeptByFlash (P : State → Prop) : Prop where
  memWrite : ∀ s a v, P s → P (s.memWrite a v)
  flashTrigger : ∀ s a, P s → P (s.flashTriggerOp a).rearmStatus
  setFlashPhase : ∀ s p, P s → P (s.setFlashPhase p)
  setFlashRetry : ∀ s n, P s → P (s.setFlashRetry n)
  raiseFlashError : ∀ s e, P s → P (s.raiseFlashError e)
  flashReturn : ∀ s, P s → P s.flashReturn

/-- Every atomic action of the flash programmer keeps `P`. -/
structure KeptByFlashWrite (P : State → Prop) : Prop extends KeptByFlash P where
  storErase : ∀ s a n, P s → P (s.storErase a n)
  storProgram : ∀ s fresh a vs, P s → P (s.storProgram fresh a vs)
  storTorn : ∀ s f a n, P s → P (s.storTorn f a n)
  openSession : ∀ s total, P s → P (s.openSession total)
  noteBlock : ∀ s target, P s → P (s.noteBlock target)
  closeSession : ∀ s, P s → P s.closeSession

section flash

variable {P : State → Prop} (H : KeptByFlash P) {k : Collaborators} (hw : Keeps P (workPoint k))
include H hw

theorem KeptByFlash.service (base n : Nat) {body : List Byte → Bg Unit} (hb : ∀ l, Keeps P (body l)) :
    Keeps P (flashService k base n body) :=
  hw.bgReadRange.bind fun l =>
    (hb l).seq (hw.guarded H.flashReturn)

theorem KeptByFlash.raise (e : FlashError) : Keeps P (flashRaise k e) :=
  hw.guarded fun s => H.raiseFlashError s e

theorem KeptByFlash.phaseTo (p : FlashPhase) : Keeps P (flashPhaseTo k p) :=
  hw.guarded fun s => H.setFlashPhase s p

theorem KeptByFlash.hintWriteBack (c : Config) (j : Nat) : Keeps P (hintWriteBack k c j) :=
  hw.bgWriteRange H.memWrite

theorem KeptByFlash.withSlot {body : Nat → Bg Unit} (hb : ∀ j, Keeps P (body j)) (slot : Option Nat) :
    Keeps P (withSlot k body slot) := by
  cases slot with
  | none => exact H.raise hw .full
  | some j => exact hb j

theorem KeptByFlash.keyedRead (c : Config) (l : List Byte) : Keeps P (flashKeyedRead k c l) :=
  hw.look.bind fun slot => H.withSlot hw (fun j =>
    hw.look.bind fun _ =>
      (hw.bgWriteRange H.memWrite).seq
        ((H.hintWriteBack hw c j).seq (H.phaseTo hw .done))) slot

theorem KeptByFlash.kread : Keeps P (kreadServiceBody k) := fun s hs =>
  H.service hw _ _ (fun l => H.keyedRead hw s.cfg l) s hs

end flash

section flashWrite

variable {P : State → Prop} (H : KeptByFlashWrite P) {k : Collaborators} (hw : Keeps P (workPoint k))
include H hw

theorem KeptByFlashWrite.erase (a n a' n' : Nat) : Keeps P (storageStep k a' n' fun s => s.storErase a n) :=
  hw.storageStep (fun s => H.storErase s a n) fun s => H.storTorn s _ a' n'

theorem KeptByFlashWrite.eraseForSession (total : Nat) : Keeps P (eraseForSession k total) :=
  fun s hs => H.erase hw _ _ _ _ s hs

theorem KeptByFlashWrite.program (fresh : Nat → Bool) (a m a' n' : Nat) (vs : List Byte) :
    Keeps P (storageStep k a' n' fun s => (s.storProgram fresh a vs).cacheFlush a m) :=
  hw.storageStep (fun s => H.storProgram s fresh a vs) fun s => H.storTorn s _ a' n'

theorem KeptByFlashWrite.programBlock (b : FwBlock) : Keeps P (fwProgramBlock k b) :=
  fun s hs => H.program hw _ _ _ _ _ _ s hs

theorem KeptByFlashWrite.firmware (l : List Byte) : Keeps P (flashFirmware k l) := by
  have hph := H.toKeptByFlash.phaseTo hw
  have herase : Keeps P (fwErase k (fwBlock l)) :=
    (hph _).seq ((H.eraseForSession hw _).seq (Keeps.modify fun s => H.openSession s _))
  have hprog : Keeps P (fwProgram k (fwBlock l)) :=
    (hph _).seq ((H.programBlock hw _).seq
      ((Keeps.modify fun s => H.noteBlock s _).seq
        ((Keeps.onlyIf fun _ => Keeps.modify H.closeSession).seq (hph _))))
  intro s hs
  unfold flashFirmware
  split
  · exact H.toKeptByFlash.raise hw _ s hs
  · exact ((Keeps.onlyIf fun _ => herase).seq hprog) s hs

theorem KeptByFlashWrite.fw : Keeps P (fwServiceBody k) := fun s hs =>
  H.toKeptByFlash.service hw _ _ (H.firmware hw) s hs

theorem KeptByFlashWrite.attempt (base n : Nat) (page : List Byte) : Keeps P (writeAttempt k base n page) := by
  have hph := H.toKeptByFlash.phaseTo hw
  exact (hph _).seq ((H.erase hw _ _ _ _).seq ((hph _).seq ((H.program hw _ _ _ _ _ _).seq hw.look)))

theorem KeptByFlashWrite.writeLoop (c : Config) (j : Nat) (page : List Byte) (left : Nat) :
    Keeps P (writeLoop k c j page left) := by
  have hdone : Keeps P (writeDone k c j) :=
    (H.toKeptByFlash.hintWriteBack hw c j).seq (H.toKeptByFlash.phaseTo hw _)
  induction left with
  | zero =>
    refine (H.attempt hw _ _ page).bind fun matched => ?_
    cases matched with
    | false => exact H.toKeptByFlash.raise hw _
    | true => exact hdone
  | succ n ih =>
    refine (H.attempt hw _ _ page).bind fun matched => ?_
    cases matched with
    | false => exact (hw.guarded fun s => H.setFlashRetry s _).seq ih
    | true => exact hdone

theorem KeptByFlashWrite.keyedWrite (c : Config) (l : List Byte) : Keeps P (flashKeyedWrite k c l) :=
  hw.look.bind fun slot => H.toKeptByFlash.withSlot hw (fun j =>
    hw.look.bind fun _ => hw.look.bind fun _ =>
      H.writeLoop hw c j _ _) slot

theorem KeptByFlashWrite.kwrite : Keeps P (kwriteServiceBody k) := fun s hs =>
  H.toKeptByFlash.service hw _ _ (fun l => H.keyedWrite hw s.cfg l) s hs

end flashWrite

/-! ## exec -/

/-- The operations that may change storage. -/
def Instr.touchesStorage : Instr → Bool
  | .flashFw => true
  | .flashKwrite => true
  | _ => false

/-- Everything that may fall inside or be an action of an operation keeps `P`, but for the actions that write storage;
`reset` is asked of the operation `RESET` alone. -/
structure KeptByExec (P : State → Prop) : Prop extends KeptByCycles P, KeptByLine P, KeptBySandbox P, KeptByFlash P where
  point : Keeps P linePoint
  work : Keeps P (workPoint Config.collab)

/-- What is kept, reset and strobes included, is kept by the points too. -/
theorem KeptByExec.ofBus {P : State → Prop} (B : KeptByBus P) (L : KeptByLine P) (S : KeptBySandbox P)
    (F : KeptByFlash P) : KeptByExec P :=
  { B.toKeptByCycles, L, S, F with
    point := B.linePoint
    work := L.workPoint Config.collab B }

/-- What is kept in states with no strobe pending. -/
theorem KeptByExec.ofQuiet {P : State → Prop} (h : ∀ s, P s → s.strobes = []) (C : KeptByCycles P) (L : KeptByLine P)
    (S : KeptBySandbox P) (F : KeptByFlash P) : KeptByExec P :=
  { C, L, S, F with
    point := Keeps.ofQuiet linePoint_quiet h
    work := Keeps.ofQuiet (workPoint_quiet Config.collab) h }

/-- What every action but those on storage keeps, every operation but the two that write storage keeps. -/
theorem KeptByExec.exec {P : State → Prop} (H : KeptByExec P) {i : Instr} {s t : State}
    (h : exec i s = .next t) (hr : i = .reset → P s.resetOp) (hi : Instr.touchesStorage i = false) (hs : P s) :
    P t := by
  have B := H.toKeptByCycles
  have next : ∀ {u : State}, (Host.Outcome.next u : Host.Outcome State Fault Refusal) = .next t → P u → P t := by
    intro u hu hP
    cases hu
    exact hP
  have bg : ∀ {x : Bg Unit}, runBg x s = .next t → P (bgState (x s)) → P t := fun hu hP => next hu hP
  cases i with
  | wd b => exact next h (B.wd s b hs)
  | waFirst b => exact next h (B.waFirst s b hs)
  | waSecond b => exact next h (B.waSecond b hs)
  | rd => exact next h (B.rd s hs)
  | rs => exact next h (B.rs s hs)
  | setaddrR a => exact next h (B.addr s a 0 hs)
  | setaddrW a => exact next h (B.addr s a 1 hs)
  | regwrite idx val => exact next h (B.regPair idx val hs)
  | flashTrigger v => exact next h (H.flashTrigger s v hs)
  | flashFw => cases hi
  | flashKread => exact bg h (Keeps.onlyIf (fun _ => H.toKeptByFlash.kread H.work) s hs)
  | flashKwrite => cases hi
  | coprocTrigger => exact next h (H.frameTrigger s hs)
  | reset => exact next h (hr rfl)
  | line => exact bg h (H.toKeptByLine.lineBody H.point Config.collab s hs)
  | frameEnd => exact bg h (H.toKeptByLine.frameEndBody H.point s hs)
  | coprocRun => exact bg h (H.toKeptBySandbox.coprocRun H.work hs)
  | bulkXfer => exact bg h (Keeps.bulkTransfer H.work H.toKeptBySandbox.memWrite s hs)
  | paletteRebuild => exact bg h (H.toKeptByLine.paletteRebuildBody H.point Config.collab s hs)
  | protFault => exact bg h (Keeps.onlyIf (fun _ => H.toKeptBySandbox.onFaulted H.work) s hs)
  | setreg r v => exact next h (B.busCycles _ hs)
  | setraddr a => exact next h (B.busCycles _ hs)
  | setwaddr a => exact next h (B.busCycles _ hs)
  | selstatus v => exact next h (B.busCycles _ hs)
  | unlock => exact next h (B.busCycles _ hs)
  | fill a bytes => exact next h (B.busCycles _ hs)
  | dump a n => exact next h (B.busCycles _ hs)

/-- What every action keeps, those on storage included, every operation keeps. -/
theorem KeptByExec.execAll {P : State → Prop} (H : KeptByExec P) (W : KeptByFlashWrite P) {i : Instr} {s t : State}
    (h : Machine.exec i s = .next t) (hr : i = .reset → P s.resetOp) (hs : P s) : P t := by
  cases hi : Instr.touchesStorage i with
  | false => exact H.exec h hr hi hs
  | true =>
    have bg : ∀ {x : Bg Unit}, runBg x s = .next t → P (bgState (x s)) → P t := by
      intro x hu hP
      cases hu
      exact hP
    cases i <;> cases hi
    · exact bg h (Keeps.onlyIf (fun _ => W.fw H.work) s hs)
    · exact bg h (Keeps.onlyIf (fun _ => W.kwrite H.work) s hs)

/-- What every operation keeps, every step keeps. -/
theorem step_keeps {P : State → Prop} (hexec : ∀ {i s t}, exec i s = .next t → P s → P t)
    (hin : ∀ s l, P s → P (s.withInputs l)) {s t : State} (h : step s = .next t) (hs : P s) : P t := by
  unfold step at h
  split at h
  · split at h
    · cases h; exact hs
    · split at h
      · exact hexec h (hin s _ hs)
      · cases h
  · cases h

end Sys2Proof.Machine
end

