-- ==== Sys2Proof/Laws/PerInstr.lean ====
section
/-! SUPPORT. Per instruction: the line that encodes it has the fixed bits of its row of spec/opcode_table.json. -/

namespace Sys2Proof.Laws.EncodesItsRow

/-- The fixed bits of a row: `RD`, `MODE` of a cycle; `K` and, where fixed, `M` of a pair; `GO` of a trigger value;
`GO`, `MODE` and, where fixed, `READ` of a service; the number of an event; the name of a pseudo-operation. -/
inductive Row where
  | cycle (rd mode : Bool)
  | pair (k : Bool) (m : Option Bool)
  | trigger
  | service (mode : Bool) (read : Option Bool)
  | event (n : Nat)
  | pseudo (name : PseudoName)

/-- The row of an operation, column `match`/`mask` (or `expansion`) of the table. -/
def row : Instr → Row
  | .wd _ => .cycle false false
  | .waFirst _ => .cycle false true
  | .waSecond _ => .cycle false true
  | .rd => .cycle true false
  | .rs => .cycle true true
  | .setaddrR _ => .pair false (some false)
  | .setaddrW _ => .pair false (some true)
  | .regwrite _ _ => .pair true none
  | .flashTrigger _ => .trigger
  | .flashFw => .service false none
  | .flashKread => .service true (some true)
  | .flashKwrite => .service true (some false)
  | .coprocTrigger => .event 3
  | .reset => .event 0
  | .line => .event 1
  | .frameEnd => .event 2
  | .coprocRun => .event 4
  | .bulkXfer => .event 5
  | .paletteRebuild => .event 10
  | .protFault => .event 11
  | .setreg _ _ => .pseudo .setreg
  | .setraddr _ => .pseudo .setraddr
  | .setwaddr _ => .pseudo .setwaddr
  | .selstatus _ => .pseudo .selstatus
  | .unlock => .pseudo .unlock
  | .fill _ _ => .pseudo .fill
  | .dump _ _ => .pseudo .dump

/-- A line has the fixed bits of a row. -/
def fits : Row → TraceLine → Prop
  | .cycle rd mode, .cycle w => w.getLsbD 9 = rd ∧ w.getLsbD 8 = mode
  | .pair k m, .pair w => w.getLsbD 15 = k ∧ ∀ b, m = some b → w.getLsbD 14 = b
  | .trigger, .trigger w => w.getLsbD 7 = true
  | .service mode read, .service w => w.getLsbD 7 = true ∧ w.getLsbD 0 = mode ∧ ∀ b, read = some b → w.getLsbD 1 = b
  | .event n, .event w => w.toNat = n
  | .pseudo name, .pseudo name' _ => name' = name
  | _, _ => False

/-- The encoding of an operation has the fixed bits of its row. -/
def Statement (i : Instr) : Prop := i.wellFormed = true → fits (row i) (encode i)

theorem wd (b : Byte) : Statement (.wd b) := fun _ =>
  ⟨by rw [wdWord, BitVec.getLsbD_append]; rfl, by rw [wdWord, BitVec.getLsbD_append]; rfl⟩
theorem waFirst (b : Byte) : Statement (.waFirst b) := fun _ =>
  ⟨by rw [waWord, BitVec.getLsbD_append]; rfl, by rw [waWord, BitVec.getLsbD_append]; rfl⟩
theorem waSecond (b : Byte) : Statement (.waSecond b) := fun _ =>
  ⟨by rw [waWord, BitVec.getLsbD_append]; rfl, by rw [waWord, BitVec.getLsbD_append]; rfl⟩
theorem rd : Statement .rd := fun _ => ⟨rfl, rfl⟩
theorem rs : Statement .rs := fun _ => ⟨rfl, rfl⟩
theorem setaddrR (a : BitVec 14) : Statement (.setaddrR a) := fun _ =>
  ⟨by rw [BitVec.getLsbD_append]; rfl, fun _ h => by cases h; rw [BitVec.getLsbD_append]; rfl⟩
theorem setaddrW (a : BitVec 14) : Statement (.setaddrW a) := fun _ =>
  ⟨by rw [BitVec.getLsbD_append]; rfl, fun _ h => by cases h; rw [BitVec.getLsbD_append]; rfl⟩
theorem regwrite (i : RegIndex) (v : Byte) : Statement (.regwrite i v) := fun _ =>
  ⟨by rw [BitVec.getLsbD_append, BitVec.getLsbD_append]; rfl, fun _ h => nomatch h⟩
theorem flashTrigger (v : Byte) : Statement (.flashTrigger v) := fun h => h
theorem flashFw : Statement .flashFw := fun _ => ⟨rfl, rfl, fun _ h => nomatch h⟩
theorem flashKread : Statement .flashKread := fun _ => ⟨rfl, rfl, fun _ h => by cases h; rfl⟩
theorem flashKwrite : Statement .flashKwrite := fun _ => ⟨rfl, rfl, fun _ h => by cases h; rfl⟩
theorem coprocTrigger : Statement .coprocTrigger := fun _ => rfl
theorem reset : Statement .reset := fun _ => rfl
theorem line : Statement .line := fun _ => rfl
theorem frameEnd : Statement .frameEnd := fun _ => rfl
theorem coprocRun : Statement .coprocRun := fun _ => rfl
theorem bulkXfer : Statement .bulkXfer := fun _ => rfl
theorem paletteRebuild : Statement .paletteRebuild := fun _ => rfl
theorem protFault : Statement .protFault := fun _ => rfl
theorem setreg (r : RegIndex) (v : Byte) : Statement (.setreg r v) := fun _ => rfl
theorem setraddr (a : BitVec 14) : Statement (.setraddr a) := fun _ => rfl
theorem setwaddr (a : BitVec 14) : Statement (.setwaddr a) := fun _ => rfl
theorem selstatus (s : Byte) : Statement (.selstatus s) := fun _ => rfl
theorem unlock : Statement .unlock := fun _ => rfl
theorem fill (a : BitVec 14) (bs : List Byte) : Statement (.fill a bs) := fun _ => rfl
theorem dump (a : BitVec 14) (n : Nat) : Statement (.dump a n) := fun _ => rfl

end Sys2Proof.Laws.EncodesItsRow
end

