-- ==== Sys2Proof/Tests/Slice0.lean ====
section
/-! SUPPORT. Our own tests. Expected values are those of spec/95_test_vectors.md (named V<n>, P<n>) or are worked out
by hand from the rule named. Three parts: words and terms, one step of each operation, and for every obligation with
hypotheses a state that meets them. -/

namespace Sys2Proof.Tests

open Sys2Proof Sys2Proof.Machine

/-! ## Helpers -/

/-- The next state of an outcome; the reset state where there is none. -/
def after (o : Host.Outcome State Fault Refusal) : State :=
  match o with
  | .next s => s
  | _ => State.reset

/-- A state with some bytes of video memory written. -/
def vm (l : List (Nat × Byte)) (s : State) : State := l.foldl (fun t e => t.memWrite e.1 e.2) s

/-- A run of bytes of video memory. -/
def run (s : State) (a n : Nat) : List Byte := (List.range n).map fun k => s.memRead (a + k)

/-- A run of bytes staged at `STAGE_BASE` of T0. -/
def stage (l : List Byte) (s : State) : State := { s with vram := Mem.fill vramUnlisted s.vram 0x3000 l }

/-- T0 with 64-byte erase pages, two keyed slots of 16 payload bytes each, and rows of two pixels. -/
def small : Config :=
  { Config.t0 with erasePageBits := 6, kbPayloadBytes := 16, kbSlotCount := 2, linePixels := 2 }

/-- The reset state, unlocked. -/
def open0 : State := { State.reset with unlocked := true }

/-- The reset state in the small configuration. -/
def small0 : State := State.resetWith small

/-- The stub collaborators of T0 (spec/95_test_vectors.md section 0), with sprite flags `f`. -/
def stub (f : SpriteFlags) : Collaborators where
  scanReads _ := 4
  scanNext row answers := .vram ((row * 4 + answers.length) % 16384)
  scanIndex _ answers p := (byteAt answers p &&& 0x0F).toNat
  scanFlags _ _ := f
  overlayRegion _ := false
  overlayPixel _ _ _ := 0
  paletteExpand e := (byteAt e 0).toNat * 256 + (byteAt e 1).toNat
  darken p := p

/-- One `LINE` with the stub collaborators. -/
def lineWith (f : SpriteFlags) (s : State) : State := bgState (lineBody (stub f) s)

/-- A pending flash request of the small configuration, after the given trigger value, with bytes staged. -/
def pending (c : Config) (trigger : Byte) (staged : List Byte) : State :=
  after (exec (.flashTrigger trigger) (stage staged (State.resetWith c)))

/-- The preamble of block FW0 of spec/95_test_vectors.md 2.5, with its first byte, sequence number and total given. -/
def fwHead (first seq total : Byte) : List Byte :=
  [first, 0x46, 0x32, 0x0A, 0x57, 0x51, 0x5D, 0x9E, 0x00, 0x20, 0x00, 0x00, 0x00, 0x00, 0x01, 0x00,
    0x00, 0x01, 0x00, 0x00, seq, 0, 0, 0, total, 0, 0, 0, 0x56, 0xFF, 0x8B, 0xE4]

/-- A block as FW0 with payload 0x11, then 255 zeros. -/
def fwStage (first seq total : Byte) : List Byte :=
  fwHead first seq total ++ 0x11 :: List.replicate 255 0 ++ [0x30, 0x6F, 0xB1, 0x0A]

/-- The identifier 01 .. 10 of V62. -/
def ident : List Byte := [1, 2, 3, 4, 5, 6, 7, 8, 9, 10, 11, 12, 13, 14, 15, 16]

/-- A keyed block: hint FF FF FF FF, the identifier, and 16 payload bytes. -/
def kbStage (payload : List Byte) : List Byte := [0xFF, 0xFF, 0xFF, 0xFF] ++ ident ++ payload

/-- Sixteen payload bytes. -/
def payload : List Byte := [0, 3, 6, 9, 12, 15, 18, 21, 24, 27, 30, 33, 36, 39, 42, 45]

/-! ## WellFormed: each check refuses an ill-formed term -/

theorem test_wellFormed_refuses_trigger_without_go : (Instr.flashTrigger 0x7F).wellFormed = false := by decide
theorem test_wellFormed_takes_trigger_with_go : (Instr.flashTrigger 0x80).wellFormed = true := by decide
theorem test_wellFormed_refuses_empty_fill : (Instr.fill 0 []).wellFormed = false := by decide
theorem test_wellFormed_takes_fill : (Instr.fill 0 [0]).wellFormed = true := by decide

/-! ## Decoding: words written out from the spec's encodings -/

/-- R91: bits 9:8 = 00, data 10101011. -/
theorem test_decode_wd : decode DecodeCtx.atReset (.cycle 0b0010101011) = .ok (.wd 0xAB) := by decide
/-- R91, R96: bits 9:8 = 01 with no byte pending. -/
theorem test_decode_waFirst : decode DecodeCtx.atReset (.cycle 0b0100110100) = .ok (.waFirst 0x34) := by decide
/-- R91, R96: bits 9:8 = 01 with a byte pending. -/
theorem test_decode_waSecond :
    decode { writeStage := 1, trigValue := 0 } (.cycle 0b0110000010) = .ok (.waSecond 0x82) := by decide
/-- R91: bits 9:8 = 10; the data bits are ignored. -/
theorem test_decode_rd : decode DecodeCtx.atReset (.cycle 0b1011111111) = .ok .rd := by decide
/-- R91: bits 9:8 = 11; the data bits are ignored. -/
theorem test_decode_rs : decode DecodeCtx.atReset (.cycle 0b1100000000) = .ok .rs := by decide
/-- R93: bits 15:14 = 00, address 01_0010_0011_0100. -/
theorem test_decode_setaddrR : decode DecodeCtx.atReset (.pair 0b0001001000110100) = .ok (.setaddrR 0x1234) := by decide
/-- R93: bits 15:14 = 01, address 11_1111_1111_1111. -/
theorem test_decode_setaddrW : decode DecodeCtx.atReset (.pair 0b0111111111111111) = .ok (.setaddrW 0x3FFF) := by decide
/-- R93, R95: bit 15 = 1, index 000010, value 0; bit 14 is ignored. -/
theorem test_decode_regwrite : decode DecodeCtx.atReset (.pair 0b1000001000000000) = .ok (.regwrite 2 0x00) := by decide
theorem test_decode_regwrite_ignored_bit :
    decode DecodeCtx.atReset (.pair 0b1111111111110100) = .ok (.regwrite 63 0xF4) := by decide
/-- R98: `GO` set: keyed write on the bus side. -/
theorem test_decode_flashTrigger : decode DecodeCtx.atReset (.trigger 0b10000001) = .ok (.flashTrigger 0x81) := by decide
/-- R98: `GO` clear is a plain store. -/
theorem test_decode_trigger_without_go : decode DecodeCtx.atReset (.trigger 0b00000011) = .error .noTrigger := by decide
/-- R98: bit 0 clear is firmware; bit 1 is then ignored. -/
theorem test_decode_flashFw : decode DecodeCtx.atReset (.service 0b10000010) = .ok .flashFw := by decide
theorem test_decode_flashKwrite : decode DecodeCtx.atReset (.service 0b10000001) = .ok .flashKwrite := by decide
theorem test_decode_flashKread : decode DecodeCtx.atReset (.service 0b10000011) = .ok .flashKread := by decide

/-- R111: the event numbers 0 to 5, 10 and 11. -/
theorem test_decode_events :
    ([0, 1, 2, 3, 4, 5, 10, 11].map fun n => decode DecodeCtx.atReset (.event n)) =
      [.ok .reset, .ok .line, .ok .frameEnd, .ok .coprocTrigger, .ok .coprocRun, .ok .bulkXfer, .ok .paletteRebuild,
        .ok .protFault] := by decide

/-- R111: event 6 is the trigger with the value of the trigger register; 7 to 9 are the services; 12 to 15 name none. -/
theorem test_decode_events_flash :
    ([6, 7, 8, 9, 12, 15].map fun n => decode { writeStage := 0, trigValue := 0x80 } (.event n)) =
      [.ok (.flashTrigger 0x80), .ok .flashFw, .ok .flashKread, .ok .flashKwrite, .error .noSuchEvent,
        .error .noSuchEvent] := by decide

/-- R97: each pseudo-operation with its operands. -/
theorem test_decode_pseudo :
    [decode DecodeCtx.atReset (.pseudo .setreg [63, 255]), decode DecodeCtx.atReset (.pseudo .setraddr [0x3FFF]),
      decode DecodeCtx.atReset (.pseudo .setwaddr [0x1234]), decode DecodeCtx.atReset (.pseudo .selstatus [12]),
      decode DecodeCtx.atReset (.pseudo .unlock []), decode DecodeCtx.atReset (.pseudo .fill [0, 1, 255]),
      decode DecodeCtx.atReset (.pseudo .dump [0x100, 3])] =
    [.ok (.setreg 63 255), .ok (.setraddr 0x3FFF), .ok (.setwaddr 0x1234), .ok (.selstatus 12), .ok .unlock,
      .ok (.fill 0 [1, 255]), .ok (.dump 0x100 3)] := by decide

/-- R97: an operand out of range, a missing operand, an empty run. -/
theorem test_decode_pseudo_refused :
    [decode DecodeCtx.atReset (.pseudo .setreg [64, 0]), decode DecodeCtx.atReset (.pseudo .setreg [0]),
      decode DecodeCtx.atReset (.pseudo .fill [0]), decode DecodeCtx.atReset (.pseudo .setraddr [0x4000])] =
    [.error .badOperands, .error .badOperands, .error .badOperands, .error .badOperands] := by decide

/-- R97: the words of V23 and V8: `SETREG 15, 3` and `SETWADDR 0x1234`. -/
theorem test_expand_pseudo :
    setregWords 15 0x03 = [0x103, 0x18F] ∧ setwaddrWords 0x1234 = [0x134, 0x152] ∧ setraddrWords 0x1234 = [0x134, 0x112] ∧
    unlockWords Config.t0 = [0x11C, 0x1B9, 0x11C, 0x1B9] := by decide

/-- Table words: the same words, numbered as the opcode table numbers them. -/
theorem test_table_words :
    decodeTableWord 16 0x0AB = some (.wd 0xAB) ∧ decodeTableWord 16 0x200 = some .rd ∧
    decodeTableWord 16 0x8200 = some (.regwrite 2 0) ∧ decodeTableWord 8 0x01 = some .line ∧
    decodeTableWord 8 0x83 = some .flashKread := by decide

/-! ## One step of each operation -/

/-- V1. -/
theorem test_wd : (let t := after (exec (.wd 0xAB) (vm [(0x11, 0x77)] { State.reset with addressLatch := 0x10 }))
    (t.memRead 0x10, t.addressLatch, t.raData, t.writeStage)) = (0xAB, 0x11, 0x77, 0) := by decide

/-- V2: the last address wraps. -/
theorem test_wd_wraps : (let t := after (exec (.wd 0x01) (vm [(0, 0x5A)] { State.reset with addressLatch := 0x3FFF }))
    (t.memRead 0x3FFF, t.addressLatch, t.raData)) = (0x01, 0, 0x5A) := by decide

/-- V12: the high bits of the latch are kept, and the first byte moves the data port. -/
theorem test_waFirst : (let t := after (exec (.waFirst 0x56) (vm [(0x1256, 9)] { State.reset with addressLatch := 0x1234 }))
    (t.addressLatch, t.writeStage, t.raData)) = (0x1256, 1, 9) := by decide

/-- V8, second byte 0x52: the mode bit is recorded and the address is its low six bits. -/
theorem test_waSecond_address :
    (let t := after (exec (.waSecond 0x52) (vm [(0x1234, 0xEE)] { State.reset with addressLatch := 0x34, writeStage := 1 }))
    (t.addressLatch, t.addressAutoIncrement, t.writeStage, t.raData)) = (0x1234, 1, 0, 0xEE) := by decide

/-- V24, the second of its two writes: the unlock completes after the store, which the lock still remaps. -/
theorem test_waSecond_register :
    (let t := after (exec (.waSecond 0xB9)
      { State.reset with addressLatch := 0x1C, writeStage := 1, unlockProgress := 1 })
    (t.unlocked, t.x 1, t.x 57, t.writeStage)) = (true, 0x1C, 0, 0) := by decide

/-- V5. -/
theorem test_rd :
    (let t := after (exec .rd (vm [(0x100, 0x11), (0x101, 0x22)] { State.reset with addressLatch := 0x100, raData := 0x11 }))
    (t.hostReads, t.addressLatch, t.raData)) = ([0x11], 0x101, 0x22) := by decide

/-- V15: the latch is stale after a background write, and `RD` returns the stale byte. -/
theorem test_rd_stale :
    (let t := after (exec .rd (vm [(0x100, 0x99)] { State.reset with addressLatch := 0x100, raData := 0x11 }))
    (t.hostReads, t.addressLatch)) = ([0x11], 0x101) := by decide

/-- V3. -/
theorem test_rs :
    (let t := after (exec .rs { ((State.reset.setSt 0 0xA3).setX 1 0x20) with interruptLine := true, raStatus := 0xA3 })
    (t.hostReads, t.st 0, t.raStatus, t.interruptLine)) = ([0xA3], 0x03, 0x03, false) := by decide

/-- V28: another register is selected: nothing is cleared there, nor in status 0. -/
theorem test_rs_selected :
    (let t := after (exec .rs { (((State.reset.setSt 3 0x55).setSt 0 0x80).setX 15 0x13) with raStatus := 0x55 })
    (t.hostReads, t.st 3, t.st 0, t.raStatus)) = ([0x55], 0x55, 0x80, 0x55) := by decide

/-- V7 as a whole pair. -/
theorem test_setaddrR : (let t := after (exec (.setaddrR 0x1234) (vm [(0x1234, 0xEE)] State.reset))
    (t.addressLatch, t.addressAutoIncrement, t.writeStage, t.raData)) = (0x1234, 0, 0, 0xEE) := by decide

/-- V10 with the write mode. -/
theorem test_setaddrW : (let t := after (exec (.setaddrW 0x3FFF) (vm [(0x3FFF, 7)] State.reset))
    (t.addressLatch, t.addressAutoIncrement, t.raData)) = (0x3FFF, 1, 7) := by decide

/-- V21: the first byte stays in the low half of the address latch. -/
theorem test_regwrite : (let t := after (exec (.regwrite 7 0xF4) { State.reset with addressLatch := 0x1200 })
    (t.x 7, t.addressLatch, t.unlocked)) = (0xF4, 0x12F4, false) := by decide

/-- V32: the flash trigger through the register. -/
theorem test_regwrite_trigger : (let t := after (exec (.regwrite 63 0x80) (open0.setSt 12 0x60))
    (t.x 63, t.flashRequested, t.flashMode, t.st 12, t.st 2)) =
    (0x80, true, { keyed := false, read := false }, 0x80, 0x40) := by decide

/-- V35: a keyed read, accepted. -/
theorem test_flashTrigger : (let t := after (exec (.flashTrigger 0x83) State.reset)
    (t.flashMode, t.flashRequested, t.st 12, t.st 2)) = ({ keyed := true, read := true }, true, 0x80, 0x40) := by decide

/-- V33: dropped while a request is pending. -/
theorem test_flashTrigger_busy :
    (let t := after (exec (.flashTrigger 0x83) (after (exec (.flashTrigger 0x80) State.reset)))
    (t.flashMode, t.flashError, t.st 12)) = ({ keyed := false, read := false }, .busy, 0x85) := by decide

/-- V60, with a short erase: the block is programmed, the session opens, the status byte is 0x60. By R222 and R296 the
block's bytes are then no erased bytes any more, those up to the end of the 512 erased ones are, and none beyond. -/
theorem test_flashFw :
    (let t := after (exec .flashFw (pending small 0x80 (fwStage 0x55 0 2)))
    (t.st 12, t.fwSessionActive, t.flashRequested, [0x10000, 0x10001, 0x10100].map t.storByte,
      [0xFFFF, 0x10000, 0x100FF, 0x10100, 0x101FF, 0x10200].map t.sessionFresh)) =
    (0x60, true, false, [0x11, 0x00, 0xFF], [false, false, false, true, true, false]) := by decide +kernel

/-- U5, R296: a byte that reads 0xFF but is not erased in the session takes any value, not the data. -/
theorem test_program_stale :
    (small0.storProgram small0.sessionFresh 0x10000 [0x11]).storByte 0x10000 = Config.programmedByte 0 0x10000 0xFF 0x11 := by
  unfold State.storByte
  rw [State.read_storProgram, if_pos (by decide), show small0.sessionFresh 0x10000 = false from by decide]
  exact programmed_stale

/-- V61: a wrong first magic byte: `HEADER`, storage as it was. -/
theorem test_flashFw_header :
    (let t := after (exec .flashFw (pending small 0x80 (fwStage 0x54 0 2)))
    (t.st 12, t.fwSessionActive, t.flashRequested, t.storage)) = (0x01, false, false, []) := by decide +kernel

/-- V62: the first free slot takes identifier and payload; the slot index is written back. -/
theorem test_flashKwrite :
    (let t := after (exec .flashKwrite (pending small 0x81 (kbStage payload)))
    (t.st 12, t.storRead 0x80000 32, t.storRead 0x80020 2, run t 0x3000 4)) =
    (0x60, ident ++ payload, [0xFF, 0xFF], [0, 0, 0, 0]) := by decide +kernel

/-- V62f in the small configuration: both slots taken by others: `FULL`. -/
theorem test_flashKwrite_full :
    (let t := after (exec .flashKwrite
      { pending small 0x81 (kbStage payload) with storage := [(0x80000, 0x77), (0x80020, 0x77)] })
    (t.st 12, t.storage)) = (0x06, [(0x80000, 0x77), (0x80020, 0x77)]) := by decide +kernel

/-- V63: the payload of the slot with the staged identifier is copied to the staging buffer. -/
theorem test_flashKread :
    (let t := after (exec .flashKread
      { pending small 0x83 (kbStage []) with
        storage := Mem.fill storageUnlisted [] 0x80020 (ident ++ payload) })
    (t.st 12, run t 0x3014 16, run t 0x3000 4)) = (0x60, payload, [1, 0, 0, 0]) := by decide +kernel

/-- V30 as a step of its own. -/
theorem test_coprocTrigger : (let t := after (exec .coprocTrigger (State.reset.setSt 2 0x40))
    (t.coprocessorRequested, t.st 2)) = (true, 0xC0) := by decide

/-- V71, V72. -/
theorem test_reset :
    (let t := after (exec .reset { (((State.reset.setX 15 3).setSt 0 0x80).setSt 12 0x80) with
      unlocked := true, interruptLine := true, writeStage := 1, fwSessionActive := true, flashRequested := true,
      sessionErased := 512, sessionProgrammed := [0x10000], lineY := 9, storage := [(5, 1)] })
    ([t.unlocked, t.interruptLine, t.paletteDirty, t.flashRequested, t.fwSessionActive], [t.x 15, t.st 0, t.st 12],
      t.writeStage, [t.lineY, t.sessionErased, t.sessionProgrammed.length], t.storage)) =
      ([false, false, true, false, false], [0, 0, 0], 0, [0, 0, 0], [(5, 1)]) := by decide

/-- V42: a line of `SYNC`. -/
theorem test_line_sync : (let t := after (exec .line State.reset)
    (t.pipeState, t.paletteDirty, t.st 3, t.st 1, t.lineY, t.fillSel)) = (.idle, true, 0xD8, 0x01, 1, 0) := by decide

/-- V44: the last active line, with V48's sprite flags. -/
theorem test_line_endOfFrame :
    (let t := lineWith { orMask := 0x40, idxOpt := some 7 } ((small0.setX 1 0x20).setSt 0 0x1F |>.withInputs [] |>
      fun s => { s with lineY := 231, paletteDirty := false })
    (t.st 3, t.st 0, t.interruptLine, t.raStatus, t.lineY)) = (0xBF, 0xC7, true, 0xC7, 232) := by decide

/-- V40 with two pixels: the palette is rebuilt, then the row is converted and handed off. -/
theorem test_line_display :
    (let t := lineWith { orMask := 0, idxOpt := none }
      { vm [(0, 1), (1, 2), (0x3F02, 0x12), (0x3F03, 0x34), (0x3F04, 0x56), (0x3F05, 0x78)] (small0.setSt 1 1) with
        lineY := 40 }
    (t.videoOut, [t.st 3, t.st 1], t.paletteDirty, t.fillSel)) = ([(40, [0x1234, 0x5678])], [0x00, 0x00], false, 1) := by
  decide +kernel

/-- V46 as a step of its own: the per-frame trigger. -/
theorem test_frameEnd : (let t := after (exec .frameEnd (State.reset.setX 50 0x01))
    (t.coprocessorRequested, t.st 2, t.configDirty)) = (true, 0x80, false) := by decide

/-- V50: the transfer copies a 2 x 2 block with stride 4. -/
theorem test_coprocRun :
    (let t := after (exec .coprocRun
      { vm [(0x100, 0x10), (0x101, 0x11), (0x104, 0x14), (0x105, 0x15)] (State.reset.setSt 2 0x80) with
        coprocessorRequested := true
        coprocScript := ([1, 0, 2, 0, 2, 2, 4, 0, 1].mapIdx fun k v => CoprocAction.write (0x3E00 + k) v) ++ [.halted 0x40] })
    (run t 0x200 6, t.memRead 0x3E08, t.protActive, t.coprocessorProgramCounter, t.coprocessorRequested, t.st 2)) =
    ([0x10, 0x11, 0, 0, 0x14, 0x15], 0, false, 0x40, false, 0x00) := by decide +kernel

/-- V51: a fault leaves the request, the busy bit and the program counter. -/
theorem test_coprocRun_faulted :
    (let t := after (exec .coprocRun { (State.reset.setSt 2 0x80) with
        coprocessorRequested := true, coprocScript := [.write 0x200 5, .faulted, .halted 1] })
    (t.memRead 0x200, t.protActive, t.coprocessorProgramCounter, t.coprocessorRequested, t.st 2, t.coprocScript)) =
    (5, false, 0, true, 0x80, [.halted 1]) := by decide

/-- V52: both ends walk backwards. -/
theorem test_bulkXfer_back :
    (let t := after (exec .bulkXfer (vm [(0x100, 0x10), (0x101, 0x11), (0x104, 0x14), (0x105, 0x15), (0x3E00, 1), (0x3E01, 5),
      (0x3E02, 2), (0x3E03, 5), (0x3E04, 2), (0x3E05, 2), (0x3E06, 4), (0x3E07, 3), (0x3E08, 1)] State.reset))
    (run t 0x200 6, t.memRead 0x3E08)) = ([0x10, 0x11, 0, 0, 0x14, 0x15], 0) := by decide +kernel

/-- V57: the source and the destination overlap: the first byte propagates. -/
theorem test_bulkXfer_overlap :
    (let t := after (exec .bulkXfer (vm [(0x100, 0x10), (0x101, 0x11), (0x3E00, 1), (0x3E02, 1), (0x3E03, 1), (0x3E04, 4),
      (0x3E05, 1), (0x3E08, 1)] State.reset))
    (run t 0x100 6)) = [0x10, 0x10, 0x10, 0x10, 0x10, 0] := by decide +kernel

/-- R168, by hand: the flag falls and sixteen entries are expanded; entry 16 stays. -/
theorem test_paletteRebuild :
    (let t := bgState (paletteRebuildBody (stub { orMask := 0, idxOpt := none })
      (vm [(0x3F02, 0x12), (0x3F03, 0x34), (0x3F20, 0x56)] State.reset))
    (t.paletteDirty, t.paletteLUT[1], t.paletteLUT[16])) = (false, 0x1234, 0) := by decide +kernel

/-- R168, by hand: with the size decided by bit 0 of register 49, entry 16 is expanded where the bit is set. -/
theorem test_paletteRebuild_64 :
    (let sel := PalSizeSel.test 49 0x01 0x01 .size64 .size16
    let t := bgState (paletteRebuildBody (stub { orMask := 0, idxOpt := none })
      (vm [(0x3F20, 0x56), (0x3F21, 0x78)] ((State.resetWith { Config.t0 with palSizeSel := sel }).setX 49 0x03)))
    t.paletteLUT[16]) = 0x5678 := by decide +kernel

/-- R163, R166, by hand: a register write between the two pixels of a border row changes the second one only. -/
theorem test_line_border_split :
    (let t := lineWith { orMask := 0, idxOpt := none }
      { small0 with
        lineY := 16, paletteDirty := false, paletteLUT := (Vector.replicate 64 0).set 0 0xAAAA |>.set 1 0xBBBB,
        strobes := [.pass, .pass, .cycle 0x101, .cycle 0x187] }
    t.videoOut) = [(16, [0xAAAA, 0xBBBB])] := by decide +kernel

/-- R258, by hand: protection goes off; a pending transfer of width 0 clears its flag. -/
theorem test_protFault :
    (let t := after (exec .protFault (vm [(0x3E08, 1)]
      { State.reset with protActive := true, coprocessorRequested := true, coprocessorProgramCounter := 7 }))
    (t.protActive, t.coprocessorRequested, t.coprocessorProgramCounter, t.memRead 0x3E08)) = (false, true, 7, 0) := by
  decide +kernel

/-- V23: locked, index 15 reaches register 7. -/
theorem test_setreg : (let t := after (exec (.setreg 15 0x03) State.reset)
    (t.x 7, t.x 15, t.writeStage)) = (0x03, 0, 0) := by decide

/-- V13's start: with a byte pending, the first cycle of the pair is taken as a second byte. -/
theorem test_setraddr_pending :
    (let t := after (exec (.setraddr 0x1234) { State.reset with addressLatch := 0x56, writeStage := 1 })
    (t.addressLatch, t.writeStage)) = (0x3412, 1) := by decide

/-- V7, V8. -/
theorem test_setraddr : (let t := after (exec (.setraddr 0x1234) State.reset)
    (t.addressLatch, t.addressAutoIncrement)) = (0x1234, 0) := by decide
theorem test_setwaddr : (let t := after (exec (.setwaddr 0x1234) State.reset)
    (t.addressLatch, t.addressAutoIncrement)) = (0x1234, 1) := by decide

/-- P3: `SELSTATUS 12` on the unlocked core. -/
theorem test_selstatus : (let t := after (exec (.selstatus 12) (open0.setSt 12 0x60))
    (t.x 15, t.raStatus, t.addressLatch)) = (0x0C, 0x60, 0x0C) := by decide

/-- V24: unlocked, with the side effect on register 1. -/
theorem test_unlock : (let t := after (exec .unlock (State.reset.setX 1 0x20))
    (t.unlocked, t.x 1, t.x 57, t.unlockProgress)) = (true, 0x1C, 0, 2) := by decide

/-- R97, R123, by hand: three bytes across the end of video memory. -/
theorem test_fill : (let t := after (exec (.fill 0x3FFE [1, 2, 3]) State.reset)
    (t.memRead 0x3FFE, t.memRead 0x3FFF, t.memRead 0, t.addressLatch, t.addressAutoIncrement)) = (1, 2, 3, 1, 1) := by
  decide

/-- P1's reads, with three bytes. -/
theorem test_dump : (let t := after (exec (.dump 0 3) (vm [(0, 1), (1, 2), (2, 3), (3, 4)] State.reset))
    (t.hostReads, t.addressLatch, t.raData)) = ([1, 2, 3], 3, 4) := by decide

/-! ## Stepping -/

/-- A reset command in the configuration (R151), through the second byte of a pair. -/
theorem test_reset_command :
    (let t := after (exec (.regwrite 5 0x80) { State.resetWith { Config.t0 with resetCmd := some (5, 0x80) } with
      lineY := 3, flashRequested := true })
    (t.x 5, t.lineY, t.flashRequested)) = (0, 0, false) := by decide

/-- A cycle that falls inside background work (R77): it lands before the sampling of the frame boundary. -/
theorem test_strobe_inside :
    (let t := after (exec .frameEnd { State.reset with strobes := [.cycle 0x042, .pass, .cycle 0x043] })
    (t.memRead 0, t.memRead 1, t.strobes)) = (0x42, 0x43, []) := by decide

/-- U20: a reset command inside the erase of a keyed write, 41 atomic actions into the service (36 bytes copied, slot,
page, retries, phase, the point before the erase), abandons the service and draws the torn page after the reset's own
draw; one action earlier the erase has not begun and nothing is torn. -/
theorem test_reset_inside_erase :
    (let go := fun n => after (exec .flashKwrite
      { pending { small with resetCmd := some (5, 0x80) } 0x81 (kbStage payload) with
        strobes := List.replicate n .pass ++ [.cycle 0x180, .cycle 0x185] })
    [41, 40].map fun n => ((go n).flashRequested, (go n).draws)) = [(false, 2), (false, 1)] := by decide +kernel

/-- The state of reset takes a step on a placed word, and refuses a broken configuration. -/
theorem test_step : (after (step (State.reset.withFetchWord 16 0x0AB))).memRead 0 = 0xAB := by decide
theorem test_step_refuses :
    step (State.resetWith { Config.t0 with nStatus := 8 }) = .refused .invalidConfig := by rfl
/-- R23, R8: a lock mask that lets a locked write reach register 8 is refused; an area of no slots overlaps nothing. -/
theorem test_config :
    configValid { Config.t0 with lockedIndexMask := 0x0F } = false ∧
    configValid { Config.t0 with kbSlotCount := 0, kbBase := 0x11000 } = true ∧
    configValid { Config.t0 with kbBase := 0x11000 } = false := by decide

/-! ## Witnesses: states and operands that meet the hypotheses of the statements -/

/-- The reset state at a line, palette clean. -/
def atLine (y : Nat) : State := { State.reset with lineY := y, paletteDirty := false }

/-- A pending coprocessor request with the interpreter's actions given. -/
def requested (l : List CoprocAction) : State := { State.reset with coprocessorRequested := true, coprocScript := l }

/-- T0 with a reset command in bit 7 of register 5. -/
def withCommand : Config := { Config.t0 with resetCmd := some (5, 0x80) }

/-- T0 with a program-counter load through registers 54 and 55. -/
def withPcLoad : Config := { Config.t0 with coprocPcLoad := some (54, 55) }

theorem valid_t0 : configValid Config.t0 = true := by decide
theorem valid_small : configValid small = true := by decide

/-- No write is a reset command where the configuration has none. -/
theorem noCommand {c : Config} (h : c.resetCmd = none) (i : RegIndex) (v : Byte) : notResetCommand c i v := by
  intro r m hr
  rw [h] at hr
  cases hr

theorem witness_DecodeEncode :
    (Instr.waSecond 0xFF).wellFormed = true ∧ (∀ b, Instr.waSecond 0xFF = .waFirst b → (1 : BitVec 1) = 0) ∧
    (∀ b, Instr.waSecond 0xFF = .waSecond b → (1 : BitVec 1) = 1) ∧ (Instr.fill 0x3FFF [0xFF]).wellFormed = true :=
  ⟨rfl, (by intro b h; cases h), fun _ _ => rfl, rfl⟩

theorem witness_StepRunsDecoded :
    configValid (State.reset.withInputs [.pair 0xFFFF]).cfg = true ∧
    (State.reset.withInputs [.pair 0xFFFF]).inputs = [.pair 0xFFFF] ∧
    decode (State.reset.withInputs [.pair 0xFFFF]).decodeCtx (.pair 0xFFFF) = .ok (.regwrite 63 0xFF) := by decide

/-- Both sides of the bounds between the formats of a table word. -/
theorem witness_PlacedWordRuns :
    configValid State.reset.cfg = true ∧
    (tableLine 16 0x3FF = some (.cycle 0x3FF) ∧ decode State.reset.decodeCtx (.cycle 0x3FF) = .ok .rs) ∧
    (tableLine 16 0x400 = some (.pair 0x400) ∧ decode State.reset.decodeCtx (.pair 0x400) = .ok (.setaddrR 0x400)) ∧
    (tableLine 8 0x0B = some (.event 11) ∧ decode State.reset.decodeCtx (.event 11) = .ok .protFault) ∧
    (tableLine 8 0x80 = some (.service 0x80) ∧ decode State.reset.decodeCtx (.service 0x80) = .ok .flashFw) := by decide

theorem witness_StepOtherwise :
    (configValid State.reset.cfg = true ∧ State.reset.inputs = []) ∧
    decode (State.reset.withInputs [.event 12]).decodeCtx (.event 12) = .error .noSuchEvent ∧
    configValid (State.resetWith { Config.t0 with nStatus := 0 }).cfg = false := by decide

/-- Each clause: status 0 with and without `SR0_READ_RESETS_INDEX`, another register without and with a mask. -/
theorem witness_ReadStatusCycle :
    (State.reset.statusSel = 0 ∧ State.reset.cfg.sr0ReadResetsIndex = false) ∧
    (State.resetWith { Config.t0 with sr0ReadResetsIndex := true }).statusSel = 0 ∧
    ((State.reset.setX 15 0x0F).statusSel ≠ 0 ∧ ∀ e ∈ Config.t0.clrMaskExt, e.1 ≠ (15 : StatusIndex)) ∧
    (((State.resetWith { Config.t0 with clrMaskExt := [(2, 1), (15, 0x80)] }).setX 15 0x0F).statusSel = 15 ∧
      ([(2, 1), (15, 0x80)] : List (StatusIndex × Byte)) = [(2, 1)] ++ (15, 0x80) :: [] ∧
      ∀ e ∈ ([(2, 1)] : List (StatusIndex × Byte)), e.1 ≠ (15 : StatusIndex)) := by
  refine ⟨by decide, by decide, ⟨by decide, ?_⟩, by decide, rfl, ?_⟩
  · intro e he
    cases he
  · intro e he
    rw [List.mem_singleton] at he
    subst he
    decide

theorem witness_SecondByte : (0x7F : Byte).getLsbD 7 = false ∧ (0x80 : Byte).getLsbD 7 = true := by decide
theorem witness_PairIsItsTwoCycles : State.reset.writeStage = 0 := rfl
theorem witness_ReadAheadCorrect : State.reset.dataLatched ∧ { State.reset with addressLatch := 0x3FFF }.dataLatched :=
  ⟨rfl, rfl⟩

/-- A configuration without a command, and one with it: a value without the command's bit, another register. -/
theorem witness_RegisterWrite :
    notResetCommand State.reset.cfg (State.reset.targetIndex 63) 0xFF ∧
    notResetCommand withCommand 5 0x7F ∧ notResetCommand withCommand 4 0x80 ∧
    (open0.unlocked = true ∧ State.reset.unlocked = false) ∧
    ((57 : RegIndex) = Config.t0.unlockReg ∧ (0x1C : Byte) = Config.t0.unlockValue) := by
  refine ⟨noCommand rfl _ _, ?_, ?_, by decide, by decide⟩ <;> (intro r m h; cases h; decide)

theorem witness_RegisterWriteCoprocessor :
    (configValid open0.cfg = true ∧ open0.targetIndex 56 = Config.t0.coprocTrigReg ∧
      (0x01 : Byte) &&& Config.t0.coprocTrigMask ≠ 0 ∧ (0xFE : Byte) &&& Config.t0.coprocTrigMask = 0 ∧
      Config.t0.coprocPcLoad = none) ∧
    (configValid withPcLoad = true ∧ withPcLoad.coprocPcLoad = some (54, 55) ∧ (54 : RegIndex) ≠ 55 ∧
      16 ≤ withPcLoad.coprocPcBits ∧ 0xFFFF < 2 ^ withPcLoad.coprocPcBits) ∧
    notResetCommand open0.cfg 56 0x01 ∧ notResetCommand withPcLoad 54 0xFF :=
  ⟨by decide, by decide, noCommand rfl _ _, noCommand rfl _ _⟩

theorem witness_RegisterWriteFlash :
    (configValid open0.cfg = true ∧ open0.targetIndex 63 = Config.t0.flashTrigReg ∧
      (0x80 : Byte) &&& Config.t0.flashGoMask ≠ 0 ∧ open0.flashRequested = false) ∧
    { open0 with flashRequested := true }.targetIndex 63 = Config.t0.flashTrigReg ∧
    ((0x7F : Byte) &&& Config.t0.flashGoMask = 0 ∧ open0.targetIndex 62 ≠ Config.t0.flashTrigReg) ∧
    notResetCommand open0.cfg 63 0x80 :=
  ⟨by decide, by decide, by decide, noCommand rfl _ _⟩

theorem witness_RegisterWriteResets :
    (State.resetWith withCommand).cfg.resetCmd = some (5, 0x80) ∧ (State.resetWith withCommand).targetIndex 5 = 5 ∧
    (0x80 : Byte) &&& 0x80 ≠ 0 := by decide

theorem witness_LockedWriteKeepsExtended :
    State.reset.unlocked = false ∧ State.reset.cfg.lockedIndexMask.toNat = 7 ∧
    notResetCommand State.reset.cfg (State.reset.targetIndex 63) 0xFF :=
  ⟨rfl, rfl, noCommand rfl _ _⟩

/-- From reset, from one write short of the unlock, and unlocked. -/
theorem witness_UnlockUnlocks :
    (State.reset.writeStage = 0 ∧ State.reset.unlocked = false ∧ State.reset.unlockProgress = 0 ∧
      State.reset.unlockProgress < State.reset.cfg.unlockCount) ∧
    { State.reset with unlockProgress := 1 }.unlockProgress < Config.t0.unlockCount ∧ open0.unlocked = true ∧
    notResetCommand Config.t0 (Config.t0.unlockReg &&& Config.t0.lockedIndexMask) Config.t0.unlockValue ∧
    notResetCommand Config.t0 Config.t0.unlockReg Config.t0.unlockValue :=
  ⟨by decide, by decide, rfl, noCommand rfl _ _, noCommand rfl _ _⟩

theorem witness_FillWritesRun_DumpReadsRun : State.reset.writeStage = 0 ∧ 14 ≤ State.reset.cfg.vramBits := by decide

theorem witness_FlashTrigger :
    configValid State.reset.cfg = true ∧ State.reset.flashRequested = false ∧
    { State.reset with flashRequested := true }.flashRequested = true := by decide

/-- The bounds of the regions of T0: `SYNC` to 15, border 16 to 39, display 40 to 231, border 232 to 255, `SYNC`. -/
theorem witness_Line :
    ((atLine 0).quiet ∧ configValid (atLine 0).cfg = true) ∧
    (¬ isVisibleLine Config.t0 15 ∧ isVisibleLine Config.t0 16 ∧ ¬ isDisplayLine Config.t0 39) ∧
    (isDisplayLine Config.t0 40 ∧ isDisplayLine Config.t0 231 ∧ isLastActive Config.t0 231) ∧
    (¬ isDisplayLine Config.t0 232 ∧ ¬ isLastActive Config.t0 232 ∧ isVisibleLine Config.t0 254) ∧
    (isVisibleLine Config.t0 255 ∧ isLastDisplay Config.t0 255 ∧ ¬ isVisibleLine Config.t0 256) := by
  refine ⟨⟨rfl, valid_t0⟩, ?_⟩
  simp only [isVisibleLine, isDisplayLine, isLastActive, isLastDisplay]
  decide

theorem witness_BorderLine :
    (((atLine 16).setX 7 0xFF).x Config.t0.bgReg &&& Config.t0.bgMask).toNat < 64 ∧ ((atLine 16).setX 7 0xFF).quiet ∧
    ((atLine 16).setX 7 0xFF).paletteDirty = false ∧ { (atLine 16).setX 7 0xFF with paletteDirty := true }.quiet :=
  ⟨by decide, rfl, rfl, rfl⟩

/-- Two states that differ in what a line's pixels do not depend on. -/
theorem witness_RenderingIsDeterministic :
    let s := { atLine 40 with paletteDirty := true }
    let u := { s with addressLatch := 7, writeStage := 1 }
    s.quiet ∧ u.quiet ∧ configValid s.cfg = true ∧ s.cfg = u.cfg ∧ s.regs = u.regs ∧ s.vram = u.vram ∧ s.lineY = u.lineY ∧
    s.draws = u.draws ∧ s.paletteDirty = true ∧ u.paletteDirty = true ∧
    (s.x s.cfg.bgReg &&& s.cfg.bgMask).toNat < 16 :=
  ⟨rfl, rfl, valid_t0, rfl, rfl, rfl, rfl, rfl, rfl, rfl, by decide⟩

theorem witness_PaletteRebuild_FrameEnd_BulkTransfer :
    State.reset.quiet ∧ configValid State.reset.cfg = true ∧ State.reset.configDirty = false := ⟨rfl, valid_t0, rfl⟩

/-- A run that begins and a run in progress, each with an end. -/
theorem witness_RunHalts_RunFaults :
    let h := requested [.write 0x4000 1, .read 0, .halted 0x10000]
    let f := { requested [.faulted] with protActive := true, coprocBegun := true }
    h.quiet ∧ h.coprocessorRequested = true ∧ (h.protActive = true ∨ h.coprocBegun = false) ∧
    h.coprocScript = [.write 0x4000 1, .read 0] ++ .halted 0x10000 :: [] ∧
    (∀ x ∈ ([.write 0x4000 1, .read 0] : List CoprocAction), x.isAccess = true) ∧
    f.quiet ∧ f.coprocessorRequested = true ∧ (f.protActive = true ∨ f.coprocBegun = false) ∧
    f.coprocScript = [] ++ .faulted :: [] ∧ ∀ x ∈ ([] : List CoprocAction), x.isAccess = true :=
  ⟨rfl, rfl, .inr rfl, rfl, by decide, rfl, rfl, .inl rfl, rfl, by decide⟩

theorem witness_RunGoesOn :
    (requested [.write 0 1]).quiet ∧ (requested [.write 0 1]).coprocessorRequested = true ∧
    (requested [.write 0 1]).coprocBegun = false ∧ ∀ x ∈ (requested [.write 0 1]).coprocScript, x.isAccess = true :=
  ⟨rfl, rfl, rfl, by decide⟩

theorem witness_ProtectionFault :
    { State.reset with protActive := true }.quiet ∧ { State.reset with protActive := true }.protActive = true :=
  ⟨rfl, rfl⟩

/-- No request; a run that has ended before the next line; a mode that is another service's. -/
theorem witness_DisabledEventsDoNothing :
    (State.reset.coprocessorRequested = false ∧ State.reset.protActive = false ∧ ¬ State.reset.flashReady) ∧
    ({ requested [] with coprocBegun := true }.protActive = false ∧
      { requested [] with coprocBegun := true }.coprocBegun = true) ∧
    { State.reset with flashMode := { keyed := true, read := true } }.flashMode.keyed = true :=
  ⟨⟨rfl, rfl, by intro h; cases h.1⟩, ⟨rfl, rfl⟩, rfl⟩

/-- The small configuration with its firmware window one block of erase pages later. -/
def late : Config := { small with fwWindowBase := 0x20000 }

theorem valid_late : configValid late = true := by decide

/-- What the two firmware statements ask of the state, whatever is staged. -/
theorem witness_firmware_pending (c : Config) (l : List Byte) (hc : c = small ∨ c = late) :
    (pending c 0x80 l).quiet ∧ configValid (pending c 0x80 l).cfg = true ∧ (pending c 0x80 l).flashReady ∧
    (pending c 0x80 l).flashMode.keyed = false := by
  have hk : ∀ s : State, (s.flashAccept 0x80).packFlash.flashMode.keyed = ((0x80 &&& s.cfg.flashModeMask) != 0) :=
    fun _ => rfl
  have hv : configValid c = true := by
    rcases hc with rfl | rfl
    · exact valid_small
    · exact valid_late
  have hm : c.flashModeMask = 0x01 := by rcases hc with rfl | rfl <;> rfl
  refine ⟨rfl, hv, ⟨rfl, rfl⟩, ?_⟩
  show ((State.flashTriggerOp (stage l (State.resetWith c)) 0x80).flashMode).keyed = false
  rw [State.flashTriggerOp_accepted _ _ rfl, hk, show (stage l (State.resetWith c)).cfg = c from rfl, hm]
  decide

/-- The staged blocks of those requests are the blocks used below. -/
theorem witness_staged :
    (pending small 0x80 (fwStage 0x54 0 2)).stagedBlock = fwBlock (fwStage 0x54 0 2) ∧
    (pending small 0x80 (fwStage 0x55 0 2)).stagedBlock = fwBlock (fwStage 0x55 0 2) ∧
    (pending small 0x80 (fwStage 0x55 1 2)).stagedBlock = fwBlock (fwStage 0x55 1 2) ∧
    (pending late 0x80 (fwStage 0x55 0 2)).stagedBlock = fwBlock (fwStage 0x55 0 2) := by decide +kernel

/-- Each code: a wrong magic number, a second block without a session, a target below the window (V61 and after). -/
theorem witness_FirmwareRejected :
    (¬ fwHeaderOk small (fwBlock (fwStage 0x54 0 2))) ∧
    (fwHeaderOk small (fwBlock (fwStage 0x55 1 2)) ∧
      ¬ fwSequenceOk (pending small 0x80 (fwStage 0x55 1 2)) (fwBlock (fwStage 0x55 1 2))) ∧
    (fwHeaderOk late (fwBlock (fwStage 0x55 0 2)) ∧
      fwSequenceOk (pending late 0x80 (fwStage 0x55 0 2)) (fwBlock (fwStage 0x55 0 2)) ∧
      ¬ fwTargetOk late (fwBlock (fwStage 0x55 0 2))) := by
  refine ⟨?_, ⟨?_, ?_⟩, ?_, ?_, ?_⟩ <;> first | unfold fwHeaderOk | unfold fwSequenceOk | unfold fwTargetOk
  all_goals decide +kernel

/-- The first block of two, and the last of two with a session open: its 256 bytes at 0x10000 fresh where the other block
was programmed, not fresh where they were programmed already. -/
theorem witness_FirmwareAccepted :
    let last := { pending small 0x80 (fwStage 0x55 1 2) with
      fwSessionActive := true, sessionErased := 512, sessionProgrammed := [0x10100] }
    let again := { last with sessionProgrammed := [0x10000] }
    (last.sessionFresh 0x10000 = true ∧ last.sessionFresh 0x100FF = true ∧ again.sessionFresh 0x10000 = false ∧
      again.sessionFresh 0x100FF = false) ∧
    fwHeaderOk small (fwBlock (fwStage 0x55 0 2)) ∧ fwTargetOk small (fwBlock (fwStage 0x55 0 2)) ∧
    fwSequenceOk (pending small 0x80 (fwStage 0x55 0 2)) (fwBlock (fwStage 0x55 0 2)) ∧
    fwHeaderOk small last.stagedBlock ∧ fwTargetOk small last.stagedBlock ∧
    fwSequenceOk last last.stagedBlock := by
  refine ⟨by decide +kernel, ?_, ?_, ?_, ?_, ?_, .inr rfl⟩ <;> first | unfold fwHeaderOk | unfold fwTargetOk | unfold fwSequenceOk
  all_goals decide +kernel

/-- A pending keyed request, whatever is stored. -/
theorem witness_keyed_pending (trigger : Byte) (m : Mem) (s : State)
    (h : s = { pending small trigger (kbStage payload) with storage := m })
    (ht : trigger = 0x81 ∨ trigger = 0x83) :
    s.quiet ∧ configValid s.cfg = true ∧ s.flashReady ∧ s.flashMode.keyed = true ∧
    s.flashMode.read = decide (trigger = 0x83) := by
  subst h
  rcases ht with rfl | rfl <;> exact ⟨rfl, valid_small, ⟨rfl, rfl⟩, rfl, rfl⟩

/-- The identifier and the hint read from the staged bytes. -/
theorem witness_keyed_staged :
    (pending small 0x81 (kbStage payload)).stagedId = ident ∧
    (pending small 0x81 (kbStage payload)).stagedHint = 0xFFFFFFFF ∧
    (pending small 0x83 (kbStage payload)).stagedId = ident ∧ ident.length = 16 := by decide +kernel

/-- Both slots taken by others. -/
theorem witness_KeyedFull :
    { pending small 0x81 (kbStage payload) with storage := [(0x80000, 0x77), (0x80020, 0x77)] }.choosesSlot 0xFFFFFFFF
      ident none := by
  intro i hi
  have h : i = 0 ∨ i = 1 := by
    have : i < 2 := hi
    omega
  rcases h with rfl | rfl <;> exact ⟨fun h => absurd (h 0 (by decide)) (by decide +kernel), fun h =>
    absurd (h 0 (by decide)) (by decide +kernel)⟩

/-- The last slot carries the identifier, and the first does not; and a hint that matches. -/
theorem witness_KeyedRead :
    let s := { pending small 0x83 (kbStage payload) with storage := Mem.fill storageUnlisted [] 0x80020 ident }
    s.choosesSlot 0xFFFFFFFF ident (some 1) ∧ s.choosesSlot 1 ident (some 1) := by
  have h1 : ∀ k, k < 16 → ({ pending small 0x83 (kbStage payload) with
      storage := Mem.fill storageUnlisted [] 0x80020 ident } : State).slotByte 1 k = byteAt ident k := by decide +kernel
  refine ⟨⟨by decide, .inr (.inl ⟨?_, h1, ?_⟩)⟩, ⟨by decide, .inl ⟨rfl, h1⟩⟩⟩
  · intro h
    exact absurd h.1 (by decide)
  · intro i hi h
    have : i = 0 := by omega
    subst this
    exact absurd (h 0 (by decide)) (by decide +kernel)

/-- Nothing stored: the first free slot, for the write statements; at most `MAX_RETRIES` retries made. -/
theorem witness_KeyedWrite :
    let s := pending small 0x81 (kbStage payload)
    s.cfg.storageExact = true ∧ s.choosesSlot 0xFFFFFFFF ident (some 0) ∧ s.flashRetry.toNat ≤ s.cfg.maxRetries ∧
    { s with flashRetry := 3 }.flashRetry.toNat = s.cfg.maxRetries := by
  have hfree : ∀ i, i < 2 → ∀ k, k < 16 → (pending small 0x81 (kbStage payload)).slotByte i k = 0xFF := by
    decide +kernel
  refine ⟨rfl, ⟨by decide, .inr (.inr ⟨?_, hfree 0 (by decide), by omega⟩)⟩, by decide, by decide⟩
  intro i hi h
  have h0 := (h 0 (by decide)).symm.trans (hfree i hi 0 (by decide))
  exact absurd h0 (by decide)

/-- A write of a small block and a read of it: the premises of the round trip. -/
theorem witness_KeyedRoundTrip :
    let s := pending small 0x81 (kbStage payload)
    let t := after (exec .flashKwrite s)
    let u := { pending small 0x83 (kbStage payload) with storage := t.storage }
    s.slotsUnique ∧ (∃ k, k < 16 ∧ s.memRead (s.cfg.stageBase + 4 + k) ≠ 0xFF) ∧ s.flashError = .none ∧
    exec .flashKwrite s = .next t ∧ t.flashError = .none ∧ u.quiet ∧ u.cfg = s.cfg ∧ u.flashReady ∧
    u.flashMode.keyed = true ∧ u.flashMode.read = true ∧
    ∀ k, k < 16 → u.memRead (s.cfg.stageBase + 4 + k) = s.memRead (s.cfg.stageBase + 4 + k) := by
  refine ⟨?_, ⟨0, by decide, by decide +kernel⟩, rfl, rfl, by decide +kernel, rfl, rfl, ⟨rfl, rfl⟩, rfl, rfl, fun _ _ => rfl⟩
  intro i j id hi _ _ _
  have hfree : ∀ i, i < 2 → ∀ k, k < 16 → (pending small 0x81 (kbStage payload)).slotByte i k = 0xFF := by
    decide +kernel
  exact .inl (hfree i hi)

/-- A page that writes one register twice, and a cell by two names. -/
theorem witness_ResetState :
    { State.reset with configPage := some { regWrites := [(7, 1), (7, 2)], vramWrites := [(0, 3), (0x4000, 4)] } }.configPage =
      some { regWrites := [(7, 1), (7, 2)], vramWrites := [(0, 3), (0x4000, 4)] } ∧
    lastWrite (· == (7 : RegIndex)) [(7, 1), (7, 2)] = 2 ∧
    lastWrite (fun b => b % vramSize Config.t0 == 0) [(0, 3), (0x4000, 4)] = 4 := ⟨rfl, by decide, by decide⟩

theorem witness_keepsLevels : keepsLevels Config.t0 := by unfold keepsLevels; decide

/-- The nine operations that a reset abandons: each with the state that its clause asks for. -/
theorem witness_ResetAbandonsWork :
    let s := { requested [.halted 0] with strobes := [.reset, .pass], protActive := true }
    let f := { pending small 0x80 [] with strobes := [.reset] }
    let r := { pending small 0x83 [] with strobes := [.reset] }
    let w := { pending small 0x81 [] with strobes := [.reset] }
    (s.strobes = .reset :: [.pass] ∧ s.protActive = true ∧ s.coprocessorRequested = true ∧ s.coprocScript ≠ []) ∧
    (f.strobes = .reset :: [] ∧ f.flashReady ∧ f.flashMode.keyed = false) ∧
    (r.flashReady ∧ r.flashMode.keyed = true ∧ r.flashMode.read = true) ∧
    (w.flashReady ∧ w.flashMode.keyed = true ∧ w.flashMode.read = false) :=
  ⟨⟨rfl, rfl, rfl, by decide⟩, ⟨rfl, ⟨rfl, rfl⟩, rfl⟩, ⟨⟨rfl, rfl⟩, rfl, rfl⟩, ⟨⟨rfl, rfl⟩, rfl, rfl⟩⟩

/-- The reset state is safe and its reports agree: what the step invariants ask for. -/
theorem witness_StepKeepsSafe : State.reset.Safe where
  valid := valid_t0
  line := rfl
  latch := rfl
  range := ⟨by decide, by decide, by decide⟩
  memories := ⟨rfl, rfl, by intro e he; cases he⟩
  buffers := .inl rfl
  sandbox := by intro h; cases h

theorem witness_StepKeepsReports : State.reset.Reports where
  valid := valid_t0
  levels := witness_keepsLevels
  flash := rfl
  busy := rfl
  flashing := ⟨rfl, rfl⟩

/-- A step with a line placed, from those states. -/
theorem witness_step : step (State.reset.withInputs [.cycle 0x0AB]) = .next (State.reset.wdCycle 0xAB) := by rfl

theorem witness_UnnamedStatusStaysZero (i : StatusIndex) (m : Byte) : State.reset.st i &&& m = 0 := by
  have h : State.reset.st i = 0 := by
    unfold State.st
    exact Vector.getElem_replicate _
  rw [h]
  exact BitVec.zero_and

theorem witness_OnlyFlashWritesStorage :
    Instr.rd ≠ .flashFw ∧ Instr.rd ≠ .flashKwrite ∧ exec .rd State.reset = .next State.reset.rdCycle :=
  ⟨by decide, by decide, rfl⟩

theorem witness_UnlockedUntilReset :
    open0.quiet ∧ open0.cfg.resetCmd = none ∧ Instr.rd ≠ .reset ∧ open0.unlocked = true ∧
    exec .rd open0 = .next open0.rdCycle := ⟨rfl, rfl, by decide, rfl, rfl⟩

/-- A flag is set, and an `RS` of register 0 clears it. -/
theorem witness_NoLostStatusFlags :
    let s := { State.reset.setSt 0 0xE0 with raStatus := 0xE0 }
    s.quiet ∧ configValid s.cfg = true ∧ s.cfg.resetCmd = none ∧ s.statusLatched ∧ exec .rs s = .next s.rsCycle ∧
    s.st 0 &&& (s.cfg.stInt ||| s.cfg.st5S ||| s.cfg.stCol) &&& ~~~s.rsCycle.st 0 ≠ 0 :=
  ⟨rfl, valid_t0, rfl, rfl, rfl, by decide⟩

end Sys2Proof.Tests
end

/-! PROOFS. One step of the machine (spec/00_scope.md): the equations of `step`, one per branch, the rules of the
input queue it takes its line from, and the statements about it. -/

namespace Sys2Proof.Machine

/-! ### The input queue -/

@[simp] theorem State.withInputs_inputs (s : State) (l : List TraceLine) : (s.withInputs l).inputs = l := rfl

/-- How a line decodes does not depend on what else is queued. -/
@[simp] theorem State.withInputs_decodeCtx (s : State) (l : List TraceLine) :
    (s.withInputs l).decodeCtx = s.decodeCtx := rfl

@[simp] theorem State.withInputs_withInputs (s : State) (l m : List TraceLine) :
    (s.withInputs l).withInputs m = s.withInputs m := rfl

@[simp] theorem State.withInputs_self (s : State) : s.withInputs s.inputs = s := rfl

theorem State.withFetchWord_eq {nbits w : Nat} {l : TraceLine} (s : State) (hl : tableLine nbits w = some l) :
    s.withFetchWord nbits w = s.withInputs (l :: s.inputs) := by
  rw [State.withFetchWord, hl]

/-! ### The branches of a step -/

section branches
variable {s : State} {l : TraceLine} {rest : List TraceLine}

theorem step_of_invalid (hc : configValid s.cfg = false) : step s = .refused .invalidConfig := by
  rw [step, hc]
  rfl

theorem step_of_no_line (hc : configValid s.cfg = true) (hq : s.inputs = []) : step s = .next s := by
  rw [step, if_pos hc, hq]

theorem step_of_decodes {i : Instr} (hc : configValid s.cfg = true) (hq : s.inputs = l :: rest)
    (hd : decode s.decodeCtx l = .ok i) : step s = exec i (s.withInputs rest) := by
  rw [step, if_pos hc, hq]
  dsimp only
  rw [hd]

theorem step_of_undecodable {e : DecodeError} (hc : configValid s.cfg = true) (hq : s.inputs = l :: rest)
    (hd : decode s.decodeCtx l = .error e) : step s = .refused (.undecodable e) := by
  rw [step, if_pos hc, hq]
  dsimp only
  rw [hd]

end branches

/-! ### The statements -/

/-- Settles O4: the branch of `step` in which the line decodes. -/
theorem stepRunsDecoded : Obligations.StepRunsDecoded :=
  fun _ _ _ _ hc hq hd => step_of_decodes hc hq hd

/-- Settles O5: the placed word's line heads the queue, it decodes there as in the state before, and taking it off
again gives that state back. -/
theorem placedWordRuns : Obligations.PlacedWordRuns := by
  intro s nbits w l i hc hl hd
  rw [s.withFetchWord_eq hl]
  have hrun : step (s.withInputs (l :: s.inputs)) = exec i ((s.withInputs (l :: s.inputs)).withInputs s.inputs) :=
    step_of_decodes (by simpa using hc) (s.withInputs_inputs _) (by simpa using hd)
  simpa using hrun

/-- Settles O6: the three other branches of `step`. -/
theorem stepOtherwise : Obligations.StepOtherwise :=
  ⟨fun _ hc hq => step_of_no_line hc hq,
   fun _ _ _ _ hc hq hd => step_of_undecodable hc hq hd,
   fun _ hc => step_of_invalid hc⟩

end Sys2Proof.Machine

/-! PROOFS. The state between two steps (spec/10_state.md): what every step keeps, the values and the invariants of the
state right after reset, and the two statements about address-mode and locked writes. -/

namespace Sys2Proof.Machine

/-! ### What a step keeps

Laws/Keeps.lean asks one hypothesis per atomic action. Most actions leave what a given invariant speaks of alone, and
there the hypothesis holds by unfolding; the two structures below fill it in, so that an invariant lists the actions
that touch it and no others. -/

/-- Every action but those on storage keeps `P`, resets and strobes included. -/
structure KeptByActions (P : State → Prop) : Prop extends
    KeptByBus P, KeptByLine P, KeptBySandbox P, KeptByFlash P where
  wd := by exact fun _ _ h => h
  rd := by exact fun _ h => h
  rs := by exact fun _ h => h
  waFirst := by exact fun _ _ h => h
  addr := by exact fun _ _ _ h => h
  command := fun s _ _ h _ => resetOp s h
  strobes := by exact fun _ _ h => h
  setPipe := by exact fun _ _ h => h
  clearPaletteDirty := by exact fun _ h => h
  setPalette := by exact fun _ _ _ _ h => h
  draw := by exact fun _ h => h
  mergeSpriteFlags := by exact fun _ _ h => h
  handOff := by exact fun _ _ _ h => h
  updateLineStatus := by exact fun _ _ _ h => h
  raiseEndOfFrame := by exact fun _ h => h
  sampleTemperature := by exact fun _ h => h
  frameTrigger := by exact fun _ h => h
  clearConfigDirty := by exact fun _ h => h
  configSave := by exact fun _ h => h
  nextLine := by exact fun _ _ h => h
  withScript := by exact fun _ _ h => h
  memWrite := by exact fun _ _ _ h => h
  protDisable := by exact fun _ h => h
  setCoprocPc := by exact fun _ _ h => h
  coprocFinish := by exact fun _ h _ => h
  beginRun := by exact fun _ h _ => h
  setFlashPhase := by exact fun _ _ h => h
  setFlashRetry := by exact fun _ _ h => h
  raiseFlashError := by exact fun _ _ h => h
  flashReturn := by exact fun _ h => h

/-- Every action keeps `P`, and so does taking a line off the queue. -/
structure KeptByStep (P : State → Prop) : Prop extends KeptByActions P, KeptByFlashWrite P where
  storErase := by exact fun _ _ _ h => h
  storProgram := by exact fun _ _ _ _ h => h
  storTorn := by exact fun _ _ _ _ h => h
  openSession := by exact fun _ _ h => h
  noteBlock := by exact fun _ _ h => h
  closeSession := by exact fun _ h => h
  inputs : ∀ s l, P s → P (s.withInputs l) := by exact fun _ _ h => h

theorem KeptByActions.toKeptByExec {P : State → Prop} (H : KeptByActions P) : KeptByExec P :=
  KeptByExec.ofBus H.toKeptByBus H.toKeptByLine H.toKeptBySandbox H.toKeptByFlash

/-- What every action keeps, every step keeps, whatever falls inside it. -/
theorem KeptByStep.step {P : State → Prop} (H : KeptByStep P) {s t : State} (h : step s = .next t) (hs : P s) : P t :=
  step_keeps (fun he hu => H.toKeptByExec.execAll H.toKeptByFlashWrite he (fun _ => H.resetOp _ hu) hu) H.inputs h hs

/-! ### Register writes and reset, action by action -/

/-- What each effect of R142 before the reset command keeps, they keep together. -/
theorem State.regEffects_keeps {P : State → Prop} (hreg : ∀ u i v, P u → P (u.setX i v))
    (hlock : ∀ u h a, P u → P (u.unlockTrack h a)) (hdirty : ∀ u i, P u → P (u.dirtyEffects i))
    (hpc : ∀ u i a, P u → P (u.coprocPcEffect i a)) (hcoproc : ∀ u, P u → P u.coprocTriggerOp)
    (hflash : ∀ u a, P u → P (u.flashTriggerOp a)) {s : State} (hs : P s) (h : RegIndex) (a : Byte) :
    P (s.regEffects h a) := by
  have hcoprocEffect : ∀ u i, P u → P (u.coprocEffect i a) := fun u i hu => by
    unfold State.coprocEffect
    split
    · exact hcoproc u hu
    · exact hu
  have hflashEffect : ∀ u i, P u → P (u.flashEffect i a) := fun u i hu => by
    unfold State.flashEffect
    split
    · exact hflash u a hu
    · exact hu
  exact hflashEffect _ _ (hcoprocEffect _ _ (hpc _ _ _ (hdirty _ _ (hlock _ _ _ (hreg _ _ _ hs)))))

/-- A whole register pair, its effects and its close told apart. -/
theorem State.regPair_keeps {P : State → Prop} {h : RegIndex} {a : Byte} (hrearm : ∀ u, P u → P u.rearmAll)
    (heffects : ∀ u, P u → P (u.regEffects h a)) {s : State}
    (hs : P { s.setLatchLow a with writeStage := 0 }) :
    P (({ s.setLatchLow a with writeStage := 0 } : State).regEffects h a).rearmAll :=
  hrearm _ (heffects _ hs)

@[simp] theorem State.regEffects_cfg (s : State) (h : RegIndex) (a : Byte) : (s.regEffects h a).cfg = s.cfg := by
  rw [State.regEffects_eq]

@[simp] theorem State.resetOp_cfg (s : State) : s.resetOp.cfg = s.cfg := by
  obtain ⟨r, m, _, h⟩ := s.resetOp_eq
  rw [h]
  rfl

/-- What a register store and a memory write keep, `ConfigApply` keeps (R284). -/
theorem State.configApply_keeps {P : State → Prop} (hreg : ∀ u i v, P u → P (u.setX i v))
    (hmem : ∀ u a v, P u → P (u.memWrite a v)) {s : State} (hs : P s) : P s.configApply := by
  unfold State.configApply
  split
  · exact hs
  · exact List.foldlRecOn _ _ (List.foldlRecOn _ _ hs fun u hu e _ => hreg u e.1 e.2 hu)
      fun u hu e _ => hmem u e.1 e.2 hu

/-- The parameters are written by no action. -/
theorem keptByStep_cfg (c : Config) : KeptByStep fun s => s.cfg = c where
  reg _ h a hc := State.regPair_keeps (P := fun s => s.cfg = c) (fun _ hu => hu)
    (fun u hu => (u.regEffects_cfg h a).trans hu) hc
  resetOp s hc := s.resetOp_cfg.trans hc
  flashTrigger s a hc := by
    show (s.flashTriggerOp a).cfg = c
    rw [State.flashTriggerOp_frame]
    exact hc

theorem step_cfg {s t : State} (h : step s = .next t) : t.cfg = s.cfg := (keptByStep_cfg s.cfg).step h rfl

/-! ### What a valid configuration gives -/

/-- The constraints of a valid configuration that the invariants rest on (R8, R25, R26). -/
structure ConfigFacts (c : Config) : Prop where
  scanline_ne_zero : c.srScanline ≠ 0
  temp_ne_zero : c.srTemp ≠ 0
  flash_ne_zero : c.srFlash ≠ 0
  blank_ne_zero : c.srBlank ≠ 0
  busy_ne_zero : c.srBusy ≠ 0
  scanline_ne_flash : c.srScanline ≠ c.srFlash
  temp_ne_flash : c.srTemp ≠ c.srFlash
  blank_ne_flash : c.srBlank ≠ c.srFlash
  busy_ne_flash : c.srBusy ≠ c.srFlash
  scanline_ne_busy : c.srScanline ≠ c.srBusy
  temp_ne_busy : c.srTemp ≠ c.srBusy
  busy_flashing : c.coprocBusyMask &&& c.flashingMask = 0
  blank_busy : c.srBlank = c.srBusy → c.blankMask &&& c.coprocBusyMask = 0
  blank_flashing : c.srBlank = c.srBusy → c.blankMask &&& c.flashingMask = 0
  int_5S : c.stInt &&& c.st5S = 0
  int_col : c.stInt &&& c.stCol = 0
  int_idx : c.stInt &&& c.stIdx = 0
  vram_bits : 14 ≤ c.vramBits
  lines_pos : 1 ≤ c.linesPerFrame

theorem configFacts {c : Config} (h : configValid c = true) : ConfigFacts c := by
  simp only [configValid, statusMasksValid, statusFieldsValid, layoutValid, wholeByteFields, Bool.and_eq_true,
    decide_eq_true_eq, beq_iff_eq, bne_iff_ne, List.cons_append, List.nil_append, List.all_cons, List.contains_cons,
    List.contains_nil, Bool.or_false, Bool.not_eq_true', Bool.or_eq_false_iff, beq_eq_false_iff_ne,
    Bool.or_eq_true] at h
  obtain ⟨⟨⟨⟨⟨⟨⟨_, hm⟩, hf⟩, hl⟩, _⟩, hlines⟩, _⟩, _⟩ := h
  obtain ⟨⟨⟨⟨⟨⟨⟨⟨⟨hsc, _⟩, ⟨htp, _⟩, ⟨hfl, _⟩, ⟨hbl, _⟩, ⟨hbz, _⟩, _⟩, _⟩, hscfl⟩, htpfl⟩, _, _, hblfl⟩,
    hbzsc, hbztp, hbzfl⟩, hblank⟩, hbusyfl⟩ := hf
  obtain ⟨⟨⟨⟨⟨⟨⟨h5, hcol⟩, hidx⟩, _⟩, _⟩, _⟩, _⟩, _⟩ := hm
  have hmasks : c.srBlank = c.srBusy →
      c.blankMask &&& c.coprocBusyMask = 0 ∧ c.blankMask &&& c.flashingMask = 0 := hblank.neg_resolve_left
  obtain ⟨⟨⟨⟨⟨⟨⟨⟨⟨⟨hvram, _⟩, _⟩, _⟩, _⟩, _⟩, _⟩, _⟩, _⟩, _⟩, _⟩ := hl
  exact ⟨hsc, htp, hfl, hbl, hbz, hscfl, htpfl, hblfl, hbzfl, hbzsc.symm, hbztp.symm, hbusyfl,
    fun e => (hmasks e).1, fun e => (hmasks e).2, h5, hcol, hidx, hvram, hlines⟩

/-! ### The interrupt line (I-B) -/

/-- Any part of a mask disjoint from another is disjoint from it. -/
theorem and_and_of_disjoint {v m n : Byte} (h : n &&& m = 0) : (v &&& n) &&& m = 0 := by
  rw [BitVec.and_assoc, h]
  exact BitVec.and_zero

/-- Sprite flags leave the pending bit (R176, R25). -/
theorem mergeSprites_and_int {c : Config} (hc : ConfigFacts c) (f : SpriteFlags) (v : Byte) :
    mergeSprites c f v &&& c.stInt = v &&& c.stInt := by
  have hflags : (c.st5S ||| c.stCol) &&& c.stInt = 0 := by
    rw [and_or_of_disjoint (and_eq_zero_comm hc.int_col), and_eq_zero_comm hc.int_5S]
  have hflagged : (v ||| (f.orMask &&& (c.st5S ||| c.stCol))) &&& c.stInt = v &&& c.stInt :=
    and_or_of_disjoint (and_and_of_disjoint hflags)
  have hidx := and_eq_zero_comm hc.int_idx
  unfold mergeSprites
  cases f.idxOpt with
  | none => exact hflagged
  | some i =>
    calc ((v ||| (f.orMask &&& (c.st5S ||| c.stCol))) &&& ~~~c.stIdx ||| i &&& c.stIdx) &&& c.stInt
        = ((v ||| (f.orMask &&& (c.st5S ||| c.stCol))) &&& ~~~c.stIdx) &&& c.stInt :=
          and_or_of_disjoint (and_and_of_disjoint hidx)
      _ = (v ||| (f.orMask &&& (c.st5S ||| c.stCol))) &&& c.stInt := and_not_of_disjoint hidx
      _ = v &&& c.stInt := hflagged

/-- A status write that leaves the pending bit leaves the line in agreement. -/
theorem State.lineAgrees.setSt {s : State} (h : s.lineAgrees) (i : StatusIndex) (v : Byte)
    (hv : i = 0 → v &&& s.cfg.stInt = s.st 0 &&& s.cfg.stInt) : (s.setSt i v).lineAgrees := by
  have hst : (s.setSt i v).st 0 &&& s.cfg.stInt = s.st 0 &&& s.cfg.stInt := by
    rw [State.st_setSt]
    split
    · exact hv (Eq.symm ‹_›)
    · rfl
  show s.interruptLine = interruptLevel s.cfg ((s.setSt i v).st 0) (s.x s.cfg.ieReg)
  rw [h, interruptLevel, interruptLevel, hst]

/-- A status write elsewhere leaves the line in agreement. -/
theorem State.lineAgrees.setSt_of_ne {s : State} (h : s.lineAgrees) {i : StatusIndex} (hi : i ≠ 0) (v : Byte) :
    (s.setSt i v).lineAgrees := h.setSt i v fun e => absurd e hi

theorem State.lineAgrees.flashTriggerOp {s : State} (h : s.lineAgrees) (hc : ConfigFacts s.cfg) (a : Byte) :
    (s.flashTriggerOp a).lineAgrees := by
  cases hr : s.flashRequested with
  | true =>
    rw [State.flashTriggerOp_dropped s a hr]
    exact State.lineAgrees.setSt_of_ne (s := { s with flashError := .busy }) h hc.flash_ne_zero _
  | false =>
    rw [State.flashTriggerOp_accepted s a hr]
    have haccept : (s.flashAccept a).lineAgrees := State.lineAgrees.setSt_of_ne h hc.busy_ne_zero _
    exact haccept.setSt_of_ne (i := s.cfg.srFlash) hc.flash_ne_zero _

theorem keptByStep_lineAgrees : KeptByStep fun s => configValid s.cfg = true ∧ s.lineAgrees where
  rs _ h := ⟨h.1, rfl⟩
  waFirst _ _ h := ⟨h.1, rfl⟩
  addr _ _ _ h := ⟨h.1, rfl⟩
  reg s i a h := by
    refine ⟨?_, (State.rearmAll_agrees _).1⟩
    rw [State.rearmAll_cfg, State.regEffects_cfg]
    exact h.1
  resetOp s h := ⟨by rw [State.resetOp_cfg]; exact h.1, s.resetOp_agrees.1⟩
  mergeSpriteFlags s f h := ⟨h.1, h.2.setSt 0 _ fun _ => mergeSprites_and_int (configFacts h.1) f _⟩
  updateLineStatus s y r h :=
    have hc := configFacts h.1
    ⟨h.1, (h.2.setSt_of_ne hc.scanline_ne_zero _).setSt_of_ne (i := s.cfg.srBlank) hc.blank_ne_zero _⟩
  raiseEndOfFrame _ h := ⟨h.1, rfl⟩
  sampleTemperature _ h := ⟨h.1, h.2.setSt_of_ne (configFacts h.1).temp_ne_zero _⟩
  frameTrigger _ h := ⟨h.1, h.2.setSt_of_ne (configFacts h.1).busy_ne_zero _⟩
  coprocFinish _ h _ := ⟨h.1, h.2.setSt_of_ne (configFacts h.1).busy_ne_zero _⟩
  flashTrigger s a h := by
    refine ⟨?_, h.2.flashTriggerOp (configFacts h.1) a⟩
    show configValid (s.flashTriggerOp a).cfg = true
    rw [State.flashTriggerOp_frame]
    exact h.1
  setFlashPhase _ _ h := ⟨h.1, h.2.setSt_of_ne (configFacts h.1).flash_ne_zero _⟩
  setFlashRetry _ _ h := ⟨h.1, h.2.setSt_of_ne (configFacts h.1).flash_ne_zero _⟩
  raiseFlashError _ _ h := ⟨h.1, h.2.setSt_of_ne (configFacts h.1).flash_ne_zero _⟩
  flashReturn s h :=
    have hc := configFacts h.1
    ⟨h.1, (h.2.setSt_of_ne hc.flash_ne_zero _).setSt_of_ne (i := s.cfg.srBusy) hc.busy_ne_zero _⟩

/-! ### The status latch (I-C) -/

/-- Every action that writes the status file or a register ends with `RearmStatus()`. -/
theorem keptByStep_statusLatched : KeptByStep State.statusLatched where
  rs _ _ := rfl
  waFirst _ _ _ := rfl
  addr _ _ _ _ := rfl
  reg _ _ _ _ := rfl
  resetOp _ _ := rfl
  mergeSpriteFlags _ _ _ := rfl
  updateLineStatus _ _ _ _ := rfl
  raiseEndOfFrame _ _ := rfl
  sampleTemperature _ _ := rfl
  frameTrigger _ _ := rfl
  coprocFinish _ _ _ := rfl
  flashTrigger _ _ _ := rfl
  setFlashPhase _ _ _ := rfl
  setFlashRetry _ _ _ := rfl
  raiseFlashError _ _ _ := rfl
  flashReturn _ _ := rfl

/-! ### The ranges of R28, R37, R39 -/

theorem addr_lt_vramSize {c : Config} (hc : ConfigFacts c) (addr : BitVec 14) : addr.toNat < vramSize c :=
  lt_of_lt_of_le addr.isLt (Nat.pow_le_pow_right (by decide) hc.vram_bits)

theorem State.coprocPcEffect_lt {s : State} (h : s.coprocessorProgramCounter < 2 ^ s.cfg.coprocPcBits) (i : RegIndex)
    (a : Byte) : (s.coprocPcEffect i a).coprocessorProgramCounter < 2 ^ s.cfg.coprocPcBits := by
  unfold State.coprocPcEffect
  split
  · exact h
  · split
    · exact Nat.mod_lt _ (Nat.two_pow_pos _)
    · exact h

theorem keptByStep_inRange : KeptByStep fun s => configValid s.cfg = true ∧ s.inRange where
  wd s _ h := ⟨h.1, Nat.mod_lt _ (vramSize_pos s.cfg), h.2.2⟩
  rd s h := ⟨h.1, Nat.mod_lt _ (vramSize_pos s.cfg), h.2.2⟩
  waFirst s b h := ⟨h.1, s.setLatchLow_lt b (le_trans (by decide) (configFacts h.1).vram_bits) h.2.1, h.2.2⟩
  addr _ a _ h := ⟨h.1, addr_lt_vramSize (configFacts h.1) a, h.2.2⟩
  reg s i a h := by
    refine State.regPair_keeps (P := fun s => configValid s.cfg = true ∧ s.inRange) (fun _ hu => hu) (fun u hu => ?_)
      ⟨h.1, s.setLatchLow_lt a (le_trans (by decide) (configFacts h.1).vram_bits) h.2.1, h.2.2⟩
    obtain ⟨hv, hlatch, hline, hpc⟩ := hu
    rw [State.regEffects_eq]
    exact ⟨hv, hlatch, hline, State.coprocPcEffect_lt hpc _ a⟩
  resetOp s h := by
    obtain ⟨r, m, _, he⟩ := s.resetOp_eq
    rw [he]
    exact ⟨h.1, vramSize_pos s.cfg, (configFacts h.1).lines_pos, Nat.two_pow_pos _⟩
  flashTrigger s a h := by
    rw [State.flashTriggerOp_frame]
    exact h
  nextLine s _ h := ⟨h.1, h.2.1, Nat.mod_lt _ (configFacts h.1).lines_pos, h.2.2.2⟩
  setCoprocPc _ _ h := ⟨h.1, h.2.1, h.2.2.1, Nat.mod_lt _ (Nat.two_pow_pos _)⟩

/-! ### The memories -/

theorem State.memoriesWf.memWrite {s : State} (h : s.memoriesWf) (a : Nat) (v : Byte) : (s.memWrite a v).memoriesWf :=
  ⟨s.memWrite_wf a v h.1, h.2.1, Mem.below_write _ _ _ _ _ h.2.2 (Nat.mod_lt _ (vramSize_pos s.cfg))⟩

theorem State.resetFields_memoriesWf {s : State} (h : s.memoriesWf) : s.resetFields.memoriesWf :=
  ⟨rfl, h.2.1, List.forall_mem_nil _⟩

theorem keptByStep_memoriesWf : KeptByStep State.memoriesWf where
  wd s b h := h.memWrite s.addressLatch b
  reg _ i a h := State.regPair_keeps (P := State.memoriesWf) (fun _ hu => hu) (fun u hu => by
    rw [State.regEffects_eq]
    exact hu) h
  resetOp _ h := State.configApply_keeps (P := State.memoriesWf) (fun _ _ _ hu => hu) (fun _ a v hu => hu.memWrite a v)
    (State.resetFields_memoriesWf h)
  memWrite _ a v h := h.memWrite a v
  flashTrigger s a h := by
    rw [State.flashTriggerOp_frame]
    exact h
  storErase s a n h := ⟨h.1, s.storErase_wf a n h.2.1, h.2.2⟩
  storProgram s fresh a vs h := ⟨h.1, s.storProgram_wf fresh a vs h.2.1, h.2.2⟩
  storTorn s f a n h := ⟨h.1, s.storTorn_wf f a n h.2.1, h.2.2⟩

/-! ### The line buffers (R40, R172) -/

theorem other_other_buffer : ∀ b : Fin 2, 1 - (1 - b) = b := by decide

theorem keptByStep_buffersAgree : KeptByStep State.buffersAgree where
  reg _ i a h := State.regPair_keeps (P := State.buffersAgree) (fun _ hu => hu) (fun u hu => by
    rw [State.regEffects_eq]
    exact hu) h
  resetOp s _ := by
    obtain ⟨r, m, _, he⟩ := s.resetOp_eq
    rw [he]
    exact .inl rfl
  handOff s _ _ _ := .inr (congrArg some (other_other_buffer s.fillSel).symm)
  flashTrigger s a h := by
    rw [State.flashTriggerOp_frame]
    exact h

/-! ### The protection region (R194, R198) -/

/-- A register write withdraws no request. -/
theorem State.coprocEffect_requested {s : State} (h : s.coprocessorRequested = true) (i : RegIndex) (a : Byte) :
    (s.coprocEffect i a).coprocessorRequested = true := by
  unfold State.coprocEffect
  split
  · rfl
  · exact h

theorem keptByStep_sandboxAgrees : KeptByStep State.sandboxAgrees where
  reg _ i a h := State.regPair_keeps (P := State.sandboxAgrees) (fun _ hu => hu) (fun u hu => by
    rw [State.regEffects_eq]
    exact fun hp => State.coprocEffect_requested (hu hp) _ a) h
  resetOp s _ := by
    obtain ⟨r, m, _, he⟩ := s.resetOp_eq
    rw [he]
    exact fun hp => absurd hp Bool.false_ne_true
  frameTrigger _ _ _ := rfl
  protDisable _ _ hp := absurd hp Bool.false_ne_true
  coprocFinish _ _ hoff hp := absurd (hoff.symm.trans hp) Bool.false_ne_true
  beginRun _ _ he _ := (Bool.and_eq_true_iff.1 he).1
  flashTrigger s a h := by
    rw [State.flashTriggerOp_frame]
    exact h

/-! ### The reporting bytes (I-F, R192, R214) -/

/-- `State.Reports` as a conjunction: an action that writes none of its fields keeps it by unfolding. -/
def State.reporting (s : State) : Prop :=
  configValid s.cfg = true ∧ keepsLevels s.cfg ∧ s.flashPacked ∧ s.busyAgrees ∧ s.flashingAgrees

theorem State.reports_iff_reporting (s : State) : s.Reports ↔ s.reporting :=
  ⟨fun ⟨hv, hk, hflash, hbusy, hflashing⟩ => ⟨hv, hk, hflash, hbusy, hflashing⟩,
   fun ⟨hv, hk, hflash, hbusy, hflashing⟩ => ⟨hv, hk, hflash, hbusy, hflashing⟩⟩

theorem blankByte_and_of_disjoint {c : Config} {m : Byte} (h : c.blankMask &&& m = 0) (r : Region) (v : Byte) :
    blankByte c r v &&& m = v &&& m := by
  unfold blankByte
  split
  · exact and_not_of_disjoint h
  · exact and_or_of_disjoint h

/-- A mask disjoint from two is disjoint from each. -/
theorem disjoint_of_and_or {v m n : Byte} (h : v &&& (m ||| n) = 0) : v &&& m = 0 ∧ v &&& n = 0 := by
  rw [BitVec.and_or_distrib_left] at h
  exact BitVec.or_eq_zero_iff.1 h

/-- A status write that leaves `SR_FLASH` and the two masks of `SR_BUSY` leaves the reports in agreement. -/
theorem State.reporting.setSt {s : State} (h : s.reporting) {i : StatusIndex} {v : Byte}
    (hflash : i = s.cfg.srFlash → v = s.st i)
    (hbusy : i = s.cfg.srBusy → v &&& s.cfg.coprocBusyMask = s.st i &&& s.cfg.coprocBusyMask ∧
      v &&& s.cfg.flashingMask = s.st i &&& s.cfg.flashingMask) : (s.setSt i v).reporting := by
  obtain ⟨hv, hk, hpacked, hcoproc, hflashing, hrun⟩ := h
  have hst : (s.setSt i v).st s.cfg.srFlash = s.st s.cfg.srFlash := by
    rw [State.st_setSt]
    split
    · next e => rw [hflash e.symm, e]
    · rfl
  have hmask : (s.setSt i v).st s.cfg.srBusy &&& s.cfg.coprocBusyMask = s.st s.cfg.srBusy &&& s.cfg.coprocBusyMask ∧
      (s.setSt i v).st s.cfg.srBusy &&& s.cfg.flashingMask = s.st s.cfg.srBusy &&& s.cfg.flashingMask := by
    rw [State.st_setSt]
    split
    · next e => rw [e]; exact hbusy e.symm
    · exact ⟨rfl, rfl⟩
  exact ⟨hv, hk, hst.trans hpacked, hmask.1.trans hcoproc, hmask.2.trans hflashing, hrun⟩

/-- A status write elsewhere leaves the reports in agreement. -/
theorem State.reporting.setSt_of_ne {s : State} (h : s.reporting) {i : StatusIndex} (hflash : i ≠ s.cfg.srFlash)
    (hbusy : i ≠ s.cfg.srBusy) (v : Byte) : (s.setSt i v).reporting :=
  h.setSt (fun e => absurd e hflash) fun e => absurd e hbusy

/-- Clear on read leaves the reports where the configuration's masks leave their bytes (R125). -/
theorem State.reporting.statusClearOnRead {s : State} (h : s.reporting) (i : StatusIndex) :
    (s.statusClearOnRead i).reporting := by
  have hc := configFacts h.1
  obtain ⟨hflash, hbusy⟩ : keepsLevels s.cfg := h.2.1
  obtain ⟨hcoproc, hflashing⟩ := disjoint_of_and_or hbusy
  have hclear : i ≠ 0 → clearOnRead s.cfg i (s.st i) = s.st i &&& ~~~clrMask s.cfg i := fun hi =>
    if_neg fun e => hi e.1
  refine h.setSt (fun e => ?_) fun e => ?_
  · rw [hclear (e ▸ hc.flash_ne_zero), e, hflash]
    exact BitVec.and_allOnes
  · rw [hclear (e ▸ hc.busy_ne_zero), e]
    exact ⟨and_not_of_disjoint hcoproc, and_not_of_disjoint hflashing⟩

theorem State.reporting.updateLineStatus {s : State} (h : s.reporting) (y : Nat) (r : Region) :
    (s.updateLineStatus y r).reporting := by
  have hc := configFacts h.1
  have hscan := h.setSt_of_ne hc.scanline_ne_flash hc.scanline_ne_busy (scanlineByte s.cfg y)
  exact hscan.setSt (i := s.cfg.srBlank) (fun e => absurd e hc.blank_ne_flash) fun e =>
    ⟨blankByte_and_of_disjoint (hc.blank_busy e) r _, blankByte_and_of_disjoint (hc.blank_flashing e) r _⟩

/-- The packed byte written anew agrees, and the busy register is another one. -/
theorem State.packFlash_reporting {s : State} (hv : configValid s.cfg = true) (hk : keepsLevels s.cfg)
    (hcoproc : s.busyAgrees) (hflashing : s.flashingAgrees) : s.packFlash.reporting := by
  have hst : s.packFlash.st s.cfg.srBusy = s.st s.cfg.srBusy := by
    rw [State.st_packFlash, if_neg (configFacts hv).busy_ne_flash]
  exact ⟨hv, hk, s.packFlash_packed, (congrArg (· &&& s.cfg.coprocBusyMask) hst).trans hcoproc,
    (congrArg (· &&& s.cfg.flashingMask) hst).trans hflashing.1, hflashing.2⟩

theorem State.reporting.coprocTriggerOp {s : State} (h : s.reporting) : s.coprocTriggerOp.reporting := by
  obtain ⟨hv, hk, hpacked, -, hflashing, hrun⟩ := h
  have hc := configFacts hv
  have hflash : s.coprocTriggerOp.st s.cfg.srFlash = s.st s.cfg.srFlash := by
    rw [State.st_coprocTriggerOp, if_neg hc.busy_ne_flash.symm]
  have hbusy : s.coprocTriggerOp.st s.cfg.srBusy = s.st s.cfg.srBusy ||| s.cfg.coprocBusyMask := by
    rw [State.st_coprocTriggerOp, if_pos rfl]
  exact ⟨hv, hk, hflash.trans hpacked,
    (congrArg (· &&& s.cfg.coprocBusyMask) hbusy).trans (or_and_self_mask _ _),
    (congrArg (· &&& s.cfg.flashingMask) hbusy).trans ((and_or_of_disjoint hc.busy_flashing).trans hflashing), hrun⟩

theorem State.reporting.coprocFinish {s : State} (h : s.reporting) : s.coprocFinish.reporting := by
  obtain ⟨hv, hk, hpacked, -, hflashing, hrun⟩ := h
  have hc := configFacts hv
  have hflash : s.coprocFinish.st s.cfg.srFlash = s.st s.cfg.srFlash := by
    rw [State.st_coprocFinish, if_neg hc.busy_ne_flash.symm]
  have hbusy : s.coprocFinish.st s.cfg.srBusy = s.st s.cfg.srBusy &&& ~~~s.cfg.coprocBusyMask := by
    rw [State.st_coprocFinish, if_pos rfl]
  exact ⟨hv, hk, hflash.trans hpacked,
    (congrArg (· &&& s.cfg.coprocBusyMask) hbusy).trans (and_not_self_mask _ _),
    (congrArg (· &&& s.cfg.flashingMask) hbusy).trans ((and_not_of_disjoint hc.busy_flashing).trans hflashing), hrun⟩

/-- A trigger is dropped with `BUSY`, or accepted with request, running flag and flashing bits set together (R150). -/
theorem State.reporting.flashTriggerOp {s : State} (h : s.reporting) (a : Byte) : (s.flashTriggerOp a).reporting := by
  obtain ⟨hv, hk, -, hcoproc, hflashing⟩ := h
  cases hr : s.flashRequested with
  | true =>
    rw [State.flashTriggerOp_dropped s a hr]
    exact State.packFlash_reporting (s := { s with flashError := .busy }) hv hk hcoproc hflashing
  | false =>
    rw [State.flashTriggerOp_accepted s a hr]
    have hdisjoint := and_eq_zero_comm (configFacts hv).busy_flashing
    have hbusy : (s.flashAccept a).st s.cfg.srBusy = s.st s.cfg.srBusy ||| s.cfg.flashingMask := by
      rw [State.flashAccept_st, if_pos rfl]
    exact State.packFlash_reporting hv hk
      ((congrArg (· &&& s.cfg.coprocBusyMask) hbusy).trans ((and_or_of_disjoint hdisjoint).trans hcoproc))
      ⟨(congrArg (· &&& s.cfg.flashingMask) hbusy).trans (or_and_self_mask _ _), rfl⟩

/-- The tail of a service withdraws request, running flag and flashing bits together (R213). -/
theorem State.reporting.flashReturn {s : State} (h : s.reporting) : s.flashReturn.reporting := by
  obtain ⟨hv, hk, -, hcoproc, -⟩ := h
  have hc := configFacts hv
  have hdisjoint := and_eq_zero_comm hc.busy_flashing
  have hflash : s.flashReturn.st s.cfg.srFlash = flashPack false s.flashRetry s.flashError s.flashPhase := by
    rw [State.st_flashReturn, if_neg hc.busy_ne_flash.symm, if_pos rfl]
  have hbusy : s.flashReturn.st s.cfg.srBusy = s.st s.cfg.srBusy &&& ~~~s.cfg.flashingMask := by
    rw [State.st_flashReturn, if_pos rfl, if_neg hc.busy_ne_flash]
  exact ⟨hv, hk, hflash,
    (congrArg (· &&& s.cfg.coprocBusyMask) hbusy).trans ((and_not_of_disjoint hdisjoint).trans hcoproc),
    (congrArg (· &&& s.cfg.flashingMask) hbusy).trans (and_not_self_mask _ _), rfl⟩

theorem State.resetFields_st (s : State) (i : StatusIndex) : s.resetFields.st i = 0 := Vector.getElem_replicate i.isLt

theorem State.resetOp_st (s : State) (i : StatusIndex) : s.resetOp.st i = 0 := by
  obtain ⟨r, m, _, he⟩ := s.resetOp_eq
  rw [he]
  exact s.resetFields_st i

theorem flashPack_idle : flashPack false 0 .none .validating = 0 := by decide

/-- A zero status file agrees with idle engines. -/
theorem State.reporting_of_idle {s : State} (hv : configValid s.cfg = true) (hk : keepsLevels s.cfg)
    (hst : ∀ i, s.st i = 0) (hcoproc : s.coprocessorRequested = false) (hreq : s.flashRequested = false)
    (hrun : s.flashRunning = false)
    (hpack : flashPack s.flashRunning s.flashRetry s.flashError s.flashPhase = 0) : s.reporting := by
  refine ⟨hv, hk, (hst _).trans hpack.symm, ?_, ?_, hrun.trans hreq.symm⟩
  · rw [State.busyAgrees, hst, hcoproc]
    exact BitVec.zero_and
  · rw [hst, hreq]
    exact BitVec.zero_and

theorem State.reporting.resetOp {s : State} (h : s.reporting) : s.resetOp.reporting := by
  have hst := s.resetOp_st
  obtain ⟨r, m, _, he⟩ := s.resetOp_eq
  rw [he] at hst ⊢
  exact State.reporting_of_idle h.1 h.2.1 hst rfl rfl rfl flashPack_idle

theorem State.reporting.regEffects {s : State} (h : s.reporting) (i : RegIndex) (a : Byte) :
    (s.regEffects i a).reporting := by
  refine State.regEffects_keeps (P := State.reporting) (fun _ _ _ hu => hu) (fun u j b hu => ?lock) (fun _ _ hu => hu)
    (fun u j b hu => ?pc) (fun _ hu => hu.coprocTriggerOp) (fun _ b hu => hu.flashTriggerOp b) h i a
  case lock =>
    rw [State.unlockTrack_eq]
    exact hu
  case pc =>
    rw [State.coprocPcEffect_eq]
    exact hu

theorem keptByStep_reporting : KeptByStep State.reporting where
  rs s h := State.reporting.statusClearOnRead (s := s.hostReturn s.raStatus) h s.statusSel
  reg _ i a h := State.regPair_keeps (P := State.reporting) (fun _ hu => hu) (fun _ hu => hu.regEffects i a) h
  resetOp _ h := h.resetOp
  mergeSpriteFlags s f h :=
    have hc := configFacts h.1
    h.setSt_of_ne hc.flash_ne_zero.symm hc.busy_ne_zero.symm (mergeSprites s.cfg f (s.st 0))
  updateLineStatus _ y r h := h.updateLineStatus y r
  raiseEndOfFrame s h :=
    have hc := configFacts h.1
    h.setSt_of_ne hc.flash_ne_zero.symm hc.busy_ne_zero.symm (s.st 0 ||| s.cfg.stInt)
  sampleTemperature s h :=
    have hc := configFacts h.1
    h.setSt_of_ne hc.temp_ne_flash hc.temp_ne_busy (Config.tempSample s.draws)
  frameTrigger _ h := h.coprocTriggerOp
  coprocFinish _ h _ := h.coprocFinish
  flashTrigger _ a h := h.flashTriggerOp a
  setFlashPhase s p h := State.packFlash_reporting (s := { s with flashPhase := p }) h.1 h.2.1 h.2.2.2.1 h.2.2.2.2
  setFlashRetry s n h := State.packFlash_reporting (s := { s with flashRetry := n }) h.1 h.2.1 h.2.2.2.1 h.2.2.2.2
  raiseFlashError s e h := State.packFlash_reporting (s := { s with flashError := e }) h.1 h.2.1 h.2.2.2.1 h.2.2.2.2
  flashReturn _ h := h.flashReturn

/-! ### Status bits that no field names (R26) -/

/-- Register `i` is neither status register 0 nor a whole-byte field. -/
def ordinaryStatus (c : Config) (i : StatusIndex) : Prop :=
  i ≠ 0 ∧ i ≠ c.srScanline ∧ i ≠ c.srTemp ∧ i ≠ c.srFlash

/-- The bits of an ordinary register that a field names. -/
def namedBits (c : Config) (i : StatusIndex) : Byte :=
  (if i = c.srBlank then c.blankMask else 0) ||| (if i = c.srBusy then c.coprocBusyMask ||| c.flashingMask else 0)

/-- Every bit that no field names is 0. -/
def State.unnamedZero (s : State) : Prop :=
  ∀ i, ordinaryStatus s.cfg i → s.st i &&& ~~~namedBits s.cfg i = 0

theorem and_not_or_left (m n : Byte) : m &&& ~~~(m ||| n) = 0 := by
  rw [BitVec.not_or, ← BitVec.and_assoc, BitVec.and_not_self]
  exact BitVec.zero_and

theorem and_not_or_right (m n : Byte) : n &&& ~~~(m ||| n) = 0 := by
  rw [BitVec.or_comm]
  exact and_not_or_left n m

theorem blankMask_named (c : Config) : c.blankMask &&& ~~~namedBits c c.srBlank = 0 := by
  rw [namedBits, if_pos rfl]
  exact and_not_or_left _ _

theorem busyMasks_named (c : Config) :
    c.coprocBusyMask &&& ~~~namedBits c c.srBusy = 0 ∧ c.flashingMask &&& ~~~namedBits c c.srBusy = 0 := by
  rw [namedBits, if_pos rfl]
  have h := and_not_or_right (if c.srBusy = c.srBlank then c.blankMask else 0) (c.coprocBusyMask ||| c.flashingMask)
  rw [BitVec.and_comm] at h
  obtain ⟨hcoproc, hflashing⟩ := disjoint_of_and_or h
  exact ⟨and_eq_zero_comm hcoproc, and_eq_zero_comm hflashing⟩

/-- A status write whose value has named bits only. -/
theorem State.unnamedZero.setSt {s : State} (h : s.unnamedZero) (i : StatusIndex) (v : Byte)
    (hv : ordinaryStatus s.cfg i → v &&& ~~~namedBits s.cfg i = 0) : (s.setSt i v).unnamedZero := by
  intro j hj
  rw [State.st_setSt]
  split
  · next e => subst e; exact hv hj
  · exact h j hj

/-- Bits cleared. -/
theorem State.unnamedZero.clearBits {s : State} (h : s.unnamedZero) (i : StatusIndex) (m : Byte) :
    (s.setSt i (s.st i &&& m)).unnamedZero :=
  h.setSt i _ fun hi => by
    rw [BitVec.and_assoc, BitVec.and_comm m, ← BitVec.and_assoc, h i hi]
    exact BitVec.zero_and

/-- Named bits set. -/
theorem State.unnamedZero.setBits {s : State} (h : s.unnamedZero) {i : StatusIndex} {m : Byte}
    (hm : m &&& ~~~namedBits s.cfg i = 0) : (s.setSt i (s.st i ||| m)).unnamedZero :=
  h.setSt i _ fun hi => (and_or_of_disjoint hm).trans (h i hi)

/-- Status register 0 and the whole-byte fields are not spoken of. -/
theorem State.unnamedZero.setZero {s : State} (h : s.unnamedZero) (v : Byte) : (s.setSt 0 v).unnamedZero :=
  h.setSt 0 v fun hi => absurd rfl hi.1

theorem State.unnamedZero.packFlash {s : State} (h : s.unnamedZero) : s.packFlash.unnamedZero :=
  h.setSt s.cfg.srFlash _ fun hi => absurd rfl hi.2.2.2

theorem State.unnamedZero.statusClearOnRead {s : State} (h : s.unnamedZero) (i : StatusIndex) :
    (s.statusClearOnRead i).unnamedZero := by
  by_cases hi : i = 0
  · subst hi
    exact h.setZero _
  · have hclear : clearOnRead s.cfg i (s.st i) = s.st i &&& ~~~clrMask s.cfg i := if_neg fun e => hi e.1
    rw [State.statusClearOnRead, hclear]
    exact h.clearBits i _

theorem State.unnamedZero.updateLineStatus {s : State} (h : s.unnamedZero) (y : Nat) (r : Region) :
    (s.updateLineStatus y r).unnamedZero := by
  have hscan := h.setSt s.cfg.srScanline (scanlineByte s.cfg y) fun hi => absurd rfl hi.2.1
  have hblank : ∀ u : State, u.unnamedZero →
      (u.setSt u.cfg.srBlank (blankByte u.cfg r (u.st u.cfg.srBlank))).unnamedZero := fun u hu => by
    unfold blankByte
    split
    · exact hu.clearBits _ _
    · exact hu.setBits (blankMask_named u.cfg)
  exact hblank _ hscan

theorem State.unnamedZero.coprocTriggerOp {s : State} (h : s.unnamedZero) : s.coprocTriggerOp.unnamedZero :=
  State.unnamedZero.setBits (s := { s with coprocessorRequested := true }) h (busyMasks_named s.cfg).1

theorem State.unnamedZero.flashTriggerOp {s : State} (h : s.unnamedZero) (a : Byte) :
    (s.flashTriggerOp a).unnamedZero := by
  cases hr : s.flashRequested with
  | true =>
    rw [State.flashTriggerOp_dropped s a hr]
    exact State.unnamedZero.packFlash (s := { s with flashError := .busy }) h
  | false =>
    rw [State.flashTriggerOp_accepted s a hr]
    have haccept : (s.flashAccept a).unnamedZero := State.unnamedZero.setBits h (busyMasks_named s.cfg).2
    exact haccept.packFlash

theorem State.unnamedZero.regEffects {s : State} (h : s.unnamedZero) (i : RegIndex) (a : Byte) :
    (s.regEffects i a).unnamedZero := by
  refine State.regEffects_keeps (P := State.unnamedZero) (fun _ _ _ hu => hu) (fun u j b hu => ?lock)
    (fun _ _ hu => hu) (fun u j b hu => ?pc) (fun _ hu => hu.coprocTriggerOp) (fun _ b hu => hu.flashTriggerOp b) h i a
  case lock =>
    rw [State.unlockTrack_eq]
    exact hu
  case pc =>
    rw [State.coprocPcEffect_eq]
    exact hu

theorem keptByStep_unnamedZero : KeptByStep State.unnamedZero where
  rs s h := State.unnamedZero.statusClearOnRead (s := s.hostReturn s.raStatus) h s.statusSel
  reg _ i a h := State.regPair_keeps (P := State.unnamedZero) (fun _ hu => hu) (fun _ hu => hu.regEffects i a) h
  resetOp s _ i _ := by
    rw [State.resetOp_st]
    exact BitVec.zero_and
  mergeSpriteFlags s f h := h.setZero (mergeSprites s.cfg f (s.st 0))
  updateLineStatus _ y r h := h.updateLineStatus y r
  raiseEndOfFrame s h := h.setZero (s.st 0 ||| s.cfg.stInt)
  sampleTemperature s h := h.setSt s.cfg.srTemp (Config.tempSample s.draws) fun hi => absurd rfl hi.2.2.1
  frameTrigger _ h := h.coprocTriggerOp
  coprocFinish s h _ :=
    State.unnamedZero.clearBits (s := { s with coprocessorRequested := false }) h s.cfg.srBusy (~~~s.cfg.coprocBusyMask)
  flashTrigger _ a h := h.flashTriggerOp a
  setFlashPhase s p h := State.unnamedZero.packFlash (s := { s with flashPhase := p }) h
  setFlashRetry s n h := State.unnamedZero.packFlash (s := { s with flashRetry := n }) h
  raiseFlashError s e h := State.unnamedZero.packFlash (s := { s with flashError := e }) h
  flashReturn s h :=
    have hpack := State.unnamedZero.packFlash (s := { s with flashRunning := false }) h
    hpack.clearBits s.cfg.srBusy (~~~s.cfg.flashingMask)

/-! ### Storage (R43, R283) -/

theorem touchesStorage_eq_false {i : Instr} (hfw : i ≠ .flashFw) (hkwrite : i ≠ .flashKwrite) :
    Instr.touchesStorage i = false := by
  unfold Instr.touchesStorage
  split
  · exact absurd rfl hfw
  · exact absurd rfl hkwrite
  · rfl

theorem State.regEffects_storage (s : State) (h : RegIndex) (a : Byte) : (s.regEffects h a).storage = s.storage := by
  rw [State.regEffects_eq]

theorem keptByActions_storage (m : Mem) : KeptByActions fun s => s.storage = m where
  reg _ i a h := State.regPair_keeps (P := fun s => s.storage = m) (fun _ hu => hu)
    (fun u hu => (u.regEffects_storage i a).trans hu) h
  resetOp s h := s.resetOp_keeps.1.trans h
  flashTrigger s a h := by
    rw [State.flashTriggerOp_frame]
    exact h

/-! ### Address-mode writes -/

/-- Every address-mode write and every pair closes with `UpdateInt()`, `RearmData()`, `RearmStatus()` (R128, R129). -/
theorem exec_addressWrite_closes {i : Instr} (s : State)
    (hi : (∃ b, i = .waFirst b ∨ i = .waSecond b) ∨ (∃ a, i = .setaddrR a ∨ i = .setaddrW a) ∨
      ∃ h v, i = .regwrite h v) : ∃ u : State, exec i s = .next u.rearmAll := by
  obtain ⟨b, rfl | rfl⟩ | ⟨a, rfl | rfl⟩ | ⟨h, v, rfl⟩ := hi
  all_goals exact ⟨_, rfl⟩

/-! ### Locked register writes -/

theorem isResetWrite_of_not {c : Config} {i : RegIndex} {v : Byte} (h : notResetCommand c i v) :
    isResetWrite c i v = false := by
  unfold isResetWrite
  split
  · rfl
  · next r m hcmd =>
    rw [Bool.and_eq_false_iff, beq_eq_false_iff_ne, bne_eq_false_iff_eq]
    exact or_iff_not_imp_left.2 fun hne => h r m hcmd (not_not.1 hne)

/-- The lock mask bounds the register that a locked write reaches (R141). -/
theorem State.effectiveIndex_le_of_locked {s : State} (hu : s.unlocked = false) (h : RegIndex) :
    (s.effectiveIndex h).toNat ≤ s.cfg.lockedIndexMask.toNat := by
  rw [State.effectiveIndex, hu, if_neg Bool.false_ne_true, BitVec.toNat_and]
  exact Nat.and_le_right

/-- A register write that is not the reset command stores under the effective index alone (R140, R141). -/
theorem State.regWrite_x {s : State} {h : RegIndex} {v : Byte} (hn : notResetCommand s.cfg (s.targetIndex h) v)
    (j : RegIndex) : (s.regWrite h v).x j = if j = s.effectiveIndex h then v else s.x j := by
  rw [State.regWrite_frame s h v (isResetWrite_of_not hn), State.regEffects_eq]
  exact s.x_setX (s.effectiveIndex h) j v

/-! ### The state right after reset -/

theorem State.resetWith_x (c : Config) (i : RegIndex) : (State.resetWith c).x i = 0 := Vector.getElem_replicate i.isLt

theorem State.resetWith_st (c : Config) (i : StatusIndex) : (State.resetWith c).st i = 0 :=
  Vector.getElem_replicate i.isLt

theorem State.resetWith_safe {c : Config} (hc : configValid c = true) : (State.resetWith c).Safe where
  valid := hc
  line := by
    have hpending : (State.resetWith c).st 0 &&& c.stInt = 0 := by
      rw [State.resetWith_st]
      exact BitVec.zero_and
    show false = ((State.resetWith c).st 0 &&& c.stInt != 0 && _)
    rw [hpending]
    rfl
  latch := (State.resetWith_st c _).symm
  range := ⟨vramSize_pos c, (configFacts hc).lines_pos, Nat.two_pow_pos _⟩
  memories := ⟨(State.resetWith_wf c).1, (State.resetWith_wf c).2, List.forall_mem_nil _⟩
  buffers := .inl rfl
  sandbox h := absurd h Bool.false_ne_true

/-! ### The statements -/

/-- Settles O55: each part of `Safe` is kept by every step, those that rest on the configuration together with its
validity. -/
theorem stepKeepsSafe : Obligations.StepKeepsSafe := by
  intro s t hs hstep
  have hline := keptByStep_lineAgrees.step hstep ⟨hs.valid, hs.line⟩
  have hrange := keptByStep_inRange.step hstep ⟨hs.valid, hs.range⟩
  exact ⟨hline.1, hline.2, keptByStep_statusLatched.step hstep hs.latch, hrange.2,
    keptByStep_memoriesWf.step hstep hs.memories, keptByStep_buffersAgree.step hstep hs.buffers,
    keptByStep_sandboxAgrees.step hstep hs.sandbox⟩

/-- Settles O56: the conjunction of the reports is kept by every action. -/
theorem stepKeepsReports : Obligations.StepKeepsReports := fun s t hs hstep =>
  t.reports_iff_reporting.2 (keptByStep_reporting.step hstep (s.reports_iff_reporting.1 hs))

/-- Settles O57: no action sets a bit that no field names, and none writes the configuration that names them. -/
theorem unnamedStatusStaysZero : Obligations.UnnamedStatusStaysZero := by
  intro s t _ hzero hstep i h0 hscan htemp hflash
  have hs : s.unnamedZero := fun j ⟨hj0, hjscan, hjtemp, hjflash⟩ => hzero j hj0 hjscan hjtemp hjflash
  have ht : t.unnamedZero := keptByStep_unnamedZero.step hstep hs
  rw [State.unnamedZero, step_cfg hstep] at ht
  exact ht i ⟨h0, hscan, htemp, hflash⟩

/-- Settles O58: every action but those on storage leaves it, and only the two services have such an action. -/
theorem onlyFlashWritesStorage : Obligations.OnlyFlashWritesStorage := by
  intro i s t hfw hkwrite h
  have H := keptByActions_storage s.storage
  exact H.toKeptByExec.exec h (fun _ => H.resetOp s rfl) (touchesStorage_eq_false hfw hkwrite) rfl

/-- Settles O16. -/
theorem addressWritesRearm : Obligations.AddressWritesRearm := by
  intro i s hi
  obtain ⟨u, hu⟩ := exec_addressWrite_closes s hi
  obtain ⟨hline, hstatus, hdata⟩ := u.rearmAll_agrees
  exact ⟨_, hu, hline.trans u.rearmAll.interruptLevel_eq, hstatus, hdata⟩

/-- Settles O21: the one register written lies below 8. -/
theorem lockedWriteKeepsExtended : Obligations.LockedWriteKeepsExtended := by
  intro h v s hlocked hmask hn
  refine ⟨_, rfl, fun j hj => ?_⟩
  have hle := State.effectiveIndex_le_of_locked hlocked h
  have hne : j ≠ s.effectiveIndex h := fun e => by
    rw [e] at hj
    omega
  rw [State.rearmAll_x]
  exact (State.regWrite_x (s := { s.setLatchLow v with writeStage := 0 }) hn j).trans (if_neg hne)

/-- Settles O52: the registers, the status file and video memory by their reads, the other fields by their values. -/
theorem resetValues : Obligations.ResetValues := by
  intro c s
  exact ⟨State.resetWith_x c, State.resetWith_st c, fun _ => rfl, rfl, rfl, rfl, rfl, rfl, rfl, rfl, rfl, rfl, rfl, rfl,
    rfl, rfl, rfl, rfl, rfl, rfl, rfl, rfl, rfl, rfl, rfl, rfl, rfl⟩

/-- Settles O53. -/
theorem resetMeetsInvariants : Obligations.ResetMeetsInvariants := fun c hc =>
  ⟨State.resetWith_safe hc, fun hk => (State.reports_iff_reporting _).2
    (State.reporting_of_idle hc hk (State.resetWith_st c) rfl rfl rfl flashPack_idle)⟩

end Sys2Proof.Machine

/-! PROOFS. Encoding and decoding (spec/30_encoding.md): the two bus formats by the fields of their words, the bytes of
a pseudo-operation's operands, and the statements about `decode`, `encode` and the packed flash status byte. -/

namespace Sys2Proof

/-! ### Words by their fields -/

/-- Every word is a high field before a low one. -/
theorem exists_append_eq {n m : Nat} (w : BitVec (n + m)) : ∃ (h : BitVec n) (l : BitVec m), w = h ++ l :=
  ⟨w.extractLsb' m n, w.extractLsb' 0 m, by
    rw [BitVec.extractLsb'_append_extractLsb'_eq_extractLsb' (Nat.zero_add m).symm]
    exact (BitVec.extractLsb'_eq_self ..).symm⟩

theorem twoBits_cases : ∀ k : BitVec 2, k = 0 ∨ k = 1 ∨ k = 2 ∨ k = 3 := by decide

/-- Format C (R91): the two fixed bits of the word and its data. -/
theorem decodeCycle_append (stage : BitVec 1) (k : BitVec 2) (b : Byte) :
    decodeCycle stage (k ++ b) =
      if k.getLsbD 1 then if k.getLsbD 0 then .rs else .rd
      else if k.getLsbD 0 then if stage = 0 then .waFirst b else .waSecond b
      else .wd b := by
  have hrd : (k ++ b : BitVec 10).getLsbD 9 = k.getLsbD 1 := BitVec.getLsbD_append
  have hmode : (k ++ b : BitVec 10).getLsbD 8 = k.getLsbD 0 := BitVec.getLsbD_append
  unfold decodeCycle
  rw [extract_append_low, hrd, hmode]
  cases k.getLsbD 1 <;> cases k.getLsbD 0 <;> rfl

/-- The fields of a pair word, grouped by byte or by operand. -/
theorem pairFields_assoc (k : BitVec 2) (h : BitVec 6) (a : Byte) : (k ++ h ++ a : BitVec 16) = k ++ (h ++ a) :=
  BitVec.append_assoc

/-- Format P (R93, R94): the two top bits of the second byte, its low six, and the first byte. -/
theorem decodePair_append (k : BitVec 2) (h : BitVec 6) (a : Byte) :
    decodePair (k ++ h ++ a) =
      if k.getLsbD 1 then .regwrite h a else if k.getLsbD 0 then .setaddrW (h ++ a) else .setaddrR (h ++ a) := by
  have hform : (k ++ (h ++ a) : BitVec 16).getLsbD 15 = k.getLsbD 1 := BitVec.getLsbD_append
  have hmode : (k ++ (h ++ a) : BitVec 16).getLsbD 14 = k.getLsbD 0 := BitVec.getLsbD_append
  have haddr : (k ++ (h ++ a) : BitVec 16).extractLsb' 0 14 = h ++ a := extract_append_low k (h ++ a)
  have hval : (k ++ h ++ a : BitVec 16).extractLsb' 0 8 = a := extract_append_low (k ++ h) a
  have hidx : (k ++ h ++ a : BitVec 16).extractLsb' 8 6 = h := by
    apply BitVec.eq_of_getLsbD_eq
    intro i hi
    rw [BitVec.getLsbD_extractLsb', decide_eq_true hi, Bool.true_and, BitVec.getLsbD_append, if_neg (by omega),
      BitVec.getLsbD_append, if_pos (by omega), Nat.add_sub_cancel_left]
  unfold decodePair
  rw [hidx, hval, pairFields_assoc, hform, hmode, haddr]

theorem bytesOf_toNat (bytes : List Byte) : bytesOf (bytes.map BitVec.toNat) = some bytes := by
  induction bytes with
  | nil => rfl
  | cons b bytes ih =>
    rw [List.map_cons, bytesOf, if_pos b.isLt, ih]
    simp

/-- R91: the mask clears the data of a read cycle. -/
theorem encode_decodeCycle (stage : BitVec 1) (w : BitVec 10) :
    encode (decodeCycle stage w) = .cycle (if w.getLsbD 9 then w &&& 0x300 else w) := by
  obtain ⟨k, b, rfl⟩ := exists_append_eq (n := 2) (m := 8) w
  have hrd : (k ++ b : BitVec 10).getLsbD 9 = k.getLsbD 1 := BitVec.getLsbD_append
  have hmask : (k ++ b : BitVec 10) &&& 0x300 = (k &&& 3#2) ++ (b &&& 0#8) :=
    BitVec.and_append (x₂ := 3#2) (y₂ := 0#8)
  rw [decodeCycle_append, hrd, hmask, BitVec.and_zero]
  obtain rfl | rfl | rfl | rfl := twoBits_cases k
  · rfl
  · show encode (if stage = 0 then .waFirst b else .waSecond b) = _
    split <;> rfl
  · rfl
  · rfl

/-- R93, R95: the mask clears bit 6 of the second byte of a register pair. -/
theorem encode_decodePair (p : BitVec 16) :
    encode (decodePair p) = .pair (if p.getLsbD 15 then p &&& 0xBFFF else p) := by
  obtain ⟨kh, a, rfl⟩ := exists_append_eq (n := 8) (m := 8) p
  obtain ⟨k, h, rfl⟩ := exists_append_eq (n := 2) (m := 6) kh
  have hform : (k ++ h ++ a : BitVec 16).getLsbD 15 = k.getLsbD 1 := by
    rw [BitVec.getLsbD_append]
    exact BitVec.getLsbD_append
  have hsecond : (k ++ h : BitVec 8) &&& 0xBF = (k &&& 2#2) ++ h :=
    (BitVec.and_append (x₂ := 2#2) (y₂ := 0x3F#6)).trans (congrArg ((k &&& 2#2) ++ ·) BitVec.and_allOnes)
  have hmask : (k ++ h ++ a : BitVec 16) &&& 0xBFFF = (k &&& 2#2) ++ h ++ a :=
    (BitVec.and_append (x₂ := 0xBF#8) (y₂ := 0xFF#8)).trans
      (congrArg₂ (fun (x y : Byte) => x ++ y) hsecond BitVec.and_allOnes)
  rw [decodePair_append, hform, hmask]
  obtain rfl | rfl | rfl | rfl := twoBits_cases k
  · exact congrArg TraceLine.pair (pairFields_assoc _ h a).symm
  · exact congrArg TraceLine.pair (pairFields_assoc _ h a).symm
  · rfl
  · rfl

/-! ### The statements -/

/-- Settles O1: one case per operation; the bus formats by their fields, the pseudo-operations by the range of their
operands. -/
theorem decodeEncode : Obligations.DecodeEncode := by
  intro i ctx hwf hfirst hsecond
  cases i with
  | wd b => exact congrArg Except.ok (decodeCycle_wdWord _ b)
  | waFirst b =>
    show Except.ok (decodeCycle ctx.writeStage (waWord b)) = _
    rw [decodeCycle_waWord, if_pos (hfirst b rfl)]
  | waSecond b =>
    show Except.ok (decodeCycle ctx.writeStage (waWord b)) = _
    rw [decodeCycle_waWord, hsecond b rfl]
    rfl
  | setaddrR addr =>
    obtain ⟨h, a, rfl⟩ := exists_append_eq (n := 6) (m := 8) addr
    exact congrArg Except.ok ((congrArg decodePair (pairFields_assoc 0 h a).symm).trans (decodePair_append 0 h a))
  | setaddrW addr =>
    obtain ⟨h, a, rfl⟩ := exists_append_eq (n := 6) (m := 8) addr
    exact congrArg Except.ok ((congrArg decodePair (pairFields_assoc 1 h a).symm).trans (decodePair_append 1 h a))
  | regwrite idx val => exact congrArg Except.ok (decodePair_append 2 idx val)
  | flashTrigger value => exact if_pos hwf
  | setreg r v =>
    have hr : r.toNat < 64 := r.isLt
    have hv : v.toNat < 256 := v.isLt
    simp [encode, decode, decodePseudo, hr, hv]
  | setraddr a =>
    have ha : a.toNat < 16384 := a.isLt
    simp [encode, decode, decodePseudo, ha]
  | setwaddr a =>
    have ha : a.toNat < 16384 := a.isLt
    simp [encode, decode, decodePseudo, ha]
  | selstatus v =>
    have hv : v.toNat < 256 := v.isLt
    simp [encode, decode, decodePseudo, hv]
  | fill a bytes =>
    have ha : a.toNat < 16384 := a.isLt
    obtain _ | ⟨b, bs⟩ := bytes
    · cases hwf
    · have hbytes := bytesOf_toNat (b :: bs)
      rw [List.map_cons] at hbytes
      simp [encode, decode, decodePseudo, hbytes, ha]
  | dump a n =>
    have ha : a.toNat < 16384 := a.isLt
    simp [encode, decode, decodePseudo, ha]
  | rd | rs | flashFw | flashKread | flashKwrite | coprocTrigger | reset | line | frameEnd | coprocRun | bulkXfer
  | paletteRebuild | protFault | unlock => rfl

/-- Settles O2: each bus format by the two fixed bits of its word. -/
theorem encodeDecodeBusWords : Obligations.EncodeDecodeBusWords := ⟨encode_decodeCycle, encode_decodePair⟩

/-- Settles O3: each word evaluated. -/
theorem specWordsDecode : Obligations.SpecWordsDecode :=
  ⟨rfl, rfl, rfl, rfl, rfl, rfl, rfl, rfl, rfl, rfl, rfl, rfl, rfl, rfl⟩

namespace Machine

/-- A field put before another adds its value shifted past it. -/
theorem toNat_append_add {n m : Nat} (h : BitVec n) (l : BitVec m) : (h ++ l).toNat = 2 ^ m * h.toNat + l.toNat := by
  rw [BitVec.toNat_append, ← Nat.shiftLeft_add_eq_or_of_lt l.isLt, Nat.shiftLeft_eq, Nat.mul_comm]

/-- Settles O28: the byte is four fields put one before another. -/
theorem flashStatusByte : Obligations.FlashStatusByte := by
  intro running retry error phase
  have hrun : (BitVec.ofBool running).toNat = running.toNat := by cases running <;> rfl
  have hpack : (flashPack running retry error phase).toNat =
      128 * running.toNat + 32 * phase.code.toNat + 8 * retry.toNat + error.code.toNat := by
    rw [flashPack, toNat_append_add, toNat_append_add, toNat_append_add, hrun]
    omega
  rw [hpack]
  congr 1
  · congr 2
    · cases running <;> rfl
    · cases phase <;> rfl
  · cases error <;> rfl

end Machine

end Sys2Proof

/-! PROOFS. Pairs and pseudo-operations (spec/30_encoding.md R92 to R97): a pair against its two cycles, the runs of
`FILL` and `DUMP`, the rounds of `UNLOCK`, and the statements about them. -/

namespace Sys2Proof.Machine

/-! ### The latches of the state before do not reach a register write -/

theorem State.configApply_some {s : State} {page : ConfigPage} (hp : s.configPage = some page) :
    s.configApply = page.vramWrites.foldl (fun u e => u.memWrite e.1 e.2)
      (page.regWrites.foldl (fun u e => u.setX e.1 e.2) s) := by
  rw [State.configApply, hp]

/-- The three latches replaced. -/
def State.withLatches (s : State) (line : Bool) (data status : Byte) : State :=
  { s with interruptLine := line, raData := data, raStatus := status }

section latches
variable (s : State) (line : Bool) (data status : Byte)

theorem State.configApply_withLatches :
    (s.withLatches line data status).configApply = s.configApply.withLatches line data status := by
  cases hp : s.configPage with
  | none => rw [s.configApply_none hp, State.configApply_none (s.withLatches line data status) hp]
  | some page =>
    rw [State.configApply_some hp, State.configApply_some (s := s.withLatches line data status) hp,
      List.foldl_hom (State.withLatches · line data status) (g₁ := fun u e => u.setX e.1 e.2) fun _ _ => rfl,
      List.foldl_hom (State.withLatches · line data status) (g₁ := fun u e => u.memWrite e.1 e.2) fun _ _ => rfl]

theorem State.resetOp_withLatches : (s.withLatches line data status).resetOp = s.resetOp := by
  show ((s.resetFields.withLatches line data status).configApply).rearmAll = _
  rw [State.configApply_withLatches]
  exact State.rearmAll_forgets _ line data status

variable (h i : RegIndex) (a : Byte)

theorem State.unlockTrack_withLatches :
    (s.withLatches line data status).unlockTrack h a = (s.unlockTrack h a).withLatches line data status :=
  (State.unlockTrack_congr (s := s) (u := s.withLatches line data status) rfl rfl rfl h a).trans
    (congrArg (State.withLatches · line data status) (s.unlockTrack_eq h a)).symm

theorem State.coprocPcEffect_withLatches :
    (s.withLatches line data status).coprocPcEffect i a = (s.coprocPcEffect i a).withLatches line data status :=
  (State.coprocPcEffect_congr (s := s) (u := s.withLatches line data status) rfl rfl i a).trans
    (congrArg (State.withLatches · line data status) (s.coprocPcEffect_eq i a)).symm

theorem State.coprocEffect_withLatches :
    (s.withLatches line data status).coprocEffect i a = (s.coprocEffect i a).withLatches line data status :=
  (State.coprocEffect_congr (s := s) (u := s.withLatches line data status) rfl rfl rfl i a).trans
    (congrArg (State.withLatches · line data status) (s.coprocEffect_eq i a)).symm

theorem State.flashEffect_withLatches :
    (s.withLatches line data status).flashEffect i a = (s.flashEffect i a).withLatches line data status := by
  rw [State.flashEffect_congr (s := s) (u := s.withLatches line data status) rfl rfl rfl rfl rfl rfl rfl,
    State.flashEffect_status (s := s) (u := s.withLatches line data status) rfl rfl rfl rfl rfl rfl]
  exact (congrArg (State.withLatches · line data status) (s.flashEffect_frame i a)).symm

theorem State.regEffects_withLatches :
    (s.withLatches line data status).regEffects h a = (s.regEffects h a).withLatches line data status := by
  have hdirty : ∀ u : State, (u.withLatches line data status).dirtyEffects (s.effectiveIndex h) =
      (u.dirtyEffects (s.effectiveIndex h)).withLatches line data status := fun _ => rfl
  show ((((((s.setX (s.effectiveIndex h) a).withLatches line data status).unlockTrack h a).dirtyEffects
    (s.effectiveIndex h)).coprocPcEffect (s.effectiveIndex h) a).coprocEffect (s.effectiveIndex h) a).flashEffect
    (s.effectiveIndex h) a = _
  rw [State.unlockTrack_withLatches, hdirty, State.coprocPcEffect_withLatches, State.coprocEffect_withLatches,
    State.flashEffect_withLatches]
  rfl

/-- A register write, the reset command included, closed by `rearmAll`. -/
theorem State.regWrite_withLatches :
    ((s.withLatches line data status).regWrite h a).rearmAll = (s.regWrite h a).rearmAll := by
  cases hr : isResetWrite s.cfg (s.effectiveIndex h) a with
  | true =>
    rw [State.regWrite_reset s h a hr, State.regWrite_reset (s.withLatches line data status) h a hr,
      State.resetOp_withLatches]
  | false =>
    rw [State.regWrite_frame s h a hr, State.regWrite_frame (s.withLatches line data status) h a hr,
      State.regEffects_withLatches]
    exact State.rearmAll_forgets _ line data status

end latches

/-! ### A pair and its two cycles (R92, R93, R96) -/

/-- `REGWRITE` as a whole pair (R128, R129, R140). -/
def State.registerPair (s : State) (h : RegIndex) (v : Byte) : State :=
  (({ s.setLatchLow v with writeStage := 0 } : State).regWrite h v).rearmAll

theorem exec_regwrite (h : RegIndex) (v : Byte) (s : State) : exec (.regwrite h v) s = .next (s.registerPair h v) := rfl

theorem State.pairCycles_register (s : State) (a b : Byte) (hb : b.getLsbD 7 = true) :
    (s.waFirstCycle a).waSecondCycle b = s.registerPair (b.extractLsb' 0 6) a := by
  have hlow : (s.waFirstCycle a).latchLow = a := s.latchLow_setLatchLow a
  rw [State.waSecondCycle_register _ b hb, hlow]
  exact State.regWrite_withLatches { s.setLatchLow a with writeStage := 0 } _ _ _ _ a

theorem State.pairCycles_address (s : State) (a b : Byte) (hb : b.getLsbD 7 = false) :
    (s.waFirstCycle a).waSecondCycle b =
      (({ s with writeStage := 0 } : State).setAddr (pairAddress (b.extractLsb' 0 6) a)
        (b.extractLsb' 6 1)).rearmAll := by
  have hlow : (s.waFirstCycle a).latchLow = a := s.latchLow_setLatchLow a
  rw [State.waSecondCycle_address _ b hb, hlow]
  rfl

/-- With no byte pending, the operation of a pair word is its two cycles. -/
theorem exec_decodePair (k : BitVec 2) (h : BitVec 6) (a : Byte) {s : State} (hs : s.writeStage = 0) :
    exec (decodePair (k ++ h ++ a)) s = .next (s.busCycles [waWord a, waWord (k ++ h)]) := by
  have hform : (k ++ h : Byte).getLsbD 7 = k.getLsbD 1 := BitVec.getLsbD_append
  have hmode : (k ++ h : Byte).extractLsb' 6 1 = k.extractLsb' 0 1 := by
    apply BitVec.eq_of_getLsbD_eq
    intro i hi
    rw [BitVec.getLsbD_extractLsb', BitVec.getLsbD_extractLsb', BitVec.getLsbD_append, if_neg (by omega),
      Nat.add_sub_cancel_left, Nat.zero_add]
  have hidx : (k ++ h : Byte).extractLsb' 0 6 = h := extract_append_low k h
  rw [decodePair_append, State.busCycles_pair s a _ hs]
  cases hk : k.getLsbD 1 with
  | true =>
    rw [State.pairCycles_register s a _ (hform.trans hk), hidx]
    rfl
  | false =>
    rw [State.pairCycles_address s a _ (hform.trans hk), hidx, hmode]
    obtain rfl | rfl | rfl | rfl := twoBits_cases k
    · rfl
    · rfl
    · cases hk
    · cases hk

/-- The cycle word of an address-mode write, as an integer mask (R97 `0x100 | b`). -/
theorem or_eq_waWord (b : Byte) : 0x100 ||| b.setWidth 10 = waWord b := by
  have hwide : b.setWidth 10 = 0#2 ++ b := by
    apply BitVec.eq_of_toNat_eq
    rw [toNat_append_add, BitVec.toNat_setWidth_of_le (by decide)]
    simp
  rw [hwide]
  exact (BitVec.or_append (x₁ := 1#2) (y₁ := 0#8)).trans (congrArg (1#2 ++ ·) BitVec.zero_or)

/-! ### The pseudo-operations that are one pair (R97) -/

theorem busCycles_setregWords (r : RegIndex) (v : Byte) {s : State} (hs : s.writeStage = 0) :
    s.busCycles (setregWords r v) = s.registerPair r v := by
  have h := exec_decodePair 2 r v hs
  rw [decodePair_append] at h
  exact (Host.Outcome.next.inj h).symm

/-- A whole address pair (R129, R130). -/
def State.addressPair (s : State) (a : BitVec 14) (m : BitVec 1) : State :=
  (({ s with writeStage := 0 } : State).setAddr a m).rearmAll

theorem busCycles_setraddrWords (a : BitVec 14) {s : State} (hs : s.writeStage = 0) :
    s.busCycles (setraddrWords a) = s.addressPair a 0 := by
  obtain ⟨h, b, rfl⟩ := exists_append_eq (n := 6) (m := 8) a
  have hpair := exec_decodePair 0 h b hs
  rw [decodePair_append] at hpair
  rw [setraddrWords, extract_append_low, extract_append_high]
  exact (Host.Outcome.next.inj hpair).symm

theorem busCycles_setwaddrWords (a : BitVec 14) {s : State} (hs : s.writeStage = 0) :
    s.busCycles (setwaddrWords a) = s.addressPair a 1 := by
  obtain ⟨h, b, rfl⟩ := exists_append_eq (n := 6) (m := 8) a
  have hpair := exec_decodePair 1 h b hs
  rw [decodePair_append] at hpair
  rw [setwaddrWords, extract_append_low, extract_append_high]
  exact (Host.Outcome.next.inj hpair).symm

/-! ### A run of data cycles (R123, R127) -/

theorem State.memRead_congr_mod (s : State) {a b : Nat} (h : a % vramSize s.cfg = b % vramSize s.cfg) :
    s.memRead a = s.memRead b := by
  rw [← s.memRead_mod a, h, s.memRead_mod]

theorem View.put_congr {size a b : Nat} (h : a % size = b % size) (m : View) (v : Byte) :
    View.put size m a v = View.put size m b v := by
  unfold View.put
  rw [h]

theorem View.putRun_congr {size a b : Nat} (h : a % size = b % size) (m : View) (vs : List Byte) :
    View.putRun size m a vs = View.putRun size m b vs := by
  induction vs generalizing m a b with
  | nil => rfl
  | cons v vs ih =>
    have hnext : (a + 1) % size = (b + 1) % size := Nat.ModEq.add_right 1 h
    rw [View.putRun, View.putRun, View.put_congr h, ih hnext]

/-- A memory write seen as a view. -/
theorem State.memRead_memWrite_view (s : State) (a : Nat) (v : Byte) :
    (s.memWrite a v).memRead = View.put (vramSize s.cfg) s.memRead a v :=
  funext fun b => s.memRead_memWrite a b v

/-- A run of `WD` from a fresh data latch. -/
theorem State.busCycles_wdRun (bytes : List Byte) {s : State} (hs : s.writeStage = 0) (hd : s.dataLatched)
    (ha : s.addressLatch < vramSize s.cfg) :
    s.busCycles (bytes.map wdWord) = { s with
      vram := (s.busCycles (bytes.map wdWord)).vram
      addressLatch := (s.addressLatch + bytes.length) % vramSize s.cfg
      writeStage := 0
      raData := (s.busCycles (bytes.map wdWord)).memRead ((s.addressLatch + bytes.length) % vramSize s.cfg) } ∧
    (s.busCycles (bytes.map wdWord)).memRead = View.putRun (vramSize s.cfg) s.memRead s.addressLatch bytes := by
  induction bytes generalizing s with
  | nil =>
    refine ⟨?_, rfl⟩
    show s = { s with addressLatch := s.addressLatch % vramSize s.cfg
                      writeStage := 0
                      raData := s.memRead (s.addressLatch % vramSize s.cfg) }
    rw [Nat.mod_eq_of_lt ha, ← hd, ← hs]
  | cons b bytes ih =>
    have hlt : (s.addressLatch + 1) % vramSize s.cfg < vramSize s.cfg := Nat.mod_lt _ (vramSize_pos s.cfg)
    have hlatch : ((s.addressLatch + 1) % vramSize s.cfg + bytes.length) % vramSize s.cfg =
        (s.addressLatch + (b :: bytes).length) % vramSize s.cfg := by
      rw [Nat.mod_add_mod, List.length_cons, Nat.add_assoc, Nat.add_comm 1]
    obtain ⟨hstate, hmem⟩ := ih (s := s.wdCycle b) rfl rfl hlt
    rw [List.map_cons, State.busCycles, State.busCycle_wd, ← hlatch]
    refine ⟨hstate, hmem.trans ?_⟩
    rw [View.putRun, ← State.memRead_memWrite_view]
    exact View.putRun_congr (Nat.mod_mod _ _) _ bytes

/-- `RD` with nothing pending (R127): `READ_RESETS_STAGE` makes no difference. -/
theorem State.rdCycle_of_stage_zero {s : State} (hs : s.writeStage = 0) :
    s.rdCycle = { s with
      hostReads := s.hostReads ++ [s.raData]
      addressLatch := (s.addressLatch + 1) % vramSize s.cfg
      writeStage := 0
      raData := s.memRead (s.addressLatch + 1) } := by
  have hstage : (if s.cfg.readResetsStage then 0 else s.writeStage) = 0 := by rw [hs, ite_self]
  rw [← hstage, ← s.memRead_mod]
  rfl

/-- A run of `RD` from a fresh data latch. -/
theorem State.busCycles_rdRun (n : Nat) {s : State} (hs : s.writeStage = 0) (hd : s.dataLatched)
    (ha : s.addressLatch < vramSize s.cfg) :
    s.busCycles (List.replicate n rdWord) = { s with
      hostReads := s.hostReads ++ (List.range n).map (fun k => s.memRead (s.addressLatch + k))
      addressLatch := (s.addressLatch + n) % vramSize s.cfg
      writeStage := 0
      raData := s.memRead (s.addressLatch + n) } := by
  induction n with
  | zero =>
    show s = { s with hostReads := s.hostReads ++ []
                      addressLatch := s.addressLatch % vramSize s.cfg
                      writeStage := 0
                      raData := s.memRead s.addressLatch }
    rw [Nat.mod_eq_of_lt ha, ← hd, List.append_nil, ← hs]
  | succ n ih =>
    have hlatch : ((s.addressLatch + n) % vramSize s.cfg + 1) % vramSize s.cfg =
        (s.addressLatch + (n + 1)) % vramSize s.cfg := by rw [Nat.mod_add_mod, Nat.add_assoc]
    have hdata : s.memRead ((s.addressLatch + n) % vramSize s.cfg + 1) = s.memRead (s.addressLatch + (n + 1)) :=
      s.memRead_congr_mod hlatch
    rw [List.replicate_succ', State.busCycles_append, ih, List.range_succ, List.map_append, ← List.append_assoc,
      ← hlatch, ← hdata]
    exact State.rdCycle_of_stage_zero rfl

/-- An address of a pair is one of video memory. -/
theorem addr14_lt_vramSize {c : Config} (h : 14 ≤ c.vramBits) (a : BitVec 14) : a.toNat < vramSize c :=
  lt_of_lt_of_le a.isLt (Nat.pow_le_pow_right (by decide) h)

/-! ### The rounds of `UNLOCK` (R97, R146) -/

/-- A flash trigger writes no status register but `SR_BUSY` and `SR_FLASH` (R150). -/
theorem State.st_flashTriggerOp_of_ne (s : State) (a : Byte) {j : StatusIndex} (hbusy : j ≠ s.cfg.srBusy)
    (hflash : j ≠ s.cfg.srFlash) : (s.flashTriggerOp a).st j = s.st j := by
  cases hr : s.flashRequested with
  | true =>
    rw [State.flashTriggerOp_dropped s a hr, State.st_packFlash]
    exact if_neg hflash
  | false =>
    have haccept : (s.flashAccept a).st j = s.st j := by rw [State.flashAccept_st, if_neg hbusy]
    rw [State.flashTriggerOp_accepted s a hr, State.st_packFlash]
    exact (if_neg hflash).trans haccept

/-- No effect of a register write reaches another status register (R142). -/
theorem State.st_regEffects_of_ne (s : State) (h : RegIndex) (a : Byte) {j : StatusIndex} (hbusy : j ≠ s.cfg.srBusy)
    (hflash : j ≠ s.cfg.srFlash) : (s.regEffects h a).st j = s.st j := by
  refine (State.regEffects_keeps (P := fun u => u.cfg = s.cfg ∧ u.st j = s.st j) (fun _ _ _ hu => hu)
    (fun u g b hu => ?lock) (fun _ _ hu => hu) (fun u i b hu => ?pc) (fun u hu => ?coproc) (fun u b hu => ?flash)
    (And.intro rfl rfl) h a).2
  case lock =>
    rw [State.unlockTrack_eq]
    exact hu
  case pc =>
    rw [State.coprocPcEffect_eq]
    exact hu
  case coproc =>
    refine ⟨hu.1, ?_⟩
    rw [State.st_coprocTriggerOp, if_neg (hu.1 ▸ hbusy)]
    exact hu.2
  case flash =>
    refine ⟨by rw [State.flashTriggerOp_frame]; exact hu.1, ?_⟩
    rw [State.st_flashTriggerOp_of_ne u b (hu.1 ▸ hbusy) (hu.1 ▸ hflash)]
    exact hu.2

theorem State.unlockTrack_matching {s : State} (hu : s.unlocked = false) :
    s.unlockTrack s.cfg.unlockReg s.cfg.unlockValue = { s with
      unlockProgress := s.unlockProgress + 1
      unlocked := s.unlockProgress + 1 == s.cfg.unlockCount } := by
  unfold State.unlockTrack
  rw [hu, if_neg Bool.false_ne_true, if_pos ⟨rfl, rfl⟩]

/-- Neither register that a write of the unlock sequence may reach makes it the reset command. -/
def unlockIsNoReset (c : Config) : Prop :=
  notResetCommand c (c.unlockReg &&& c.lockedIndexMask) c.unlockValue ∧ notResetCommand c c.unlockReg c.unlockValue

/-- What a part of the unlock sequence leaves, and what it brings the registers to. -/
structure UnlockKeeps (s t : State) : Prop where
  cfg : t.cfg = s.cfg
  writeStage : t.writeStage = 0
  vram : t.vram = s.vram
  storage : t.storage = s.storage
  hostReads : t.hostReads = s.hostReads
  x : ∀ j, j ≠ s.cfg.unlockReg → j ≠ s.cfg.unlockReg &&& s.cfg.lockedIndexMask → t.x j = s.x j
  value : ∀ j, s.x j = s.cfg.unlockValue → t.x j = s.cfg.unlockValue
  st : ∀ j, j ≠ s.cfg.srBusy → j ≠ s.cfg.srFlash → t.st j = s.st j

theorem UnlockKeeps.refl {s : State} (hs : s.writeStage = 0) : UnlockKeeps s s :=
  ⟨rfl, hs, rfl, rfl, rfl, fun _ _ _ => rfl, fun _ h => h, fun _ _ _ => rfl⟩

theorem UnlockKeeps.trans {s t u : State} (h : UnlockKeeps s t) (g : UnlockKeeps t u) : UnlockKeeps s u where
  cfg := g.cfg.trans h.cfg
  writeStage := g.writeStage
  vram := g.vram.trans h.vram
  storage := g.storage.trans h.storage
  hostReads := g.hostReads.trans h.hostReads
  x j hreg hmasked := (g.x j (h.cfg ▸ hreg) (h.cfg ▸ hmasked)).trans (h.x j hreg hmasked)
  value j hj := h.cfg ▸ g.value j (h.cfg ▸ h.value j hj)
  st j hbusy hflash := (g.st j (h.cfg ▸ hbusy) (h.cfg ▸ hflash)).trans (h.st j hbusy hflash)

/-- One write of the unlock sequence. -/
def State.unlockWrite (s : State) : State := s.registerPair s.cfg.unlockReg s.cfg.unlockValue

/-- The register that a write of the unlock sequence reaches is one of the two. -/
theorem State.effectiveIndex_unlockReg (s : State) :
    s.effectiveIndex s.cfg.unlockReg = s.cfg.unlockReg ∨
    s.effectiveIndex s.cfg.unlockReg = s.cfg.unlockReg &&& s.cfg.lockedIndexMask := by
  unfold State.effectiveIndex
  split
  · exact .inl rfl
  · exact .inr rfl

theorem State.unlockWrite_eq {s : State} (hn : unlockIsNoReset s.cfg) :
    s.unlockWrite = (({ s.setLatchLow s.cfg.unlockValue with writeStage := 0 } : State).regEffects s.cfg.unlockReg
      s.cfg.unlockValue).rearmAll := by
  have hno : isResetWrite s.cfg (s.effectiveIndex s.cfg.unlockReg) s.cfg.unlockValue = false := by
    obtain he | he := s.effectiveIndex_unlockReg <;> rw [he]
    · exact isResetWrite_of_not hn.2
    · exact isResetWrite_of_not hn.1
  exact congrArg State.rearmAll
    (State.regWrite_frame { s.setLatchLow s.cfg.unlockValue with writeStage := 0 } _ _ hno)

theorem State.x_unlockWrite {s : State} (hn : unlockIsNoReset s.cfg) (j : RegIndex) :
    s.unlockWrite.x j = if j = s.effectiveIndex s.cfg.unlockReg then s.cfg.unlockValue else s.x j := by
  rw [State.unlockWrite_eq hn, State.rearmAll_x, State.regEffects_eq]
  exact s.x_setX _ j s.cfg.unlockValue

theorem State.unlockWrite_keeps {s : State} (hn : unlockIsNoReset s.cfg) : UnlockKeeps s s.unlockWrite := by
  have hx := State.x_unlockWrite hn
  have hst : ∀ j, j ≠ s.cfg.srBusy → j ≠ s.cfg.srFlash → s.unlockWrite.st j = s.st j := fun j hbusy hflash => by
    rw [State.unlockWrite_eq hn, State.rearmAll_st]
    exact State.st_regEffects_of_ne { s.setLatchLow s.cfg.unlockValue with writeStage := 0 } _ _ hbusy hflash
  refine ⟨?_, ?_, ?_, ?_, ?_, fun j hreg hmasked => ?_, fun j hj => ?_, hst⟩
  case refine_6 =>
    rw [hx, if_neg]
    obtain he | he := s.effectiveIndex_unlockReg <;> rw [he]
    · exact hreg
    · exact hmasked
  case refine_7 =>
    rw [hx]
    split
    · rfl
    · exact hj
  all_goals
    rw [State.unlockWrite_eq hn, State.regEffects_eq]
    rfl

/-- The lock after one write of the unlock sequence (R146). -/
theorem State.unlockWrite_lock {s : State} (hn : unlockIsNoReset s.cfg) :
    (s.unlocked = true → s.unlockWrite.unlocked = true) ∧
    (s.unlocked = false → s.unlockWrite.unlockProgress = s.unlockProgress + 1 ∧
      s.unlockWrite.unlocked = (s.unlockProgress + 1 == s.cfg.unlockCount)) := by
  rw [State.unlockWrite_eq hn, State.regEffects_eq]
  refine ⟨fun hu => ?_, fun hu => ?_⟩
  · exact (congrArg State.unlocked (State.unlockTrack_unlocked
      { s.setLatchLow s.cfg.unlockValue with writeStage := 0 } _ _ hu)).trans hu
  · have htrack := State.unlockTrack_matching (s := { s.setLatchLow s.cfg.unlockValue with writeStage := 0 }) hu
    exact ⟨congrArg State.unlockProgress htrack, congrArg State.unlocked htrack⟩

/-- `n` writes of the unlock sequence unlock the core where that many are left, and where it is unlocked already. -/
theorem State.unlockRounds (n : Nat) {s : State} (hs : s.writeStage = 0) (hn : unlockIsNoReset s.cfg)
    (hleft : s.unlocked = true ∨
      s.unlockProgress < s.cfg.unlockCount ∧ s.cfg.unlockCount ≤ s.unlockProgress + n) :
    let t := s.busCycles (List.replicate n (setregWords s.cfg.unlockReg s.cfg.unlockValue)).flatten
    UnlockKeeps s t ∧ t.unlocked = true ∧
    (s.unlocked = false → t.x (s.cfg.unlockReg &&& s.cfg.lockedIndexMask) = s.cfg.unlockValue) := by
  induction n generalizing s with
  | zero =>
    have hu : s.unlocked = true := hleft.resolve_right fun h => by omega
    exact ⟨UnlockKeeps.refl hs, hu, fun h => absurd (hu.symm.trans h) Bool.false_ne_true.symm⟩
  | succ n ih =>
    have hkeeps := State.unlockWrite_keeps hn
    obtain ⟨hopen, hlocked⟩ := State.unlockWrite_lock hn
    have hnext : s.unlockWrite.unlocked = true ∨ s.unlockWrite.unlockProgress < s.unlockWrite.cfg.unlockCount ∧
        s.unlockWrite.cfg.unlockCount ≤ s.unlockWrite.unlockProgress + n := by
      rw [hkeeps.cfg]
      cases hu : s.unlocked with
      | true => exact .inl (hopen hu)
      | false =>
        obtain ⟨hprogress, hunlocked⟩ := hlocked hu
        obtain ⟨hlt, hle⟩ := hleft.resolve_left (by rw [hu]; exact Bool.false_ne_true)
        rw [hprogress, hunlocked, beq_iff_eq]
        omega
    obtain ⟨hrest, hend, -⟩ := ih hkeeps.writeStage (hkeeps.cfg ▸ hn) hnext
    rw [hkeeps.cfg] at hrest hend
    rw [List.replicate_succ, List.flatten_cons, State.busCycles_append, busCycles_setregWords _ _ hs]
    refine ⟨hkeeps.trans hrest, hend, fun hu => ?_⟩
    have hfirst : s.unlockWrite.x (s.cfg.unlockReg &&& s.cfg.lockedIndexMask) = s.cfg.unlockValue := by
      rw [State.x_unlockWrite hn, State.effectiveIndex, hu, if_neg Bool.false_ne_true, if_pos rfl]
    rw [← congrArg Config.unlockValue hkeeps.cfg] at hfirst
    exact (hrest.value _ hfirst).trans (congrArg Config.unlockValue hkeeps.cfg)

/-! ### The statements -/

/-- Settles O13. -/
theorem pairIsItsTwoCycles : Obligations.PairIsItsTwoCycles := by
  intro p s hs
  obtain ⟨kh, a, rfl⟩ := exists_append_eq (n := 8) (m := 8) p
  obtain ⟨k, h, rfl⟩ := exists_append_eq (n := 2) (m := 6) kh
  refine ⟨_, exec_decodePair k h a hs, ?_⟩
  rw [extract_append_low, extract_append_high, or_eq_waWord, or_eq_waWord]

/-- Settles O22: `UNLOCK_COUNT` writes are as many as can be left. -/
theorem unlockUnlocks : Obligations.UnlockUnlocks := by
  intro s hs hlock hmasked hreg
  have hleft : s.unlocked = true ∨
      s.unlockProgress < s.cfg.unlockCount ∧ s.cfg.unlockCount ≤ s.unlockProgress + s.cfg.unlockCount :=
    hlock.imp_right fun h => ⟨h, Nat.le_add_left _ _⟩
  obtain ⟨hkeeps, hunlocked, hvalue⟩ := State.unlockRounds s.cfg.unlockCount hs ⟨hmasked, hreg⟩ hleft
  exact ⟨_, rfl, hunlocked, hkeeps.writeStage, hkeeps.vram, hkeeps.storage, hkeeps.hostReads,
    fun hu _ => hvalue hu, hkeeps.x, hkeeps.st⟩

/-- Settles O23: each is the pair whose two cycles it issues. -/
theorem pseudoPairs : Obligations.PseudoPairs := by
  intro r v a s hs
  have hreg : ∀ i, exec (.setreg i v) s = .next (s.registerPair i v) := fun i =>
    congrArg Host.Outcome.next (busCycles_setregWords i v hs)
  exact ⟨⟨_, hreg r, exec_regwrite r v s⟩,
    ⟨_, congrArg Host.Outcome.next (busCycles_setraddrWords a hs), rfl⟩,
    ⟨_, congrArg Host.Outcome.next (busCycles_setwaddrWords a hs), rfl⟩,
    ⟨_, hreg s.cfg.sselReg, exec_regwrite s.cfg.sselReg v s⟩⟩

/-- Settles O24: the address pair, then a run of `WD` from it. -/
theorem fillWritesRun : Obligations.FillWritesRun := by
  intro a bytes s hs hbits
  have hexec : exec (.fill a bytes) s = .next ((s.addressPair a 1).busCycles (bytes.map wdWord)) := by
    rw [← busCycles_setwaddrWords a hs, ← State.busCycles_append]
    rfl
  obtain ⟨hstate, hmem⟩ := State.busCycles_wdRun bytes (s := s.addressPair a 1) rfl rfl (addr14_lt_vramSize hbits a)
  have hlatch := congrArg State.addressLatch hstate
  refine ⟨_, hexec, hstate.trans ?_, congrFun hmem⟩
  rw [hlatch, ← State.interruptLevel_eq]
  rfl

/-- Settles O25: the address pair, then a run of `RD` from it. -/
theorem dumpReadsRun : Obligations.DumpReadsRun := by
  intro a n s hs hbits
  have hexec : exec (.dump a n) s = .next ((s.addressPair a 0).busCycles (List.replicate n rdWord)) := by
    rw [← busCycles_setraddrWords a hs, ← State.busCycles_append]
    rfl
  refine ⟨_, hexec, ?_⟩
  rw [State.busCycles_rdRun (s := s.addressPair a 0) n rfl rfl (addr14_lt_vramSize hbits a), ← State.interruptLevel_eq]
  rfl

end Sys2Proof.Machine

/-! PROOFS. The bulk transfer (spec/43_coprocessor_sandbox.md R201 to R203) with nothing interleaved: its fields, its
loop as a fold over byte offsets, and the statement about it. -/

namespace Sys2Proof.Machine

theorem walkIndex_eq_bulkAddress (size base : Nat) (back : Bool) (k : Nat) :
    walkIndex size base back k = bulkAddress size base back k := by
  unfold walkIndex bulkAddress
  cases back <;> simp

/-- One byte of the copy, as a state update. -/
def State.copyByte (s : State) (size : Nat) (p : BulkParams) (off : Nat) : State :=
  s.memWrite (walkIndex size p.dst.toNat p.dstBack off) (s.memRead (walkIndex size p.src.toNat p.srcBack off))

/-- One byte of the copy, as a view update. -/
def View.copyByte (size : Nat) (p : BulkParams) (m : View) (off : Nat) : View :=
  View.put size m (bulkAddress size p.dst.toNat (p.dirflags.getLsbD 1) off)
    (m (bulkAddress size p.src.toNat (p.dirflags.getLsbD 0) off))

theorem State.memRead_copyByte (s : State) (p : BulkParams) (off : Nat) :
    (s.copyByte (vramSize s.cfg) p off).memRead = View.copyByte (vramSize s.cfg) p s.memRead off := by
  rw [State.copyByte, State.memRead_memWrite_view, walkIndex_eq_bulkAddress, walkIndex_eq_bulkAddress]
  rfl

/-- Row `r` of the copy is a fold over its columns. -/
theorem View.bulkRow_eq_foldl (size : Nat) (p : BulkParams) (r n : Nat) (m : View) :
    View.bulkRow size p r n m =
      ((List.range n).map fun c => r * p.stride.toNat + c).foldl (View.copyByte size p) m := by
  induction n with
  | zero => rfl
  | succ n ih =>
    rw [List.range_succ, List.map_append, List.foldl_append, ← ih]
    rfl

/-- The rows of the copy are a fold over all offsets, rows outermost (R201). -/
theorem View.bulkRows_eq_foldl (size : Nat) (p : BulkParams) (n : Nat) (m : View) :
    View.bulkRows size p n m =
      ((List.range n).flatMap fun r => (List.range p.width.toNat).map fun c => r * p.stride.toNat + c).foldl
        (View.copyByte size p) m := by
  induction n with
  | zero => rfl
  | succ n ih =>
    rw [View.bulkRows, View.bulkRow_eq_foldl, ih, List.range_succ, List.flatMap_append, List.foldl_append,
      List.flatMap_singleton]

/-- The copy changes nothing but video memory, and its view is the fold of its bytes. -/
theorem State.copyBytes (p : BulkParams) (offs : List Nat) (s : State) :
    (∃ m, offs.foldl (fun t => t.copyByte (vramSize s.cfg) p) s = { s with vram := m }) ∧
    (offs.foldl (fun t => t.copyByte (vramSize s.cfg) p) s).memRead =
      offs.foldl (View.copyByte (vramSize s.cfg) p) s.memRead := by
  refine ⟨foldl_vram_frame _ (fun _ _ => ⟨_, rfl⟩) offs s, ?_⟩
  induction offs generalizing s with
  | nil => rfl
  | cons off offs ih =>
    rw [List.foldl_cons, List.foldl_cons, ← State.memRead_copyByte]
    exact ih (s.copyByte (vramSize s.cfg) p off)

section quiet
variable (k : Collaborators) {s : State} (hs : s.strobes = [])
include hs

theorem bulkParams_quiet (c : Config) : bulkParams k c s = .ok (View.bulkParams c s.memRead) s := by
  have hread := fun a => bgRead_quiet (workPoint_quiet k) a hs
  have hrange := fun a n => bgReadRange_quiet (workPoint_quiet k) a n hs
  rw [bulkParams, bg_bind_ok (hrange _ _), bg_bind_ok (hrange _ _), bg_bind_ok (hread _), bg_bind_ok (hread _),
    bg_bind_ok (hread _), bg_bind_ok (hread _)]
  rfl

theorem bulkByte_quiet (size : Nat) (p : BulkParams) (off : Nat) :
    bulkByte k size p off s = .ok () (s.copyByte size p off) := by
  rw [bulkByte, bg_bind_ok (bgRead_quiet (workPoint_quiet k) _ hs)]
  exact bgWrite_quiet (workPoint_quiet k) _ _ hs

/-- The whole transfer: nothing but video memory changes, and that as R201 says. -/
theorem bulkTransfer_quiet : ∃ m, bulkTransfer k s = .ok () { s with vram := m } ∧
    ({ s with vram := m } : State).memRead = View.bulk s.cfg s.memRead := by
  obtain ⟨p, hp⟩ : ∃ p, p = View.bulkParams s.cfg s.memRead := ⟨_, rfl⟩
  obtain ⟨⟨m, hm⟩, hview⟩ := State.copyBytes p p.offsets s
  have hloop : forEach (bulkByte k (vramSize s.cfg) p) p.offsets s = .ok () { s with vram := m } :=
    (forEach_fold _ _ (fun off _ ht => bulkByte_quiet k ht (vramSize s.cfg) p off) (fun _ _ ht => ht) p.offsets s
      hs).trans
      (congrArg (EStateM.Result.ok ()) hm)
  have hclear := bgWrite_quiet (workPoint_quiet k) (sigField s.cfg s.cfg.sigLayout.pending) 0x00
    (s := { s with vram := m }) hs
  refine ⟨(({ s with vram := m } : State).memWrite (sigField s.cfg s.cfg.sigLayout.pending) 0x00).vram, ?_, ?_⟩
  · show bulkTransferIn k s.cfg s = _
    rw [bulkTransferIn, bg_bind_ok (bulkParams_quiet k hs s.cfg), ← hp, bg_bind_ok hloop, hclear]
    rfl
  · rw [hm] at hview
    show (({ s with vram := m } : State).memWrite (sigField s.cfg s.cfg.sigLayout.pending) 0x00).memRead = _
    rw [State.memRead_memWrite_view, hview, View.bulk, ← hp, View.bulkRows_eq_foldl]
    rfl

end quiet

end Sys2Proof.Machine

namespace Sys2Proof

/-- Settles O40. -/
theorem bulkTransfer : Obligations.BulkTransfer := by
  intro s hs
  obtain ⟨m, hrun, hview⟩ := Machine.bulkTransfer_quiet Config.collab hs
  exact ⟨_, Machine.runBg_ok hrun, rfl, congrFun hview⟩

end Sys2Proof

/-! PROOFS. The flash services (spec/44_flash_programmer.md) with nothing interleaved: the frame of a service, the
firmware checks and the accepted block, and the statements about them. -/

namespace Sys2Proof.Machine

/-! ### What a valid configuration gives the services -/

/-- The constraints of R8 on staging buffer, slot grid and retries. -/
structure FlashFacts (c : Config) : Prop where
  stage_fits : c.stageBase + max 292 (20 + c.kbPayloadBytes) ≤ vramSize c
  slots_fill_page : erasePage c % kbSlotBytes c = 0
  base_aligned : c.kbBase % erasePage c = 0
  retries_le : c.maxRetries ≤ 3

theorem flashFacts {c : Config} (h : configValid c = true) : FlashFacts c := by
  simp only [configValid, layoutValid, Bool.and_eq_true, decide_eq_true_eq] at h
  obtain ⟨⟨⟨⟨⟨_, hlayout⟩, hretries⟩, _⟩, _⟩, _⟩ := h
  obtain ⟨⟨⟨⟨⟨⟨⟨⟨⟨⟨_, hstage⟩, _⟩, _⟩, _⟩, _⟩, hslots⟩, hbase⟩, _⟩, _⟩, _⟩ := hlayout
  exact ⟨hstage, hslots, hbase, hretries⟩

/-! ### The frame of a service (R211, R213) -/

section quiet
variable (k : Collaborators) {s : State} (hs : s.strobes = [])
include hs

theorem flashRaise_quiet (e : FlashError) : flashRaise k e s = .ok () (s.raiseFlashError e) :=
  guarded_quiet (workPoint_quiet k) _ hs

theorem flashPhaseTo_quiet (p : FlashPhase) : flashPhaseTo k p s = .ok () (s.setFlashPhase p) :=
  guarded_quiet (workPoint_quiet k) _ hs

/-- A service runs its body on the staged bytes, then the tail. -/
theorem flashService_quiet {n : Nat} {body : List Byte → Bg Unit} {u : State} (hbody : body (s.staged n) s = .ok () u)
    (hu : u.strobes = []) : flashService k s.cfg.stageBase n body s = .ok () u.flashReturn := by
  rw [flashService, bg_bind_ok (bgReadRange_quiet (workPoint_quiet k) _ n hs)]
  exact (bg_bind_ok hbody).trans (guarded_quiet (workPoint_quiet k) _ hu)

end quiet

theorem flashEnabled_of_ready {s : State} (h : s.flashReady) : flashEnabled s = true := by
  rw [flashEnabled, h.1, h.2]
  rfl

theorem exec_flashFw_ready {s u : State} (hs : s.quiet) (hr : s.flashReady) (hk : s.flashMode.keyed = false)
    (hbody : flashFirmware Config.collab (s.staged 292) s = .ok () u) (hu : u.strobes = []) :
    exec .flashFw s = .next u.flashReturn := by
  show runBg (onlyIf (flashEnabled s && !s.flashMode.keyed) (fwServiceBody Config.collab)) s = _
  rw [flashEnabled_of_ready hr, hk]
  exact runBg_ok (flashService_quiet Config.collab hs hbody hu)

/-- The status file after a service whose body wrote no register but `SR_FLASH`. -/
theorem State.st_flashReturn_of_body {s u : State} (hc : configValid s.cfg = true) (hcfg : u.cfg = s.cfg)
    (hst : ∀ i, i ≠ s.cfg.srFlash → u.st i = s.st i) (j : StatusIndex) : u.flashReturn.st j =
      if j = s.cfg.srFlash then flashPack false u.flashRetry u.flashError u.flashPhase
      else if j = s.cfg.srBusy then s.st s.cfg.srBusy &&& ~~~s.cfg.flashingMask
      else s.st j := by
  have hne := (configFacts hc).busy_ne_flash
  rw [State.st_flashReturn, hcfg]
  by_cases hflash : j = s.cfg.srFlash
  · rw [if_pos hflash, if_pos hflash, if_neg (hflash ▸ hne.symm)]
  · rw [if_neg hflash, if_neg hflash, if_neg hne, hst _ hne, hst _ hflash]

/-! ### Firmware: the checks (R217 to R220) -/

theorem headerValid_iff (c : Config) (b : FwBlock) : headerValid c b = true ↔ fwHeaderOk c b := by
  simp only [headerValid, fwHeaderOk, Bool.and_eq_true, beq_iff_eq, decide_eq_true_eq, and_assoc]

theorem targetInWindow_iff (c : Config) (b : FwBlock) : targetInWindow c b = true ↔ fwTargetOk c b := by
  simp only [targetInWindow, Bool.and_eq_true, decide_eq_true_eq, and_assoc]
  rfl

theorem headerValid_eq_false_iff (c : Config) (b : FwBlock) : headerValid c b = false ↔ ¬ fwHeaderOk c b := by
  rw [← headerValid_iff, Bool.not_eq_true]

theorem targetInWindow_eq_false_iff (c : Config) (b : FwBlock) : targetInWindow c b = false ↔ ¬ fwTargetOk c b := by
  rw [← targetInWindow_iff, Bool.not_eq_true]

theorem not_fwSequenceOk_iff (s : State) (b : FwBlock) :
    (b.seq.toNat ≠ 0 ∧ s.fwSessionActive = false) ↔ ¬ fwSequenceOk s b := by
  rw [fwSequenceOk, not_or, Bool.not_eq_true]

section checks
variable {s : State} {b : FwBlock}

theorem fwReject_header (hheader : ¬ fwHeaderOk s.cfg b) : fwReject s.cfg s.fwSessionActive b = some .header :=
  if_pos ((headerValid_eq_false_iff _ _).2 hheader)

variable (hheader : fwHeaderOk s.cfg b)
include hheader

theorem fwReject_sequence (hseq : ¬ fwSequenceOk s b) : fwReject s.cfg s.fwSessionActive b = some .sequence :=
  (if_neg fun h => (headerValid_eq_false_iff _ _).1 h hheader).trans (if_pos ((not_fwSequenceOk_iff s b).2 hseq))

variable (hseq : fwSequenceOk s b)
include hseq

theorem fwReject_size (htarget : ¬ fwTargetOk s.cfg b) : fwReject s.cfg s.fwSessionActive b = some .size :=
  (if_neg fun h => (headerValid_eq_false_iff _ _).1 h hheader).trans
    ((if_neg fun h => (not_fwSequenceOk_iff s b).1 h hseq).trans
      (if_pos ((targetInWindow_eq_false_iff _ _).2 htarget)))

theorem fwReject_none (htarget : fwTargetOk s.cfg b) : fwReject s.cfg s.fwSessionActive b = none :=
  (if_neg fun h => (headerValid_eq_false_iff _ _).1 h hheader).trans
    ((if_neg fun h => (not_fwSequenceOk_iff s b).1 h hseq).trans
      (if_neg fun h => (targetInWindow_eq_false_iff _ _).1 h htarget))

end checks

theorem flashFirmware_rejected {s : State} (hs : s.strobes = []) {code : FlashError}
    (h : fwReject s.cfg s.fwSessionActive s.stagedBlock = some code) :
    flashFirmware Config.collab (s.staged 292) s = .ok () (s.raiseFlashError code) := by
  rw [flashFirmware, s.fwBlock_staged, h]
  exact flashRaise_quiet Config.collab hs code

/-! ### Firmware: the accepted block (R221 to R223) -/

/-- The state after the erase for block 0. -/
def State.fwErased (s : State) (b : FwBlock) : State :=
  ((s.setFlashPhase .erasing).storErase s.cfg.fwWindowBase (sessionBytes s.cfg b.total.toNat)).openSession b.total.toNat

/-- The state with the block programmed and noted. -/
def State.fwNoted (s : State) (b : FwBlock) : State :=
  ((s.setFlashPhase .writing).storProgram s.sessionFresh b.target.toNat b.payload).noteBlock b.target.toNat

/-- The state after the program part. -/
def State.fwProgrammed (s : State) (b : FwBlock) : State :=
  (if b.seq.toNat + 1 = b.total.toNat then (s.fwNoted b).closeSession else s.fwNoted b).setFlashPhase .done

/-- The state after an accepted block. -/
def State.fwAccepted (s : State) (b : FwBlock) : State :=
  (if b.seq.toNat = 0 then s.fwErased b else s).fwProgrammed b

section quiet
variable (k : Collaborators) (b : FwBlock) {s : State} (hs : s.strobes = [])
include hs

theorem fwErase_quiet : fwErase k b s = .ok () (s.fwErased b) := by
  rw [fwErase, bg_bind_ok (flashPhaseTo_quiet k hs .erasing)]
  exact bg_bind_ok (storageStep_quiet k _ _ _ hs)

theorem fwProgramBlock_quiet :
    fwProgramBlock k b s = .ok () (s.storProgram s.sessionFresh b.target.toNat b.payload) :=
  storageStep_quiet k _ _ _ hs

theorem fwProgram_quiet : fwProgram k b s = .ok () (s.fwProgrammed b) := by
  rw [fwProgram, bg_bind_ok (flashPhaseTo_quiet k hs .writing),
    bg_bind_ok (fwProgramBlock_quiet k b (s := s.setFlashPhase .writing) hs), bg_bind_ok (bg_modify _ _),
    State.fwProgrammed]
  by_cases hlast : b.seq.toNat + 1 = b.total.toNat
  · rw [if_pos hlast, beq_iff_eq.2 hlast]
    exact flashPhaseTo_quiet k (s := (s.fwNoted b).closeSession) hs .done
  · rw [if_neg hlast, beq_eq_false_iff_ne.2 hlast]
    exact flashPhaseTo_quiet k (s := s.fwNoted b) hs .done

theorem fwAccept_quiet : fwAccept k b s = .ok () (s.fwAccepted b) := by
  rw [fwAccept, State.fwAccepted]
  by_cases hfirst : b.seq.toNat = 0
  · rw [if_pos hfirst, beq_iff_eq.2 hfirst]
    exact (bg_bind_ok (fwErase_quiet k b hs)).trans (fwProgram_quiet k b (s := s.fwErased b) hs)
  · rw [if_neg hfirst, beq_eq_false_iff_ne.2 hfirst]
    exact fwProgram_quiet k b hs

end quiet

theorem flashFirmware_accepted {s : State} (hs : s.strobes = [])
    (h : fwReject s.cfg s.fwSessionActive s.stagedBlock = none) :
    flashFirmware Config.collab (s.staged 292) s = .ok () (s.fwAccepted s.stagedBlock) := by
  rw [flashFirmware, s.fwBlock_staged, h]
  exact fwAccept_quiet Config.collab s.stagedBlock hs

/-- What the program part changes. -/
theorem State.fwProgrammed_eq (s : State) (b : FwBlock) : s.fwProgrammed b = { s with
    flashPhase := .done
    fwSessionActive := if b.seq.toNat + 1 = b.total.toNat then false else s.fwSessionActive
    sessionErased := if b.seq.toNat + 1 = b.total.toNat then 0 else s.sessionErased
    sessionProgrammed := if b.seq.toNat + 1 = b.total.toNat then [] else b.target.toNat :: s.sessionProgrammed
    storage := (s.fwProgrammed b).storage
    draws := s.draws + 1
    status := (s.fwProgrammed b).status
    raStatus := (s.fwProgrammed b).raStatus } := by
  unfold State.fwProgrammed
  split <;> rfl

theorem State.fwProgrammed_storage (s : State) (b : FwBlock) : (s.fwProgrammed b).storage = (s.fwNoted b).storage := by
  unfold State.fwProgrammed
  split <;> rfl

/-- A byte of storage after the erase for block 0. -/
theorem State.storByte_fwErased (s : State) (b : FwBlock) (a : Nat) : (s.fwErased b).storByte a =
    if s.cfg.fwWindowBase ≤ a ∧ a < s.cfg.fwWindowBase + sessionBytes s.cfg b.total.toNat then 0xFF
    else s.storByte a :=
  State.read_storErase (s.setFlashPhase .erasing) _ _ a

/-- A byte of storage after the program part. -/
theorem State.storByte_fwProgrammed (s : State) (b : FwBlock) (a : Nat) : (s.fwProgrammed b).storByte a =
    if b.target.toNat ≤ a ∧ a < b.target.toNat + b.payload.length then
      programmed s.cfg (s.sessionFresh a) s.draws a (s.storByte a) (b.payload.getD (a - b.target.toNat) 0)
    else s.storByte a := by
  rw [State.storByte, State.fwProgrammed_storage]
  exact State.read_storProgram (s.setFlashPhase .writing) _ _ _ _

/-- An accepted block writes no status register but `SR_FLASH`. -/
theorem State.st_fwAccepted_of_ne (s : State) (b : FwBlock) {j : StatusIndex} (hj : j ≠ s.cfg.srFlash) :
    (s.fwAccepted b).st j = s.st j := by
  have herase : (s.fwErased b).st j = s.st j := (s.st_setFlashPhase .erasing j).trans (if_neg hj)
  have hprogram : ∀ u : State, j ≠ u.cfg.srFlash → (u.fwProgrammed b).st j = u.st j := fun u hu => by
    have hwriting : (u.fwNoted b).st j = u.st j := (u.st_setFlashPhase .writing j).trans (if_neg hu)
    unfold State.fwProgrammed
    split
    · exact ((State.st_setFlashPhase (u.fwNoted b).closeSession .done j).trans (if_neg hu)).trans hwriting
    · exact ((State.st_setFlashPhase (u.fwNoted b) .done j).trans (if_neg hu)).trans hwriting
  unfold State.fwAccepted
  split
  · exact (hprogram (s.fwErased b) hj).trans herase
  · exact hprogram s hj

/-- All that an accepted block changes (R217, R219, R223). -/
theorem State.fwAccepted_eq (s : State) (b : FwBlock) (hseq : fwSequenceOk s b) : s.fwAccepted b = { s with
    flashPhase := .done
    fwSessionActive := decide (b.seq.toNat + 1 ≠ b.total.toNat)
    sessionErased :=
      if b.seq.toNat + 1 = b.total.toNat then 0
      else if b.seq.toNat = 0 then sessionBytes s.cfg b.total.toNat
      else s.sessionErased
    sessionProgrammed :=
      if b.seq.toNat + 1 = b.total.toNat then []
      else if b.seq.toNat = 0 then [b.target.toNat]
      else b.target.toNat :: s.sessionProgrammed
    storage := (s.fwAccepted b).storage
    draws := s.draws + 1
    status := (s.fwAccepted b).status
    raStatus := (s.fwAccepted b).raStatus } := by
  have hactive : (if b.seq.toNat + 1 = b.total.toNat then false else true) =
      decide (b.seq.toNat + 1 ≠ b.total.toNat) := by
    split <;> simp_all
  unfold State.fwAccepted
  split
  · rw [State.fwProgrammed_eq, ← hactive]
    rfl
  · next hfirst =>
    rw [State.fwProgrammed_eq, ← hactive, hseq.resolve_left hfirst]

/-- What a byte of storage is programmed over: an erased one in the range of block 0 (R221). -/
def State.fwOldByte (s : State) (b : FwBlock) (a : Nat) : Byte :=
  if b.seq.toNat = 0 ∧ s.cfg.fwWindowBase ≤ a ∧ a < s.cfg.fwWindowBase + sessionBytes s.cfg b.total.toNat then 0xFF
  else s.storByte a

/-- A byte that the session has erased and not programmed since (R222, R296). -/
def State.fwFresh (s : State) (b : FwBlock) (a : Nat) : Prop :=
  if b.seq.toNat = 0 then
    s.cfg.fwWindowBase ≤ a ∧ a < s.cfg.fwWindowBase + sessionBytes s.cfg b.total.toNat
  else
    s.cfg.fwWindowBase ≤ a ∧ a < s.cfg.fwWindowBase + s.sessionErased ∧
    ∀ target ∈ s.sessionProgrammed, ¬ (target ≤ a ∧ a < target + 256)

theorem State.fwOldByte_first (s : State) {b : FwBlock} (hfirst : b.seq.toNat = 0) (a : Nat) :
    s.fwOldByte b a = (s.fwErased b).storByte a := by
  rw [State.fwOldByte, State.storByte_fwErased]
  simp only [hfirst, true_and]

theorem State.fwOldByte_later (s : State) {b : FwBlock} (hfirst : ¬ b.seq.toNat = 0) (a : Nat) :
    s.fwOldByte b a = s.storByte a := if_neg fun h => hfirst h.1

/-- A byte of storage after an accepted block. -/
theorem State.storByte_fwAccepted (s : State) (b : FwBlock) (a : Nat) : ∃ fresh : Bool,
    (fresh = true ↔ s.fwFresh b a) ∧ (s.fwAccepted b).storByte a =
      if b.target.toNat ≤ a ∧ a < b.target.toNat + b.payload.length then
        programmed s.cfg fresh s.draws a (s.fwOldByte b a) (b.payload.getD (a - b.target.toNat) 0)
      else s.fwOldByte b a := by
  unfold State.fwAccepted State.fwFresh
  by_cases hfirst : b.seq.toNat = 0
  · refine ⟨(s.fwErased b).sessionFresh a, ?_, ?_⟩
    · rw [if_pos hfirst]
      exact State.sessionFresh_openSession _ _ a
    · rw [if_pos hfirst, State.storByte_fwProgrammed, s.fwOldByte_first hfirst]
      rfl
  · refine ⟨s.sessionFresh a, ?_, ?_⟩
    · rw [if_neg hfirst]
      exact s.sessionFresh_iff a
    · rw [if_neg hfirst, State.storByte_fwProgrammed, s.fwOldByte_later hfirst]

/-- Byte `k` of the staged payload (R100). -/
theorem State.stagedBlock_payload_getD (s : State) {k : Nat} (hk : k < 256) :
    s.stagedBlock.payload.getD k 0 = s.memRead (s.cfg.stageBase + 32 + k) := by
  show ((List.range 256).map fun k => s.memRead (s.cfg.stageBase + 32 + k)).getD k 0 = _
  rw [List.getD_eq_getElem?_getD, List.getElem?_map, List.getElem?_range hk]
  rfl

/-! ### The statements about firmware -/

/-- Settles O43: the first failing check gives the code, before any other action of the body. -/
theorem firmwareRejected : Obligations.FirmwareRejected := by
  intro s code hs hc hr hk hcase
  have hreject : fwReject s.cfg s.fwSessionActive s.stagedBlock = some code := by
    obtain ⟨rfl, hheader⟩ | ⟨rfl, hheader, hseq⟩ | ⟨rfl, hheader, hseq, htarget⟩ := hcase
    · exact fwReject_header hheader
    · exact fwReject_sequence hheader hseq
    · exact fwReject_size hheader hseq htarget
  have hbody := flashFirmware_rejected hs hreject
  exact ⟨_, exec_flashFw_ready hs hr hk hbody hs, rfl, State.st_flashReturn_of_body hc rfl fun i hi =>
    (s.st_raiseFlashError code i).trans (if_neg hi)⟩

/-- Settles O44: the erase for block 0, the program step, and the session record they leave. -/
theorem firmwareAccepted : Obligations.FirmwareAccepted := by
  intro s b hs hc hr hk hb hheader hseq htarget
  subst hb
  have heq := s.fwAccepted_eq s.stagedBlock hseq
  have hcfg : (s.fwAccepted s.stagedBlock).cfg = s.cfg := by rw [heq]
  have hquiet : (s.fwAccepted s.stagedBlock).strobes = [] := by rw [heq]; exact hs
  have hbody := flashFirmware_accepted hs (fwReject_none hheader hseq htarget)
  refine ⟨_, exec_flashFw_ready hs hr hk hbody hquiet, ?_, ?_, fun a => ?_⟩
  · rw [heq]
    rfl
  · intro j
    rw [State.st_flashReturn_of_body hc hcfg (fun i hi => s.st_fwAccepted_of_ne s.stagedBlock hi), heq]
  · obtain ⟨fresh, hfresh, hbyte⟩ := s.storByte_fwAccepted s.stagedBlock a
    refine hbyte.trans ?_
    have hlen : s.stagedBlock.payload.length = 256 := by simp [State.stagedBlock]
    rw [hlen]
    split
    · next hin =>
      rw [s.stagedBlock_payload_getD (by omega), programmed]
      exact if_congr (and_congr_left fun _ => hfresh) rfl rfl
    · rfl

end Sys2Proof.Machine

/-! PROOFS. The keyed data-block services (spec/44_flash_programmer.md R227 to R238) with nothing interleaved: the slot
they use, the slot's place in its erase page, the attempts of the write loop, and the statements about them. -/

namespace Sys2Proof.Machine

/-! ### Slots (R227, R228) -/

/-- A run of storage bytes compared with a byte string. -/
theorem State.storRead_eq_iff (s : State) (a : Nat) {n : Nat} {bs : List Byte} (hlen : bs.length = n) :
    s.storRead a n = bs ↔ ∀ k, k < n → s.storByte (a + k) = byteAt bs k := by
  have hread : ∀ k, k < n → (s.storRead a n)[k]? = some (s.storByte (a + k)) := fun k hk => by
    simp only [State.storRead, Mem.readRange, List.getElem?_map, List.getElem?_range hk]
    rfl
  have hgiven : ∀ k, k < n → bs[k]? = some (byteAt bs k) := fun k hk => by
    rw [byteAt, List.getD_eq_getElem?_getD, List.getElem?_eq_getElem (by omega)]
    rfl
  refine ⟨fun h k hk => ?_, fun h => List.ext_getElem? fun k => ?_⟩
  · exact Option.some.inj ((hread k hk).symm.trans (h ▸ hgiven k hk))
  · by_cases hk : k < n
    · rw [hread k hk, hgiven k hk, h k hk]
    · rw [List.getElem?_eq_none (by rw [State.storRead, Mem.readRange_length]; omega),
        List.getElem?_eq_none (by omega)]

theorem State.slotId_eq_iff (s : State) (j : Nat) {id : List Byte} (hid : id.length = 16) :
    s.slotId j = id ↔ s.slotHas j id := s.storRead_eq_iff (slotAddr s.cfg j) hid

theorem State.slotHas_freeId (s : State) (j : Nat) : s.slotHas j freeId ↔ s.slotFree j := by
  have hfree : ∀ k, k < 16 → byteAt freeId k = 0xFF := by decide
  exact forall_congr' fun k => imp_congr_right fun hk => by rw [hfree k hk]

/-- The lowest slot that carries an identifier. -/
theorem State.find?_slotId_eq_some (s : State) {id : List Byte} (hid : id.length = 16) (n : Nat) :
    (List.range s.cfg.kbSlotCount).find? (fun j => s.slotId j == id) = some n ↔
      s.slotHas n id ∧ n < s.cfg.kbSlotCount ∧ ∀ i, i < n → ¬ s.slotHas i id := by
  simp only [List.find?_range_eq_some, beq_iff_eq, s.slotId_eq_iff _ hid, List.mem_range, Bool.not_eq_true',
    beq_eq_false_iff_ne, ne_eq]

/-- No slot carries an identifier. -/
theorem State.find?_slotId_eq_none (s : State) {id : List Byte} (hid : id.length = 16) :
    (List.range s.cfg.kbSlotCount).find? (fun j => s.slotId j == id) = none ↔
      ∀ i, i < s.cfg.kbSlotCount → ¬ s.slotHas i id := by
  simp only [List.find?_range_eq_none, s.slotId_eq_iff _ hid, Bool.not_eq_true', beq_eq_false_iff_ne, ne_eq]

/-- `FindSlot` finds no other slot than the one R228 chooses. -/
theorem State.findSlot_eq (s : State) {hint : Nat} {id : List Byte} (hid : id.length = 16) {r : Option Nat}
    (h : s.choosesSlot hint id r) : s.findSlot hint id = r := by
  have hhint : (hint < s.cfg.kbSlotCount ∧ s.slotId hint = id) ↔ hint < s.cfg.kbSlotCount ∧ s.slotHas hint id :=
    and_congr_right fun _ => s.slotId_eq_iff hint hid
  have hfree : freeId.length = 16 := rfl
  unfold State.findSlot
  cases r with
  | none =>
    have hnone := (s.find?_slotId_eq_none hid).2 fun i hi => (h i hi).1
    have hnofree := (s.find?_slotId_eq_none hfree).2 fun i hi => (s.slotHas_freeId i).not.2 (h i hi).2
    rw [if_neg fun g => (h hint g.1).1 (hhint.1 g).2]
    simp only [hnone, hnofree]
  | some n =>
    obtain ⟨hn, ⟨rfl, hhas⟩ | ⟨hnot, hhas, hlow⟩ | ⟨hno, hisfree, hlow⟩⟩ := h
    · exact if_pos (hhint.2 ⟨hn, hhas⟩)
    · have hfound := (s.find?_slotId_eq_some hid n).2 ⟨hhas, hn, hlow⟩
      rw [if_neg (hhint.not.2 hnot)]
      simp only [hfound]
    · have hnone := (s.find?_slotId_eq_none hid).2 hno
      have hfound := (s.find?_slotId_eq_some hfree n).2
        ⟨(s.slotHas_freeId n).2 hisfree, hn, fun i hi => (s.slotHas_freeId i).not.2 (hlow i hi)⟩
      rw [if_neg fun g => hno hint g.1 (hhint.1 g).2]
      simp only [hnone, hfound]

/-! ### The services up to their slot (R211, R213, R229) -/

theorem exec_flashKread_ready {s u : State} (hs : s.quiet) (hr : s.flashReady) (hk : s.flashMode.keyed = true)
    (hread : s.flashMode.read = true)
    (hbody : flashKeyedRead Config.collab s.cfg (s.staged (20 + s.cfg.kbPayloadBytes)) s = .ok () u)
    (hu : u.strobes = []) : exec .flashKread s = .next u.flashReturn := by
  show runBg (onlyIf (flashEnabled s && s.flashMode.keyed && s.flashMode.read) (kreadServiceBody Config.collab)) s = _
  rw [flashEnabled_of_ready hr, hk, hread]
  exact runBg_ok (flashService_quiet Config.collab hs hbody hu)

theorem exec_flashKwrite_ready {s u : State} (hs : s.quiet) (hr : s.flashReady) (hk : s.flashMode.keyed = true)
    (hread : s.flashMode.read = false)
    (hbody : flashKeyedWrite Config.collab s.cfg (s.staged (20 + s.cfg.kbPayloadBytes)) s = .ok () u)
    (hu : u.strobes = []) : exec .flashKwrite s = .next u.flashReturn := by
  show runBg (onlyIf (flashEnabled s && s.flashMode.keyed && !s.flashMode.read) (kwriteServiceBody Config.collab)) s = _
  rw [flashEnabled_of_ready hr, hk, hread]
  exact runBg_ok (flashService_quiet Config.collab hs hbody hu)

section slot
variable (k : Collaborators) {s : State} (hs : s.strobes = []) {r : Option Nat}
  (hr : s.choosesSlot s.stagedHint s.stagedId r)
include hs hr

/-- The slot a service uses is the one that R228 chooses for the staged hint and identifier. -/
theorem lookSlot_quiet : lookSlot k (s.staged (20 + s.cfg.kbPayloadBytes)) s = .ok r s := by
  have hid : s.stagedId.length = 16 := by rw [State.stagedId, List.length_map, List.length_range]
  rw [← s.findSlot_eq hid hr, ← s.kbHint_staged (n := 20 + s.cfg.kbPayloadBytes) (by omega),
    ← s.kbId_staged (n := 20 + s.cfg.kbPayloadBytes) (by omega)]
  exact look_quiet (workPoint_quiet k) _ hs

/-- A keyed body runs on the slot. -/
theorem keyedBody_quiet (body : Nat → Bg Unit) :
    (do let slot ← lookSlot k (s.staged (20 + s.cfg.kbPayloadBytes)); withSlot k body slot : Bg Unit) s =
      withSlot k body r s :=
  bg_bind_ok (lookSlot_quiet k hs hr)

end slot

/-! ### The hint written back (R231) -/

/-- Byte `i` of a little-endian 32-bit value. -/
theorem byteAt_le32Bytes (n : Nat) {i : Nat} (hi : i < 4) :
    byteAt (le32Bytes (BitVec.ofNat 32 n)) i = BitVec.ofNat 8 (n / 256 ^ i) := by
  have hbyte : byteAt (le32Bytes (BitVec.ofNat 32 n)) i = (BitVec.ofNat 32 n).extractLsb' (8 * i) 8 := by
    interval_cases i <;> rfl
  have hpow : (256 : Nat) ^ i = 2 ^ (8 * i) := by rw [Nat.pow_mul]
  rw [hbyte, hpow]
  apply BitVec.eq_of_getLsbD_eq
  intro j hj
  have hlt : 8 * i + j < 32 := by omega
  rw [BitVec.getLsbD_extractLsb', BitVec.getLsbD_ofNat, BitVec.getLsbD_ofNat, Nat.testBit_div_two_pow,
    decide_eq_true hlt]
  simp [Nat.add_comm]

/-- The state with the slot's index in the hint of the staging buffer. -/
def State.withHint (s : State) (n : Nat) : State := s.writeRun s.cfg.stageBase (le32Bytes (BitVec.ofNat 32 n))

theorem hintWriteBack_quiet (k : Collaborators) {s : State} (hs : s.strobes = []) (n : Nat) :
    hintWriteBack k s.cfg n s = .ok () (s.withHint n) :=
  bgWriteRange_quiet (workPoint_quiet k) _ _ hs

theorem State.memRead_withHint (s : State) (hf : FlashFacts s.cfg) (n : Nat) {a : Nat} (ha : a < vramSize s.cfg) :
    (s.withHint n).memRead a =
      if s.cfg.stageBase ≤ a ∧ a < s.cfg.stageBase + 4 then BitVec.ofNat 8 (n / 256 ^ (a - s.cfg.stageBase))
      else s.memRead a := by
  have hfit : s.cfg.stageBase + 4 ≤ vramSize s.cfg := by
    have := hf.stage_fits
    omega
  have hlen : (le32Bytes (BitVec.ofNat 32 n)).length = 4 := rfl
  rw [State.withHint, State.memRead_writeRun s _ _ hfit a ha, hlen]
  split
  · exact byteAt_le32Bytes n (by omega)
  · rfl

/-! ### A keyed read (R232) -/

/-- The payload stored in slot `n`. -/
def State.slotPayload (s : State) (n : Nat) : List Byte := s.storRead (slotAddr s.cfg n + 16) s.cfg.kbPayloadBytes

theorem State.slotPayload_length (s : State) (n : Nat) : (s.slotPayload n).length = s.cfg.kbPayloadBytes :=
  Mem.readRange_length ..

theorem State.byteAt_slotPayload (s : State) (n : Nat) {i : Nat} (hi : i < s.cfg.kbPayloadBytes) :
    byteAt (s.slotPayload n) i = s.slotByte n (16 + i) := by
  rw [byteAt, State.slotPayload, State.storRead, Mem.readRange_getD _ _ _ _ _ _ hi, Nat.add_assoc]
  rfl

/-- The state after the body of a keyed read. -/
def State.keyedRead (s : State) (n : Nat) : State :=
  ((s.writeRun (s.cfg.stageBase + 20) (s.slotPayload n)).withHint n).setFlashPhase .done

theorem keyedReadFrom_quiet (k : Collaborators) {s : State} (hs : s.strobes = []) (n : Nat) :
    keyedReadFrom k s.cfg n s = .ok () (s.keyedRead n) := by
  have hpayload := bgWriteRange_quiet (workPoint_quiet k) (s.cfg.stageBase + 20) (s.slotPayload n) hs
  have hquiet : (s.writeRun (s.cfg.stageBase + 20) (s.slotPayload n)).strobes = [] := by
    rw [State.writeRun_strobes, hs]
  have hhint := hintWriteBack_quiet k hquiet n
  rw [State.writeRun_cfg] at hhint
  rw [keyedReadFrom, bg_bind_ok (look_quiet (workPoint_quiet k) _ hs)]
  refine (bg_bind_ok hpayload).trans ((bg_bind_ok hhint).trans (flashPhaseTo_quiet k ?_ .done))
  rw [State.withHint, State.writeRun_strobes, hquiet]

/-- A keyed read changes video memory and the phase. -/
theorem State.keyedRead_eq (s : State) (n : Nat) :
    ∃ m, s.keyedRead n = ({ s with vram := m } : State).setFlashPhase .done := by
  obtain ⟨m, hm⟩ := s.writeRun_frame (s.cfg.stageBase + 20) (s.slotPayload n)
  obtain ⟨m', hm'⟩ := State.writeRun_frame { s with vram := m } s.cfg.stageBase (le32Bytes (BitVec.ofNat 32 n))
  exact ⟨m', by rw [State.keyedRead, State.withHint, hm, hm']⟩

theorem State.memRead_keyedRead (s : State) (hf : FlashFacts s.cfg) (n : Nat) {a : Nat} (ha : a < vramSize s.cfg) :
    (s.keyedRead n).memRead a =
      if s.cfg.stageBase ≤ a ∧ a < s.cfg.stageBase + 4 then BitVec.ofNat 8 (n / 256 ^ (a - s.cfg.stageBase))
      else if s.cfg.stageBase + 20 ≤ a ∧ a < s.cfg.stageBase + 20 + s.cfg.kbPayloadBytes then
        s.slotByte n (16 + (a - (s.cfg.stageBase + 20)))
      else s.memRead a := by
  obtain ⟨u, hu⟩ : ∃ u, u = s.writeRun (s.cfg.stageBase + 20) (s.slotPayload n) := ⟨_, rfl⟩
  have hcfg : u.cfg = s.cfg := by rw [hu, State.writeRun_cfg]
  have hfit : s.cfg.stageBase + 20 + (s.slotPayload n).length ≤ vramSize s.cfg := by
    have := hf.stage_fits
    rw [s.slotPayload_length]
    omega
  have hpayload : u.memRead a =
      if s.cfg.stageBase + 20 ≤ a ∧ a < s.cfg.stageBase + 20 + s.cfg.kbPayloadBytes then
        s.slotByte n (16 + (a - (s.cfg.stageBase + 20)))
      else s.memRead a := by
    rw [hu, State.memRead_writeRun s _ _ hfit a ha, s.slotPayload_length]
    split
    · exact s.byteAt_slotPayload n (by omega)
    · rfl
  have hhint := u.memRead_withHint (hcfg ▸ hf) n (hcfg ▸ ha)
  rw [hcfg, hpayload] at hhint
  rw [State.keyedRead, State.setFlashPhase_memRead, ← hu]
  exact hhint

/-! ### The statements about a full store and a keyed read -/

/-- Settles O46: both bodies end where no slot is found. -/
theorem keyedFull : Obligations.KeyedFull := by
  intro s i hs hc hr hk hi hslot
  have hraise := flashRaise_quiet Config.collab hs .full
  have hst := State.st_flashReturn_of_body (u := s.raiseFlashError .full) hc rfl fun j hj =>
    (s.st_raiseFlashError .full j).trans (if_neg hj)
  obtain ⟨rfl, hread⟩ | ⟨rfl, hread⟩ := hi
  · exact ⟨_, exec_flashKread_ready hs hr hk hread ((keyedBody_quiet _ hs hslot _).trans hraise) hs, rfl, hst⟩
  · exact ⟨_, exec_flashKwrite_ready hs hr hk hread ((keyedBody_quiet _ hs hslot _).trans hraise) hs, rfl, hst⟩

/-- Settles O47: the payload and then the hint are written to the staging buffer, where they do not overlap. -/
theorem keyedRead : Obligations.KeyedRead := by
  intro s n hs hc hr hk hread hslot
  have hbody := (keyedBody_quiet Config.collab hs hslot (keyedReadFrom Config.collab s.cfg)).trans
    (keyedReadFrom_quiet Config.collab hs n)
  have hmem := fun a => State.memRead_keyedRead s (flashFacts hc) n (a := a)
  obtain ⟨m, hm⟩ := s.keyedRead_eq n
  rw [hm] at hbody hmem
  exact ⟨_, exec_flashKread_ready hs hr hk hread hbody hs, rfl,
    State.st_flashReturn_of_body hc rfl fun j hj => (State.st_setFlashPhase _ .done j).trans (if_neg hj), hmem⟩

end Sys2Proof.Machine

/-! PROOFS. The keyed write (spec/44_flash_programmer.md R233 to R238) with nothing interleaved: the merged page, one
attempt, the write loop, and the statements about it. -/

namespace Sys2Proof.Machine

/-! ### The slot in its erase page (R227, R234) -/

/-- Whole slots fill a page, so a slot lies in one. -/
theorem slot_in_page {c : Config} (hf : FlashFacts c) (n : Nat) :
    pageBase c n ≤ slotAddr c n ∧ slotAddr c n + kbSlotBytes c ≤ pageBase c n + erasePage c := by
  obtain ⟨q, hq⟩ := Nat.dvd_of_mod_eq_zero hf.slots_fill_page
  have hpage : 0 < kbSlotBytes c * q := hq ▸ erasePage_pos c
  have hlt : n % q < q := Nat.mod_lt _ (Nat.pos_of_mul_pos_left hpage)
  have hoff : slotAddr c n % erasePage c = kbSlotBytes c * (n % q) := by
    rw [slotAddr, Nat.add_mod, hf.base_aligned, Nat.zero_add, Nat.mod_mod, hq, Nat.mul_comm n, Nat.mul_mod_mul_left]
  have hfit : kbSlotBytes c * (n % q) + kbSlotBytes c ≤ erasePage c := by
    rw [hq, ← Nat.mul_succ]
    exact Nat.mul_le_mul_left _ hlt
  have hle := Nat.mod_le (slotAddr c n) (erasePage c)
  unfold pageBase
  omega

/-- An address lies in the erase page of slot `n`. -/
def inSlotPage (c : Config) (n a : Nat) : Prop := pageBase c n ≤ a ∧ a < pageBase c n + erasePage c

theorem not_inSlotPage_of_div_ne {c : Config} {n a : Nat} (h : a / erasePage c ≠ slotAddr c n / erasePage c) :
    ¬ inSlotPage c n a := by
  rintro ⟨hlo, hhi⟩
  have hbase : pageBase c n = slotAddr c n / erasePage c * erasePage c := by
    have := Nat.div_add_mod' (slotAddr c n) (erasePage c)
    unfold pageBase
    omega
  rw [hbase] at hlo hhi
  exact h (Nat.div_eq_of_lt_le hlo (by rw [Nat.succ_mul]; exact hhi))

/-! ### The merged page (R234) -/

/-- A byte string put into another at `off`. -/
theorem byteAt_splice (page mid : List Byte) {off : Nat} (hfit : off + mid.length ≤ page.length) (i : Nat) :
    byteAt (page.take off ++ mid ++ page.drop (off + mid.length)) i =
      if off ≤ i ∧ i < off + mid.length then byteAt mid (i - off) else byteAt page i := by
  have htake : (page.take off).length = off := List.length_take_of_le (by omega)
  simp only [byteAt, List.getD_eq_getElem?_getD, List.getElem?_append, List.length_append, htake]
  by_cases hlow : i < off
  · rw [if_pos (by omega), if_pos hlow, if_neg (by omega), List.getElem?_take_of_lt hlow]
  · by_cases hmid : i < off + mid.length
    · rw [if_pos hmid, if_neg hlow, if_pos (by omega)]
    · rw [if_neg hmid, if_neg (by omega), List.getElem?_drop, Nat.add_sub_cancel' (by omega)]

theorem bytesAt_append (bs : List Byte) (off m n : Nat) :
    bytesAt bs off m ++ bytesAt bs (off + m) n = bytesAt bs off (m + n) := by
  simp only [bytesAt, List.range_add, List.map_append, List.map_map, Function.comp_def, Nat.add_assoc]

/-- Identifier and payload as staged, one after the other (R104). -/
def State.stagedSlot (s : State) : List Byte :=
  kbId (s.staged (20 + s.cfg.kbPayloadBytes)) ++ kbPayload (s.staged (20 + s.cfg.kbPayloadBytes)) s.cfg.kbPayloadBytes

theorem State.stagedSlot_eq (s : State) :
    s.stagedSlot = (List.range (16 + s.cfg.kbPayloadBytes)).map fun i => s.memRead (s.cfg.stageBase + 4 + i) :=
  (bytesAt_append _ 4 16 _).trans (s.bytesAt_staged (by omega))

theorem State.stagedSlot_length (s : State) : s.stagedSlot.length = kbSlotBytes s.cfg := by
  rw [s.stagedSlot_eq, List.length_map, List.length_range]
  rfl

theorem State.byteAt_stagedSlot (s : State) {i : Nat} (hi : i < kbSlotBytes s.cfg) :
    byteAt s.stagedSlot i = s.memRead (s.cfg.stageBase + 4 + i) := by
  have hi' : i < 16 + s.cfg.kbPayloadBytes := hi
  rw [s.stagedSlot_eq, byteAt, List.getD_eq_getElem?_getD, List.getElem?_map, List.getElem?_range hi']
  rfl

/-- The page a keyed write programs: slot `n` as staged, every other byte as stored. -/
def State.mergedPage (s : State) (n : Nat) : List Byte :=
  mergePage (s.storRead (pageBase s.cfg n) (erasePage s.cfg)) (slotAddr s.cfg n - pageBase s.cfg n)
    (kbId (s.staged (20 + s.cfg.kbPayloadBytes)))
    (kbPayload (s.staged (20 + s.cfg.kbPayloadBytes)) s.cfg.kbPayloadBytes)

/-- Storage with slot `n` as staged and every other byte as it is. -/
def State.slotImage (s : State) (n a : Nat) : Byte :=
  if slotAddr s.cfg n ≤ a ∧ a < slotAddr s.cfg n + kbSlotBytes s.cfg then
    s.memRead (s.cfg.stageBase + 4 + (a - slotAddr s.cfg n))
  else s.storByte a

section page
variable (s : State) (hf : FlashFacts s.cfg) (n : Nat)
include hf

theorem State.slotImage_outside {a : Nat} (ha : ¬ inSlotPage s.cfg n a) : s.slotImage n a = s.storByte a := by
  obtain ⟨hlo, hhi⟩ := slot_in_page hf n
  exact if_neg fun h => ha ⟨by omega, by omega⟩

theorem State.mergedPage_length : (s.mergedPage n).length = erasePage s.cfg := by
  obtain ⟨hlo, hhi⟩ := slot_in_page hf n
  have hpage : (s.storRead (pageBase s.cfg n) (erasePage s.cfg)).length = erasePage s.cfg := Mem.readRange_length ..
  have hslot := s.stagedSlot_length
  show (_ ++ s.stagedSlot ++ List.drop (_ + s.stagedSlot.length) _).length = _
  rw [List.length_append, List.length_append, List.length_take, List.length_drop, hpage, hslot]
  omega

theorem State.byteAt_mergedPage {i : Nat} (hi : i < erasePage s.cfg) :
    byteAt (s.mergedPage n) i = s.slotImage n (pageBase s.cfg n + i) := by
  obtain ⟨hlo, hhi⟩ := slot_in_page hf n
  have hslot := s.stagedSlot_length
  have hpage : (s.storRead (pageBase s.cfg n) (erasePage s.cfg)).length = erasePage s.cfg := Mem.readRange_length ..
  have hold : byteAt (s.storRead (pageBase s.cfg n) (erasePage s.cfg)) i = s.storByte (pageBase s.cfg n + i) :=
    ((s.storRead_eq_iff _ hpage).1 rfl i hi).symm
  refine (byteAt_splice _ s.stagedSlot (by omega) i).trans ?_
  rw [hold, hslot, State.slotImage]
  by_cases hin : slotAddr s.cfg n ≤ pageBase s.cfg n + i ∧ pageBase s.cfg n + i < slotAddr s.cfg n + kbSlotBytes s.cfg
  · rw [if_pos hin, if_pos (by omega), s.byteAt_stagedSlot (by omega)]
    congr 2
    omega
  · rw [if_neg hin, if_neg (by omega)]

/-- Storage that holds the merged page, and every other byte as it was, holds the slot as staged. -/
theorem State.slotImage_of_matches {u : State} (hout : ∀ a, ¬ inSlotPage s.cfg n a → u.storByte a = s.storByte a)
    (hmatch : u.storRead (pageBase s.cfg n) (erasePage s.cfg) = s.mergedPage n) (a : Nat) :
    u.storByte a = s.slotImage n a := by
  by_cases ha : inSlotPage s.cfg n a
  · obtain ⟨hlo, hhi⟩ := ha
    obtain ⟨i, rfl⟩ := Nat.exists_eq_add_of_le hlo
    have hi : i < erasePage s.cfg := by omega
    rw [← s.byteAt_mergedPage hf n hi]
    exact (u.storRead_eq_iff _ (s.mergedPage_length hf n)).1 hmatch i hi
  · rw [s.slotImage_outside hf n ha, hout a ha]

end page

/-! ### One attempt (R233, R235) -/

/-- The state after an attempt: the page of slot `n` erased, then programmed. -/
def State.attempted (s : State) (n : Nat) (page : List Byte) : State :=
  (((s.setFlashPhase .erasing).storErase (pageBase s.cfg n) (erasePage s.cfg)).setFlashPhase .writing).storProgram
    (fun _ => true) (pageBase s.cfg n) page

theorem writeAttempt_quiet (k : Collaborators) {s : State} (hs : s.strobes = []) (n : Nat) (page : List Byte) :
    writeAttempt k (pageBase s.cfg n) (erasePage s.cfg) page s =
      .ok ((s.attempted n page).storRead (pageBase s.cfg n) (erasePage s.cfg) == page) (s.attempted n page) := by
  rw [writeAttempt, bg_bind_ok (flashPhaseTo_quiet k hs .erasing),
    bg_bind_ok (storageStep_quiet k _ _ _ (s := s.setFlashPhase .erasing) hs),
    bg_bind_ok (flashPhaseTo_quiet k
      (s := (s.setFlashPhase .erasing).storErase (pageBase s.cfg n) (erasePage s.cfg)) hs .writing),
    bg_bind_ok (storageStep_quiet k _ _ _
      (s := ((s.setFlashPhase .erasing).storErase (pageBase s.cfg n) (erasePage s.cfg)).setFlashPhase .writing) hs)]
  exact look_quiet (workPoint_quiet k) _ (s := s.attempted n page) hs

/-- An attempt changes storage, the phase and with it the packed byte, and draws a free value. -/
theorem State.attempted_frame (s : State) (n : Nat) (page : List Byte) : ∃ storage status raStatus,
    s.attempted n page = { s with
      flashPhase := .writing
      storage := storage
      draws := s.draws + 1
      status := status
      raStatus := raStatus } := ⟨_, _, _, rfl⟩

section attempt
variable (s : State) {n : Nat} {page : List Byte} (hlen : page.length = erasePage s.cfg) {a : Nat}
include hlen

/-- A byte of the page after an attempt was erased before it was programmed. -/
theorem State.storByte_attempted_inside (ha : inSlotPage s.cfg n a) : (s.attempted n page).storByte a =
    programmed s.cfg true s.draws a 0xFF (byteAt page (a - pageBase s.cfg n)) := by
  obtain ⟨hlo, hhi⟩ := ha
  have herase := State.read_storErase (s.setFlashPhase .erasing) (pageBase s.cfg n) (erasePage s.cfg) a
  rw [if_pos ⟨hlo, hhi⟩] at herase
  rw [State.storByte, State.attempted, State.read_storProgram, if_pos ⟨hlo, hlen ▸ hhi⟩, State.setFlashPhase_storage,
    herase]
  rfl

theorem State.storByte_attempted_outside (ha : ¬ inSlotPage s.cfg n a) :
    (s.attempted n page).storByte a = s.storByte a := by
  have herase := State.read_storErase (s.setFlashPhase .erasing) (pageBase s.cfg n) (erasePage s.cfg) a
  have hout : ¬ (pageBase s.cfg n ≤ a ∧ a < pageBase s.cfg n + erasePage s.cfg) := ha
  rw [if_neg hout] at herase
  rw [State.storByte, State.attempted, State.read_storProgram, hlen, if_neg hout, State.setFlashPhase_storage, herase]
  rfl

end attempt

/-- Exact storage takes the page at once (R216). -/
theorem State.attempted_matches (s : State) (n : Nat) {page : List Byte} (hlen : page.length = erasePage s.cfg)
    (hexact : s.cfg.storageExact = true) :
    (s.attempted n page).storRead (pageBase s.cfg n) (erasePage s.cfg) = page := by
  refine (State.storRead_eq_iff _ _ hlen).2 fun i hi => ?_
  rw [s.storByte_attempted_inside hlen ⟨Nat.le_add_right _ _, Nat.add_lt_add_left hi _⟩, programmed_exact rfl hexact,
    Nat.add_sub_cancel_left]

/-- An attempt writes no status register but `SR_FLASH`. -/
theorem State.st_attempted_of_ne (s : State) (n : Nat) (page : List Byte) {j : StatusIndex} (hj : j ≠ s.cfg.srFlash) :
    (s.attempted n page).st j = s.st j :=
  ((State.st_setFlashPhase ((s.setFlashPhase .erasing).storErase _ _) .writing j).trans (if_neg hj)).trans
    ((s.st_setFlashPhase .erasing j).trans (if_neg hj))

/-! ### The write loop (R233, R236) -/

/-- The state after a successful write. -/
def State.writeDone (s : State) (n : Nat) : State := (s.withHint n).setFlashPhase .done

theorem writeDone_quiet (k : Collaborators) {s : State} (hs : s.strobes = []) (n : Nat) :
    writeDone k s.cfg n s = .ok () (s.writeDone n) := by
  refine (bg_bind_ok (hintWriteBack_quiet k hs n)).trans (flashPhaseTo_quiet k ?_ .done)
  rw [State.withHint, State.writeRun_strobes, hs]

theorem State.writeDone_eq (s : State) (n : Nat) :
    ∃ m, s.writeDone n = ({ s with vram := m } : State).setFlashPhase .done := by
  obtain ⟨m, hm⟩ := s.writeRun_frame s.cfg.stageBase (le32Bytes (BitVec.ofNat 32 n))
  exact ⟨m, by rw [State.writeDone, State.withHint, hm]⟩

theorem State.memRead_writeDone (s : State) (hf : FlashFacts s.cfg) (n : Nat) {a : Nat} (ha : a < vramSize s.cfg) :
    (s.writeDone n).memRead a =
      if s.cfg.stageBase ≤ a ∧ a < s.cfg.stageBase + 4 then BitVec.ofNat 8 (n / 256 ^ (a - s.cfg.stageBase))
      else s.memRead a := s.memRead_withHint hf n ha

section loop
variable (k : Collaborators) {s : State} (hs : s.strobes = []) {n : Nat} {page : List Byte}
include hs

/-- An attempt that matches ends the loop. -/
theorem writeLoop_matched (left : Nat)
    (hmatch : (s.attempted n page).storRead (pageBase s.cfg n) (erasePage s.cfg) = page) :
    writeLoop k s.cfg n page left s = .ok () ((s.attempted n page).writeDone n) := by
  have hattempt := writeAttempt_quiet k hs n page
  rw [beq_iff_eq.2 hmatch] at hattempt
  cases left with
  | zero => exact (bg_bind_ok hattempt).trans (writeDone_quiet k (s := s.attempted n page) hs n)
  | succ left => exact (bg_bind_ok hattempt).trans (writeDone_quiet k (s := s.attempted n page) hs n)

variable (hmiss : (s.attempted n page).storRead (pageBase s.cfg n) (erasePage s.cfg) ≠ page)
include hmiss

/-- A mismatch with no retry left is `VERIFY`. -/
theorem writeLoop_exhausted :
    writeLoop k s.cfg n page 0 s = .ok () ((s.attempted n page).raiseFlashError .verify) := by
  have hattempt := writeAttempt_quiet k hs n page
  rw [beq_eq_false_iff_ne.2 hmiss] at hattempt
  exact (bg_bind_ok hattempt).trans (flashRaise_quiet k (s := s.attempted n page) hs .verify)

/-- A mismatch with a retry left counts one and goes on. -/
theorem writeLoop_retry (left : Nat) : writeLoop k s.cfg n page (left + 1) s =
    writeLoop k s.cfg n page left ((s.attempted n page).setFlashRetry (s.flashRetry + 1)) := by
  have hattempt := writeAttempt_quiet k hs n page
  rw [beq_eq_false_iff_ne.2 hmiss] at hattempt
  exact (bg_bind_ok hattempt).trans
    (bg_bind_ok (guarded_quiet (workPoint_quiet k) _ (s := s.attempted n page) hs))

end loop

/-- The body of a keyed write is the loop on the merged page, with the retries that are left. -/
theorem keyedWriteTo_quiet (k : Collaborators) {s : State} (hs : s.strobes = []) (n : Nat) :
    keyedWriteTo k s.cfg (s.staged (20 + s.cfg.kbPayloadBytes)) n s =
      writeLoop k s.cfg n (s.mergedPage n) (s.cfg.maxRetries - s.flashRetry.toNat) s := by
  rw [keyedWriteTo, bg_bind_ok (look_quiet (workPoint_quiet k) _ hs), bg_bind_ok (look_quiet (workPoint_quiet k) _ hs)]
  rfl

/-- A state from which a keyed write of `s` has `left` retries left. -/
structure WriteGoesOn (s u : State) (n left : Nat) : Prop where
  quiet : u.strobes = []
  cfg : u.cfg = s.cfg
  vram : u.vram = s.vram
  error : u.flashError = s.flashError
  retry_le : s.flashRetry.toNat ≤ u.flashRetry.toNat
  retries : u.flashRetry.toNat + left = s.cfg.maxRetries
  outside : ∀ a, ¬ inSlotPage s.cfg n a → u.storByte a = s.storByte a

/-- How a keyed write of `s` to slot `n` ends (R236). -/
structure WriteEnds (s v : State) (n : Nat) : Prop where
  quiet : v.strobes = []
  retry_le : s.flashRetry.toNat ≤ v.flashRetry.toNat
  retry_max : v.flashRetry.toNat ≤ s.cfg.maxRetries
  outcome :
    (v.flashPhase = .done ∧ v.flashError = s.flashError ∧ ∀ a, v.storByte a = s.slotImage n a) ∨
    (v.flashPhase = .writing ∧ v.flashError = .verify ∧ v.flashRetry.toNat = s.cfg.maxRetries ∧ v.vram = s.vram ∧
      ∀ a, ¬ inSlotPage s.cfg n a → v.storByte a = s.storByte a)

theorem WriteGoesOn.attempted {s u : State} {n left : Nat} (h : WriteGoesOn s u n left) {page : List Byte}
    (hlen : page.length = erasePage s.cfg) : WriteGoesOn s (u.attempted n page) n left where
  quiet := h.quiet
  cfg := h.cfg
  vram := h.vram
  error := h.error
  retry_le := h.retry_le
  retries := h.retries
  outside a ha := (u.storByte_attempted_outside (h.cfg ▸ hlen) (h.cfg ▸ ha)).trans (h.outside a ha)

/-- A retry counted: two bits hold the count (R8 `MAX_RETRIES`). -/
theorem WriteGoesOn.retry {s u : State} {n left : Nat} (h : WriteGoesOn s u n (left + 1)) (hf : FlashFacts s.cfg) :
    WriteGoesOn s (u.setFlashRetry (u.flashRetry + 1)) n left := by
  have hretries := h.retries
  have hle := h.retry_le
  have hmax := hf.retries_le
  have hnext : (u.flashRetry + 1).toNat = u.flashRetry.toNat + 1 := by
    rw [BitVec.toNat_add]
    exact Nat.mod_eq_of_lt (by show u.flashRetry.toNat + 1 < 4; omega)
  exact ⟨h.quiet, h.cfg, h.vram, h.error, by show _ ≤ (u.flashRetry + 1).toNat; omega,
    by show (u.flashRetry + 1).toNat + left = _; omega, h.outside⟩

/-- A write that has the page in storage ends in `DONE`. -/
theorem WriteGoesOn.done {s u : State} {n left : Nat} (h : WriteGoesOn s u n left) (hf : FlashFacts s.cfg)
    (hmatch : u.storRead (pageBase s.cfg n) (erasePage s.cfg) = s.mergedPage n) : WriteEnds s (u.writeDone n) n := by
  have hbytes := s.slotImage_of_matches hf n h.outside hmatch
  have hretry : u.flashRetry.toNat ≤ s.cfg.maxRetries := h.retries ▸ Nat.le_add_right _ _
  obtain ⟨m, hm⟩ := u.writeDone_eq n
  rw [hm]
  exact ⟨h.quiet, h.retry_le, hretry, .inl ⟨rfl, h.error, hbytes⟩⟩

/-- Whatever the storage does, the loop ends in one of the two ways: by induction on the retries left. -/
theorem writeLoop_ends (k : Collaborators) {s : State} (hf : FlashFacts s.cfg) {n : Nat} (left : Nat) {u : State}
    (h : WriteGoesOn s u n left) :
    ∃ v, writeLoop k s.cfg n (s.mergedPage n) left u = .ok () v ∧ WriteEnds s v n := by
  have hlen := s.mergedPage_length hf n
  induction left generalizing u with
  | zero =>
    have hafter := h.attempted hlen
    rw [← h.cfg]
    by_cases hmatch : (u.attempted n (s.mergedPage n)).storRead (pageBase u.cfg n) (erasePage u.cfg) = s.mergedPage n
    · exact ⟨_, writeLoop_matched k h.quiet 0 hmatch, hafter.done hf (h.cfg ▸ hmatch)⟩
    · exact ⟨_, writeLoop_exhausted k h.quiet hmatch, h.quiet, h.retry_le, h.retries.le,
        .inr ⟨rfl, rfl, h.retries, h.vram, hafter.outside⟩⟩
  | succ left ih =>
    have hafter := h.attempted hlen
    obtain ⟨v, hv, hends⟩ := ih (hafter.retry hf)
    rw [← h.cfg] at hv ⊢
    by_cases hmatch : (u.attempted n (s.mergedPage n)).storRead (pageBase u.cfg n) (erasePage u.cfg) = s.mergedPage n
    · exact ⟨_, writeLoop_matched k h.quiet (left + 1) hmatch, hafter.done hf (h.cfg ▸ hmatch)⟩
    · exact ⟨v, (writeLoop_retry k h.quiet hmatch left).trans hv, hends⟩

/-! ### The statements about a keyed write -/

/-- Settles O48: with exact storage the first attempt matches. -/
theorem keyedWriteExact : Obligations.KeyedWriteExact := by
  intro s n hs hc hr hk hread hexact hslot
  have hf := flashFacts hc
  have hlen := s.mergedPage_length hf n
  have hmatch := s.attempted_matches n hlen hexact
  have hbody := ((keyedBody_quiet Config.collab hs hslot (keyedWriteTo Config.collab s.cfg _)).trans
    (keyedWriteTo_quiet Config.collab hs n)).trans (writeLoop_matched Config.collab hs _ hmatch)
  have hmem := fun a => (s.attempted n (s.mergedPage n)).memRead_writeDone hf n (a := a)
  have hbytes := s.slotImage_of_matches hf n (fun a ha => s.storByte_attempted_outside hlen ha) hmatch
  have hst := fun j hj => s.st_attempted_of_ne n (s.mergedPage n) (j := j) hj
  obtain ⟨m, hm⟩ := (s.attempted n (s.mergedPage n)).writeDone_eq n
  obtain ⟨storage, status, raStatus, hattempt⟩ := s.attempted_frame n (s.mergedPage n)
  rw [hm, hattempt] at hbody hmem
  rw [hattempt] at hbytes hst
  exact ⟨_, exec_flashKwrite_ready hs hr hk hread hbody hs, rfl, State.st_flashReturn_of_body hc rfl fun j hj =>
    (State.st_setFlashPhase _ .done j).trans ((if_neg hj).trans (hst j hj)), hmem, hbytes⟩

/-- Settles O49: the loop from the state of the service, with the retries that are left. -/
theorem keyedWriteVerifies : Obligations.KeyedWriteVerifies := by
  intro s n hs hc hr hk hread hretry hslot
  have hstart : WriteGoesOn s s n (s.cfg.maxRetries - s.flashRetry.toNat) :=
    ⟨hs, rfl, rfl, rfl, le_rfl, Nat.add_sub_cancel' hretry, fun _ _ => rfl⟩
  obtain ⟨v, hloop, hends⟩ := writeLoop_ends Config.collab (flashFacts hc) _ hstart
  have hbody := ((keyedBody_quiet Config.collab hs hslot (keyedWriteTo Config.collab s.cfg _)).trans
    (keyedWriteTo_quiet Config.collab hs n)).trans hloop
  refine ⟨_, exec_flashKwrite_ready hs hr hk hread hbody hends.quiet, rfl, rfl, hends.retry_le, hends.retry_max, ?_⟩
  obtain hdone | ⟨hphase, herror, hmax, hvram, hout⟩ := hends.outcome
  · exact .inl hdone
  · exact .inr ⟨hphase, herror, hmax, hvram, fun a ha => hout a (not_inSlotPage_of_div_ne ha)⟩

end Sys2Proof.Machine

/-! PROOFS. The bus cycles (spec/40_bus_cycles.md R123 to R135): what each host cycle does to the state, what a status
read clears, the data latch over a run of cycles, and the statements about them. -/

namespace Sys2Proof.Machine

/-! ### The data cycles (R123, R127) -/

/-- All that `WD` does; the memory it leaves is told by `memRead_wdCycle`. -/
theorem State.wdCycle_eq (s : State) (b : Byte) :
    s.wdCycle b = { s with
      vram := (s.wdCycle b).vram
      addressLatch := (s.addressLatch + 1) % vramSize s.cfg
      writeStage := 0
      raData := (s.wdCycle b).memRead ((s.addressLatch + 1) % vramSize s.cfg) } := rfl

theorem State.memRead_wdCycle (s : State) (b : Byte) (a : Nat) :
    (s.wdCycle b).memRead a = if a % vramSize s.cfg = s.addressLatch % vramSize s.cfg then b else s.memRead a :=
  s.memRead_memWrite s.addressLatch a b

/-- All that `RD` does. -/
theorem State.rdCycle_eq (s : State) :
    s.rdCycle = { s with
      hostReads := s.hostReads ++ [s.raData]
      addressLatch := (s.addressLatch + 1) % vramSize s.cfg
      raData := s.memRead ((s.addressLatch + 1) % vramSize s.cfg)
      writeStage := if s.cfg.readResetsStage then 0 else s.writeStage } := rfl

/-! ### What a status read clears (R125, R126) -/

@[simp] theorem clrMask_zero (c : Config) : clrMask c 0 = c.stInt ||| c.st5S ||| c.stCol := if_pos rfl

/-- A register without a configured mask loses nothing. -/
theorem clrMask_of_unlisted {c : Config} {i : StatusIndex} (hi : i ≠ 0) (hnone : ∀ e ∈ c.clrMaskExt, e.1 ≠ i) :
    clrMask c i = 0 := by
  have hfind : c.clrMaskExt.find? (fun e => e.1 == i) = none :=
    List.find?_eq_none.2 fun e he => by simpa using hnone e he
  rw [clrMask, if_neg hi, hfind]

/-- The first entry for a register is its mask. -/
theorem clrMask_of_listed {c : Config} {i : StatusIndex} (hi : i ≠ 0) {l₁ l₂ : List (StatusIndex × Byte)} {m : Byte}
    (hlist : c.clrMaskExt = l₁ ++ (i, m) :: l₂) (hfirst : ∀ e ∈ l₁, e.1 ≠ i) : clrMask c i = m := by
  have hbefore : l₁.find? (fun e => e.1 == i) = none :=
    List.find?_eq_none.2 fun e he => by simpa using hfirst e he
  have hfind : c.clrMaskExt.find? (fun e => e.1 == i) = some (i, m) := by
    rw [hlist, List.find?_append, hbefore, Option.none_or]
    exact List.find?_cons_of_pos (beq_self_eq_true i)
  rw [clrMask, if_neg hi, hfind]

theorem clearOnRead_of_keepsIndex {c : Config} {i : StatusIndex} (hkeep : ¬ (i = 0 ∧ c.sr0ReadResetsIndex = true))
    (v : Byte) : clearOnRead c i v = v &&& ~~~clrMask c i := if_neg hkeep

theorem clearOnRead_of_resetsIndex {c : Config} (hreset : c.sr0ReadResetsIndex = true) (v : Byte) :
    clearOnRead c 0 v = (v &&& ~~~clrMask c 0) &&& ~~~c.stIdx ||| c.stIdxNone := if_pos ⟨rfl, hreset⟩

/-! ### The status cycle (R124) -/

/-- All that `RS` does; the status file it leaves is told by `st_rsCycle`. -/
theorem State.rsCycle_eq (s : State) :
    s.rsCycle = { s with
      hostReads := s.hostReads ++ [s.raStatus]
      status := s.rsCycle.status
      interruptLine := s.rsCycle.pendingAndEnabled
      raStatus := s.rsCycle.st s.statusSel
      writeStage := if s.cfg.readResetsStage then 0 else s.writeStage } := by
  rw [← State.interruptLevel_eq]
  rfl

theorem State.st_rsCycle (s : State) (j : StatusIndex) :
    s.rsCycle.st j = if j = s.statusSel then clearOnRead s.cfg s.statusSel (s.st s.statusSel) else s.st j :=
  (s.hostReturn s.raStatus).st_statusClearOnRead s.statusSel j

theorem State.st_rsCycle_selected (s : State) :
    s.rsCycle.st s.statusSel = clearOnRead s.cfg s.statusSel (s.st s.statusSel) :=
  (s.st_rsCycle s.statusSel).trans (if_pos rfl)

/-! ### The second byte of a pair (R129, R130) -/

/-- The register form is a whole register pair, since its first byte stands in the latch already. -/
theorem State.waSecondCycle_registerPair (s : State) (b : Byte) (hb : b.getLsbD 7 = true) :
    s.waSecondCycle b = s.registerPair (b.extractLsb' 0 6) s.latchLow := by
  rw [State.waSecondCycle_register s b hb, State.registerPair, State.setLatchLow_latchLow]

/-- The mask of R129 is the field of R94. -/
theorem toNat_and_sixBits (b : Byte) : (b &&& 0x3F).toNat = (b.extractLsb' 0 6).toNat := by
  rw [BitVec.toNat_and, BitVec.extractLsb'_toNat, Nat.shiftRight_zero]
  exact Nat.and_two_pow_sub_one_eq_mod b.toNat 6

/-- The pair's address by the mask and shift of R129. -/
theorem State.pairAddress_toNat (s : State) (b : Byte) :
    (pairAddress (b.extractLsb' 0 6) s.latchLow).toNat = (b &&& 0x3F).toNat * 256 + s.addressLatch % 256 := by
  have hlow : s.latchLow.toNat = s.addressLatch % 256 := BitVec.toNat_ofNat ..
  rw [pairAddress, toNat_append_add, hlow, toNat_and_sixBits]
  omega

theorem modeBit_eq (b : Byte) : b.extractLsb' 6 1 = if b.getLsbD 6 then 1 else 0 := by
  apply BitVec.eq_of_getLsbD_eq
  intro i hi
  obtain rfl : i = 0 := by omega
  rw [BitVec.getLsbD_extractLsb']
  cases b.getLsbD 6 <;> rfl

/-! ### The data latch over a run of cycles (R131) -/

/-- Every cycle that writes video memory or the address latch ends with `RearmData()`. -/
theorem keptByCycles_dataLatched : KeptByCycles State.dataLatched where
  wd _ _ _ := rfl
  rd _ _ := rfl
  rs _ h := h
  waFirst _ _ _ := rfl
  addr _ _ _ _ := rfl
  reg _ _ _ _ := rfl
  command s _ _ _ _ := s.resetOp_agrees.2.2

theorem State.busCycles_cfg (s : State) (ws : List (BitVec 10)) : (s.busCycles ws).cfg = s.cfg :=
  (keptByStep_cfg s.cfg).busCycles ws rfl

/-! ### The statements -/

/-- Settles O7. -/
theorem writeDataCycle : Obligations.WriteDataCycle := fun b s =>
  ⟨s.wdCycle b, rfl, s.wdCycle_eq b, s.memRead_wdCycle b⟩

/-- Settles O8. -/
theorem readDataCycle : Obligations.ReadDataCycle := fun s => ⟨s.rdCycle, rfl, s.rdCycle_eq⟩

/-- Settles O9: the selected register is cleared on read, by the mask of its clause. -/
theorem readStatusCycle : Obligations.ReadStatusCycle := by
  intro s
  have hsel := s.st_rsCycle_selected
  refine ⟨s.rsCycle, rfl, s.rsCycle_eq, fun h0 hkeep => ?_, fun h0 hreset => ?_, fun h0 hnone => ?_,
    fun h0 l₁ m l₂ hlist hfirst => ?_, fun j hj => (s.st_rsCycle j).trans (if_neg hj)⟩
  · rw [h0] at hsel
    rw [hsel, clearOnRead_of_keepsIndex (by simp [hkeep]), clrMask_zero]
  · rw [h0] at hsel
    rw [hsel, clearOnRead_of_resetsIndex hreset, clrMask_zero]
  · rw [hsel, clearOnRead_of_keepsIndex fun h => h0 h.1, clrMask_of_unlisted h0 hnone]
    exact BitVec.and_allOnes
  · rw [hsel, clearOnRead_of_keepsIndex fun h => h0 h.1, clrMask_of_listed h0 hlist hfirst]

/-- Settles O10: the two halves of the latch by division with remainder. -/
theorem firstAddressByte : Obligations.FirstAddressByte := by
  intro b s
  have hb : b.toNat < 256 := b.isLt
  have hlatch : (s.waFirstCycle b).addressLatch = s.addressLatch - s.addressLatch % 256 + b.toNat :=
    s.setLatchLow_latch b
  exact ⟨s.waFirstCycle b, rfl, s.waFirstCycle_eq b, by omega, by omega⟩

/-- Settles O11: the closed address form, its two operands by the masks of R129. -/
theorem secondByteSetsAddress : Obligations.SecondByteSetsAddress := by
  intro b s hb
  have hclosed := (s.waSecondCycle_address b hb).trans (s.setAddr_closed _ _)
  rw [s.pairAddress_toNat b, modeBit_eq] at hclosed
  exact ⟨s.waSecondCycle b, rfl, hclosed⟩

/-- Settles O12: both operations are the whole register pair. -/
theorem secondByteWritesRegister : Obligations.SecondByteWritesRegister := by
  intro b s hb
  refine ⟨s.waSecondCycle b, rfl, ?_⟩
  rw [State.waSecondCycle_registerPair s b hb]
  exact exec_regwrite (b.extractLsb' 0 6) s.latchLow s

/-- Settles O14. -/
theorem setAddressPairs : Obligations.SetAddressPairs := fun a s =>
  ⟨s.addressPair a 0, s.addressPair a 1, rfl, rfl, s.setAddr_closed a 0, rfl⟩

/-- Settles O15: the data latch is fresh after the cycles, so the latched byte is the byte under the address latch. -/
theorem readAheadCorrect : Obligations.ReadAheadCorrect := by
  intro ws s hs
  have hfresh : (s.busCycles ws).dataLatched := keptByCycles_dataLatched.busCycles ws hs
  refine ⟨(s.busCycles ws).rdCycle, rfl, ?_, ?_⟩
  · rw [State.rdCycle_eq, ← hfresh]
  · rw [State.rdCycle_eq, State.busCycles_cfg]

end Sys2Proof.Machine

/-! PROOFS. Register writes (spec/41_register_writes.md R140 to R151): what each effect of a register write does to the
lock, the counter, the requests and the status bytes, and the statements about them. -/

namespace Sys2Proof.Machine

/-! ### The flash trigger (R150) -/

theorem flashPack_accepted : flashPack true 0 .none .validating = 0x80 := by decide

/-- An accepted trigger writes the packed byte over, and the flashing bits into, its two registers. -/
theorem State.st_flashTriggerOp_accepted {s : State} (hr : s.flashRequested = false) (a : Byte) (j : StatusIndex) :
    (s.flashTriggerOp a).st j =
      if j = s.cfg.srFlash then 0x80
      else if j = s.cfg.srBusy then s.st s.cfg.srBusy ||| s.cfg.flashingMask else s.st j := by
  rw [State.flashTriggerOp_accepted s a hr, State.st_packFlash, State.flashAccept_st, ← flashPack_accepted]
  rfl

/-- A dropped trigger writes the packed byte alone. -/
theorem State.st_flashTriggerOp_dropped {s : State} (hr : s.flashRequested = true) (a : Byte) (j : StatusIndex) :
    (s.flashTriggerOp a).st j =
      if j = s.cfg.srFlash then flashPack s.flashRunning s.flashRetry .busy s.flashPhase else s.st j := by
  rw [State.flashTriggerOp_dropped s a hr]
  exact State.st_packFlash { s with flashError := .busy } j

/-- Accepted or dropped, a flash trigger leaves the bits of `SR_BUSY` that are not its own. -/
theorem State.busy_flashTriggerOp {s : State} (hc : ConfigFacts s.cfg) (a : Byte) :
    (s.flashTriggerOp a).st s.cfg.srBusy &&& s.cfg.coprocBusyMask = s.st s.cfg.srBusy &&& s.cfg.coprocBusyMask := by
  cases hr : s.flashRequested with
  | true => rw [State.st_flashTriggerOp_dropped hr, if_neg hc.busy_ne_flash]
  | false =>
    rw [State.st_flashTriggerOp_accepted hr, if_neg hc.busy_ne_flash, if_pos rfl]
    exact and_or_of_disjoint (and_eq_zero_comm hc.busy_flashing)

/-! ### The two trigger effects of a register write (R142 rows 5 and 6) -/

/-- The coprocessor trigger of a register write is met. -/
def coprocTriggers (c : Config) (i : RegIndex) (a : Byte) : Prop := i = c.coprocTrigReg ∧ a &&& c.coprocTrigMask ≠ 0

/-- The flash trigger of a register write is met. -/
def flashTriggers (c : Config) (i : RegIndex) (a : Byte) : Prop := i = c.flashTrigReg ∧ a &&& c.flashGoMask ≠ 0

section triggers
variable {s : State} {i : RegIndex} {a : Byte}

theorem State.coprocEffect_of_trigger (h : coprocTriggers s.cfg i a) : s.coprocEffect i a = s.coprocTriggerOp :=
  if_pos h

theorem State.coprocEffect_of_not (h : ¬ coprocTriggers s.cfg i a) : s.coprocEffect i a = s := if_neg h

theorem State.flashEffect_of_trigger (h : flashTriggers s.cfg i a) : s.flashEffect i a = s.flashTriggerOp a := if_pos h

theorem State.flashEffect_of_not (h : ¬ flashTriggers s.cfg i a) : s.flashEffect i a = s := if_neg h

/-- The coprocessor trigger writes the flash bits of no status register. -/
theorem State.st_coprocEffect (hc : ConfigFacts s.cfg) (i : RegIndex) (a : Byte) :
    (s.coprocEffect i a).st s.cfg.srFlash = s.st s.cfg.srFlash ∧
    (s.coprocEffect i a).st s.cfg.srBusy &&& s.cfg.flashingMask = s.st s.cfg.srBusy &&& s.cfg.flashingMask := by
  by_cases h : coprocTriggers s.cfg i a
  · rw [State.coprocEffect_of_trigger h, State.st_coprocTriggerOp, State.st_coprocTriggerOp,
      if_neg hc.busy_ne_flash.symm, if_pos rfl]
    exact ⟨rfl, and_or_of_disjoint hc.busy_flashing⟩
  · rw [State.coprocEffect_of_not h]
    exact ⟨rfl, rfl⟩

/-- The flash trigger writes the coprocessor bits of no status register. -/
theorem State.busy_flashEffect (hc : ConfigFacts s.cfg) (i : RegIndex) (a : Byte) :
    (s.flashEffect i a).st s.cfg.srBusy &&& s.cfg.coprocBusyMask = s.st s.cfg.srBusy &&& s.cfg.coprocBusyMask := by
  by_cases h : flashTriggers s.cfg i a
  · rw [State.flashEffect_of_trigger h, State.busy_flashTriggerOp hc]
  · rw [State.flashEffect_of_not h]

end triggers

/-! ### The program-counter load (R149) -/

/-- A counter that keeps the bits above 15 keeps its range. -/
theorem lt_two_pow_of_div_eq {n p q : Nat} (hn : 16 ≤ n) (hdiv : q / 65536 = p / 65536) (hp : p < 2 ^ n) :
    q < 2 ^ n := by
  have hsplit : (2 : Nat) ^ n = 2 ^ (n - 16) * 65536 := by
    rw [show (65536 : Nat) = 2 ^ 16 from rfl, ← Nat.pow_add, Nat.sub_add_cancel hn]
  rw [hsplit, ← Nat.div_lt_iff_lt_mul (by decide)] at hp ⊢
  exact hdiv ▸ hp

section counter
variable {s : State} {hi lo i : RegIndex} {a : Byte}

theorem State.coprocPcEffect_none (h : s.cfg.coprocPcLoad = none) : s.coprocPcEffect i a = s := by
  unfold State.coprocPcEffect
  rw [h]

/-- The counter after a load, one byte of it replaced. -/
theorem State.coprocPcEffect_counter (h : s.cfg.coprocPcLoad = some (hi, lo)) (hne : hi ≠ lo) :
    (s.coprocPcEffect i a).coprocessorProgramCounter =
      if i = hi then (s.coprocessorProgramCounter - s.coprocessorProgramCounter / 256 % 256 * 256 + a.toNat * 256) %
        2 ^ s.cfg.coprocPcBits
      else if i = lo then (s.coprocessorProgramCounter - s.coprocessorProgramCounter % 256 + a.toNat) %
        2 ^ s.cfg.coprocPcBits
      else s.coprocessorProgramCounter := by
  unfold State.coprocPcEffect
  rw [h]
  dsimp only
  by_cases hhi : i = hi
  · rw [if_pos (.inl hhi), if_pos hhi, if_pos hhi, if_neg (hhi ▸ hne)]
  · by_cases hlo : i = lo
    · rw [if_pos (.inr hlo), if_neg hhi, if_neg hhi, if_pos hlo, if_pos hlo]
    · rw [if_neg (not_or.2 ⟨hhi, hlo⟩), if_neg hhi, if_neg hlo]

/-- The counter by its bytes: the load replaces one and keeps every other bit. -/
theorem State.coprocPcEffect_bytes (h : s.cfg.coprocPcLoad = some (hi, lo)) (hne : hi ≠ lo)
    (hbits : 16 ≤ s.cfg.coprocPcBits) (hpc : s.coprocessorProgramCounter < 2 ^ s.cfg.coprocPcBits) :
    (s.coprocPcEffect i a).coprocessorProgramCounter % 256 =
      (if i = lo then a.toNat else s.coprocessorProgramCounter % 256) ∧
    (s.coprocPcEffect i a).coprocessorProgramCounter / 256 % 256 =
      (if i = hi then a.toNat else s.coprocessorProgramCounter / 256 % 256) ∧
    (s.coprocPcEffect i a).coprocessorProgramCounter / 65536 = s.coprocessorProgramCounter / 65536 := by
  have ha : a.toNat < 256 := a.isLt
  rw [State.coprocPcEffect_counter h hne]
  generalize s.coprocessorProgramCounter = pc at hpc ⊢
  by_cases hhi : i = hi
  · have hrange : pc - pc / 256 % 256 * 256 + a.toNat * 256 < 2 ^ s.cfg.coprocPcBits :=
      lt_two_pow_of_div_eq hbits (by omega) hpc
    have hlo : ¬ i = lo := hhi ▸ hne
    rw [if_pos hhi, if_pos hhi, if_neg hlo, Nat.mod_eq_of_lt hrange]
    omega
  · rw [if_neg hhi, if_neg hhi]
    by_cases hlo : i = lo
    · have hrange : pc - pc % 256 + a.toNat < 2 ^ s.cfg.coprocPcBits := lt_two_pow_of_div_eq hbits (by omega) hpc
      rw [if_pos hlo, if_pos hlo, Nat.mod_eq_of_lt hrange]
      omega
    · rw [if_neg hlo, if_neg hlo]
      exact ⟨rfl, rfl, rfl⟩

end counter

/-! ### The effects together -/

/-- The status file after a register write: the two triggers, one after the other. -/
theorem State.st_regEffects (s : State) (h : RegIndex) (a : Byte) (j : StatusIndex) :
    (s.regEffects h a).st j =
      ((s.coprocEffect (s.effectiveIndex h) a).flashEffect (s.effectiveIndex h) a).st j := by
  rw [State.regEffects_eq]
  rfl

@[simp] theorem State.coprocEffect_cfg (s : State) (i : RegIndex) (a : Byte) : (s.coprocEffect i a).cfg = s.cfg := by
  rw [State.coprocEffect_eq]

/-- The coprocessor's bits after a register write: set by its trigger, else as before. -/
theorem State.busy_regEffects {s : State} (hc : ConfigFacts s.cfg) (h : RegIndex) (a : Byte) :
    (s.regEffects h a).st s.cfg.srBusy &&& s.cfg.coprocBusyMask =
      (s.coprocEffect (s.effectiveIndex h) a).st s.cfg.srBusy &&& s.cfg.coprocBusyMask := by
  have hflash := State.busy_flashEffect (s := s.coprocEffect (s.effectiveIndex h) a)
    (by rw [State.coprocEffect_cfg]; exact hc) (s.effectiveIndex h) a
  rw [State.coprocEffect_cfg] at hflash
  rw [State.st_regEffects, hflash]

/-- A write that is no step of the unlock sequence takes progress back to 0 (R146). -/
theorem State.unlockTrack_mismatch {s : State} {h : RegIndex} {a : Byte} (hu : s.unlocked = false)
    (hm : ¬ (h = s.cfg.unlockReg ∧ a = s.cfg.unlockValue)) : s.unlockTrack h a = { s with unlockProgress := 0 } := by
  unfold State.unlockTrack
  rw [hu, if_neg Bool.false_ne_true, if_neg hm]

/-- Both bytes of a pair taken, the first left in the low half of the latch (R128, R129). -/
def State.pairTaken (s : State) (v : Byte) : State := { s.setLatchLow v with writeStage := 0 }

/-- A register write that is not the reset command, closed. -/
theorem State.registerPair_of_not {s : State} {h : RegIndex} {v : Byte}
    (hn : notResetCommand s.cfg (s.targetIndex h) v) :
    s.registerPair h v = ((s.pairTaken v).regEffects h v).rearmAll :=
  congrArg State.rearmAll (State.regWrite_frame (s.pairTaken v) h v (isResetWrite_of_not hn))

theorem exec_regwrite_of_not {s : State} {h : RegIndex} {v : Byte}
    (hn : notResetCommand s.cfg (s.targetIndex h) v) :
    exec (.regwrite h v) s = .next ((s.pairTaken v).regEffects h v).rearmAll :=
  congrArg Host.Outcome.next (State.registerPair_of_not hn)

/-- A register write that is the reset command does what `Reset()` does, which ends re-armed (R151, R280). -/
theorem State.registerPair_of_reset {s : State} {h : RegIndex} {v : Byte}
    (hr : isResetWrite s.cfg (s.effectiveIndex h) v = true) : s.registerPair h v = s.resetOp := by
  have hwrite : (s.pairTaken v).regWrite h v = s.resetOp :=
    (State.regWrite_reset (s.pairTaken v) h v hr).trans
      (State.resetOp_congr rfl rfl rfl rfl rfl rfl rfl rfl rfl rfl rfl rfl)
  exact (congrArg State.rearmAll hwrite).trans (State.rearmAll_idem s.resetFields.configApply)

theorem isResetWrite_of_match {c : Config} {i r : RegIndex} {a m : Byte} (hcmd : c.resetCmd = some (r, m)) (hi : i = r)
    (hm : a &&& m ≠ 0) : isResetWrite c i a = true := by
  rw [isResetWrite, hcmd]
  exact Bool.and_eq_true_iff.2 ⟨beq_iff_eq.2 hi, bne_iff_ne.2 hm⟩

/-- A register write that is not the reset command: what is not listed is as before. -/
theorem State.registerPair_frame {s : State} {h : RegIndex} {v : Byte}
    (hn : notResetCommand s.cfg (s.targetIndex h) v) :
    s.registerPair h v = { s with
      regs := (s.registerPair h v).regs
      status := (s.registerPair h v).status
      addressLatch := (s.registerPair h v).addressLatch
      writeStage := 0
      raData := s.memRead (s.registerPair h v).addressLatch
      raStatus := (s.registerPair h v).st (s.registerPair h v).statusSel
      interruptLine := (s.registerPair h v).pendingAndEnabled
      paletteDirty := s.paletteDirty || s.cfg.palDirtyRegs.contains (s.targetIndex h)
      configDirty := s.configDirty || s.cfg.cfgDirtyRegs.contains (s.targetIndex h)
      coprocessorRequested := (s.registerPair h v).coprocessorRequested
      flashRequested := (s.registerPair h v).flashRequested
      unlocked := (s.registerPair h v).unlocked
      unlockProgress := (s.registerPair h v).unlockProgress
      flashMode := (s.registerPair h v).flashMode
      coprocessorProgramCounter := (s.registerPair h v).coprocessorProgramCounter
      flashRunning := (s.registerPair h v).flashRunning
      flashRetry := (s.registerPair h v).flashRetry
      flashError := (s.registerPair h v).flashError
      flashPhase := (s.registerPair h v).flashPhase } := by
  rw [← State.interruptLevel_eq, State.registerPair_of_not hn, State.regEffects_eq]
  rfl

/-- The value is stored under the effective index alone (R140, R141). -/
theorem State.registerPair_x {s : State} {h : RegIndex} {v : Byte} (hn : notResetCommand s.cfg (s.targetIndex h) v)
    (j : RegIndex) : (s.registerPair h v).x j = if j = s.targetIndex h then v else s.x j := by
  rw [State.registerPair, State.rearmAll_x]
  exact State.regWrite_x (s := s.pairTaken v) hn j

/-- The value is left in the low half of the address latch (R128). -/
theorem State.registerPair_latch {s : State} {h : RegIndex} {v : Byte}
    (hn : notResetCommand s.cfg (s.targetIndex h) v) :
    (s.registerPair h v).addressLatch = s.addressLatch - s.addressLatch % 256 + v.toNat := by
  rw [State.registerPair_of_not hn, State.rearmAll_addressLatch, State.regEffects_eq]
  rfl

/-- The lock after a register write that is not the reset command (R146). -/
theorem State.registerPair_lock {s : State} {h : RegIndex} {v : Byte}
    (hn : notResetCommand s.cfg (s.targetIndex h) v) :
    (s.registerPair h v).unlocked = (s.unlockTrack h v).unlocked ∧
    (s.registerPair h v).unlockProgress = (s.unlockTrack h v).unlockProgress := by
  have htrack := State.unlockTrack_congr (s := s) (u := s.pairTaken v) rfl rfl rfl h v
  rw [State.registerPair_of_not hn, State.regEffects_eq, htrack]
  exact ⟨rfl, rfl⟩

/-! ### The coprocessor's part -/

section coprocessor
variable {s : State} {h : RegIndex} {a : Byte}

theorem State.regEffects_requested (s : State) (h : RegIndex) (a : Byte) :
    (s.regEffects h a).coprocessorRequested = (s.coprocEffect (s.effectiveIndex h) a).coprocessorRequested := by
  rw [State.regEffects_eq]

theorem State.regEffects_counter (s : State) (h : RegIndex) (a : Byte) :
    (s.regEffects h a).coprocessorProgramCounter =
      (s.coprocPcEffect (s.effectiveIndex h) a).coprocessorProgramCounter := by
  rw [State.regEffects_eq]

theorem State.regEffects_coprocTriggered (hc : ConfigFacts s.cfg) (ht : coprocTriggers s.cfg (s.effectiveIndex h) a) :
    (s.regEffects h a).coprocessorRequested = true ∧
    (s.regEffects h a).st s.cfg.srBusy &&& s.cfg.coprocBusyMask = s.cfg.coprocBusyMask := by
  rw [State.regEffects_requested, State.busy_regEffects hc, State.coprocEffect_of_trigger ht,
    State.st_coprocTriggerOp, if_pos rfl]
  exact ⟨rfl, or_and_self_mask _ _⟩

theorem State.regEffects_coprocUntriggered (hc : ConfigFacts s.cfg)
    (ht : ¬ coprocTriggers s.cfg (s.effectiveIndex h) a) :
    (s.regEffects h a).coprocessorRequested = s.coprocessorRequested ∧
    (s.regEffects h a).st s.cfg.srBusy &&& s.cfg.coprocBusyMask = s.st s.cfg.srBusy &&& s.cfg.coprocBusyMask := by
  rw [State.regEffects_requested, State.busy_regEffects hc, State.coprocEffect_of_not ht]
  exact ⟨rfl, rfl⟩

end coprocessor

/-! ### The flash programmer's part -/

/-- The flash fields of two states agree (R36, R42). -/
def State.sameFlash (s t : State) : Prop :=
  t.flashMode = s.flashMode ∧ t.flashRequested = s.flashRequested ∧ t.flashRunning = s.flashRunning ∧
  t.flashRetry = s.flashRetry ∧ t.flashError = s.flashError ∧ t.flashPhase = s.flashPhase

section flash
variable {s : State} {h : RegIndex} {a : Byte}

theorem State.regEffects_sameFlash (s : State) (h : RegIndex) (a : Byte) :
    (s.flashEffect (s.effectiveIndex h) a).sameFlash (s.regEffects h a) := by
  rw [State.regEffects_eq]
  exact ⟨rfl, rfl, rfl, rfl, rfl, rfl⟩

/-- The coprocessor's effect leaves the flash fields. -/
theorem State.coprocEffect_sameFlash (s : State) (i : RegIndex) (a : Byte) : s.sameFlash (s.coprocEffect i a) := by
  rw [State.coprocEffect_eq]
  exact ⟨rfl, rfl, rfl, rfl, rfl, rfl⟩

theorem State.regEffects_flashAccepted (hc : ConfigFacts s.cfg) (ht : flashTriggers s.cfg (s.effectiveIndex h) a)
    (hr : s.flashRequested = false) :
    (s.flashAccept a).sameFlash (s.regEffects h a) ∧ (s.regEffects h a).st s.cfg.srFlash = 0x80 ∧
    (s.regEffects h a).st s.cfg.srBusy &&& s.cfg.flashingMask = s.cfg.flashingMask := by
  have hsame := s.regEffects_sameFlash h a
  rw [State.flashEffect_of_trigger ht, State.flashTriggerOp_accepted s a hr] at hsame
  have hst := s.st_regEffects h a
  obtain ⟨-, hreq, -⟩ := s.coprocEffect_sameFlash (s.effectiveIndex h) a
  rw [State.flashEffect_of_trigger (by rw [State.coprocEffect_cfg]; exact ht)] at hst
  simp only [State.st_flashTriggerOp_accepted (hreq.trans hr), State.coprocEffect_cfg] at hst
  refine ⟨hsame, ?_, ?_⟩
  · rw [hst, if_pos rfl]
  · rw [hst, if_neg hc.busy_ne_flash, if_pos rfl]
    exact or_and_self_mask _ _

theorem State.regEffects_flashDropped (hc : ConfigFacts s.cfg) (ht : flashTriggers s.cfg (s.effectiveIndex h) a)
    (hr : s.flashRequested = true) :
    ({ s with flashError := .busy } : State).sameFlash (s.regEffects h a) ∧
    (s.regEffects h a).st s.cfg.srFlash = flashPack s.flashRunning s.flashRetry .busy s.flashPhase ∧
    (s.regEffects h a).st s.cfg.srBusy &&& s.cfg.flashingMask = s.st s.cfg.srBusy &&& s.cfg.flashingMask := by
  have hsame := s.regEffects_sameFlash h a
  rw [State.flashEffect_of_trigger ht, State.flashTriggerOp_dropped s a hr] at hsame
  have hst := s.st_regEffects h a
  obtain ⟨-, hreq, hrun, hretry, -, hphase⟩ := s.coprocEffect_sameFlash (s.effectiveIndex h) a
  rw [State.flashEffect_of_trigger (by rw [State.coprocEffect_cfg]; exact ht)] at hst
  simp only [State.st_flashTriggerOp_dropped (hreq.trans hr), State.coprocEffect_cfg, hrun, hretry, hphase] at hst
  refine ⟨hsame, ?_, ?_⟩
  · rw [hst, if_pos rfl]
  · rw [hst, if_neg hc.busy_ne_flash]
    exact (State.st_coprocEffect hc _ a).2

theorem State.regEffects_flashUntriggered (hc : ConfigFacts s.cfg)
    (ht : ¬ flashTriggers s.cfg (s.effectiveIndex h) a) :
    s.sameFlash (s.regEffects h a) ∧ (s.regEffects h a).st s.cfg.srFlash = s.st s.cfg.srFlash ∧
    (s.regEffects h a).st s.cfg.srBusy &&& s.cfg.flashingMask = s.st s.cfg.srBusy &&& s.cfg.flashingMask := by
  have hsame := s.regEffects_sameFlash h a
  rw [State.flashEffect_of_not ht] at hsame
  have hst := s.st_regEffects h a
  rw [State.flashEffect_of_not (by rw [State.coprocEffect_cfg]; exact ht)] at hst
  rw [hst, hst]
  exact ⟨hsame, State.st_coprocEffect hc _ a⟩

end flash

/-! ### What no operation but a reset can undo (R266) -/

/-- Every action but a reset keeps `P`; the actions not listed leave what it speaks of alone. -/
structure KeptUnlessReset (P : State → Prop) : Prop extends
    KeptByCycles P, KeptByLine P, KeptBySandbox P, KeptByFlashWrite P where
  quiet : ∀ s, P s → s.strobes = []
  wd := by exact fun _ _ h => h
  rd := by exact fun _ h => h
  rs := by exact fun _ h => h
  waFirst := by exact fun _ _ h => h
  addr := by exact fun _ _ _ h => h
  setPipe := by exact fun _ _ h => h
  clearPaletteDirty := by exact fun _ h => h
  setPalette := by exact fun _ _ _ _ h => h
  draw := by exact fun _ h => h
  mergeSpriteFlags := by exact fun _ _ h => h
  handOff := by exact fun _ _ _ h => h
  updateLineStatus := by exact fun _ _ _ h => h
  raiseEndOfFrame := by exact fun _ h => h
  sampleTemperature := by exact fun _ h => h
  frameTrigger := by exact fun _ h => h
  clearConfigDirty := by exact fun _ h => h
  configSave := by exact fun _ h => h
  nextLine := by exact fun _ _ h => h
  withScript := by exact fun _ _ h => h
  memWrite := by exact fun _ _ _ h => h
  protDisable := by exact fun _ h => h
  setCoprocPc := by exact fun _ _ h => h
  coprocFinish := by exact fun _ h _ => h
  beginRun := by exact fun _ h _ => h
  setFlashPhase := by exact fun _ _ h => h
  setFlashRetry := by exact fun _ _ h => h
  raiseFlashError := by exact fun _ _ h => h
  flashReturn := by exact fun _ h => h
  storErase := by exact fun _ _ _ h => h
  storProgram := by exact fun _ _ _ _ h => h
  storTorn := by exact fun _ _ _ _ h => h
  openSession := by exact fun _ _ h => h
  noteBlock := by exact fun _ _ h => h
  closeSession := by exact fun _ h => h

/-- With nothing interleaved, what every action but a reset keeps, every operation but `RESET` keeps. -/
theorem KeptUnlessReset.exec {P : State → Prop} (H : KeptUnlessReset P) {i : Instr} {s t : State} (hi : i ≠ .reset)
    (h : exec i s = .next t) (hs : P s) : P t :=
  (KeptByExec.ofQuiet H.quiet H.toKeptByCycles H.toKeptByLine H.toKeptBySandbox H.toKeptByFlash).execAll
    H.toKeptByFlashWrite h (fun e => absurd e hi) hs

theorem isResetWrite_of_none {c : Config} (h : c.resetCmd = none) (i : RegIndex) (a : Byte) :
    isResetWrite c i a = false := by
  rw [isResetWrite, h]

/-- Unlocked, nothing interleaved, and no register write resets. -/
def State.staysUnlocked (s : State) : Prop := s.quiet ∧ s.cfg.resetCmd = none ∧ s.unlocked = true

theorem State.staysUnlocked.regEffects {s : State} (hs : s.staysUnlocked) (h : RegIndex) (a : Byte) :
    (s.regEffects h a).staysUnlocked := by
  rw [State.regEffects_eq, State.unlockTrack_unlocked s h a hs.2.2]
  exact hs

theorem keptUnlessReset_staysUnlocked : KeptUnlessReset State.staysUnlocked where
  quiet _ hs := hs.1
  reg _ h a hs := State.regPair_keeps (P := State.staysUnlocked) (fun _ hu => hu) (fun _ hu => hu.regEffects h a) hs
  command _ i a hs hr := absurd hr (by rw [isResetWrite_of_none hs.2.1]; exact Bool.false_ne_true)
  flashTrigger s a hs := by
    rw [State.flashTriggerOp_frame]
    exact hs

/-! ### The statements -/

/-- Settles O17: the closed effects, their frame, the store, the latch and the lock. -/
theorem registerWrite : Obligations.RegisterWrite := by
  intro h v s hn
  obtain ⟨hlock, hprogress⟩ := State.registerPair_lock hn
  have hv : v.toNat < 256 := v.isLt
  have hlatch := State.registerPair_latch hn
  refine ⟨s.registerPair h v, rfl, State.registerPair_frame hn, State.registerPair_x hn, by omega, by omega,
    fun hu => ?opened, fun hu hreg hval => ?advances, fun hu hm => ?restarts, fun j hbusy hflash => ?status⟩
  case opened =>
    rw [hlock, hprogress, State.unlockTrack_unlocked s h v hu]
    exact ⟨hu, rfl⟩
  case advances =>
    subst hreg hval
    rw [hlock, hprogress, State.unlockTrack_matching hu]
    exact ⟨rfl, beq_iff_eq⟩
  case restarts =>
    rw [hlock, hprogress, State.unlockTrack_mismatch hu hm]
    exact ⟨hu, rfl⟩
  case status =>
    rw [State.registerPair_of_not hn, State.rearmAll_st]
    exact State.st_regEffects_of_ne (s.pairTaken v) h v hbusy hflash

/-- Settles O18: the trigger met or not, and the counter without and with a load. -/
theorem registerWriteCoprocessor : Obligations.RegisterWriteCoprocessor := by
  intro h v s hv hn
  have hc := configFacts hv
  refine ⟨_, exec_regwrite_of_not hn, fun hi hm => ?triggered, fun ht => ?untriggered, fun hload => ?noLoad,
    fun hi lo hload hne hbits hpc => ?load⟩
  case triggered =>
    rw [State.rearmAll_coprocessorRequested, State.rearmAll_st]
    exact State.regEffects_coprocTriggered (s := s.pairTaken v) hc ⟨hi, hm⟩
  case untriggered =>
    rw [State.rearmAll_coprocessorRequested, State.rearmAll_st]
    exact State.regEffects_coprocUntriggered (s := s.pairTaken v) hc ht
  case noLoad =>
    rw [State.rearmAll_coprocessorProgramCounter, State.regEffects_counter,
      State.coprocPcEffect_none (s := s.pairTaken v) hload]
    rfl
  case load =>
    rw [State.rearmAll_coprocessorProgramCounter, State.regEffects_counter]
    exact State.coprocPcEffect_bytes (s := s.pairTaken v) hload hne hbits hpc

/-- Settles O19: accepted, dropped or not triggered. -/
theorem registerWriteFlash : Obligations.RegisterWriteFlash := by
  intro h v s hv hn
  have hc := configFacts hv
  refine ⟨_, exec_regwrite_of_not hn, ?_⟩
  simp only [State.rearmAll_flashMode, State.rearmAll_flashRequested, State.rearmAll_flashRunning,
    State.rearmAll_flashRetry, State.rearmAll_flashError, State.rearmAll_flashPhase, State.rearmAll_st]
  refine ⟨fun hi hm hr => ?accepted, fun hi hm hr => ?dropped, fun ht => ?untriggered⟩
  case accepted =>
    obtain ⟨⟨hmode, hreq, hrun, hretry, herror, hphase⟩, hbytes⟩ :=
      State.regEffects_flashAccepted (s := s.pairTaken v) hc ⟨hi, hm⟩ hr
    exact ⟨hmode, hreq, hrun, hretry, herror, hphase, hbytes⟩
  case dropped =>
    obtain ⟨⟨hmode, hreq, hrun, hretry, herror, hphase⟩, hbytes⟩ :=
      State.regEffects_flashDropped (s := s.pairTaken v) hc ⟨hi, hm⟩ hr
    exact ⟨hmode, hreq.trans hr, hrun, hretry, herror, hphase, hbytes⟩
  case untriggered =>
    obtain ⟨⟨hmode, hreq, hrun, hretry, herror, hphase⟩, hbytes⟩ :=
      State.regEffects_flashUntriggered (s := s.pairTaken v) hc ht
    exact ⟨hmode, hreq, hrun, hretry, herror, hphase, hbytes⟩

/-- Settles O20: the reset command leaves nothing of the write before it, and `RESET` ends re-armed. -/
theorem registerWriteResets : Obligations.RegisterWriteResets := by
  intro h v s r m hcmd hi hm
  have hreset : isResetWrite s.cfg (s.effectiveIndex h) v = true := isResetWrite_of_match hcmd hi hm
  refine ⟨s.resetOp, ?_, rfl⟩
  rw [exec_regwrite, State.registerPair_of_reset hreset]

/-- Settles O27: accepted or dropped by the request. -/
theorem flashTrigger : Obligations.FlashTrigger := by
  intro v s _
  refine ⟨_, rfl, fun hr => ⟨?_, State.st_flashTriggerOp_accepted hr v⟩,
    fun hr => ⟨?_, State.st_flashTriggerOp_dropped hr v⟩⟩
  · rw [State.flashTriggerOp_accepted s v hr]
    rfl
  · rw [State.flashTriggerOp_dropped s v hr]
    rfl

/-- Settles O59: no action but a reset clears `unlocked`. -/
theorem unlockedUntilReset : Obligations.UnlockedUntilReset := by
  intro i s t hquiet hcmd hi hu h
  obtain ⟨-, -, hunlocked⟩ := keptUnlessReset_staysUnlocked.exec hi h ⟨hquiet, hcmd, hu⟩
  exact hunlocked

end Sys2Proof.Machine

/-! PROOFS. The video pipeline (spec/42_video_pipeline.md) with nothing interleaved: the palette rebuild, the frame
boundary, the row of a line, what a whole line leaves, and the statements about them. -/

namespace Sys2Proof.Machine

/-! ### What a valid configuration gives the pipeline -/

/-- The constraints of R8, R25 and R26 on the fields that a line writes. -/
structure LineFacts (c : Config) : Prop extends ConfigFacts c where
  scanline_ne_temp : c.srScanline ≠ c.srTemp
  blank_ne_scanline : c.srBlank ≠ c.srScanline
  blank_ne_temp : c.srBlank ≠ c.srTemp
  spr5_idx : c.st5S &&& c.stIdx = 0
  col_idx : c.stCol &&& c.stIdx = 0

theorem lineFacts {c : Config} (h : configValid c = true) : LineFacts c := by
  have hfacts := configFacts h
  simp only [configValid, statusMasksValid, statusFieldsValid, wholeByteFields, Bool.and_eq_true, beq_iff_eq,
    bne_iff_ne, List.contains_cons, List.contains_nil, Bool.or_false, Bool.not_eq_true', Bool.or_eq_false_iff,
    beq_eq_false_iff_ne] at h
  obtain ⟨⟨⟨⟨⟨⟨⟨_, hmasks⟩, hfields⟩, _⟩, _⟩, _⟩, _⟩, _⟩ := h
  obtain ⟨⟨⟨⟨⟨⟨⟨_, htemp⟩, _⟩, _⟩, hblankScan, hblankTemp, _⟩, _⟩, _⟩, _⟩ := hfields
  obtain ⟨⟨⟨⟨_, h5⟩, hcol⟩, _⟩, _⟩ := hmasks
  exact ⟨hfacts, htemp, hblankScan, hblankTemp, h5, hcol⟩

/-! ### Background steps that wait on a flag -/

/-- A step taken only if a flag is set, where nothing falls inside it. -/
theorem onlyIf_quiet {c : Bool} {x : Bg Unit} {s t : State} (hx : x s = .ok () t) :
    onlyIf c x s = .ok () (if c = true then t else s) := by
  cases c with
  | false => rfl
  | true => exact hx

/-! ### The palette (R168) -/

/-- The bytes of palette entry `i` in video memory. -/
def State.paletteBytes (s : State) (i : Nat) : List Byte :=
  (List.range s.cfg.paletteEntryBytes).map fun k => s.memRead (s.cfg.paletteBase + i * s.cfg.paletteEntryBytes + k)

/-- One entry of the rebuild, as a state update. -/
def State.expandEntry (s : State) (i : Nat) : State := s.setPalette Config.collab i (s.paletteBytes i)

/-- What an expansion reads is no part of the table. -/
theorem State.expandEntry_of_table (s : State) (table : Vector Pixel 64) (i : Nat) :
    ({ s with paletteLUT := table } : State).expandEntry i = { s with
      paletteLUT := table.setIfInBounds i (pixelOf s.cfg (Config.paletteExpand (s.paletteBytes i))) } := rfl

theorem rebuildEntry_quiet (i : Nat) {s : State} (hs : s.strobes = []) :
    rebuildEntry Config.collab i s = .ok () (s.expandEntry i) := by
  rw [rebuildEntry, bg_bind_ok (bg_get s), bg_bind_ok (bgReadRange_quiet linePoint_quiet _ _ hs)]
  rfl

/-- The table with its first `n` entries expanded from their bytes. -/
def State.expandedTable (s : State) (n : Nat) : Vector Pixel 64 :=
  Vector.ofFn fun i => if i.val < n then pixelOf s.cfg (Config.paletteExpand (s.paletteBytes i)) else s.paletteLUT[i]

theorem State.getElem_expandedTable (s : State) (n i : Nat) (hi : i < 64) :
    (s.expandedTable n)[i] =
      if i < n then pixelOf s.cfg (Config.paletteExpand (s.paletteBytes i)) else s.paletteLUT[i] :=
  Vector.getElem_ofFn hi

/-- The entries are expanded in ascending order, and no expansion changes the bytes of another. -/
theorem State.foldl_expandEntry (s : State) (n : Nat) :
    (List.range n).foldl State.expandEntry s = { s with paletteLUT := s.expandedTable n } := by
  induction n with
  | zero =>
    have htable : s.expandedTable 0 = s.paletteLUT := Vector.ext fun i hi => s.getElem_expandedTable 0 i hi
    rw [htable]
    rfl
  | succ n ih =>
    have htable : (s.expandedTable n).setIfInBounds n (pixelOf s.cfg (Config.paletteExpand (s.paletteBytes n))) =
        s.expandedTable (n + 1) := by
      apply Vector.ext
      intro i hi
      rw [Vector.getElem_setIfInBounds, s.getElem_expandedTable, s.getElem_expandedTable]
      grind
    rw [List.range_succ, List.foldl_append, ih, List.foldl_cons, List.foldl_nil, State.expandEntry_of_table, htable]

/-- The state after `PaletteRebuild()`. -/
def State.paletteRebuilt (s : State) : State :=
  { s with paletteDirty := false, paletteLUT := s.expandedTable s.paletteEntries }

theorem State.getElem_paletteRebuilt (s : State) (i : Nat) (hi : i < 64) :
    s.paletteRebuilt.paletteLUT[i] = s.rebuiltEntry i hi := s.getElem_expandedTable s.paletteEntries i hi

theorem paletteRebuildBody_quiet {s : State} (hs : s.strobes = []) :
    paletteRebuildBody Config.collab s = .ok () s.paletteRebuilt := by
  have hloop := forEach_fold (rebuildEntry Config.collab) State.expandEntry (fun i _ => rebuildEntry_quiet i)
    (fun _ _ h => h) (List.range s.clearPaletteDirty.paletteEntries) s.clearPaletteDirty hs
  rw [State.foldl_expandEntry] at hloop
  rw [paletteRebuildBody, bg_bind_ok (guarded_quiet linePoint_quiet _ hs),
    bg_bind_ok (paletteSize_quiet (s := s.clearPaletteDirty) hs)]
  exact hloop

/-- The state after the check of the dirty flag (R162). -/
def State.paletteChecked (s : State) : State := if s.paletteDirty = true then s.paletteRebuilt else s

theorem paletteCheck_quiet {s : State} (hs : s.strobes = []) :
    paletteCheck Config.collab s = .ok () s.paletteChecked := by
  rw [paletteCheck, bg_bind_ok (look_quiet linePoint_quiet _ hs)]
  exact onlyIf_quiet (paletteRebuildBody_quiet hs)

/-- All that the check does; the table it leaves is told by `getElem_paletteChecked`. -/
theorem State.paletteChecked_eq (s : State) :
    s.paletteChecked = { s with paletteDirty := false, paletteLUT := s.paletteChecked.paletteLUT } := by
  unfold State.paletteChecked
  split
  · rfl
  · next hclean => rw [← Bool.eq_false_iff.2 hclean]

theorem State.getElem_paletteChecked (s : State) (i : Nat) (hi : i < 64) :
    s.paletteChecked.paletteLUT[i] = s.lineEntry i hi := by
  unfold State.paletteChecked State.lineEntry
  split
  · exact s.getElem_paletteRebuilt i hi
  · rfl

/-! ### The frame boundary (R177 to R180) -/

/-- The state after the per-frame trigger, where its control bit asks for one (R178). -/
def State.frameTriggered (s : State) : State := if s.frameBit = true then s.frameTrigger else s

/-- The state after the configuration flush, where the configuration is dirty (R180). -/
def State.configFlushed (s : State) : State := if s.configDirty = true then s.clearConfigDirty.configSave else s

/-- The state after `FrameEnd()` (R177). -/
def State.frameEnded (s : State) : State := s.sampleTemperature.frameTriggered.configFlushed

theorem State.frameTriggered_eq {s : State} (hlatch : s.raStatus = s.st s.statusSel) :
    s.frameTriggered = { s with
      status := s.frameTriggered.status
      raStatus := s.frameTriggered.st s.statusSel
      coprocessorRequested := s.coprocessorRequested || s.frameBit } := by
  unfold State.frameTriggered
  split
  · next hbit => rw [hbit, Bool.or_true]; rfl
  · next hbit => rw [Bool.eq_false_iff.2 hbit, Bool.or_false, ← hlatch]

theorem State.configFlushed_eq (s : State) :
    s.configFlushed = { s with
      configDirty := false
      configPage := s.configFlushed.configPage
      draws := s.configFlushed.draws } := by
  unfold State.configFlushed
  split
  · rfl
  · next hclean => rw [← Bool.eq_false_iff.2 hclean]

theorem State.configFlushed_of_clean {s : State} (h : s.configDirty = false) : s.configFlushed = s :=
  if_neg (Bool.eq_false_iff.1 h)

theorem State.le_draws_configFlushed (s : State) : s.draws ≤ s.configFlushed.draws := by
  unfold State.configFlushed
  split
  · exact Nat.le_succ s.draws
  · exact Nat.le_refl s.draws

theorem frameEndBody_quiet {s : State} (hs : s.strobes = []) : frameEndBody s = .ok () s.frameEnded := by
  have hsampled : s.sampleTemperature.strobes = [] := hs
  have htriggered : s.sampleTemperature.frameTriggered.strobes = [] := by
    rw [State.frameTriggered_eq rfl]; exact hs
  have htrigger : onlyIf s.sampleTemperature.frameBit (guarded linePoint State.frameTrigger) s.sampleTemperature =
      .ok () s.sampleTemperature.frameTriggered := onlyIf_quiet (guarded_quiet linePoint_quiet _ hsampled)
  have hflush : ∀ {u : State}, u.strobes = [] → configFlush u = .ok () u.clearConfigDirty.configSave := fun hu => by
    rw [configFlush, bg_bind_ok (guarded_quiet linePoint_quiet _ hu)]
    exact guarded_quiet linePoint_quiet _ hu
  rw [frameEndBody, bg_bind_ok (guarded_quiet linePoint_quiet _ hs), bg_bind_ok (look_quiet linePoint_quiet _ hsampled),
    bg_bind_ok htrigger, bg_bind_ok (look_quiet linePoint_quiet _ htriggered)]
  exact onlyIf_quiet (hflush htriggered)

theorem State.st_frameTriggered (s : State) (j : StatusIndex) :
    s.frameTriggered.st j =
      if j = s.cfg.srBusy ∧ s.frameBit = true then s.st s.cfg.srBusy ||| s.cfg.coprocBusyMask else s.st j := by
  unfold State.frameTriggered
  split
  · next hbit => rw [State.st_frameTrigger]; simp only [hbit, and_true]
  · next hbit => rw [if_neg fun h => hbit h.2]

@[simp] theorem State.configFlushed_st (s : State) (j : StatusIndex) : s.configFlushed.st j = s.st j := by
  rw [State.configFlushed_eq]; rfl

theorem State.frameBit_iff (s : State) :
    s.frameBit = true ↔ ¬ s.x s.cfg.coprocFrameReg &&& s.cfg.coprocFrameMask = 0 := bne_iff_ne

/-- Neither the sample nor the trigger touches the flag or the page. -/
theorem State.frameEnded_page {s : State} (hclean : s.configDirty = false) :
    s.frameEnded.configPage = s.configPage := by
  have htriggered := State.frameTriggered_eq s.sampleTemperature_latch
  unfold State.frameEnded
  generalize s.sampleTemperature.frameTriggered = u at htriggered ⊢
  rw [State.configFlushed_of_clean, htriggered]
  · rfl
  · rw [htriggered]; exact hclean

/-- The sample is drawn inside the frame boundary. -/
theorem State.draws_lt_frameEnded (s : State) : s.draws < s.frameEnded.draws := by
  have htriggered := State.frameTriggered_eq s.sampleTemperature_latch
  have hdraws : s.sampleTemperature.frameTriggered.draws = s.draws + 1 := by rw [htriggered]; rfl
  calc s.draws < s.sampleTemperature.frameTriggered.draws := hdraws ▸ Nat.lt_succ_self s.draws
    _ ≤ s.frameEnded.draws := State.le_draws_configFlushed _

/-- All that `FrameEnd()` does; the status file it leaves is told by `st_frameEnded`. -/
theorem State.frameEnded_eq (s : State) :
    s.frameEnded = { s with
      status := s.frameEnded.status
      raStatus := s.frameEnded.st s.statusSel
      coprocessorRequested := s.coprocessorRequested || s.frameBit
      configDirty := false
      configPage := s.frameEnded.configPage
      draws := s.frameEnded.draws } := by
  have htriggered := State.frameTriggered_eq s.sampleTemperature_latch
  unfold State.frameEnded
  generalize s.sampleTemperature.frameTriggered = u at htriggered ⊢
  rw [State.configFlushed_st, State.configFlushed_eq, htriggered]
  rfl

/-- The temperature register holds the sample, the busy bits are set with the frame bit. -/
theorem State.st_frameEnded {s : State} (hc : ConfigFacts s.cfg) (j : StatusIndex) :
    s.frameEnded.st j =
      if j = s.cfg.srTemp then Config.tempSample s.draws
      else if j = s.cfg.srBusy ∧ s.frameBit = true then s.st s.cfg.srBusy ||| s.cfg.coprocBusyMask
      else s.st j := by
  have hbit : s.sampleTemperature.frameBit = s.frameBit := rfl
  unfold State.frameEnded
  rw [State.configFlushed_st, State.st_frameTriggered, State.st_sampleTemperature, State.st_sampleTemperature,
    State.sampleTemperature_cfg, hbit, if_neg hc.temp_ne_busy.symm]
  by_cases htemp : j = s.cfg.srTemp
  · rw [if_pos htemp, if_pos htemp, if_neg fun h => hc.temp_ne_busy (htemp.symm.trans h.1)]
  · rw [if_neg htemp, if_neg htemp]

/-! ### The statements about the palette and the frame boundary -/

/-- Settles O35: the loop as a fold over the entries. -/
theorem paletteRebuild : Obligations.PaletteRebuild := fun s hs =>
  ⟨_, runBg_ok (paletteRebuildBody_quiet hs), rfl, s.getElem_paletteRebuilt⟩

/-- Settles O36: sample, trigger and flush in turn. -/
theorem frameEnd : Obligations.FrameEnd := by
  intro s hs hvalid
  have hc := configFacts hvalid
  refine ⟨_, runBg_ok (frameEndBody_quiet hs), s.frameEnded_eq, State.frameEnded_page, ?_, ?_, ?_⟩
  · rw [State.st_frameEnded hc, if_pos rfl]
  · rw [State.st_frameEnded hc, if_neg hc.temp_ne_busy.symm]
    simp only [true_and, s.frameBit_iff, ite_not]
  · intro j htemp hbusy
    rw [State.st_frameEnded hc, if_neg htemp, if_neg fun h => hbusy h.1]

end Sys2Proof.Machine

/-! PROOFS. A scanline (spec/42_video_pipeline.md R161 to R176) with nothing interleaved: its row, its status bytes, what
a whole `LINE` leaves, and the statements about it. -/

namespace Sys2Proof.Machine

/-! ### The regions of a frame (R161) -/

theorem classify_eq_display_iff (c : Config) (y : Nat) : classify c y = .display ↔ isDisplayLine c y := by
  unfold classify isDisplayLine displayEnd activeEnd activeFirst
  split_ifs <;> simp <;> omega

theorem classify_eq_sync_iff (c : Config) (y : Nat) : classify c y = .sync ↔ ¬ isVisibleLine c y := by
  unfold classify isVisibleLine displayEnd activeEnd activeFirst
  split_ifs <;> simp <;> omega

/-! ### The row of a line (R162 steps 1 to 3 and 6) -/

@[simp] theorem State.paletteChecked_cfg (s : State) : s.paletteChecked.cfg = s.cfg := by
  rw [State.paletteChecked_eq]

@[simp] theorem State.paletteChecked_strobes (s : State) : s.paletteChecked.strobes = s.strobes := by
  rw [State.paletteChecked_eq]

@[simp] theorem State.paletteChecked_x (s : State) (i : RegIndex) : s.paletteChecked.x i = s.x i := by
  rw [State.paletteChecked_eq]; rfl

@[simp] theorem State.paletteChecked_draws (s : State) : s.paletteChecked.draws = s.draws := by
  rw [State.paletteChecked_eq]

@[simp] theorem State.paletteChecked_entries (s : State) : s.paletteChecked.paletteEntries = s.paletteEntries := by
  rw [State.paletteChecked_eq]; rfl

@[simp] theorem State.paletteChecked_st (s : State) (j : StatusIndex) : s.paletteChecked.st j = s.st j := by
  rw [State.paletteChecked_eq]; rfl

/-- The display row that the state's line shows (R162). -/
def State.rowNumber (s : State) : Nat := s.lineY - activeFirst s.cfg

/-- What the scanline generator reads for that row. -/
def State.rowAnswers (s : State) : List Byte :=
  s.scanned Config.collab s.rowNumber (Config.collab.scanReads s.rowNumber) []

/-- The sprite flags it gives for that row. -/
def State.rowFlags (s : State) : SpriteFlags := Config.collab.scanFlags s.rowNumber s.rowAnswers

/-- The row before overlay and darkening. -/
def State.basePixels (s : State) : List Pixel :=
  if classify s.cfg s.lineY = .display then
    convertRow Config.collab s.rowNumber s.rowAnswers s.paletteEntries s.paletteChecked
  else (List.range s.cfg.linePixels).map fun p => borderPixel p s.paletteChecked

/-- The state once that row is made. -/
def State.rowMade (s : State) : State :=
  if classify s.cfg s.lineY = .display then s.paletteChecked.draw.mergeSpriteFlags s.rowFlags
  else s.paletteChecked.draw

/-- The palette entry that a border line shows (R166). -/
def State.borderIndex (s : State) : Nat := (s.x s.cfg.bgReg &&& s.cfg.bgMask).toNat

theorem scanRead_quiet (target : ReadTarget) {s : State} (hs : s.strobes = []) :
    scanRead target s = .ok (match target with
      | .register i => s.x i
      | .vram a => s.memRead a) s := by
  cases target with
  | register i => exact look_quiet linePoint_quiet _ hs
  | vram a => exact bgRead_quiet linePoint_quiet a hs

theorem scanAnswers_quiet (k : Collaborators) (row n : Nat) (answers : List Byte) {s : State} (hs : s.strobes = []) :
    scanAnswers k row n answers s = .ok (s.scanned k row n answers) s := by
  induction n generalizing answers with
  | zero => rfl
  | succ n ih =>
    rw [scanAnswers, bg_bind_ok (scanRead_quiet _ hs), ih]
    rfl

theorem displayRow_quiet {s : State} (hs : s.strobes = []) :
    displayRow Config.collab s.lineY s =
      .ok (convertRow Config.collab s.rowNumber s.rowAnswers s.paletteEntries s.paletteChecked)
        (s.paletteChecked.draw.mergeSpriteFlags s.rowFlags) := by
  have hchecked : s.paletteChecked.strobes = [] := s.paletteChecked_strobes.trans hs
  have hdrawn : s.paletteChecked.draw.strobes = [] := hchecked
  rw [displayRow, bg_bind_ok (bg_get s), bg_bind_ok (scanAnswers_quiet _ _ _ _ hs), bg_bind_ok (paletteCheck_quiet hs),
    bg_bind_ok (paletteSize_quiet hchecked), bg_bind_ok (look_quiet linePoint_quiet _ hchecked),
    bg_bind_ok (bg_modify _ _), bg_bind_ok (guarded_quiet linePoint_quiet _ hdrawn), State.paletteChecked_entries]
  rfl

theorem borderRow_quiet {s : State} (hs : s.strobes = []) :
    borderRow Config.collab s =
      .ok ((List.range s.cfg.linePixels).map fun p => borderPixel p s.paletteChecked) s.paletteChecked.draw := by
  rw [borderRow, bg_bind_ok (paletteCheck_quiet hs), bg_bind_ok (fillRow_quiet (s.paletteChecked_strobes.trans hs)),
    bg_bind_ok (bg_modify _ _), State.paletteChecked_cfg]
  rfl

theorem lineRow_quiet {s : State} (hs : s.strobes = []) :
    lineRow Config.collab s.lineY (classify s.cfg s.lineY) s = .ok s.basePixels s.rowMade := by
  unfold lineRow State.basePixels State.rowMade
  split
  · exact displayRow_quiet hs
  · exact borderRow_quiet hs

/-- All that making a row does: the palette is checked, a value is drawn, the sprite flags are merged. -/
theorem State.rowMade_eq (s : State) :
    s.rowMade = { s with
      status := s.rowMade.status
      raStatus := s.rowMade.raStatus
      paletteDirty := false
      paletteLUT := s.paletteChecked.paletteLUT
      draws := s.draws + 1 } := by
  have hchecked := s.paletteChecked_eq
  unfold State.rowMade
  generalize s.paletteChecked = u at hchecked ⊢
  split
  · rw [hchecked]; rfl
  · rw [hchecked]; rfl

@[simp] theorem State.rowMade_cfg (s : State) : s.rowMade.cfg = s.cfg := by rw [State.rowMade_eq]

theorem State.st_rowMade (s : State) (j : StatusIndex) :
    s.rowMade.st j =
      if j = 0 ∧ classify s.cfg s.lineY = .display then mergeSprites s.cfg s.rowFlags (s.st 0) else s.st j := by
  unfold State.rowMade
  by_cases hdisplay : classify s.cfg s.lineY = .display
  · rw [if_pos hdisplay, State.st_mergeSpriteFlags]
    simp [hdisplay]
  · rw [if_neg hdisplay, if_neg fun h => hdisplay h.2]
    exact s.paletteChecked_st j

/-! ### What a row depends on (R181) -/

/-- A colour index inside the palette shows its entry, of the table rebuilt first where the palette is dirty. -/
theorem indexedPixel_of_lt (s : State) {n idx : Nat} (p : Nat) (hidx : idx < 64) (hn : idx < n) :
    indexedPixel s.paletteChecked n p idx = s.lineEntry idx hidx := by
  rw [indexedPixel, dif_pos hidx, if_pos hn, s.getElem_paletteChecked]

/-- A colour index past the palette shows a free pixel (U9). -/
theorem indexedPixel_of_ge (s : State) {n idx : Nat} (p : Nat) (hidx : ¬ (idx < 64 ∧ idx < n)) :
    indexedPixel s.paletteChecked n p idx = pixelOf s.cfg (Config.freePixel s.draws p) := by
  unfold indexedPixel
  rw [State.paletteChecked_cfg, State.paletteChecked_draws]
  split
  · next h => exact if_neg fun hn => hidx ⟨h, hn⟩
  · rfl

theorem borderPixel_paletteChecked (s : State) (p : Nat) :
    borderPixel p s.paletteChecked = indexedPixel s.paletteChecked 64 p s.borderIndex := by
  rw [borderPixel, State.paletteChecked_x, State.paletteChecked_cfg]
  rfl

/-- Two states give the pipeline the same configuration, registers, video memory and line. -/
structure SameSource (s u : State) : Prop where
  cfg : s.cfg = u.cfg
  regs : s.regs = u.regs
  vram : s.vram = u.vram
  lineY : s.lineY = u.lineY

theorem State.sameSource_setPipe (s : State) (p : PipeState) : SameSource (s.setPipe p) s := ⟨rfl, rfl, rfl, rfl⟩

section source
variable {s u : State} (h : SameSource s u)
include h

theorem SameSource.x : s.x = u.x := by
  funext i
  simp only [State.x, h.regs]

theorem SameSource.memRead (a : Nat) : s.memRead a = u.memRead a := State.memRead_congr h.vram h.cfg a

theorem SameSource.paletteEntries : s.paletteEntries = u.paletteEntries := by
  rw [State.paletteEntries, State.paletteEntries, h.x, h.cfg]

theorem SameSource.borderIndex : s.borderIndex = u.borderIndex := by
  rw [State.borderIndex, State.borderIndex, h.x, h.cfg]

theorem SameSource.scanned (k : Collaborators) (row n : Nat) (answers : List Byte) :
    s.scanned k row n answers = u.scanned k row n answers := by
  induction n generalizing answers with
  | zero => rfl
  | succ n ih => simp only [State.scanned, ih, h.x, h.memRead]

theorem SameSource.rowNumber : s.rowNumber = u.rowNumber := by
  rw [State.rowNumber, State.rowNumber, h.cfg, h.lineY]

theorem SameSource.rowAnswers : s.rowAnswers = u.rowAnswers := by
  rw [State.rowAnswers, State.rowAnswers, h.scanned, h.rowNumber]

theorem SameSource.rowFlags : s.rowFlags = u.rowFlags := by
  rw [State.rowFlags, State.rowFlags, h.rowAnswers, h.rowNumber]

/-- A rebuilt entry comes from video memory alone. -/
theorem SameSource.rebuiltEntry {i : Nat} (hi : i < 64) (hn : i < s.paletteEntries) :
    s.rebuiltEntry i hi = u.rebuiltEntry i hi := by
  rw [State.rebuiltEntry, State.rebuiltEntry, if_pos hn, if_pos (h.paletteEntries ▸ hn)]
  simp only [h.memRead, h.cfg]

theorem SameSource.indexedPixel (hdraws : s.draws = u.draws) (n p idx : Nat)
    (htable : ∀ hi : idx < 64, idx < n → s.lineEntry idx hi = u.lineEntry idx hi) :
    indexedPixel s.paletteChecked n p idx = indexedPixel u.paletteChecked n p idx := by
  by_cases hidx : idx < 64 ∧ idx < n
  · obtain ⟨hlt, hn⟩ := hidx
    rw [indexedPixel_of_lt s p hlt hn, indexedPixel_of_lt u p hlt hn, htable hlt hn]
  · rw [indexedPixel_of_ge s p hidx, indexedPixel_of_ge u p hidx, h.cfg, hdraws]

/-- The row depends on the table only through the entries a line can show. -/
theorem SameSource.basePixels (hdraws : s.draws = u.draws)
    (htable : ∀ (i : Nat) (hi : i < 64), i < s.paletteEntries ∨ i = s.borderIndex →
      s.lineEntry i hi = u.lineEntry i hi) :
    s.basePixels = u.basePixels := by
  unfold State.basePixels
  rw [← h.cfg, ← h.lineY]
  split
  · rw [convertRow, convertRow, State.paletteChecked_cfg, State.paletteChecked_cfg, ← h.cfg, ← h.paletteEntries,
      ← h.rowNumber, ← h.rowAnswers]
    exact List.map_congr_left fun p _ => h.indexedPixel hdraws _ p _ fun hi hn => htable _ hi (.inl hn)
  · refine List.map_congr_left fun p _ => ?_
    have hborder := h.indexedPixel hdraws 64 p s.borderIndex fun hi _ => htable _ hi (.inr rfl)
    rw [borderPixel_paletteChecked, borderPixel_paletteChecked, hborder, h.borderIndex]

end source

theorem State.basePixels_setPipe (s : State) (p : PipeState) : (s.setPipe p).basePixels = s.basePixels :=
  (s.sameSource_setPipe p).basePixels rfl fun _ _ _ => rfl

/-! ### The pixel work of a line (R161, R172) -/

theorem finishRow_eq_shownRow (c : Config) (k : Collaborators) (y : Nat) (row : List Pixel) :
    finishRow c k y row = shownRow c k y row := rfl

/-- The row as it is stored and shown. -/
def State.shownPixels (s : State) : List Pixel := shownRow s.cfg Config.collab s.lineY s.basePixels

/-- The state after the pixel work. -/
def State.pixelWork (s : State) : State :=
  if classify s.cfg s.lineY = .sync then s.setPipe .idle
  else (s.setPipe .active).rowMade.handOff s.lineY s.shownPixels

theorem linePixelWork_quiet {s : State} (hs : s.strobes = []) :
    linePixelWork Config.collab s.lineY (classify s.cfg s.lineY) s = .ok () s.pixelWork := by
  unfold linePixelWork State.pixelWork
  split
  · rfl
  · have hrow := lineRow_quiet (s := s.setPipe .active) hs
    rw [visibleLine, bg_bind_ok (bg_modify _ _)]
    refine (bg_bind_ok hrow).trans ?_
    rw [bg_modify, State.rowMade_cfg, finishRow_eq_shownRow, State.basePixels_setPipe]
    rfl

theorem State.pixelWork_of_sync {s : State} (h : ¬ isVisibleLine s.cfg s.lineY) : s.pixelWork = s.setPipe .idle :=
  if_pos ((classify_eq_sync_iff _ _).2 h)

theorem State.pixelWork_of_visible {s : State} (h : isVisibleLine s.cfg s.lineY) :
    s.pixelWork = (s.setPipe .active).rowMade.handOff s.lineY s.shownPixels :=
  if_neg fun e => (classify_eq_sync_iff _ _).1 e h

theorem isDisplayLine.visible {c : Config} {y : Nat} (h : isDisplayLine c y) : isVisibleLine c y := by
  unfold isDisplayLine at h
  unfold isVisibleLine
  omega

/-- What the pixel work can change. -/
theorem State.pixelWork_eq (s : State) :
    s.pixelWork = { s with
      status := s.pixelWork.status
      raStatus := s.pixelWork.raStatus
      paletteDirty := s.pixelWork.paletteDirty
      pipeState := s.pixelWork.pipeState
      lineBuf := s.pixelWork.lineBuf
      fillSel := s.pixelWork.fillSel
      handedOff := s.pixelWork.handedOff
      paletteLUT := s.pixelWork.paletteLUT
      videoOut := s.pixelWork.videoOut
      draws := s.pixelWork.draws } := by
  have hrow := (s.setPipe .active).rowMade_eq
  unfold State.pixelWork
  generalize (s.setPipe .active).rowMade = u at hrow ⊢
  split
  · rfl
  · rw [hrow]; rfl

theorem State.st_pixelWork (s : State) (j : StatusIndex) :
    s.pixelWork.st j =
      if j = 0 ∧ classify s.cfg s.lineY = .display then mergeSprites s.cfg s.rowFlags (s.st 0) else s.st j := by
  by_cases hvisible : isVisibleLine s.cfg s.lineY
  · rw [State.pixelWork_of_visible hvisible]
    show (s.setPipe .active).rowMade.st j = _
    rw [State.st_rowMade, (s.sameSource_setPipe .active).rowFlags]
    rfl
  · rw [State.pixelWork_of_sync hvisible, if_neg fun h => hvisible ((classify_eq_display_iff _ _).1 h.2).visible]
    rfl

theorem State.le_draws_pixelWork (s : State) : s.draws ≤ s.pixelWork.draws := by
  by_cases hvisible : isVisibleLine s.cfg s.lineY
  · rw [State.pixelWork_of_visible hvisible, State.handOff_draws, State.rowMade_eq]
    exact Nat.le_succ s.draws
  · rw [State.pixelWork_of_sync hvisible]
    exact Nat.le_refl s.draws

@[simp] theorem State.pixelWork_cfg (s : State) : s.pixelWork.cfg = s.cfg := by rw [State.pixelWork_eq]

@[simp] theorem State.pixelWork_strobes (s : State) : s.pixelWork.strobes = s.strobes := by rw [State.pixelWork_eq]

/-! ### The end of a line (R174 to R177) -/

/-- The state after the interrupt of the last active line (R175). -/
def State.endOfActive (s : State) (y : Nat) : State := if y + 1 = activeEnd s.cfg then s.raiseEndOfFrame else s

/-- The state after the frame boundary of the last display line (R161, R177). -/
def State.endOfDisplay (s : State) (y : Nat) : State :=
  if y + 1 = displayEnd s.cfg then (s.setPipe .idle).frameEnded else s

/-- The state of a line before its frame boundary. -/
def State.lineShown (s : State) : State :=
  (s.pixelWork.updateLineStatus s.lineY (classify s.cfg s.lineY)).endOfActive s.lineY

/-- The state after `LINE`. -/
def State.lineDone (s : State) : State := (s.lineShown.endOfDisplay s.lineY).nextLine s.lineY

/-- What status and interrupt of a line change. -/
theorem State.lineShown_of_pixelWork (s : State) :
    s.lineShown = { s.pixelWork with
      status := s.lineShown.status
      raStatus := s.lineShown.st s.pixelWork.statusSel
      interruptLine := s.lineShown.interruptLine } := by
  unfold State.lineShown State.endOfActive
  generalize s.pixelWork = u
  split
  · rfl
  · rfl

@[simp] theorem State.lineShown_cfg (s : State) : s.lineShown.cfg = s.cfg := by
  rw [State.lineShown_of_pixelWork]
  exact s.pixelWork_cfg

theorem endOfActive_quiet (y : Nat) {s : State} (hs : s.strobes = []) :
    onlyIf (y + 1 == activeEnd s.cfg) (guarded linePoint State.raiseEndOfFrame) s = .ok () (s.endOfActive y) := by
  rw [onlyIf_quiet (guarded_quiet linePoint_quiet _ hs)]
  simp only [beq_iff_eq]
  rfl

theorem endOfDisplay_quiet (y : Nat) {s : State} (hs : s.strobes = []) :
    onlyIf (y + 1 == displayEnd s.cfg) frameBoundary s = .ok () (s.endOfDisplay y) := by
  have hboundary : frameBoundary s = .ok () (s.setPipe .idle).frameEnded := by
    rw [frameBoundary, bg_bind_ok (bg_modify _ _)]
    exact frameEndBody_quiet hs
  rw [onlyIf_quiet hboundary]
  simp only [beq_iff_eq]
  rfl

theorem lineBody_quiet {s : State} (hs : s.strobes = []) : lineBody Config.collab s = .ok () s.lineDone := by
  have hpixels : s.pixelWork.strobes = [] := s.pixelWork_strobes.trans hs
  have hactive := endOfActive_quiet s.lineY
    (s := s.pixelWork.updateLineStatus s.lineY (classify s.cfg s.lineY)) hpixels
  have hshown : s.lineShown.strobes = [] := by
    rw [State.lineShown_of_pixelWork]
    exact hpixels
  have hdisplay := endOfDisplay_quiet s.lineY hshown
  rw [State.updateLineStatus_cfg, State.pixelWork_cfg] at hactive
  rw [State.lineShown_cfg] at hdisplay
  rw [lineBody, lineAt, bg_bind_ok (linePixelWork_quiet hs), bg_bind_ok (guarded_quiet linePoint_quiet _ hpixels),
    bg_bind_ok hactive]
  exact bg_bind_ok hdisplay

theorem execLine_quiet {s : State} (hs : s.quiet) : exec .line s = .next s.lineDone := runBg_ok (lineBody_quiet hs)

/-! ### The frame boundary inside a line -/

/-- The frame boundary is run on the last display line. -/
theorem State.lineDone_of_last {s : State} (h : isLastDisplay s.cfg s.lineY) :
    s.lineDone = (s.lineShown.setPipe .idle).frameEnded.nextLine s.lineY := by
  have hlast : s.lineY + 1 = displayEnd s.lineShown.cfg := s.lineShown_cfg ▸ h
  rw [State.lineDone, State.endOfDisplay, if_pos hlast]

/-- No other line runs it. -/
theorem State.lineDone_of_not_last {s : State} (h : ¬ isLastDisplay s.cfg s.lineY) :
    s.lineDone = s.lineShown.nextLine s.lineY := by
  have hlast : ¬ s.lineY + 1 = displayEnd s.lineShown.cfg := s.lineShown_cfg ▸ h
  rw [State.lineDone, State.endOfDisplay, if_neg hlast]

/-- What the part of a line after its pixel work can change: nothing of rows, palette or trace. -/
theorem State.lineDone_of_pixelWork (s : State) :
    s.lineDone = { s.pixelWork with
      status := s.lineDone.status
      raStatus := s.lineDone.st s.pixelWork.statusSel
      interruptLine := s.lineShown.interruptLine
      configDirty := s.lineDone.configDirty
      coprocessorRequested := s.lineDone.coprocessorRequested
      lineY := (s.lineY + 1) % s.cfg.linesPerFrame
      pipeState := s.lineDone.pipeState
      configPage := s.lineDone.configPage
      coprocBegun := false
      draws := s.lineDone.draws } := by
  have hshown := s.lineShown_of_pixelWork
  have hended := (s.lineShown.setPipe .idle).frameEnded_eq
  have hcfg := s.pixelWork_cfg
  by_cases hlast : isLastDisplay s.cfg s.lineY
  · rw [State.lineDone_of_last hlast]
    generalize (s.lineShown.setPipe .idle).frameEnded = t at hended ⊢
    generalize s.lineShown = u at hshown hended ⊢
    rw [hended, hshown, ← hcfg]
    rfl
  · rw [State.lineDone_of_not_last hlast]
    generalize s.lineShown = u at hshown ⊢
    rw [hshown, ← hcfg]
    rfl

/-- What a whole line can change. -/
theorem State.lineDone_eq (s : State) :
    s.lineDone = { s with
      status := s.lineDone.status
      raStatus := s.lineDone.st s.statusSel
      interruptLine := s.lineDone.interruptLine
      paletteDirty := s.lineDone.paletteDirty
      configDirty := s.lineDone.configDirty
      coprocessorRequested := s.lineDone.coprocessorRequested
      lineY := (s.lineY + 1) % s.cfg.linesPerFrame
      pipeState := s.lineDone.pipeState
      lineBuf := s.lineDone.lineBuf
      fillSel := s.lineDone.fillSel
      handedOff := s.lineDone.handedOff
      paletteLUT := s.lineDone.paletteLUT
      videoOut := s.lineDone.videoOut
      configPage := s.lineDone.configPage
      coprocBegun := false
      draws := s.lineDone.draws } := by
  have hdone := s.lineDone_of_pixelWork
  have hpixels := s.pixelWork_eq
  generalize s.lineDone = t at hdone ⊢
  generalize s.pixelWork = u at hdone hpixels
  rw [hdone, hpixels]
  rfl

/-! ### What a line shows (R166 to R172) -/

@[simp] theorem State.lineDone_cfg (s : State) : s.lineDone.cfg = s.cfg := by rw [State.lineDone_eq]

@[simp] theorem State.lineDone_x (s : State) (i : RegIndex) : s.lineDone.x i = s.x i := by
  rw [State.lineDone_eq]
  rfl

@[simp] theorem State.lineDone_paletteDirty (s : State) : s.lineDone.paletteDirty = s.pixelWork.paletteDirty := by
  rw [State.lineDone_of_pixelWork]

@[simp] theorem State.lineDone_paletteLUT (s : State) : s.lineDone.paletteLUT = s.pixelWork.paletteLUT := by
  rw [State.lineDone_of_pixelWork]

@[simp] theorem State.lineDone_lineBuf (s : State) : s.lineDone.lineBuf = s.pixelWork.lineBuf := by
  rw [State.lineDone_of_pixelWork]

@[simp] theorem State.lineDone_fillSel (s : State) : s.lineDone.fillSel = s.pixelWork.fillSel := by
  rw [State.lineDone_of_pixelWork]

@[simp] theorem State.lineDone_handedOff (s : State) : s.lineDone.handedOff = s.pixelWork.handedOff := by
  rw [State.lineDone_of_pixelWork]

@[simp] theorem State.lineDone_videoOut (s : State) : s.lineDone.videoOut = s.pixelWork.videoOut := by
  rw [State.lineDone_of_pixelWork]

/-- What a line outside `SYNC` makes of buffers, palette and trace. -/
theorem State.pixelWork_of_visible_eq {s : State} (h : isVisibleLine s.cfg s.lineY) :
    s.pixelWork = { s with
      status := s.pixelWork.status
      raStatus := s.pixelWork.raStatus
      paletteDirty := false
      pipeState := .active
      lineBuf := s.lineBuf.set s.fillSel.val s.shownPixels s.fillSel.isLt
      fillSel := 1 - s.fillSel
      handedOff := some s.fillSel
      paletteLUT := (s.setPipe .active).paletteChecked.paletteLUT
      videoOut := s.videoOut ++ [(s.lineY, s.shownPixels)]
      draws := s.draws + 1 } := by
  have hrow := (s.setPipe .active).rowMade_eq
  rw [State.pixelWork_of_visible h]
  generalize (s.setPipe .active).rowMade = u at hrow ⊢
  rw [hrow]
  rfl

theorem State.lineDone_videoOut_of_visible {s : State} (h : isVisibleLine s.cfg s.lineY) :
    s.lineDone.videoOut = s.videoOut ++ [(s.lineY, s.shownPixels)] := by
  rw [State.lineDone_videoOut, State.pixelWork_of_visible_eq h]

theorem State.lineDone_lineBuf_of_visible {s : State} (h : isVisibleLine s.cfg s.lineY) :
    s.lineDone.lineBuf = s.lineBuf.set s.fillSel.val s.shownPixels s.fillSel.isLt := by
  rw [State.lineDone_lineBuf, State.pixelWork_of_visible_eq h]

theorem State.lineDone_paletteDirty_of_visible {s : State} (h : isVisibleLine s.cfg s.lineY) :
    s.lineDone.paletteDirty = false := by
  rw [State.lineDone_paletteDirty, State.pixelWork_of_visible_eq h]

theorem State.getElem_lineDone_paletteLUT {s : State} (h : isVisibleLine s.cfg s.lineY) (i : Nat) (hi : i < 64) :
    s.lineDone.paletteLUT[i] = s.lineEntry i hi := by
  have htable : s.lineDone.paletteLUT = (s.setPipe .active).paletteChecked.paletteLUT := by
    rw [State.lineDone_paletteLUT, State.pixelWork_of_visible_eq h]
  simp only [htable]
  exact (s.setPipe .active).getElem_paletteChecked i hi

@[simp] theorem length_basePixels (s : State) : s.basePixels.length = s.cfg.linePixels := by
  unfold State.basePixels convertRow
  split
  · simp
  · simp

theorem length_shownPixels (s : State) : s.shownPixels.length = s.cfg.linePixels := by
  unfold State.shownPixels shownRow
  split_ifs <;> simp

theorem ne_other_buffer : ∀ b : Fin 2, b.val ≠ (1 - b).val := by decide

/-- A border row is one pixel over and over. -/
theorem State.basePixels_of_border {s : State} (h : ¬ isDisplayLine s.cfg s.lineY) (hi : s.borderIndex < 64) :
    s.basePixels = List.replicate s.cfg.linePixels (s.lineEntry s.borderIndex hi) := by
  have hpixel : ∀ p, borderPixel p s.paletteChecked = s.lineEntry s.borderIndex hi := fun p => by
    rw [borderPixel_paletteChecked, indexedPixel_of_lt s p hi hi]
  rw [State.basePixels, if_neg (mt (classify_eq_display_iff _ _).1 h)]
  simp only [hpixel, List.map_const', List.length_range]

/-- A pixel of a display row is that of its colour index. -/
theorem State.getElem?_basePixels_of_display {s : State} (h : isDisplayLine s.cfg s.lineY) {p : Nat}
    (hp : p < s.cfg.linePixels) :
    s.basePixels[p]? = some (indexedPixel s.paletteChecked s.paletteEntries p
      (Config.collab.scanIndex s.rowNumber s.rowAnswers p)) := by
  rw [State.basePixels, if_pos ((classify_eq_display_iff _ _).2 h), convertRow, State.paletteChecked_cfg,
    List.getElem?_map, List.getElem?_range hp]
  rfl

/-- Every selection gives at least the sixteen entries that a border can select. -/
theorem sixteen_le_selectedSize (x : RegIndex → Byte) (sel : PalSizeSel) : 16 ≤ selectedSize x sel := by
  induction sel with
  | size16 => exact Nat.le_refl 16
  | size64 => exact Nat.le_add_right 16 48
  | test i mask value same other ihSame ihOther =>
    unfold selectedSize
    split
    · exact ihSame
    · exact ihOther

/-! ### The status bytes of a line (R174 to R179) -/

/-- What merging leaves under a mask that has no index bits. -/
theorem mergeSprites_and {c : Config} {m : Byte} (h : c.stIdx &&& m = 0) (f : SpriteFlags) (v : Byte) :
    mergeSprites c f v &&& m = (v ||| (f.orMask &&& (c.st5S ||| c.stCol))) &&& m := by
  unfold mergeSprites
  cases f.idxOpt with
  | none => rfl
  | some i => exact (and_or_of_disjoint (and_and_of_disjoint h)).trans (and_not_of_disjoint h)

/-- What merging leaves in the index field. -/
theorem mergeSprites_and_idx {c : Config} (hc : LineFacts c) (f : SpriteFlags) (v : Byte) :
    mergeSprites c f v &&& c.stIdx = (match f.idxOpt with
      | some i => i &&& c.stIdx
      | none => v &&& c.stIdx) := by
  have hflags : (c.st5S ||| c.stCol) &&& c.stIdx = 0 := by
    rw [and_or_of_disjoint hc.col_idx, hc.spr5_idx]
  unfold mergeSprites
  cases f.idxOpt with
  | none => exact and_or_of_disjoint (and_and_of_disjoint hflags)
  | some i =>
    dsimp only
    rw [BitVec.and_or_distrib_right, and_not_self_mask, BitVec.and_assoc, BitVec.and_self]
    exact BitVec.zero_or

/-- A register other than `status[0]` before the frame boundary: blanking flag and scanline number are new. -/
theorem State.st_lineShown {s : State} (hc : LineFacts s.cfg) {j : StatusIndex} (hj : j ≠ 0) :
    s.lineShown.st j =
      if j = s.cfg.srBlank then blankByte s.cfg (classify s.cfg s.lineY) (s.st s.cfg.srBlank)
      else if j = s.cfg.srScanline then scanlineByte s.cfg s.lineY
      else s.st j := by
  have hpixels : ∀ i : StatusIndex, i ≠ 0 → s.pixelWork.st i = s.st i := fun i hi => by
    rw [State.st_pixelWork, if_neg fun h => hi h.1]
  have hactive : ∀ u : State, (u.endOfActive s.lineY).st j = u.st j := fun u => by
    unfold State.endOfActive
    split
    · rw [State.st_raiseEndOfFrame, if_neg hj]
    · rfl
  rw [State.lineShown, hactive, State.st_updateLineStatus, State.pixelWork_cfg, if_neg hc.blank_ne_scanline,
    hpixels _ hc.blank_ne_zero, hpixels j hj]

/-- Number and flag of the line leave `status[0]`. -/
theorem State.st_updateLineStatus_zero {s : State} (hc : LineFacts s.cfg) (y : Nat) (r : Region) :
    (s.updateLineStatus y r).st 0 = s.st 0 := by
  rw [State.st_updateLineStatus, if_neg hc.blank_ne_zero.symm, if_neg hc.scanline_ne_zero.symm]

/-- The last active line raises its interrupt on top of the sprite flags. -/
theorem State.lineShown_of_lastActive {s : State} (h : isLastActive s.cfg s.lineY) :
    s.lineShown = (s.pixelWork.updateLineStatus s.lineY (classify s.cfg s.lineY)).raiseEndOfFrame :=
  if_pos (show s.lineY + 1 = activeEnd s.pixelWork.cfg from s.pixelWork_cfg.symm ▸ h)

theorem State.lineShown_of_not_lastActive {s : State} (h : ¬ isLastActive s.cfg s.lineY) :
    s.lineShown = s.pixelWork.updateLineStatus s.lineY (classify s.cfg s.lineY) :=
  if_neg (show ¬ s.lineY + 1 = activeEnd s.pixelWork.cfg from s.pixelWork_cfg.symm ▸ h)

theorem State.st_zero_lineShown_of_lastActive {s : State} (hc : LineFacts s.cfg) (h : isLastActive s.cfg s.lineY) :
    s.lineShown.st 0 = s.pixelWork.st 0 ||| s.cfg.stInt := by
  rw [State.lineShown_of_lastActive h, State.st_raiseEndOfFrame, if_pos rfl, State.updateLineStatus_cfg,
    State.st_updateLineStatus_zero (s.pixelWork_cfg.symm ▸ hc), State.pixelWork_cfg]

theorem State.st_zero_lineShown_of_not_lastActive {s : State} (hc : LineFacts s.cfg)
    (h : ¬ isLastActive s.cfg s.lineY) : s.lineShown.st 0 = s.pixelWork.st 0 := by
  rw [State.lineShown_of_not_lastActive h, State.st_updateLineStatus_zero (s.pixelWork_cfg.symm ▸ hc)]

/-- Outside the pending bit, `status[0]` before the frame boundary is what the sprite flags make of it. -/
theorem State.st_zero_lineShown_and {s : State} (hc : LineFacts s.cfg) {m : Byte} (hm : s.cfg.stInt &&& m = 0) :
    s.lineShown.st 0 &&& m = s.pixelWork.st 0 &&& m := by
  by_cases h : isLastActive s.cfg s.lineY
  · rw [State.st_zero_lineShown_of_lastActive hc h]
    exact and_or_of_disjoint hm
  · rw [State.st_zero_lineShown_of_not_lastActive hc h]

theorem State.frameBit_lineShown (s : State) : (s.lineShown.setPipe .idle).frameBit = s.frameBit := by
  have hpixels := s.pixelWork_eq
  have hshown := s.lineShown_of_pixelWork
  generalize s.lineShown = t at hshown ⊢
  generalize s.pixelWork = u at hpixels hshown
  rw [hshown, hpixels]
  rfl

/-- The frame boundary adds the temperature sample and, with the frame bit, the busy bits. -/
theorem State.st_lineDone_of_last {s : State} (hc : LineFacts s.cfg) (h : isLastDisplay s.cfg s.lineY)
    (j : StatusIndex) :
    s.lineDone.st j =
      if j = s.cfg.srTemp then Config.tempSample s.lineShown.draws
      else if j = s.cfg.srBusy ∧ s.frameBit = true then s.lineShown.st s.cfg.srBusy ||| s.cfg.coprocBusyMask
      else s.lineShown.st j := by
  have hended := State.st_frameEnded (s := s.lineShown.setPipe .idle) (s.lineShown_cfg.symm ▸ hc.toConfigFacts) j
  rw [State.frameBit_lineShown, State.setPipe_cfg, State.lineShown_cfg] at hended
  rw [State.lineDone_of_last h]
  exact hended

theorem State.st_lineDone_of_not_last {s : State} (h : ¬ isLastDisplay s.cfg s.lineY) (j : StatusIndex) :
    s.lineDone.st j = s.lineShown.st j := by
  rw [State.lineDone_of_not_last h]
  rfl

/-- What the frame boundary leaves: every register but the temperature, and the busy register but its bits. -/
theorem State.st_lineDone_and {s : State} (hc : LineFacts s.cfg) {j : StatusIndex} {m : Byte} (htemp : j ≠ s.cfg.srTemp)
    (hbusy : j = s.cfg.srBusy → m &&& s.cfg.coprocBusyMask = 0) : s.lineDone.st j &&& m = s.lineShown.st j &&& m := by
  by_cases hlast : isLastDisplay s.cfg s.lineY
  · rw [State.st_lineDone_of_last hc hlast, if_neg htemp]
    split
    · next h =>
      rw [and_or_of_disjoint (and_eq_zero_comm (hbusy h.1)), h.1]
    · rfl
  · rw [State.st_lineDone_of_not_last hlast]

theorem State.st_lineDone {s : State} (hc : LineFacts s.cfg) {j : StatusIndex} (htemp : j ≠ s.cfg.srTemp)
    (hbusy : j ≠ s.cfg.srBusy) : s.lineDone.st j = s.lineShown.st j := by
  have h := State.st_lineDone_and hc (m := BitVec.allOnes 8) htemp fun e => absurd e hbusy
  rwa [BitVec.and_allOnes, BitVec.and_allOnes] at h

theorem State.st_zero_lineDone {s : State} (hc : LineFacts s.cfg) : s.lineDone.st 0 = s.lineShown.st 0 :=
  State.st_lineDone hc hc.temp_ne_zero.symm hc.busy_ne_zero.symm

theorem State.st_zero_pixelWork_of_display {s : State} (h : isDisplayLine s.cfg s.lineY) :
    s.pixelWork.st 0 = mergeSprites s.cfg s.rowFlags (s.st 0) := by
  rw [State.st_pixelWork, if_pos ⟨rfl, (classify_eq_display_iff _ _).2 h⟩]

/-- Only a display line has sprite flags to merge. -/
theorem State.st_zero_pixelWork_of_not_display {s : State} (h : ¬ isDisplayLine s.cfg s.lineY) :
    s.pixelWork.st 0 = s.st 0 := by
  rw [State.st_pixelWork, if_neg fun e => h ((classify_eq_display_iff _ _).1 e.2)]

/-- Sprite flags or none, the pending bit stays. -/
theorem State.st_zero_pixelWork_and_int {s : State} (hc : ConfigFacts s.cfg) :
    s.pixelWork.st 0 &&& s.cfg.stInt = s.st 0 &&& s.cfg.stInt := by
  by_cases h : isDisplayLine s.cfg s.lineY
  · rw [State.st_zero_pixelWork_of_display h]
    exact mergeSprites_and_int hc _ _
  · rw [State.st_zero_pixelWork_of_not_display h]

/-- The interrupt line after a line that is not the last active one. -/
theorem State.lineDone_interruptLine {s : State} (h : ¬ isLastActive s.cfg s.lineY) :
    s.lineDone.interruptLine = s.interruptLine := by
  rw [State.lineDone_of_pixelWork]
  show s.lineShown.interruptLine = _
  rw [State.lineShown_of_not_lastActive h, State.updateLineStatus_interruptLine, State.pixelWork_eq]

/-- The interrupt line after the last active line, from the status file that line leaves. -/
theorem State.lineDone_agrees {s : State} (hc : LineFacts s.cfg) (h : isLastActive s.cfg s.lineY) :
    s.lineDone.interruptLine = s.lineDone.pendingAndEnabled := by
  have hshown : s.lineShown.lineAgrees := by
    rw [State.lineShown_of_lastActive h]
    exact (State.raiseEndOfFrame_agrees _).1
  have hline : s.lineDone.interruptLine = s.lineShown.interruptLine := by rw [State.lineDone_of_pixelWork]
  have hregs : s.lineShown.x s.cfg.ieReg = s.x s.cfg.ieReg := by
    rw [State.lineShown_of_pixelWork, State.pixelWork_eq]
    rfl
  unfold State.lineAgrees at hshown
  rw [State.lineShown_cfg, hregs] at hshown
  rw [← State.interruptLevel_eq, State.lineDone_cfg, State.lineDone_x, State.st_zero_lineDone hc, hline, hshown]

/-! ### The frame boundary's other fields -/

/-- What a line without the frame boundary leaves. -/
theorem State.lineDone_frame_of_not_last {s : State} (h : ¬ isLastDisplay s.cfg s.lineY) :
    s.lineDone.coprocessorRequested = s.coprocessorRequested ∧ s.lineDone.configDirty = s.configDirty ∧
    s.lineDone.configPage = s.configPage := by
  have hshown := s.lineShown_of_pixelWork
  have hpixels := s.pixelWork_eq
  rw [State.lineDone_of_not_last h]
  generalize s.lineShown = t at hshown ⊢
  generalize s.pixelWork = u at hpixels hshown
  rw [hshown, hpixels]
  exact ⟨rfl, rfl, rfl⟩

/-- What the frame boundary makes of request, flag and page. -/
theorem State.lineDone_boundary_of_last {s : State} (h : isLastDisplay s.cfg s.lineY) :
    s.lineDone.coprocessorRequested = (s.coprocessorRequested || s.frameBit) ∧ s.lineDone.configDirty = false ∧
    (s.configDirty = false → s.lineDone.configPage = s.configPage) := by
  have hbit := s.frameBit_lineShown
  have hended := (s.lineShown.setPipe .idle).frameEnded_eq
  have hpage := State.frameEnded_page (s := s.lineShown.setPipe .idle)
  obtain ⟨hrequest, hdirty, hkept⟩ : s.lineShown.coprocessorRequested = s.coprocessorRequested ∧
      s.lineShown.configDirty = s.configDirty ∧ s.lineShown.configPage = s.configPage := by
    rw [State.lineShown_of_pixelWork, State.pixelWork_eq]
    exact ⟨rfl, rfl, rfl⟩
  rw [State.lineDone_of_last h]
  refine ⟨?_, ?_, fun hclean => (hpage (hdirty.trans hclean)).trans hkept⟩
  · rw [hended, hbit, ← hrequest]
    rfl
  · rw [hended]
    rfl

/-- The sample's number lies among the draws of the line. -/
theorem State.draws_of_last {s : State} (h : isLastDisplay s.cfg s.lineY) :
    s.draws ≤ s.lineShown.draws ∧ s.lineShown.draws < s.lineDone.draws := by
  refine ⟨?_, ?_⟩
  · rw [State.lineShown_of_pixelWork]
    exact s.le_draws_pixelWork
  · rw [State.lineDone_of_last h]
    exact (s.lineShown.setPipe .idle).draws_lt_frameEnded

theorem State.lineDone_pipeState {s : State} (hvisible : isVisibleLine s.cfg s.lineY)
    (hlast : ¬ isLastDisplay s.cfg s.lineY) : s.lineDone.pipeState = .active := by
  rw [State.lineDone_of_not_last hlast, State.nextLine_pipeState, State.lineShown_of_pixelWork,
    State.pixelWork_of_visible_eq hvisible]

theorem State.lineDone_pipeState_idle {s : State} (h : ¬ isVisibleLine s.cfg s.lineY ∨ isLastDisplay s.cfg s.lineY) :
    s.lineDone.pipeState = .idle := by
  by_cases hlast : isLastDisplay s.cfg s.lineY
  · rw [State.lineDone_of_last hlast, State.nextLine_pipeState, State.frameEnded_eq]
    rfl
  · rw [State.lineDone_of_not_last hlast, State.nextLine_pipeState, State.lineShown_of_pixelWork,
      State.pixelWork_of_sync (h.resolve_right hlast)]
    rfl

/-- A register and mask that no rule of the line names. -/
theorem State.st_lineDone_unnamed {s : State} (hc : LineFacts s.cfg) {j : StatusIndex} {m : Byte} (hj : j ≠ 0)
    (hscan : j ≠ s.cfg.srScanline) (htemp : j ≠ s.cfg.srTemp) (hblank : j = s.cfg.srBlank → m &&& s.cfg.blankMask = 0)
    (hbusy : j = s.cfg.srBusy → m &&& s.cfg.coprocBusyMask = 0) : s.lineDone.st j &&& m = s.st j &&& m := by
  rw [State.st_lineDone_and hc htemp hbusy, State.st_lineShown hc hj, if_neg hscan]
  split
  · next h => rw [blankByte_and_of_disjoint (and_eq_zero_comm (hblank h)), h]
  · rfl

/-! ### The statements about a line -/

/-- Settles O31: the row is the shown one. -/
theorem lineHandsOff : Obligations.LineHandsOff := by
  intro s hs hvalid
  refine ⟨s.lineDone, execLine_quiet hs, fun hvisible => ?_, fun hsync => ?_⟩
  · simp only [State.lineDone_lineBuf_of_visible hvisible, State.lineDone_handedOff, State.lineDone_fillSel]
    refine ⟨s.shownPixels, length_shownPixels s, State.lineDone_videoOut_of_visible hvisible, ?_, ?_, ?_⟩
    · exact Vector.getElem_set_self s.fillSel.isLt
    · exact Vector.getElem_set_ne _ _ (ne_other_buffer s.fillSel)
    · rw [State.pixelWork_of_visible_eq hvisible]
      exact ⟨rfl, rfl⟩
  · simp only [State.lineDone_videoOut, State.lineDone_lineBuf, State.lineDone_handedOff, State.lineDone_fillSel,
      State.lineDone_paletteLUT, State.lineDone_paletteDirty, State.pixelWork_of_sync hsync]
    exact ⟨rfl, rfl, rfl, rfl, rfl, rfl⟩

/-- Settles O32: every pixel shows the one entry. -/
theorem borderLine : Obligations.BorderLine := by
  intro s hi hs hvalid hvisible hborder
  refine ⟨s.lineDone, execLine_quiet hs, ?_, State.lineDone_paletteDirty_of_visible hvisible,
    State.getElem_lineDone_paletteLUT hvisible⟩
  rw [State.lineDone_videoOut_of_visible hvisible, State.shownPixels, State.basePixels_of_border hborder hi]
  rfl

/-- Settles O33: pixel by pixel by the generator's index, `status[0]` by its sprite flags. -/
theorem displayLine : Obligations.DisplayLine := by
  intro s hs hvalid hdisplay
  have hc := lineFacts hvalid
  have hvisible := hdisplay.visible
  have hint : s.cfg.stInt &&& (s.cfg.st5S ||| s.cfg.stCol) = 0 := by
    rw [BitVec.and_or_distrib_left, hc.int_5S, hc.int_col]
    exact BitVec.or_zero
  have hidx : s.cfg.stIdx &&& (s.cfg.st5S ||| s.cfg.stCol) = 0 := by
    rw [BitVec.and_or_distrib_left, and_eq_zero_comm hc.spr5_idx, and_eq_zero_comm hc.col_idx]
    exact BitVec.or_zero
  have hst : ∀ m, s.cfg.stInt &&& m = 0 →
      s.lineDone.st 0 &&& m = mergeSprites s.cfg s.rowFlags (s.st 0) &&& m := fun m hm => by
    rw [State.st_zero_lineDone hc, State.st_zero_lineShown_and hc hm, State.st_zero_pixelWork_of_display hdisplay]
  refine ⟨s.lineDone, s.basePixels, execLine_quiet hs, State.lineDone_videoOut_of_visible hvisible,
    length_basePixels s, fun p hp hlt hn => ?_, fun p hp hn => ?_, State.lineDone_paletteDirty_of_visible hvisible,
    State.getElem_lineDone_paletteLUT hvisible, ?_, ?_⟩
  · exact (State.getElem?_basePixels_of_display hdisplay hp).trans (congrArg some (indexedPixel_of_lt s p hlt hn))
  · exact (State.getElem?_basePixels_of_display hdisplay hp).trans
      (congrArg some (indexedPixel_of_ge s p fun h => Nat.not_lt.2 hn h.2))
  · exact (hst _ hint).trans (mergeSprites_and hidx _ _)
  · exact (hst _ hc.int_idx).trans (mergeSprites_and_idx hc _ _)

/-- Settles O34: with both palettes dirty, every entry that a line can show is rebuilt from the same bytes. -/
theorem renderingIsDeterministic : Obligations.RenderingIsDeterministic := by
  intro s u hs hu hvalid hvisible hcfg hregs hvram hline hdraws hsdirty hudirty hborder
  have hsame : SameSource s u := ⟨hcfg, hregs, hvram, hline⟩
  have htable : ∀ (i : Nat) (hi : i < 64), i < s.paletteEntries ∨ i = s.borderIndex →
      s.lineEntry i hi = u.lineEntry i hi := fun i hi hshown => by
    have hn : i < s.paletteEntries :=
      hshown.elim id fun e => e ▸ lt_of_lt_of_le hborder (sixteen_le_selectedSize s.x s.cfg.palSizeSel)
    rw [State.lineEntry, State.lineEntry, if_pos hsdirty, if_pos hudirty, hsame.rebuiltEntry hi hn]
  have hrow : u.shownPixels = s.shownPixels := by
    rw [State.shownPixels, State.shownPixels, hsame.basePixels hdraws htable, hcfg, hline]
  refine ⟨s.lineDone, u.lineDone, s.shownPixels, execLine_quiet hs, execLine_quiet hu,
    State.lineDone_videoOut_of_visible hvisible, ?_⟩
  rw [State.lineDone_videoOut_of_visible (hcfg ▸ hline ▸ hvisible), hrow, hline]

/-- Settles O30: the last active line alone sets the pending bit. -/
theorem endOfFrameInterrupt : Obligations.EndOfFrameInterrupt := by
  intro s hs hvalid
  have hc := lineFacts hvalid
  refine ⟨s.lineDone, execLine_quiet hs, fun hactive => ⟨?_, State.lineDone_agrees hc hactive⟩,
    fun hactive => ⟨?_, State.lineDone_interruptLine hactive⟩, fun hdisplay => ?_⟩
  · rw [State.st_zero_lineDone hc, State.st_zero_lineShown_of_lastActive hc hactive]
    exact or_and_self_mask _ _
  · rw [State.st_zero_lineDone hc, State.st_zero_lineShown_of_not_lastActive hc hactive]
    exact State.st_zero_pixelWork_and_int hc.toConfigFacts
  · rw [State.st_zero_lineDone hc, State.st_zero_lineShown_and hc (BitVec.and_not_self _),
      State.st_zero_pixelWork_of_not_display hdisplay]

/-- Settles O29: scanline number and blanking flag on every line, the frame boundary on the last display line alone. -/
theorem lineUpdatesStatus : Obligations.LineUpdatesStatus := by
  intro s hs hvalid
  have hc := lineFacts hvalid
  have hblank : s.lineDone.st s.cfg.srBlank &&& s.cfg.blankMask =
      blankByte s.cfg (classify s.cfg s.lineY) (s.st s.cfg.srBlank) &&& s.cfg.blankMask := by
    rw [State.st_lineDone_and hc hc.blank_ne_temp hc.blank_busy, State.st_lineShown hc hc.blank_ne_zero, if_pos rfl]
  have hbusy : s.lineShown.st s.cfg.srBusy &&& s.cfg.coprocBusyMask =
      s.st s.cfg.srBusy &&& s.cfg.coprocBusyMask := by
    rw [State.st_lineShown hc hc.busy_ne_zero, if_neg hc.scanline_ne_busy.symm]
    split
    · next h => rw [blankByte_and_of_disjoint (hc.blank_busy h.symm), h]
    · rfl
  refine ⟨s.lineDone, execLine_quiet hs, s.lineDone_eq, ?_, fun hdisplay => ?_, fun hdisplay => ?_,
    State.lineDone_pipeState, State.lineDone_pipeState_idle, fun hlast => ?_, fun hlast => ?_,
    fun j m hj hscan htemp => State.st_lineDone_unnamed hc hj hscan htemp⟩
  · rw [State.st_lineDone hc hc.scanline_ne_temp hc.scanline_ne_busy, State.st_lineShown hc hc.scanline_ne_zero,
      if_neg hc.blank_ne_scanline.symm, if_pos rfl]
    rfl
  · rw [hblank, blankByte, if_pos ((classify_eq_display_iff _ _).2 hdisplay)]
    exact and_not_self_mask _ _
  · rw [hblank, blankByte, if_neg (mt (classify_eq_display_iff _ _).1 hdisplay)]
    exact or_and_self_mask _ _
  · obtain ⟨hrequest, hclean, hpage⟩ := State.lineDone_boundary_of_last hlast
    obtain ⟨hfirst, hdrawn⟩ := State.draws_of_last hlast
    refine ⟨hrequest, ?_, ⟨s.lineShown.draws, hfirst, hdrawn, ?_⟩, hclean, hpage⟩
    · rw [State.st_lineDone_of_last hc hlast, if_neg hc.temp_ne_busy.symm]
      simp only [true_and, s.frameBit_iff, ite_not]
      split
      · exact hbusy
      · exact or_and_self_mask _ _
    · rw [State.st_lineDone_of_last hc hlast, if_pos rfl]
  · obtain ⟨hrequest, hdirty, hpage⟩ := State.lineDone_frame_of_not_last hlast
    simp only [State.st_lineDone_of_not_last hlast]
    refine ⟨hrequest, hbusy, ?_, hdirty, hpage⟩
    rw [State.st_lineShown hc hc.temp_ne_zero, if_neg hc.blank_ne_temp.symm, if_neg hc.scanline_ne_temp.symm]

end Sys2Proof.Machine

/-! PROOFS. The coprocessor sandbox (spec/43_coprocessor_sandbox.md R191 to R200, spec/60_exceptions.md R258) with nothing
interleaved: a run up to its accesses, what follows each outcome, events that are not enabled, and the statements about
them. -/

namespace Sys2Proof.Machine

/-! ### The interpreter's accesses (R196) -/

/-- The accesses at the head of the script change video memory as the view says, and are used up; the rest of the script
goes on from there. -/
theorem interpret_accesses (k : Collaborators) {acts : List CoprocAction} (hacts : ∀ x ∈ acts, x.isAccess = true)
    (rest : List CoprocAction) {s : State} (hs : s.strobes = []) (hscript : s.coprocScript = acts ++ rest) :
    ∃ m, interpret k (acts ++ rest) s = interpret k rest { s with vram := m, coprocScript := rest } ∧
      ({ s with vram := m } : State).memRead = View.actions (vramSize s.cfg) s.memRead acts := by
  induction acts generalizing s with
  | nil => exact ⟨s.vram, congrArg (fun l => interpret k rest (s.withScript l)) hscript, rfl⟩
  | cons x acts ih =>
    obtain ⟨hx, htail⟩ := List.forall_mem_cons.1 hacts
    cases x with
    | read a =>
      obtain ⟨m, hrun, hview⟩ := ih htail (s := s.withScript (acts ++ rest)) hs rfl
      refine ⟨m, ?_, hview⟩
      rw [List.cons_append, interpret, bg_bind_ok (guarded_quiet (workPoint_quiet k) _ hs), hrun]
      rfl
    | write a v =>
      obtain ⟨m, hrun, hview⟩ := ih htail (s := (s.memWrite a v).withScript (acts ++ rest)) hs rfl
      refine ⟨m, ?_, ?_⟩
      · rw [List.cons_append, interpret, bg_bind_ok (guarded_quiet (workPoint_quiet k) _ hs), hrun]
        rfl
      · rw [View.actions, ← State.memRead_memWrite_view]
        exact hview
    | halted pc => cases hx
    | faulted => cases hx

/-! ### One opportunity (R193) -/

/-- The state in which an opportunity interprets: protection on, and a run begun since the last `LINE` where it begins
one (R193, R194). -/
def State.inRun (s : State) : State := { s with protActive := true, coprocBegun := s.coprocBegun || !s.protActive }

/-- The state of a run in progress: what its accesses have made of video memory, and the script still to come. -/
def State.midRun (s : State) (m : Mem) (rest : List CoprocAction) : State :=
  { s.inRun with vram := m, coprocScript := rest }

theorem coprocEnabled_eq_true {s : State} (hrequest : s.coprocessorRequested = true)
    (hopen : s.protActive = true ∨ s.coprocBegun = false) : coprocEnabled s = true := by
  rw [coprocEnabled, hrequest]
  obtain hprot | hbegun := hopen
  · rw [hprot]; rfl
  · rw [hbegun]; exact Bool.or_true _

theorem State.beginRun_eq_inRun {s : State} (h : s.protActive = false) : s.beginRun = s.inRun := by
  rw [State.inRun, h, Bool.not_false, Bool.or_true]; rfl

theorem State.inRun_of_protActive {s : State} (h : s.protActive = true) : s.inRun = s := by
  rw [State.inRun, h, Bool.not_true, Bool.or_false, ← h]

/-- A run that begins and a run that goes on interpret alike. -/
theorem coprocRunBody_eq (k : Collaborators) (s : State) :
    coprocRunBody k s = (interpret k s.coprocScript >>= onOutcome k) s.inRun := by
  have hstart : onlyIf (!s.protActive) (modify State.beginRun) s = .ok () s.inRun := by
    cases hprot : s.protActive with
    | false => exact congrArg (EStateM.Result.ok ()) (State.beginRun_eq_inRun hprot)
    | true => exact congrArg (EStateM.Result.ok ()) (State.inRun_of_protActive hprot).symm
  exact bg_bind_ok hstart

/-- An open opportunity makes the accesses at the head of the script; what the rest of the script does follows. -/
theorem exec_coprocRun_accesses {s : State} {acts rest : List CoprocAction} (hs : s.quiet)
    (hrequest : s.coprocessorRequested = true) (hopen : s.protActive = true ∨ s.coprocBegun = false)
    (hscript : s.coprocScript = acts ++ rest) (hacts : ∀ x ∈ acts, x.isAccess = true) :
    ∃ m, exec .coprocRun s =
        runBg (interpret Config.collab rest >>= onOutcome Config.collab) (s.midRun m rest) ∧
      ({ s with vram := m } : State).memRead = View.actions (vramSize s.cfg) s.memRead acts := by
  obtain ⟨m, hrun, hview⟩ := interpret_accesses Config.collab hacts rest (s := s.inRun) hs hscript
  refine ⟨m, ?_, hview⟩
  show runBg (onlyIf (coprocEnabled s) (coprocRunBody Config.collab)) s = _
  rw [coprocEnabled_eq_true hrequest hopen, onlyIf_true, runBg_next, coprocRunBody_eq, runBg_next, bg_bind, bg_bind,
    hscript, hrun]
  rfl

/-! ### What follows an outcome (R197, R198, R200) -/

section quiet
variable (k : Collaborators) {s : State} (hs : s.strobes = [])
include hs

/-- The check of the signalling window: nothing but video memory changes, and that only where a transfer is pending. -/
theorem bulkIfPending_quiet : ∃ m, bulkIfPending k s = .ok () { s with vram := m } ∧
    ({ s with vram := m } : State).memRead = View.bulkIfPending s.cfg s.memRead := by
  have hcheck : bulkIfPending k s =
      onlyIf (s.memRead (s.cfg.sigBase + s.cfg.sigLayout.pending) != 0) (bulkTransferIn k s.cfg) s :=
    bg_bind_ok (bgRead_quiet (workPoint_quiet k) _ hs)
  rw [hcheck, View.bulkIfPending]
  by_cases hnone : s.memRead (s.cfg.sigBase + s.cfg.sigLayout.pending) = 0
  · rw [if_pos hnone, hnone]
    exact ⟨s.vram, rfl, rfl⟩
  · rw [if_neg hnone, bne_iff_ne.2 hnone]
    exact bulkTransfer_quiet k hs

theorem onFaulted_quiet : ∃ m, onFaulted k s = .ok () { s with protActive := false, vram := m } ∧
    ({ s with vram := m } : State).memRead = View.bulkIfPending s.cfg s.memRead :=
  bulkIfPending_quiet k (s := s.takeProtectionFault) hs

theorem onHalted_quiet (pc : Nat) :
    ∃ m, onHalted k pc s = .ok () ({ s.protDisable.setCoprocPc pc with vram := m } : State).coprocFinish ∧
      ({ s with vram := m } : State).memRead = View.bulkIfPending s.cfg s.memRead := by
  obtain ⟨m, hbulk, hview⟩ := bulkIfPending_quiet k (s := s.protDisable.setCoprocPc pc) hs
  refine ⟨m, ?_, hview⟩
  rw [onHalted, bg_bind_ok (bg_modify _ _), bg_bind_ok (bg_modify _ _), bg_bind_ok hbulk]
  exact guarded_quiet (workPoint_quiet k) _ hs

theorem interpret_halted (pc : Nat) (rest : List CoprocAction) :
    interpret k (.halted pc :: rest) s = .ok (.halted pc) (s.withScript rest) := by
  rw [interpret, bg_bind_ok (guarded_quiet (workPoint_quiet k) _ hs)]
  rfl

theorem interpret_faulted (rest : List CoprocAction) :
    interpret k (.faulted :: rest) s = .ok .faulted (s.withScript rest) := by
  rw [interpret, bg_bind_ok (guarded_quiet (workPoint_quiet k) _ hs)]
  rfl

end quiet

/-! ### Events that are not enabled -/

theorem runBg_onlyIf_false {c : Bool} (hc : c = false) (x : Bg Unit) (s : State) : runBg (onlyIf c x) s = .next s := by
  rw [hc]; rfl

theorem coprocEnabled_eq_false {s : State}
    (h : s.coprocessorRequested = false ∨ (s.protActive = false ∧ s.coprocBegun = true)) : coprocEnabled s = false := by
  rw [coprocEnabled]
  obtain hrequest | ⟨hprot, hbegun⟩ := h
  · rw [hrequest]; rfl
  · rw [hprot, hbegun]; exact Bool.and_false _

theorem flashEnabled_eq_false {s : State} (h : ¬ s.flashReady) : flashEnabled s = false := by
  rw [← Bool.not_eq_true, flashEnabled, Bool.and_eq_true, Bool.not_eq_true']
  exact h

/-! ### The statements about the sandbox -/

/-- Settles O37: the accesses, then the close of `OnHalted` with the transfer inside it. -/
theorem runHalts : Obligations.RunHalts := by
  intro s acts rest pc hs hrequest hopen hscript hacts
  obtain ⟨m, hexec, haccesses⟩ := exec_coprocRun_accesses hs hrequest hopen hscript hacts
  obtain ⟨m', hclose, hbulk⟩ := onHalted_quiet Config.collab (s := s.midRun m rest) hs pc
  have hend := interpret_halted Config.collab (s := s.midRun m (.halted pc :: rest)) hs pc rest
  have hrun := hexec.trans (runBg_ok ((bg_bind_ok hend).trans hclose))
  exact ⟨_, hrun, rfl, State.st_coprocFinish _, congrFun (hbulk.trans (congrArg _ haccesses))⟩

/-- Settles O38: the accesses, then the fault with the transfer after it. -/
theorem runFaults : Obligations.RunFaults := by
  intro s acts rest hs hrequest hopen hscript hacts
  obtain ⟨m, hexec, haccesses⟩ := exec_coprocRun_accesses hs hrequest hopen hscript hacts
  obtain ⟨m', hfault, hbulk⟩ := onFaulted_quiet Config.collab (s := s.midRun m rest) hs
  have hend := interpret_faulted Config.collab (s := s.midRun m (.faulted :: rest)) hs rest
  have hrun := hexec.trans (runBg_ok ((bg_bind_ok hend).trans hfault))
  exact ⟨_, hrun, rfl, congrFun (hbulk.trans (congrArg _ haccesses))⟩

/-- Settles O39: the accesses are the whole script, and nothing follows. -/
theorem runGoesOn : Obligations.RunGoesOn := by
  intro s hs hrequest hopen hacts
  obtain ⟨m, hexec, haccesses⟩ := exec_coprocRun_accesses hs hrequest hopen (List.append_nil _).symm hacts
  exact ⟨_, hexec, rfl, congrFun haccesses⟩

/-- Settles O41: a step of its own on a run in progress. -/
theorem protectionFault : Obligations.ProtectionFault := by
  intro s hs hprot
  obtain ⟨m, hfault, hbulk⟩ := onFaulted_quiet Config.collab hs
  have hrun : onlyIf s.protActive (onFaulted Config.collab) s = .ok () { s with protActive := false, vram := m } := by
    rw [hprot, onlyIf_true, hfault]
  exact ⟨_, runBg_ok hrun, rfl, congrFun hbulk⟩

/-- Settles O26: the trigger's procedure, then the status latch re-armed. -/
theorem coprocessorTrigger : Obligations.CoprocessorTrigger := fun s =>
  ⟨s.coprocTriggerOp.rearmStatus, rfl, rfl, s.st_coprocTriggerOp⟩

/-- Settles O42: each event asks first whether it is enabled. -/
theorem disabledEventsDoNothing : Obligations.DisabledEventsDoNothing := by
  refine fun s => ⟨fun h => runBg_onlyIf_false (coprocEnabled_eq_false h) _ s, fun h => runBg_onlyIf_false h _ s,
    fun h => runBg_onlyIf_false ?_ _ s, fun h => runBg_onlyIf_false ?_ _ s, fun h => runBg_onlyIf_false ?_ _ s⟩
  · obtain hready | hkeyed := h
    · rw [flashEnabled_eq_false hready, Bool.false_and]
    · rw [hkeyed, Bool.not_true, Bool.and_false]
  · obtain hready | hkeyed | hread := h
    · rw [flashEnabled_eq_false hready, Bool.false_and, Bool.false_and]
    · rw [hkeyed, Bool.and_false, Bool.false_and]
    · rw [hread, Bool.and_false]
  · obtain hready | hkeyed | hread := h
    · rw [flashEnabled_eq_false hready, Bool.false_and, Bool.false_and]
    · rw [hkeyed, Bool.and_false, Bool.false_and]
    · rw [hread, Bool.not_true, Bool.and_false]

end Sys2Proof.Machine

/-! PROOFS. The slot search as a function, and the round trip of a keyed block (spec/44_flash_programmer.md R228, R230 and
R237): the slot that a write chose carries its identifier alone, so that a read finds it whatever its hint. -/

namespace Sys2Proof.Machine

/-! ### The slot search (R228) -/

/-- Settles O45: the search's three tests, in their order. -/
theorem findSlot : Obligations.FindSlot := by
  intro s hint id hid
  unfold State.findSlot
  split
  case isTrue hhint => exact ⟨hhint.1, .inl ⟨rfl, (s.slotId_eq_iff hint hid).1 hhint.2⟩⟩
  case isFalse hhint =>
    split
    next n hfound =>
      obtain ⟨hhas, hn, hlow⟩ := (s.find?_slotId_eq_some hid n).1 hfound
      exact ⟨hn, .inr (.inl ⟨fun h => hhint ⟨h.1, (s.slotId_eq_iff hint hid).2 h.2⟩, hhas, hlow⟩)⟩
    next hnone =>
      have hno := (s.find?_slotId_eq_none hid).1 hnone
      cases hfree : (List.range s.cfg.kbSlotCount).find? (fun j => s.slotId j == freeId) with
      | some n =>
        obtain ⟨hfreen, hn, hlow⟩ := (s.find?_slotId_eq_some rfl n).1 hfree
        exact ⟨hn, .inr (.inr ⟨hno, (s.slotHas_freeId n).1 hfreen, fun i hi => (s.slotHas_freeId i).not.1 (hlow i hi)⟩)⟩
      | none =>
        have hnofree := (s.find?_slotId_eq_none rfl).1 hfree
        exact fun i hi => ⟨hno i hi, (s.slotHas_freeId i).not.1 (hnofree i hi)⟩

theorem State.stagedId_length (s : State) : s.stagedId.length = 16 := by
  rw [State.stagedId, List.length_map, List.length_range]

theorem State.byteAt_stagedId (s : State) {k : Nat} (hk : k < 16) :
    byteAt s.stagedId k = s.memRead (s.cfg.stageBase + 4 + k) := by
  rw [byteAt, State.stagedId, List.getD_eq_getElem?_getD, List.getElem?_map, List.getElem?_range hk]
  rfl

/-- A slot that carries the identifier alone is found from every hint. -/
theorem State.choosesSlot_of_only {s : State} {n : Nat} {id : List Byte} (hn : n < s.cfg.kbSlotCount)
    (hhas : s.slotHas n id) (honly : ∀ j, j < s.cfg.kbSlotCount → s.slotHas j id → j = n) (hint : Nat) :
    s.choosesSlot hint id (some n) := by
  refine ⟨hn, ?_⟩
  by_cases hhint : n = hint
  · exact .inl ⟨hhint, hhint ▸ hhas⟩
  · exact .inr (.inl ⟨fun h => hhint (honly hint h.1 h.2).symm, hhas, fun i hi hi' =>
      hi.ne (honly i (hi.trans hn) hi')⟩)

/-- Where identifiers are unique, no slot but the chosen one carries an identifier other than sixteen 0xFF bytes (R230). -/
theorem State.choosesSlot_only {s : State} {hint n : Nat} {id : List Byte} (hunique : s.slotsUnique)
    (hid : ∃ k, k < 16 ∧ byteAt id k ≠ 0xFF) (h : s.choosesSlot hint id (some n)) {j : Nat}
    (hj : j < s.cfg.kbSlotCount) (hhas : s.slotHas j id) : j = n := by
  have hnotfree : ¬ s.slotFree j := fun hfree =>
    let ⟨k, hk, hne⟩ := hid
    hne ((hhas k hk).symm.trans (hfree k hk))
  obtain ⟨hn, ⟨rfl, hhasn⟩ | ⟨-, hhasn, -⟩ | ⟨hno, -, -⟩⟩ := h
  · exact (hunique j n id hj hn hhas hhasn).resolve_left hnotfree
  · exact (hunique j n id hj hn hhas hhasn).resolve_left hnotfree
  · exact absurd hhas (hno j hj)

/-! ### Storage after a keyed write (R233, R234) -/

/-- A slot ends before any later one begins (R227). -/
theorem slotAddr_add_le (c : Config) {i j : Nat} (h : i < j) : slotAddr c i + kbSlotBytes c ≤ slotAddr c j := by
  rw [slotAddr, slotAddr, Nat.add_assoc, ← Nat.succ_mul]
  exact Nat.add_le_add_left (Nat.mul_le_mul_right _ h) _

section written
variable {s w : State} {n : Nat} (hcfg : w.cfg = s.cfg) (hbytes : ∀ a, w.storByte a = s.slotImage n a)
include hcfg hbytes

theorem State.slotByte_written {k : Nat} (hk : k < kbSlotBytes s.cfg) :
    w.slotByte n k = s.memRead (s.cfg.stageBase + 4 + k) := by
  show w.storByte (slotAddr w.cfg n + k) = _
  rw [hcfg, hbytes, State.slotImage, if_pos ⟨Nat.le_add_right _ _, Nat.add_lt_add_left hk _⟩, Nat.add_sub_cancel_left]

/-- Slots do not overlap: a write to one keeps the others. -/
theorem State.slotByte_not_written {j k : Nat} (hj : j ≠ n) (hk : k < kbSlotBytes s.cfg) :
    w.slotByte j k = s.slotByte j k := by
  have hout : ¬ (slotAddr s.cfg n ≤ slotAddr s.cfg j + k ∧
      slotAddr s.cfg j + k < slotAddr s.cfg n + kbSlotBytes s.cfg) := by
    obtain hlt | hlt := Nat.lt_or_gt_of_ne hj
    · have := slotAddr_add_le s.cfg hlt
      omega
    · have := slotAddr_add_le s.cfg hlt
      omega
  show w.storByte (slotAddr w.cfg j + k) = _
  rw [hcfg, hbytes, State.slotImage, if_neg hout]
  rfl

theorem State.slotHas_written : w.slotHas n s.stagedId := fun k hk => by
  rw [State.slotByte_written hcfg hbytes (show k < 16 + s.cfg.kbPayloadBytes by omega), s.byteAt_stagedId hk]

theorem State.slotHas_not_written {j : Nat} (hj : j ≠ n) (id : List Byte) : w.slotHas j id ↔ s.slotHas j id :=
  forall₂_congr fun k hk => by
    rw [State.slotByte_not_written hcfg hbytes hj (show k < 16 + s.cfg.kbPayloadBytes by omega)]

/-- After a write the identifier written is found where it was written, whatever the hint. -/
theorem State.choosesSlot_written (hunique : s.slotsUnique) (hid : ∃ k, k < 16 ∧ byteAt s.stagedId k ≠ 0xFF)
    {hint : Nat} (hslot : s.choosesSlot hint s.stagedId (some n)) (hint' : Nat) :
    w.choosesSlot hint' s.stagedId (some n) := by
  refine State.choosesSlot_of_only (hcfg ▸ hslot.1) (State.slotHas_written hcfg hbytes) (fun j hj hhas => ?_) hint'
  by_contra hne
  exact hne (State.choosesSlot_only hunique hid hslot (hcfg ▸ hj)
    ((State.slotHas_not_written hcfg hbytes hne _).1 hhas))

end written

/-! ### A keyed write with any count of retries (R236) -/

/-- A last attempt ends with `VERIFY` or with the slot written. -/
theorem writeLoop_last (k : Collaborators) {s : State} (hs : s.strobes = []) (hf : FlashFacts s.cfg) (n : Nat) :
    ∃ v, writeLoop k s.cfg n (s.mergedPage n) 0 s = .ok () v ∧ v.strobes = [] ∧
      (v.flashError = .verify ∨ ∀ a, v.storByte a = s.slotImage n a) := by
  by_cases hmatch : (s.attempted n (s.mergedPage n)).storRead (pageBase s.cfg n) (erasePage s.cfg) = s.mergedPage n
  · have hbytes := s.slotImage_of_matches hf n
      (fun a ha => s.storByte_attempted_outside (s.mergedPage_length hf n) ha) hmatch
    have hloop := writeLoop_matched k hs 0 hmatch
    obtain ⟨m, hm⟩ := (s.attempted n (s.mergedPage n)).writeDone_eq n
    rw [hm] at hloop
    exact ⟨_, hloop, hs, .inr hbytes⟩
  · exact ⟨_, writeLoop_exhausted k hs hmatch, hs, .inl rfl⟩

/-- A keyed write ends with `VERIFY` or with the slot written; with more retries counted than `MAX_RETRIES` there is one
attempt. -/
theorem exec_flashKwrite_stores {s : State} {n : Nat} (hs : s.quiet) (hc : configValid s.cfg = true)
    (hr : s.flashReady) (hk : s.flashMode.keyed = true) (hread : s.flashMode.read = false)
    (hslot : s.choosesSlot s.stagedHint s.stagedId (some n)) :
    ∃ t, exec .flashKwrite s = .next t ∧ (t.flashError = .verify ∨ ∀ a, t.storByte a = s.slotImage n a) := by
  obtain hretry | hretry := Nat.le_or_ge s.flashRetry.toNat s.cfg.maxRetries
  · obtain ⟨t, hexec, -, -, -, -, ⟨-, -, hbytes⟩ | ⟨-, herror, -⟩⟩ := keyedWriteVerifies s n hs hc hr hk hread hretry hslot
    · exact ⟨t, hexec, .inr hbytes⟩
    · exact ⟨t, hexec, .inl herror⟩
  · obtain ⟨v, hloop, hquiet, hends⟩ := writeLoop_last Config.collab hs (flashFacts hc) n
    rw [← Nat.sub_eq_zero_of_le hretry] at hloop
    have hbody := ((keyedBody_quiet Config.collab hs hslot (keyedWriteTo Config.collab s.cfg _)).trans
      (keyedWriteTo_quiet Config.collab hs n)).trans hloop
    exact ⟨_, exec_flashKwrite_ready hs hr hk hread hbody hquiet, hends⟩

/-- A keyed write without an error found a slot and stored the block there. -/
theorem slotImage_of_flashKwrite {s t : State} (hs : s.quiet) (hc : configValid s.cfg = true) (hr : s.flashReady)
    (hk : s.flashMode.keyed = true) (hread : s.flashMode.read = false) (hexec : exec .flashKwrite s = .next t)
    (herror : t.flashError = .none) :
    ∃ n, s.choosesSlot s.stagedHint s.stagedId (some n) ∧ ∀ a, t.storByte a = s.slotImage n a := by
  have hslot := findSlot s s.stagedHint s.stagedId s.stagedId_length
  cases hfound : s.findSlot s.stagedHint s.stagedId with
  | none =>
    obtain ⟨t', hfull, heq, -⟩ := keyedFull s .flashKwrite hs hc hr hk (.inr ⟨rfl, hread⟩) (hfound ▸ hslot)
    obtain rfl := Host.Outcome.next.inj (hexec.symm.trans hfull)
    have hcode : t.flashError = .full := by rw [heq]
    exact absurd (herror.symm.trans hcode) (by decide)
  | some n =>
    rw [hfound] at hslot
    obtain ⟨t', hends, hverify | hbytes⟩ := exec_flashKwrite_stores hs hc hr hk hread hslot
    all_goals obtain rfl := Host.Outcome.next.inj (hexec.symm.trans hends)
    · exact absurd (herror.symm.trans hverify) (by decide)
    · exact ⟨n, hslot, hbytes⟩

/-! ### The round trip (R237) -/

/-- Settles O50: the read finds the slot that the write chose, where the staged payload is stored. -/
theorem keyedRoundTrip : Obligations.KeyedRoundTrip := by
  intro s t u hs hc hr hk hread hunique hid _ hwrite herror hu hcfg hstorage hur huk huread hstaged
  obtain ⟨n, hslot, hbytes⟩ := slotImage_of_flashKwrite hs hc hr hk hread hwrite herror
  have hubytes : ∀ a, u.storByte a = s.slotImage n a := fun a => by
    rw [← hbytes, State.storByte, hstorage, State.storByte]
  have hstagedId : u.stagedId = s.stagedId := List.map_congr_left fun k hk => by
    rw [hcfg, hstaged k (List.mem_range.1 hk)]
  have hid' : ∃ k, k < 16 ∧ byteAt s.stagedId k ≠ 0xFF :=
    hid.imp fun k ⟨hk, hne⟩ => ⟨hk, by rwa [s.byteAt_stagedId hk]⟩
  have huslot := State.choosesSlot_written hcfg hubytes hunique hid' hslot u.stagedHint
  rw [← hstagedId] at huslot
  obtain ⟨v, hexec, hv, -, hmem⟩ := keyedRead u n hu (hcfg ▸ hc) hur huk huread huslot
  refine ⟨v, hexec, by rw [hv], by rw [hv], fun k hk => ?_⟩
  have hfit := (flashFacts hc).stage_fits
  rw [hcfg] at hmem
  rw [hmem _ (by omega), if_neg (by omega), if_pos (by omega), Nat.add_sub_cancel_left,
    State.slotByte_written hcfg hubytes (show 16 + k < 16 + s.cfg.kbPayloadBytes by omega), ← Nat.add_assoc]

end Sys2Proof.Machine

/-! PROOFS. The status flags (spec/60_exceptions.md R254, spec/70_reset_and_hazards.md R302): with nothing interleaved,
no action but a status read or a reset clears a flag of status register 0. -/

namespace Sys2Proof.Machine

/-! ### Flags that are kept -/

/-- What the configuration must give for the flags `f` of status register 0 to be kept: the other status fields lie
elsewhere (R25, R26), and no register write resets. -/
structure ConfigKeepsFlags (c : Config) (f : Byte) : Prop where
  facts : ConfigFacts c
  noReset : c.resetCmd = none
  index_disjoint : c.stIdx &&& f = 0

/-- Nothing interleaved, and the flags `f` are set. -/
def State.holdsFlags (f : Byte) (s : State) : Prop := s.quiet ∧ ConfigKeepsFlags s.cfg f ∧ s.st 0 &&& f = f

/-- The three flags of status register 0 (R25). -/
def statusFlags (c : Config) : Byte := c.stInt ||| c.st5S ||| c.stCol

/-- The sprite index lies beside the flags (R25). -/
theorem stIdx_and_statusFlags {c : Config} (hc : configValid c = true) : c.stIdx &&& statusFlags c = 0 := by
  have hmasks : statusMasksValid c = true := by
    simp only [configValid, Bool.and_eq_true] at hc
    obtain ⟨⟨⟨⟨⟨⟨⟨_, hmasks⟩, _⟩, _⟩, _⟩, _⟩, _⟩, _⟩ := hc
    exact hmasks
  simp only [statusMasksValid, Bool.and_eq_true, beq_iff_eq] at hmasks
  obtain ⟨⟨⟨⟨⟨⟨⟨_, _⟩, hint⟩, _⟩, h5S⟩, hcol⟩, _⟩, _⟩ := hmasks
  rw [BitVec.and_comm, statusFlags, and_or_of_disjoint hcol, and_or_of_disjoint h5S, hint]

theorem and_and_self_left (v m : Byte) : v &&& (v &&& m) = v &&& m := by rw [← BitVec.and_assoc, BitVec.and_self]

/-- Flags that a byte has are none that it lacks. -/
theorem and_not_eq_zero_of_and_eq {v f : Byte} (h : v &&& f = f) : f &&& ~~~v = 0 := by
  rw [← h, BitVec.and_comm v, BitVec.and_assoc, BitVec.and_not_self]
  exact BitVec.and_zero

/-- Bits set leave the flags. -/
theorem or_and_eq_of_and_eq {v f : Byte} (h : v &&& f = f) (m : Byte) : (v ||| m) &&& f = f := by
  apply BitVec.eq_of_getLsbD_eq
  intro i _
  have hi := congrArg (BitVec.getLsbD · i) h
  simp only [BitVec.getLsbD_and, BitVec.getLsbD_or] at hi ⊢
  cases hv : v.getLsbD i with
  | true => exact Bool.true_and _
  | false => rw [← hi, hv, Bool.false_and, Bool.and_false]

/-- Sprite flags clear nothing but the index (R176). -/
theorem mergeSprites_keepsFlags {c : Config} {f v : Byte} (hidx : c.stIdx &&& f = 0) (h : v &&& f = f)
    (sprites : SpriteFlags) : mergeSprites c sprites v &&& f = f := by
  have hflagged := or_and_eq_of_and_eq h (sprites.orMask &&& (c.st5S ||| c.stCol))
  unfold mergeSprites
  cases sprites.idxOpt with
  | none => exact hflagged
  | some i => exact or_and_eq_of_and_eq ((and_not_of_disjoint hidx).trans hflagged) _

section actions
variable {f : Byte} {s : State}

/-- A status write elsewhere leaves the flags. -/
theorem State.holdsFlags.setSt_of_ne (h : s.holdsFlags f) {i : StatusIndex} (hi : i ≠ 0) (v : Byte) :
    (s.setSt i v).holdsFlags f := by
  obtain ⟨hq, hc, hflags⟩ := h
  have hst : (s.setSt i v).st 0 = s.st 0 := by rw [State.st_setSt, if_neg hi.symm]
  exact ⟨hq, hc, hst ▸ hflags⟩

/-- A write of status register 0 that leaves the flags. -/
theorem State.holdsFlags.setSt_zero (h : s.holdsFlags f) {v : Byte} (hv : v &&& f = f) :
    (s.setSt 0 v).holdsFlags f := by
  obtain ⟨hq, hc, -⟩ := h
  exact ⟨hq, hc, by rwa [State.st_setSt_self]⟩

theorem State.holdsFlags.packFlash (h : s.holdsFlags f) : s.packFlash.holdsFlags f :=
  h.setSt_of_ne h.2.1.facts.flash_ne_zero _

theorem State.holdsFlags.coprocTriggerOp (h : s.holdsFlags f) : s.coprocTriggerOp.holdsFlags f :=
  State.holdsFlags.setSt_of_ne (s := { s with coprocessorRequested := true }) h h.2.1.facts.busy_ne_zero _

theorem State.holdsFlags.flashTriggerOp (h : s.holdsFlags f) (a : Byte) : (s.flashTriggerOp a).holdsFlags f := by
  obtain ⟨hq, hc, hflags⟩ := h
  have hst := s.st_flashTriggerOp_of_ne a hc.facts.busy_ne_zero.symm hc.facts.flash_ne_zero.symm
  refine ⟨?_, ?_, hst ▸ hflags⟩
  all_goals rw [State.flashTriggerOp_frame]
  · exact hq
  · exact hc

theorem State.holdsFlags.flashReturn (h : s.holdsFlags f) : s.flashReturn.holdsFlags f :=
  have hpack := State.holdsFlags.packFlash (s := { s with flashRunning := false }) h
  hpack.setSt_of_ne (i := s.cfg.srBusy) h.2.1.facts.busy_ne_zero _

theorem State.holdsFlags.updateLineStatus (h : s.holdsFlags f) (y : Nat) (r : Region) :
    (s.updateLineStatus y r).holdsFlags f :=
  (h.setSt_of_ne h.2.1.facts.scanline_ne_zero _).setSt_of_ne (i := s.cfg.srBlank) h.2.1.facts.blank_ne_zero _

/-- A register pair reaches no status register but `SR_BUSY` and `SR_FLASH` (R142). -/
theorem State.holdsFlags.registerPair (h : s.holdsFlags f) (i : RegIndex) (v : Byte) :
    (s.registerPair i v).holdsFlags f := by
  obtain ⟨hq, hc, hflags⟩ := h
  have hpair : s.registerPair i v = ((s.pairTaken v).regEffects i v).rearmAll :=
    congrArg State.rearmAll (State.regWrite_frame (s.pairTaken v) i v (isResetWrite_of_none hc.noReset _ _))
  have hst : ((s.pairTaken v).regEffects i v).st 0 = s.st 0 :=
    State.st_regEffects_of_ne (s.pairTaken v) i v hc.facts.busy_ne_zero.symm hc.facts.flash_ne_zero.symm
  rw [hpair]
  refine ⟨?_, ?_, hst ▸ hflags⟩
  all_goals rw [State.regEffects_eq]
  · exact hq
  · exact hc

/-- A second byte is a register pair or sets the address (R129). -/
theorem State.holdsFlags.waSecondCycle (h : s.holdsFlags f) (b : Byte) : (s.waSecondCycle b).holdsFlags f := by
  cases hb : b.getLsbD 7 with
  | true =>
    rw [State.waSecondCycle_registerPair s b hb]
    exact h.registerPair _ _
  | false =>
    rw [State.waSecondCycle_address s b hb]
    exact h

end actions

/-! ### The actions of the three engines -/

theorem keptByLine_holdsFlags (f : Byte) : KeptByLine (State.holdsFlags f) where
  setPipe _ _ h := h
  clearPaletteDirty _ h := h
  setPalette _ _ _ _ h := h
  draw _ h := h
  mergeSpriteFlags _ sprites h := h.setSt_zero (mergeSprites_keepsFlags h.2.1.index_disjoint h.2.2 sprites)
  handOff _ _ _ h := h
  updateLineStatus _ y r h := h.updateLineStatus y r
  raiseEndOfFrame s h := h.setSt_zero (or_and_eq_of_and_eq h.2.2 s.cfg.stInt)
  sampleTemperature _ h := h.setSt_of_ne h.2.1.facts.temp_ne_zero _
  frameTrigger _ h := h.coprocTriggerOp
  clearConfigDirty _ h := h
  configSave _ h := h
  nextLine _ _ h := h

theorem keptBySandbox_holdsFlags (f : Byte) : KeptBySandbox (State.holdsFlags f) where
  withScript _ _ h := h
  memWrite _ _ _ h := h
  protDisable _ h := h
  setCoprocPc _ _ h := h
  coprocFinish _ h _ := h.setSt_of_ne h.2.1.facts.busy_ne_zero _
  beginRun _ h _ := h

theorem keptByFlashWrite_holdsFlags (f : Byte) : KeptByFlashWrite (State.holdsFlags f) where
  memWrite _ _ _ h := h
  flashTrigger _ a h := h.flashTriggerOp a
  setFlashPhase s p h := State.holdsFlags.packFlash (s := { s with flashPhase := p }) h
  setFlashRetry s n h := State.holdsFlags.packFlash (s := { s with flashRetry := n }) h
  raiseFlashError s e h := State.holdsFlags.packFlash (s := { s with flashError := e }) h
  flashReturn _ h := h.flashReturn
  storErase _ _ _ h := h
  storProgram _ _ _ _ h := h
  storTorn _ _ _ _ h := h
  openSession _ _ h := h
  noteBlock _ _ h := h
  closeSession _ h := h

/-! ### Runs of cycles without a status read -/

/-- The cycle word is not `RS`, whatever is pending. -/
def notStatusRead (w : BitVec 10) : Prop := ∀ stage, decodeCycle stage w ≠ .rs

theorem notStatusRead_wdWord (b : Byte) : notStatusRead (wdWord b) := fun stage => by
  rw [decodeCycle_wdWord]
  exact Instr.noConfusion

theorem notStatusRead_waWord (b : Byte) : notStatusRead (waWord b) := fun stage => by
  rw [decodeCycle_waWord]
  split
  · exact Instr.noConfusion
  · exact Instr.noConfusion

theorem notStatusRead_rdWord : notStatusRead rdWord := fun stage => by
  rw [decodeCycle_rdWord]
  exact Instr.noConfusion

/-- The two cycles of a pair. -/
theorem notStatusRead_pair (a b : Byte) : ∀ w ∈ [waWord a, waWord b], notStatusRead w :=
  List.forall_mem_cons.2 ⟨notStatusRead_waWord a, List.forall_mem_singleton.2 (notStatusRead_waWord b)⟩

theorem notStatusRead_unlockWords (c : Config) : ∀ w ∈ unlockWords c, notStatusRead w := by
  intro w hw
  obtain ⟨round, hround, hw⟩ := List.mem_flatten.1 hw
  obtain rfl := List.eq_of_mem_replicate hround
  exact notStatusRead_pair _ _ w hw

theorem notStatusRead_fillWords (a : BitVec 14) (bytes : List Byte) : ∀ w ∈ fillWords a bytes, notStatusRead w :=
  List.forall_mem_append.2 ⟨notStatusRead_pair _ _, List.forall_mem_map.2 fun b _ => notStatusRead_wdWord b⟩

theorem notStatusRead_dumpWords (a : BitVec 14) (n : Nat) : ∀ w ∈ dumpWords a n, notStatusRead w :=
  List.forall_mem_append.2
    ⟨notStatusRead_pair _ _, fun _ hw => List.eq_of_mem_replicate hw ▸ notStatusRead_rdWord⟩

theorem State.holdsFlags.busCycle {f : Byte} {s : State} (h : s.holdsFlags f) {w : BitVec 10} (hw : notStatusRead w) :
    (s.busCycle w).holdsFlags f := by
  unfold State.busCycle
  split
  · exact h
  · exact h
  · exact h.waSecondCycle _
  · exact h
  · next hrs => exact absurd hrs (hw s.writeStage)
  · exact h

theorem State.holdsFlags.busCycles {f : Byte} {ws : List (BitVec 10)} (hws : ∀ w ∈ ws, notStatusRead w) {s : State}
    (h : s.holdsFlags f) : (s.busCycles ws).holdsFlags f := by
  induction ws generalizing s with
  | nil => exact h
  | cons w ws ih =>
    obtain ⟨hw, hws⟩ := List.forall_mem_cons.1 hws
    exact ih hws (h.busCycle hw)

/-! ### The operations -/

/-- With nothing interleaved, every operation but `RS` and `RESET` keeps the flags. -/
theorem exec_holdsFlags {f : Byte} {i : Instr} {s : State} (hrs : i ≠ .rs) (hreset : i ≠ .reset)
    (h : s.holdsFlags f) : ∃ t, exec i s = .next t ∧ t.holdsFlags f := by
  have hpoint : Keeps (State.holdsFlags f) linePoint := Keeps.ofQuiet linePoint_quiet fun _ hu => hu.1
  have hwork : Keeps (State.holdsFlags f) (workPoint Config.collab) :=
    Keeps.ofQuiet (workPoint_quiet Config.collab) fun _ hu => hu.1
  have hline := keptByLine_holdsFlags f
  have hsandbox := keptBySandbox_holdsFlags f
  have hflash := keptByFlashWrite_holdsFlags f
  cases i with
  | wd b => exact ⟨_, rfl, h⟩
  | waFirst b => exact ⟨_, rfl, h⟩
  | waSecond b => exact ⟨_, rfl, h.waSecondCycle b⟩
  | rd => exact ⟨_, rfl, h⟩
  | rs => exact absurd rfl hrs
  | setaddrR a => exact ⟨_, rfl, h⟩
  | setaddrW a => exact ⟨_, rfl, h⟩
  | regwrite i v => exact ⟨_, rfl, h.registerPair i v⟩
  | flashTrigger v => exact ⟨_, rfl, h.flashTriggerOp v⟩
  | flashFw => exact ⟨_, rfl, Keeps.onlyIf (fun _ => hflash.fw hwork) s h⟩
  | flashKread => exact ⟨_, rfl, Keeps.onlyIf (fun _ => hflash.toKeptByFlash.kread hwork) s h⟩
  | flashKwrite => exact ⟨_, rfl, Keeps.onlyIf (fun _ => hflash.kwrite hwork) s h⟩
  | coprocTrigger => exact ⟨_, rfl, h.coprocTriggerOp⟩
  | reset => exact absurd rfl hreset
  | line => exact ⟨_, rfl, hline.lineBody hpoint Config.collab s h⟩
  | frameEnd => exact ⟨_, rfl, hline.frameEndBody hpoint s h⟩
  | coprocRun => exact ⟨_, rfl, hsandbox.coprocRun hwork h⟩
  | bulkXfer => exact ⟨_, rfl, Keeps.bulkTransfer hwork hsandbox.memWrite s h⟩
  | paletteRebuild => exact ⟨_, rfl, hline.paletteRebuildBody hpoint Config.collab s h⟩
  | protFault => exact ⟨_, rfl, Keeps.onlyIf (fun _ => hsandbox.onFaulted hwork) s h⟩
  | setreg r v => exact ⟨_, rfl, h.busCycles (notStatusRead_pair _ _)⟩
  | setraddr a => exact ⟨_, rfl, h.busCycles (notStatusRead_pair _ _)⟩
  | setwaddr a => exact ⟨_, rfl, h.busCycles (notStatusRead_pair _ _)⟩
  | selstatus v => exact ⟨_, rfl, h.busCycles (notStatusRead_pair _ _)⟩
  | unlock => exact ⟨_, rfl, h.busCycles (notStatusRead_unlockWords s.cfg)⟩
  | fill a bytes => exact ⟨_, rfl, h.busCycles (notStatusRead_fillWords a bytes)⟩
  | dump a n => exact ⟨_, rfl, h.busCycles (notStatusRead_dumpWords a n)⟩

/-- `RS` loses a flag of status register 0 only where that register is selected (R124, R125). -/
theorem State.statusSel_of_rsCycle_clears {s : State} {m : Byte} (h : s.st 0 &&& m &&& ~~~s.rsCycle.st 0 ≠ 0) :
    s.statusSel = 0 := by
  by_contra hsel
  have hkept : s.rsCycle.st 0 = s.st 0 := (s.st_rsCycle 0).trans (if_neg (Ne.symm hsel))
  rw [hkept] at h
  exact h (and_not_eq_zero_of_and_eq (and_and_self_left (s.st 0) m))

/-- Settles O60: every other operation keeps the flags that were set, and `RS` returns the selected byte. -/
theorem noLostStatusFlags : Obligations.NoLostStatusFlags := by
  intro i s t hquiet hvalid hcmd hlatch hreset hexec hlost
  by_cases hrs : i = .rs
  · subst hrs
    obtain rfl : s.rsCycle = t := Host.Outcome.next.inj hexec
    have hbyte : s.raStatus = s.st 0 := hlatch.trans (congrArg s.st (State.statusSel_of_rsCycle_clears hlost))
    exact ⟨rfl, congrArg (s.hostReads ++ [·]) hbyte⟩
  · have hconfig : ConfigKeepsFlags s.cfg (s.st 0 &&& statusFlags s.cfg) := {
      facts := configFacts hvalid
      noReset := hcmd
      index_disjoint := by
        rw [BitVec.and_comm]
        exact and_and_of_disjoint (and_eq_zero_comm (stIdx_and_statusFlags hvalid)) }
    have hset := and_and_self_left (s.st 0) (statusFlags s.cfg)
    obtain ⟨u, hu, -, -, hkept⟩ := exec_holdsFlags hrs hreset ⟨hquiet, hconfig, hset⟩
    obtain rfl : u = t := Host.Outcome.next.inj (hu.symm.trans hexec)
    exact absurd (and_not_eq_zero_of_and_eq hkept) hlost

end Sys2Proof.Machine

/-! PROOFS. Reset (spec/70_reset_and_hazards.md R280 to R284): the state it leaves, field by field, with what a persisted
page writes over the zeroed arrays; and background work that it abandons before the first atomic action. -/

namespace Sys2Proof.Machine

/-! ### The last of a list of writes (R284) -/

theorem lastWrite_append_singleton {α : Type} (hits : α → Bool) (writes : List (α × Byte)) (e : α × Byte) :
    lastWrite hits (writes ++ [e]) = if hits e.1 = true then e.2 else lastWrite hits writes := by
  rw [lastWrite, List.reverse_append, List.reverse_singleton, List.singleton_append, List.find?_cons]
  cases hits e.1 with
  | true => rfl
  | false => rfl

/-- A place that reads 0 reads, after a list of stores, as the last store that hits it. -/
theorem foldl_read_eq_lastWrite {α : Type} (store : State → α → Byte → State) (read : State → Byte) (hits : α → Bool)
    {c : Config} (hcfg : ∀ u a v, (store u a v).cfg = u.cfg)
    (hread : ∀ u a v, u.cfg = c → read (store u a v) = if hits a = true then v else read u)
    (writes : List (α × Byte)) {s : State} (hc : s.cfg = c) (hzero : read s = 0x00) :
    read (writes.foldl (fun u e => store u e.1 e.2) s) = lastWrite hits writes := by
  induction writes using List.reverseRecOn with
  | nil => exact hzero
  | append_singleton writes e ih =>
    have hfold : (writes.foldl (fun u e => store u e.1 e.2) s).cfg = c :=
      List.foldlRecOn (motive := fun u : State => u.cfg = c) _ _ hc fun u hu e _ => (hcfg u e.1 e.2).trans hu
    rw [List.foldl_append, List.foldl_cons, List.foldl_nil, hread _ _ _ hfold, ih, lastWrite_append_singleton]

/-! ### The persisted page (R284) -/

section page
variable {s : State} {page : ConfigPage} (hpage : s.configPage = some page)
include hpage

/-- The page's memory writes leave the registers to its register writes. -/
theorem State.configApply_x {i : RegIndex} (hzero : s.x i = 0x00) :
    s.configApply.x i = lastWrite (· == i) page.regWrites := by
  have hregs := foldl_read_eq_lastWrite State.setX (State.x · i) (· == i) (fun _ _ _ => rfl)
    (fun u j v _ => by simp only [State.x_setX, beq_iff_eq, eq_comm (a := i)]) page.regWrites (s := s) rfl hzero
  rw [State.configApply_some hpage]
  exact List.foldlRecOn (motive := fun u : State => u.x i = lastWrite (· == i) page.regWrites) _ _ hregs
    fun _ hu _ _ => hu

/-- The page's register writes leave video memory to its memory writes. -/
theorem State.configApply_memRead {a : Nat} (hzero : s.memRead a = 0x00) :
    s.configApply.memRead a = lastWrite (fun b => b % vramSize s.cfg == a % vramSize s.cfg) page.vramWrites := by
  obtain ⟨hc, hregs⟩ := List.foldlRecOn (motive := fun u : State => u.cfg = s.cfg ∧ u.memRead a = 0x00) page.regWrites
    (fun u e => u.setX e.1 e.2) ⟨rfl, hzero⟩ fun _ hu _ _ => hu
  rw [State.configApply_some hpage]
  refine foldl_read_eq_lastWrite State.memWrite (State.memRead · a) _ (fun _ _ _ => rfl) (fun u b v hu => ?_)
    page.vramWrites hc hregs
  simp only [State.memRead_memWrite, hu, beq_iff_eq, eq_comm (a := a % vramSize s.cfg)]

end page

/-! ### The state after reset (R48, R280) -/

theorem State.resetFields_x (s : State) (i : RegIndex) : s.resetFields.x i = 0x00 := Vector.getElem_replicate i.isLt

theorem State.resetFields_memRead (s : State) (a : Nat) : s.resetFields.memRead a = 0x00 := rfl

theorem State.resetOp_x (s : State) (i : RegIndex) : s.resetOp.x i = s.resetFields.configApply.x i := rfl

theorem State.resetOp_memRead (s : State) (a : Nat) : s.resetOp.memRead a = s.resetFields.configApply.memRead a := rfl

/-- Nothing is pending, so the interrupt line is low. -/
theorem State.resetOp_interruptLine (s : State) : s.resetOp.interruptLine = false := by
  have hpending : s.resetOp.st 0 &&& s.resetOp.cfg.stInt = 0 := by
    rw [State.resetOp_st]
    exact BitVec.zero_and
  obtain ⟨hline, -, -⟩ := s.resetOp_agrees
  rw [hline, interruptLevel, hpending, bne_self_eq_false, Bool.false_and]

theorem State.resetOp_raStatus (s : State) : s.resetOp.raStatus = 0x00 := by
  obtain ⟨-, hlatch, -⟩ := s.resetOp_agrees
  exact hlatch.trans (s.resetOp_st _)

/-- Every field after reset; those that a page, a free value or the state before decides stand under their own names. -/
theorem State.resetOp_fields (s : State) : s.resetOp = { State.resetWith s.cfg with
    regs := s.resetOp.regs
    vram := s.resetOp.vram
    raData := s.resetOp.memRead 0
    lineBuf := s.resetOp.lineBuf
    paletteLUT := s.resetOp.paletteLUT
    storage := s.storage
    videoOut := s.videoOut
    hostReads := s.hostReads
    configPage := s.configPage
    inputs := s.inputs
    strobes := s.strobes
    coprocScript := s.coprocScript
    draws := s.resetOp.draws } := by
  have hlatches : s.resetOp = { s.resetOp with interruptLine := false, raStatus := 0x00 } := by
    rw [← s.resetOp_interruptLine, ← s.resetOp_raStatus]
  obtain ⟨r, m, -, hreset⟩ := s.resetOp_eq
  rw [hlatches, hreset]
  rfl

/-! ### Work abandoned before its first atomic action (R281, R282, R297) -/

/-- Where the reset signal is the next thing to fall, `x` does no more than take it. -/
def AbandonedByReset {α : Type} (x : Bg α) : Prop :=
  ∀ (s : State) (rest : List Strobe), s.strobes = .reset :: rest → x s = .error .signal (s.withStrobes rest).resetOp

theorem abandonedByReset_linePoint : AbandonedByReset linePoint := by
  intro s rest hs
  rw [linePoint, bg_bind_ok (bg_get s), hs]
  rfl

theorem abandonedByReset_workPoint (k : Collaborators) : AbandonedByReset (workPoint k) := by
  intro s rest hs
  cases s
  cases hs
  rfl

/-- What `f` writes, a reset overwrites. -/
def ForgottenByReset (f : State → State) : Prop :=
  ∀ s : State, (f s).strobes = s.strobes ∧ ∀ rest, ((f s).withStrobes rest).resetOp = (s.withStrobes rest).resetOp

theorem forgottenByReset_setPipe (p : PipeState) : ForgottenByReset fun s => s.setPipe p := fun _ => ⟨rfl, fun _ => rfl⟩

theorem forgottenByReset_takeProtectionFault : ForgottenByReset State.takeProtectionFault := fun _ => ⟨rfl, fun _ => rfl⟩

theorem forgottenByReset_beginRun : ForgottenByReset State.beginRun := fun _ => ⟨rfl, fun _ => rfl⟩

section combinators
variable {α β : Type} {x : Bg α}

theorem AbandonedByReset.bind (hx : AbandonedByReset x) (f : α → Bg β) : AbandonedByReset (x >>= f) :=
  fun s rest hs => bg_bind_error (hx s rest hs)

theorem AbandonedByReset.after_get {f : State → Bg α} (hf : ∀ s, AbandonedByReset (f s)) :
    AbandonedByReset ((get : Bg State) >>= f) :=
  fun s rest hs => (bg_bind_ok (bg_get s)).trans (hf s s rest hs)

theorem AbandonedByReset.after_modify (hx : AbandonedByReset x) {f : State → State} (hf : ForgottenByReset f) :
    AbandonedByReset ((modify f : Bg Unit) >>= fun _ => x) := by
  intro s rest hs
  obtain ⟨hstrobes, hreset⟩ := hf s
  rw [bg_bind_ok (bg_modify f s), hx _ rest (hstrobes.trans hs), hreset]

theorem AbandonedByReset.exec {x : Bg Unit} (hx : AbandonedByReset x) {s : State} {rest : List Strobe}
    (hs : s.strobes = .reset :: rest) : runBg x s = .next (s.withStrobes rest).resetOp :=
  runBg_error (hx s rest hs)

variable {point : Bg Unit} (hp : AbandonedByReset point)
include hp

theorem AbandonedByReset.guarded (f : State → State) : AbandonedByReset (guarded point f) := hp.bind _

theorem AbandonedByReset.look (f : State → α) : AbandonedByReset (look point f) := hp.bind _

theorem AbandonedByReset.bgReadRange (a : Nat) {n : Nat} (hn : 0 < n) : AbandonedByReset (bgReadRange point a n) := by
  obtain ⟨n, rfl⟩ := Nat.exists_eq_succ_of_ne_zero hn.ne'
  rw [Machine.bgReadRange, List.range_succ_eq_map, collect]
  exact (hp.look _).bind _

end combinators

/-! ### The pipeline -/

theorem abandonedByReset_paletteRebuildBody (k : Collaborators) : AbandonedByReset (paletteRebuildBody k) :=
  (abandonedByReset_linePoint.guarded _).bind _

theorem abandonedByReset_paletteCheck (k : Collaborators) : AbandonedByReset (paletteCheck k) :=
  (abandonedByReset_linePoint.look _).bind _

theorem abandonedByReset_frameEndBody : AbandonedByReset frameEndBody := (abandonedByReset_linePoint.guarded _).bind _

theorem abandonedByReset_scanRead : ∀ target : ReadTarget, AbandonedByReset (scanRead target)
  | .register _ => abandonedByReset_linePoint.look _
  | .vram _ => abandonedByReset_linePoint.look _

/-- The generator reads at least once, or the row begins with the look at the palette flag. -/
theorem abandonedByReset_displayRow (k : Collaborators) (y : Nat) : AbandonedByReset (displayRow k y) := by
  refine .after_get fun u => ?_
  dsimp only
  cases k.scanReads (y - activeFirst u.cfg) with
  | zero =>
    rw [scanAnswers, pure_bind]
    exact (abandonedByReset_paletteCheck k).bind _
  | succ n => exact ((abandonedByReset_scanRead _).bind _).bind _

theorem abandonedByReset_lineRow (k : Collaborators) (y : Nat) (region : Region) :
    AbandonedByReset (lineRow k y region) := by
  unfold lineRow
  split
  · exact abandonedByReset_displayRow k y
  · exact (abandonedByReset_paletteCheck k).bind _

/-- A line of `SYNC` meets its first point at the status update, any other in its row. -/
theorem abandonedByReset_lineAt (k : Collaborators) (c : Config) (y : Nat) : AbandonedByReset (lineAt k c y) := by
  unfold lineAt linePixelWork
  split
  · exact ((abandonedByReset_linePoint.guarded _).bind _).after_modify (forgottenByReset_setPipe .idle)
  · exact (((abandonedByReset_lineRow k y _).bind _).after_modify (forgottenByReset_setPipe .active)).bind _

theorem abandonedByReset_lineBody (k : Collaborators) : AbandonedByReset (lineBody k) :=
  fun s rest hs => abandonedByReset_lineAt k s.cfg s.lineY s rest hs

/-! ### The sandbox -/

theorem abandonedByReset_bulkTransfer (k : Collaborators) : AbandonedByReset (bulkTransfer k) := by
  intro s rest hs
  have hread := (abandonedByReset_workPoint k).bgReadRange (sigField s.cfg s.cfg.sigLayout.src) Nat.two_pos
  exact ((hread.bind _).bind _) s rest hs

theorem abandonedByReset_bulkIfPending (k : Collaborators) : AbandonedByReset (bulkIfPending k) :=
  fun s rest hs => (((abandonedByReset_workPoint k).look _).bind _) s rest hs

theorem abandonedByReset_onFaulted (k : Collaborators) : AbandonedByReset (onFaulted k) :=
  (abandonedByReset_bulkIfPending k).after_modify forgottenByReset_takeProtectionFault

theorem abandonedByReset_interpret (k : Collaborators) {script : List CoprocAction} (hscript : script ≠ []) :
    AbandonedByReset (interpret k script) := by
  have hpoint := abandonedByReset_workPoint k
  cases script with
  | nil => exact absurd rfl hscript
  | cons action rest =>
    cases action with
    | read a => exact (hpoint.guarded _).bind _
    | write a v => exact (hpoint.guarded _).bind _
    | halted pc => exact (hpoint.guarded _).bind _
    | faulted => exact (hpoint.guarded _).bind _

/-- A run that begins and one that goes on are abandoned alike. -/
theorem coprocRunBody_abandoned (k : Collaborators) {s : State} {rest : List Strobe} (hs : s.strobes = .reset :: rest)
    (hscript : s.coprocScript ≠ []) : coprocRunBody k s = .error .signal (s.withStrobes rest).resetOp := by
  have hrun := (abandonedByReset_interpret k hscript).bind (onOutcome k)
  unfold coprocRunBody
  cases s.protActive with
  | false => exact hrun.after_modify forgottenByReset_beginRun s rest hs
  | true => exact hrun s rest hs

/-! ### The flash programmer -/

theorem abandonedByReset_flashService (k : Collaborators) (base : Nat) {n : Nat} (hn : 0 < n)
    (body : List Byte → Bg Unit) : AbandonedByReset (flashService k base n body) :=
  ((abandonedByReset_workPoint k).bgReadRange base hn).bind _

theorem abandonedByReset_fwServiceBody (k : Collaborators) : AbandonedByReset (fwServiceBody k) :=
  fun s rest hs => abandonedByReset_flashService k _ (Nat.succ_pos _) _ s rest hs

theorem abandonedByReset_kreadServiceBody (k : Collaborators) : AbandonedByReset (kreadServiceBody k) :=
  fun s rest hs => abandonedByReset_flashService k _ (Nat.add_pos_left (by decide) _) _ s rest hs

theorem abandonedByReset_kwriteServiceBody (k : Collaborators) : AbandonedByReset (kwriteServiceBody k) :=
  fun s rest hs => abandonedByReset_flashService k _ (Nat.add_pos_left (by decide) _) _ s rest hs

/-! ### The statements about reset -/

/-- Settles O51: the fields by `resetOp_fields`; the arrays are zero before `ConfigApply`, and hold the page's last writes
after it. -/
theorem resetState : Obligations.ResetState := by
  intro s
  refine ⟨s.resetOp, rfl, s.resetOp_fields, fun hnone => ?_, fun page hpage => ⟨fun i => ?_, fun a => ?_⟩⟩
  · have happly : s.resetFields.configApply = s.resetFields := State.configApply_none _ hnone
    simp only [State.resetOp_x, State.resetOp_memRead, happly, State.resetFields_x, State.resetFields_memRead,
      implies_true, and_self]
  · exact State.configApply_x (s := s.resetFields) hpage (s.resetFields_x i)
  · exact State.configApply_memRead (s := s.resetFields) hpage (s.resetFields_memRead a)

/-- Settles O54: each operation that runs comes to a point before any action that a reset would not overwrite. -/
theorem resetAbandonsWork : Obligations.ResetAbandonsWork := by
  intro s rest i hs hi
  refine ⟨(s.withStrobes rest).resetOp, ?_, rfl, (s.withStrobes rest).resetOp_keeps.1⟩
  obtain rfl | rfl | rfl | rfl | ⟨rfl, hprot⟩ | ⟨rfl, hrequest, hopen, hscript⟩ | ⟨rfl, hready, hkeyed⟩ |
    ⟨rfl, hready, hkeyed, hread⟩ | ⟨rfl, hready, hkeyed, hread⟩ := hi
  · exact (abandonedByReset_lineBody Config.collab).exec hs
  · exact abandonedByReset_frameEndBody.exec hs
  · exact (abandonedByReset_paletteRebuildBody Config.collab).exec hs
  · exact (abandonedByReset_bulkTransfer Config.collab).exec hs
  · show runBg (onlyIf s.protActive (onFaulted Config.collab)) s = _
    rw [hprot]
    exact (abandonedByReset_onFaulted Config.collab).exec hs
  · show runBg (onlyIf (coprocEnabled s) (coprocRunBody Config.collab)) s = _
    rw [coprocEnabled_eq_true hrequest hopen]
    exact runBg_error (coprocRunBody_abandoned Config.collab hs hscript)
  · show runBg (onlyIf (flashEnabled s && !s.flashMode.keyed) (fwServiceBody Config.collab)) s = _
    rw [flashEnabled_of_ready hready, hkeyed]
    exact (abandonedByReset_fwServiceBody Config.collab).exec hs
  · show runBg (onlyIf (flashEnabled s && s.flashMode.keyed && s.flashMode.read) (kreadServiceBody Config.collab)) s = _
    rw [flashEnabled_of_ready hready, hkeyed, hread]
    exact (abandonedByReset_kreadServiceBody Config.collab).exec hs
  · show runBg (onlyIf (flashEnabled s && s.flashMode.keyed && !s.flashMode.read) (kwriteServiceBody Config.collab)) s = _
    rw [flashEnabled_of_ready hready, hkeyed, hread]
    exact (abandonedByReset_kwriteServiceBody Config.collab).exec hs

end Sys2Proof.Machine
